-- ==== Sys2Proof/Word.lean ====
section
/-! DEFINITION. The word types of the Druene 4192: register numbers, scalar words, vector and mask registers. -/

namespace Sys2Proof

/-- A 64-bit scalar word (R112). -/
abbrev Word := BitVec 64

/-- A 32-bit instruction word (R46). -/
abbrev IWord := BitVec 32

/-- A byte of memory (R8). -/
abbrev Byte := BitVec 8

/-- A 5-bit register, mask or tile field of an instruction word (R46). -/
abbrev Reg := BitVec 5

/-- The contents of one vector register of `vmax` = 16,384 bits (R141). -/
abbrev VReg := BitVec 16384

/-- The contents of one mask register of `vmax`/8 = 2,048 bits (R141). -/
abbrev MReg := BitVec 2048

end Sys2Proof
end

