-- ==== Sys2Proof/Syntax.lean ====
section
/-! DEFINITION. The instructions: one constructor of Instr for each row of the opcode table, and the data that
their operands are made of. A row without an encoding (an event of the device) carries as operands what the
spec leaves to the outside: which core or strand, what the host writes, what a link delivers. -/

namespace Sys2Proof

/-- SCOPE codes 0 to 5 (R49). -/
inductive Scope where
  | strand | core | die | dev | fab | sys
  deriving DecidableEq, Repr

/-- ORD codes 0 to 3 (R49). -/
inductive Ordering where
  | rlx | acq | rel | acqRel
  deriving DecidableEq, Repr

/-- RM codes 0 to 5 (R49). -/
inductive Rounding where
  | rne | rz | rdn | rup | rna | rsd
  deriving DecidableEq, Repr

/-- Conditions of the control hart's branches (RISC-V base, R90). -/
inductive BranchOp where
  | eq | ne | lt | ge | ltu | geu
  deriving DecidableEq, Repr

/-- Register-register and register-immediate operations of the control hart on 64 bits: base, Zba, Zbb, M (R90). -/
inductive AluOp where
  | add | sub | sll | slt | sltu | xor | srl | sra | or | and
  | andn | orn | xnor | max | maxu | min | minu | rol | ror
  | sh1add | sh2add | sh3add | adduw | sh1adduw | sh2adduw | sh3adduw | slliuw
  | mul | mulh | mulhsu | mulhu | div | divu | rem | remu
  deriving DecidableEq, Repr

/-- The same on the low 32 bits, the result sign-extended (R90). -/
inductive AluWOp where
  | addw | subw | sllw | srlw | sraw | rolw | rorw | mulw | divw | divuw | remw | remuw
  deriving DecidableEq, Repr

/-- One-operand operations of Zbb (R90). -/
inductive UnaryOp where
  | clz | ctz | cpop | clzw | ctzw | cpopw | sextb | sexth | zexth | orcb | rev8
  deriving DecidableEq, Repr

/-- Read-modify-write operations of the A extension (R90). -/
inductive AmoOp where
  | swap | add | xor | and | or | min | max | minu | maxu
  deriving DecidableEq, Repr

/-- CSR operations of Zicsr (R90). -/
inductive CsrOp where
  | rw | rs | rc
  deriving DecidableEq, Repr

/-- The source of a CSR operation: a register or a 5-bit immediate. -/
inductive CsrSrc where
  | reg (rs1 : Reg)
  | imm (z : BitVec 5)
  deriving DecidableEq, Repr

/-- An instruction of the control hart's RISC-V subset (R90). A compressed instruction is the one it expands to.
`illegal` is every other word, of which the exception keeps the bits (R61). -/
inductive Rv where
  | lui (rd : Reg) (imm : BitVec 20)
  | auipc (rd : Reg) (imm : BitVec 20)
  | jal (rd : Reg) (imm : BitVec 21)
  | jalr (rd rs1 : Reg) (imm : BitVec 12)
  | branch (op : BranchOp) (rs1 rs2 : Reg) (imm : BitVec 13)
  | load (bytes : Nat) (unsigned : Bool) (rd rs1 : Reg) (imm : BitVec 12)
  | store (bytes : Nat) (rs1 rs2 : Reg) (imm : BitVec 12)
  | aluImm (op : AluOp) (rd rs1 : Reg) (imm : BitVec 12)
  | alu (op : AluOp) (rd rs1 rs2 : Reg)
  | aluWImm (op : AluWOp) (rd rs1 : Reg) (imm : BitVec 12)
  | aluW (op : AluWOp) (rd rs1 rs2 : Reg)
  | unary (op : UnaryOp) (rd rs1 : Reg)
  | fence
  | fenceI
  | ecall
  | ebreak
  | mret
  | wfi
  | csr (op : CsrOp) (rd : Reg) (csr : BitVec 12) (src : CsrSrc)
  | lr (double aq rl : Bool) (rd rs1 : Reg)
  | sc (double aq rl : Bool) (rd rs1 rs2 : Reg)
  | amo (op : AmoOp) (double aq rl : Bool) (rd rs1 rs2 : Reg)
  | illegal (w : IWord)
  deriving DecidableEq, Repr

/-- One addition of a reduce packet: an integer element of `bytes` bytes, or units of 2^-149 into a wide cell, where
none stands for the NaN code (R202). Bytes of a cell beyond the 4 KiB unit of its address lie from `next` on. -/
inductive ReduceAdd where
  | int (addr : Word) (bytes : Nat) (value : Nat)
  | cell (addr next : Word) (units : Option Int)
  deriving DecidableEq, Repr

/-- What a write of a job in deterministic mode carries as a release: the epoch count of its logical core just after its
last release of device scope or wider, and of die scope; 0 for none (R287, R295). -/
structure Release where
  wide   : Nat
  die    : Nat
  core   : Nat
  /-- The device of the core: 0 for this one. -/
  device : Nat := 0
  deriving DecidableEq, Repr

/-- A remote-reduce packet: the additions of one 4 KiB unit of the target, its sender (device 0 for the local one), its
order and the epoch it carries as a release (R202, R295, R348). -/
structure ReducePacket where
  adds    : List ReduceAdd
  page    : Word
  device  : Nat
  job     : BitVec 64
  core    : Nat
  strand  : Nat
  release : Bool
  sync    : Release
  deriving DecidableEq, Repr

/-- What one kernel of a resident package is, as far as the device uses it (R37, R44, R74). -/
structure KernelInfo where
  entry : Word
  det   : Bool
  deriving DecidableEq, Repr

/-- What the bytes of a package registered by PKG_ADD hold: its kernels in KIDX order, the initial bytes of the
scratchpad and the SDM, the `.discard` regions in plan order (offset, size) and the `.fmt` entries (R37, R38, R41). -/
structure PackageInfo where
  kernels  : List KernelInfo
  spad     : List (Nat × Byte)
  sdm      : List (Nat × Byte)
  discards : List (Nat × Nat)
  fmts     : List (Nat × BitVec 64)
  deriving DecidableEq, Repr

/-- A host access to device memory through CXL.mem; a read may meet an uncorrectable error (R337, R338). -/
inductive HostAccess where
  | read (addr bytes : Nat) (bad : Bool)
  | write (addr : Nat) (data : List Byte)
  deriving DecidableEq, Repr

/-- Who sent an access to another device: the device, the job, the logical core, and the agent of the core (a strand, or a
number above them for the control hart, the engine or a fetch). -/
structure Sender where
  device : Nat
  job    : BitVec 64
  core   : Nat
  agent  : Nat
  deriving DecidableEq, Repr

/-- What a non-posted request does at its target's home die cache: a load, or an atomic as R199 to R201 and the A extension
give it, on the addressed bytes (R339). -/
inductive RemoteOp where
  | load
  | amo (op : AmoOp) (value : Nat)
  /-- Compares the low `bits` bits. -/
  | cas (bits expected new : Nat)
  | cell (units : Option Int)
  /-- Load-reserved and store-conditional; the latter answers 1 where the reservation still stands and it stores, else 0. -/
  | lr
  | sc (value : Nat)
  deriving DecidableEq, Repr

/-- The key a deterministic job's store leaves on a byte: job, epoch and logical core, and the device of the job, 0 for this
one (R295). -/
structure Key where
  job    : BitVec 64
  epoch  : Nat
  core   : Nat
  device : Nat := 0
  deriving DecidableEq, Repr

/-- Credits of the three traffic classes (R297, R349). -/
structure Credits where
  posted    : Nat
  nonPosted : Nat
  reduce    : Nat
  deriving DecidableEq, Repr

/-- What a flit's payload asks for: nothing the model sees, a posted write and its acknowledgement, a non-posted request
and its response, or a reduce packet and its acknowledgement; `device` is the device that answers. Bytes beyond the 4 KiB
page of `addr` lie from `next` on. Writes and requests carry keys and releases, and a response the releases on its bytes, by
offset (R295). `part` is a flit of a load that needs several, all but the last (R297, R339, R349). -/
inductive FlitLoad where
  | idle
  | part (target device : Nat) (job : BitVec 64) (cls : Credits)
  | write (target : Nat) (source : Sender) (addr next : Nat) (data : List Byte) (key : Option Key) (sync : Release)
  | writeAck (target : Nat) (source : Sender) (device : Nat)
  | request (target : Nat) (source : Sender) (id addr next bytes : Nat) (op : RemoteOp) (sync : Release)
  | response (target : Nat) (source : Sender) (device id : Nat) (data : List Byte) (syncs : List (Nat × Release))
  | reduce (target : Nat) (pkt : ReducePacket)
  | reduceAck (target : Nat) (pkt : ReducePacket) (ok : Bool)
  deriving DecidableEq, Repr

/-- A 256-byte flit as the receiver sees it: its sequence number, whether its CRC holds, the sequence number it
acknowledges, whether it asks for a replay, the credits it returns, and its payload (R349). -/
structure Flit where
  seq     : BitVec 12
  crcOk   : Bool
  ack     : BitVec 12
  nak     : Bool
  credits : Credits
  load    : FlitLoad
  deriving DecidableEq, Repr

/-- Outcome of one step of a start for one unit, in its ALTERNATE way where the unit takes that: whether it passed, a
cause, for a core the classes, lane groups and number of 64 KiB scratchpad units that failed, and for a port the width
and the peer that training found (R350, R358, R359). -/
structure UnitTest where
  step      : Nat
  unit      : Nat
  ok        : Bool
  cause     : BitVec 16
  failClass : BitVec 64
  failLanes : BitVec 4
  failSpad  : Nat
  width     : Nat
  peer      : BitVec 6
  deriving DecidableEq, Repr

/-- One in-field test: reduced voltage or nominal, whether the first run mismatched, and the three reruns (R360). -/
structure FieldTest where
  reduced  : Bool
  mismatch : Bool
  rerun0   : Bool
  rerun1   : Bool
  rerun2   : Bool
  deriving DecidableEq, Repr

/-- The instructions and events of the opcode table, in its order. -/
inductive Instr where
  /-- Writes the 64-bit wrapped sum of x[a] and x[b] into x[d] (R113). -/
  | add (d a b : Reg)
  /-- Writes the 64-bit wrapped difference x[a] minus x[b] into x[d] (R113). -/
  | sub (d a b : Reg)
  /-- Writes the bitwise AND of x[a] and x[b] into x[d] (R113). -/
  | and (d a b : Reg)
  /-- Writes the bitwise OR of x[a] and x[b] into x[d] (R113). -/
  | or (d a b : Reg)
  /-- Writes the bitwise XOR of x[a] and x[b] into x[d] (R113). -/
  | xor (d a b : Reg)
  /-- Writes x[a] AND NOT x[b] into x[d] (R113). -/
  | andn (d a b : Reg)
  /-- Shifts x[a] left by x[b] mod 64 into x[d] (R113). -/
  | sll (d a b : Reg)
  /-- Shifts x[a] right logically by x[b] mod 64 into x[d] (R113). -/
  | srl (d a b : Reg)
  /-- Shifts x[a] right arithmetically by x[b] mod 64 into x[d] (R113). -/
  | sra (d a b : Reg)
  /-- Writes 1 into x[d] when x[a] is less than x[b] as signed values, else 0 (R113). -/
  | slt (d a b : Reg)
  /-- Writes 1 into x[d] when x[a] is less than x[b] as unsigned values, else 0 (R113). -/
  | sltu (d a b : Reg)
  /-- Writes the signed minimum of x[a] and x[b] into x[d] (R113). -/
  | min (d a b : Reg)
  /-- Writes the signed maximum of x[a] and x[b] into x[d] (R113). -/
  | max (d a b : Reg)
  /-- Writes the unsigned minimum of x[a] and x[b] into x[d] (R113). -/
  | minu (d a b : Reg)
  /-- Writes the unsigned maximum of x[a] and x[b] into x[d] (R113). -/
  | maxu (d a b : Reg)
  /-- Writes the count of leading zero bits of x[a] into x[d] (R113). -/
  | clz (d a : Reg)
  /-- Writes the count of trailing zero bits of x[a] into x[d] (R113). -/
  | ctz (d a : Reg)
  /-- Writes the number of set bits of x[a] into x[d] (R113). -/
  | popc (d a : Reg)
  /-- Forms the low 64 bits of x[a] times x[b] by unpipelined shift and add into x[d] (R115). -/
  | mul (d a b : Reg)
  /-- Extracts a zero-extended bit field of x[a] described by x[b] into x[d] (R114). -/
  | bfx (d a b : Reg)
  /-- Inserts the low bits of x[a] into x[d] at the field described by x[b] (R114). -/
  | bfi (d a b : Reg)
  /-- Funnel-shifts the 128-bit pair x[a]:x[b] right by an immediate into x[d] (R114). -/
  | fsh (d a b : Reg) (h : BitVec 6)
  /-- Shifts x[a] left by an immediate amount into x[d] (R113). -/
  | slli (d a : Reg) (h : BitVec 6)
  /-- Shifts x[a] right logically by an immediate amount into x[d] (R113). -/
  | srli (d a : Reg) (h : BitVec 6)
  /-- Shifts x[a] right arithmetically by an immediate amount into x[d] (R113). -/
  | srai (d a : Reg) (h : BitVec 6)
  /-- Jumps to x[a] + x[b] and writes the return address into x[d], trapping on a misaligned target or a block exit (R118). -/
  | jalr (d a b : Reg)
  /-- Loads a sign-extended byte from x[a] + x[b] into x[d] with the encoded scope and order (R119). -/
  | lb (d a b : Reg) (sc : Scope) (ordered : Bool)
  /-- Loads a sign-extended half word from x[a] + x[b] into x[d] (R119). -/
  | lh (d a b : Reg) (sc : Scope) (ordered : Bool)
  /-- Loads a sign-extended word from x[a] + x[b] into x[d] (R119). -/
  | lw (d a b : Reg) (sc : Scope) (ordered : Bool)
  /-- Loads a double word from x[a] + x[b] into x[d] (R119). -/
  | ld (d a b : Reg) (sc : Scope) (ordered : Bool)
  /-- Loads a zero-extended byte from x[a] + x[b] into x[d] (R119). -/
  | lbu (d a b : Reg) (sc : Scope) (ordered : Bool)
  /-- Loads a zero-extended half word from x[a] + x[b] into x[d] (R119). -/
  | lhu (d a b : Reg) (sc : Scope) (ordered : Bool)
  /-- Loads a zero-extended word from x[a] + x[b] into x[d] (R119). -/
  | lwu (d a b : Reg) (sc : Scope) (ordered : Bool)
  /-- Stores the low byte of x[d] at x[a] + x[b] with the encoded scope and order (R119). -/
  | sb (d a b : Reg) (sc : Scope) (ordered : Bool)
  /-- Stores the low half word of x[d] at x[a] + x[b] (R119). -/
  | sh (d a b : Reg) (sc : Scope) (ordered : Bool)
  /-- Stores the low word of x[d] at x[a] + x[b] (R119). -/
  | sw (d a b : Reg) (sc : Scope) (ordered : Bool)
  /-- Stores x[d] as a double word at x[a] + x[b] (R119). -/
  | sd (d a b : Reg) (sc : Scope) (ordered : Bool)
  /-- Ends the current block or self-run, or takes the next farm index, per the strand state table (R105). -/
  | stop
  /-- Enters SELF at x[a], ending the rest of a block, or jumps in SELF (R106). -/
  | go (a : Reg)
  /-- Latches x[a] into the strand's ksig register and sets its SIG bit, waiting if the bit is already set (R107). -/
  | signal (a : Reg)
  /-- Fills link channel ch with register v[b] and its tag, waiting while the channel is full (R108). -/
  | vpost (b : Reg) (c : BitVec 3)
  /-- Writes v[d] from link channel ch and empties it, waiting while the channel is empty (R108). -/
  | vtake (d : Reg) (c : BitVec 3)
  /-- Adds the sign-extended immediate to x[a] into x[d] (R116). -/
  | addi (d a : Reg) (i : BitVec 16)
  /-- ANDs x[a] with the sign-extended immediate into x[d] (R116). -/
  | andi (d a : Reg) (i : BitVec 16)
  /-- ORs x[a] with the sign-extended immediate into x[d] (R116). -/
  | ori (d a : Reg) (i : BitVec 16)
  /-- XORs x[a] with the sign-extended immediate into x[d] (R116). -/
  | xori (d a : Reg) (i : BitVec 16)
  /-- Writes 1 into x[d] when x[a] is less than the immediate as signed values (R116). -/
  | slti (d a : Reg) (i : BitVec 16)
  /-- Writes 1 into x[d] when x[a] is less than the immediate read as unsigned (R116). -/
  | sltiu (d a : Reg) (i : BitVec 16)
  /-- Jumps by a word offset and writes the return address into x[d] (R118). -/
  | jal (d : Reg) (o : BitVec 21)
  /-- Writes the 20-bit immediate times 4,096 into x[d] (R117). -/
  | lui (d : Reg) (i : BitVec 20)
  /-- Writes the address of the lpc plus four times the offset into x[d] (R117). -/
  | lpc (d : Reg) (o : BitVec 20)
  /-- Branches by a word offset when x[a] equals x[b] (R118). -/
  | beq (a b : Reg) (o : BitVec 16)
  /-- Branches when x[a] differs from x[b] (R118). -/
  | bne (a b : Reg) (o : BitVec 16)
  /-- Branches when x[a] is less than x[b] as signed values (R118). -/
  | blt (a b : Reg) (o : BitVec 16)
  /-- Branches when x[a] is at least x[b] as signed values (R118). -/
  | bge (a b : Reg) (o : BitVec 16)
  /-- Branches when x[a] is less than x[b] as unsigned values (R118). -/
  | bltu (a b : Reg) (o : BitVec 16)
  /-- Branches when x[a] is at least x[b] as unsigned values (R118). -/
  | bgeu (a b : Reg) (o : BitVec 16)
  /-- Sets vgrp and the tag of every vector register (R153). -/
  | vcfg (g : BitVec 2) (t : BitVec 7)
  /-- Sets the group multiplier vgrp (R153). -/
  | vgrp (g : BitVec 2)
  /-- Sets the tag of every register of group d without changing data (R153). -/
  | vtag (d : Reg) (t : BitVec 7)
  /-- Sets sbound and x[d] to the capped signed count x[b] minus x[a] and closes the ordering interval (R154). -/
  | stripLt (d a b : Reg) (w : BitVec 3)
  /-- Sets sbound and x[d] to the capped signed count x[b] minus x[a] plus 1 and closes the interval (R154). -/
  | stripLe (d a b : Reg) (w : BitVec 3)
  /-- Sets sbound and x[d] to the capped unsigned count x[b] minus x[a] and closes the interval (R154). -/
  | stripLtu (d a b : Reg) (w : BitVec 3)
  /-- Sets sbound and x[d] to the capped unsigned count x[b] minus x[a] plus 1 and closes the interval (R154). -/
  | stripLeu (d a b : Reg) (w : BitVec 3)
  /-- Sets sbound and x[d] to x[a] capped at VL and closes the interval (R154). -/
  | stripN (d a : Reg) (w : BitVec 3)
  /-- Writes mask bits for active elements whose a and b elements are equal (R156). -/
  | vcmpEq (d a b m : Reg) (chainA chainB : Bool)
  /-- Writes mask bits for active elements whose a and b elements differ (R156). -/
  | vcmpNe (d a b m : Reg) (chainA chainB : Bool)
  /-- Writes mask bits for active elements where a is less than b (R156). -/
  | vcmpLt (d a b m : Reg) (chainA chainB : Bool)
  /-- Writes mask bits for active elements where a is at most b (R156). -/
  | vcmpLe (d a b m : Reg) (chainA chainB : Bool)
  /-- Writes mask bits for active elements where a is greater than b (R156). -/
  | vcmpGt (d a b m : Reg) (chainA chainB : Bool)
  /-- Writes mask bits for active elements where a is at least b (R156). -/
  | vcmpGe (d a b m : Reg) (chainA chainB : Bool)
  /-- Writes the AND of two mask registers (R157). -/
  | mand (d a b : Reg)
  /-- Writes the OR of two mask registers (R157). -/
  | mor (d a b : Reg)
  /-- Writes the XOR of two mask registers (R157). -/
  | mxor (d a b : Reg)
  /-- Writes mask a AND NOT mask b (R157). -/
  | mandn (d a b : Reg)
  /-- Writes the complement of a mask register (R157). -/
  | mnot (d a : Reg)
  /-- Copies a mask register (R157). -/
  | mmov (d a : Reg)
  /-- Sets every bit of a mask register (R157). -/
  | mset (d : Reg)
  /-- Clears every bit of a mask register (R157). -/
  | mclr (d : Reg)
  /-- Shifts a mask towards higher element indices by x[b] (R157). -/
  | mshl (d a b : Reg)
  /-- Shifts a mask towards lower element indices by x[b] (R157). -/
  | mshr (d a b : Reg)
  /-- Sets the mask bits below the lowest set bit of mask a (R157). -/
  | mbrk (d a : Reg)
  /-- Writes the count of set mask bits below min(sbound, MLEN) into x[d] (R158). -/
  | mcnt (d a : Reg)
  /-- Writes the index of the lowest set mask bit considered, or all-ones, into x[d] (R158). -/
  | mfirst (d a : Reg)
  /-- Writes the index of the highest set mask bit considered, or all-ones, into x[d] (R158). -/
  | mlast (d a : Reg)
  /-- Builds a mask whose bits are the in-range indices held in active elements of a (R159). -/
  | mfromidx (d a m : Reg) (chainA : Bool)
  /-- Adds active element pairs with wrap (R164). -/
  | vadd (d a b m : Reg) (chainA chainB : Bool)
  /-- Subtracts active element pairs with wrap (R164). -/
  | vsub (d a b m : Reg) (chainA chainB : Bool)
  /-- Adds element pairs with carry in and out through mask register k (R165). -/
  | vadc (d a b k : Reg) (chainA chainB : Bool)
  /-- Subtracts element pairs with borrow in and out through mask register k (R165). -/
  | vsbc (d a b k : Reg) (chainA chainB : Bool)
  /-- Writes the signed minimum of active element pairs (R164). -/
  | vmin (d a b m : Reg) (chainA chainB : Bool)
  /-- Writes the signed maximum of active element pairs (R164). -/
  | vmax (d a b m : Reg) (chainA chainB : Bool)
  /-- Writes the unsigned minimum of active element pairs (R164). -/
  | vminu (d a b m : Reg) (chainA chainB : Bool)
  /-- Writes the unsigned maximum of active element pairs (R164). -/
  | vmaxu (d a b m : Reg) (chainA chainB : Bool)
  /-- Adds active element pairs with saturation (R164). -/
  | vsadd (d a b m : Reg) (chainA chainB : Bool)
  /-- Subtracts active element pairs with saturation (R164). -/
  | vssub (d a b m : Reg) (chainA chainB : Bool)
  /-- Writes the wrapped absolute value of active elements (R164). -/
  | vabs (d a m : Reg) (chainA : Bool)
  /-- Writes the wrapped negation of active elements (R164). -/
  | vneg (d a m : Reg) (chainA : Bool)
  /-- Writes the AND of active element pairs (R167). -/
  | vand (d a b m : Reg) (chainA chainB : Bool)
  /-- Writes the OR of active element pairs (R167). -/
  | vor (d a b m : Reg) (chainA chainB : Bool)
  /-- Writes the XOR of active element pairs (R167). -/
  | vxor (d a b m : Reg) (chainA chainB : Bool)
  /-- Writes a AND NOT b for active element pairs (R167). -/
  | vandn (d a b m : Reg) (chainA chainB : Bool)
  /-- Writes the complement of active elements (R167). -/
  | vnot (d a m : Reg) (chainA : Bool)
  /-- Shifts active elements left by per-element amounts (R167). -/
  | vshl (d a b m : Reg) (chainA chainB : Bool)
  /-- Shifts active elements right logically by per-element amounts (R167). -/
  | vshr (d a b m : Reg) (chainA chainB : Bool)
  /-- Shifts active elements right arithmetically by per-element amounts (R167). -/
  | vsra (d a b m : Reg) (chainA chainB : Bool)
  /-- Rotates active elements towards higher bits by per-element amounts (R167). -/
  | vrot (d a b m : Reg) (chainA chainB : Bool)
  /-- Funnel-shifts a above the old d right by per-element amounts into d (R167). -/
  | vfsh (d a b m : Reg) (chainA chainB : Bool)
  /-- Writes the high half of each element product, rounded under RM (R166). -/
  | vmulh (d a b m : Reg) (chainA chainB : Bool) (rm : Rounding)
  /-- Writes the average of each element pair, rounded under RM (R166). -/
  | vavg (d a b m : Reg) (chainA chainB : Bool) (rm : Rounding)
  /-- Writes the wrapped product of active element pairs by shift and add (R166). -/
  | vmul (d a b m : Reg) (chainA chainB : Bool)
  /-- Writes the set-bit count of each active element (R168). -/
  | vpopc (d a m : Reg) (chainA : Bool)
  /-- Writes the leading-zero count of each active element (R168). -/
  | vclz (d a m : Reg) (chainA : Bool)
  /-- Extracts a per-element bit field of a described by b (R168). -/
  | vbfx (d a b m : Reg) (chainA chainB : Bool)
  /-- Inserts low bits of a into d at a per-element field described by b (R168). -/
  | vbfi (d a b m : Reg) (chainA chainB : Bool)
  /-- Selects each element from a or b by the governing-mask bit (R169). -/
  | vsel (d a b m : Reg) (chainA chainB : Bool)
  /-- Writes x[a] into every active element (R169). -/
  | vdup (d a m : Reg)
  /-- Writes into each active element the number of active elements below it (R169). -/
  | viota (d m : Reg)
  /-- Copies active elements of a into d with a's tag (R169). -/
  | vmov (d a m : Reg) (chainA : Bool)
  /-- Writes the wrapped sum of the seed and the active elements into element 0 of d (R170). -/
  | vredsum (d a b m : Reg) (chainA chainB : Bool)
  /-- Writes the minimum of the seed and the active elements into element 0 of d (R170). -/
  | vredmin (d a b m : Reg) (chainA chainB : Bool)
  /-- Writes the maximum of the seed and the active elements into element 0 of d (R170). -/
  | vredmax (d a b m : Reg) (chainA chainB : Bool)
  /-- Writes the AND of the seed and the active elements into element 0 of d (R170). -/
  | vredand (d a b m : Reg) (chainA chainB : Bool)
  /-- Writes the OR of the seed and the active elements into element 0 of d (R170). -/
  | vredor (d a b m : Reg) (chainA chainB : Bool)
  /-- Writes the XOR of the seed and the active elements into element 0 of d (R170). -/
  | vredxor (d a b m : Reg) (chainA chainB : Bool)
  /-- Slides elements of a up by x[b], reading vfill below the slide (R176). -/
  | vslup (d a b m : Reg) (chainA : Bool)
  /-- Slides elements of a down by x[b], reading vfill past the end (R176). -/
  | vsldn (d a b m : Reg) (chainA : Bool)
  /-- Gathers elements of a by an index group, reading vfill for out-of-range indices (R177). -/
  | vgath (d a b m : Reg) (chainA chainB : Bool)
  /-- Packs active elements of a into the lowest positions of d and fills the rest with vfill (R178). -/
  | vcomp (d a m : Reg) (chainA : Bool)
  /-- Spreads the lowest elements of a over the active positions of d (R178). -/
  | vexpd (d a m : Reg) (chainA : Bool)
  /-- Interleaves the low halves of a and b (R176). -/
  | vzip (d a b m : Reg) (chainA chainB : Bool)
  /-- Gathers the even elements of the pair a, b (R176). -/
  | vunzip (d a b m : Reg) (chainA chainB : Bool)
  /-- Reverses the elements of a below min(VL, sbound) (R176). -/
  | vrev (d a m : Reg) (chainA : Bool)
  /-- Writes the indices of the k largest active keys as n32 elements of one register (R179). -/
  | vtopk (d a b m : Reg) (chainA : Bool)
  /-- Marks in a mask the active elements of a whose values appear in b (R180). -/
  | visect (d a b m : Reg) (chainA chainB : Bool)
  /-- Marks in a mask the first active occurrence of each value of a (R181). -/
  | vconf (d a m : Reg) (chainA : Bool)
  /-- Loads active unit-stride elements from x[a] into group d after translating all of them (R198). -/
  | vld (d a m : Reg)
  /-- Stores active unit-stride elements of group b at x[d], the highest index prevailing (R198). -/
  | vst (d b m : Reg) (chainB : Bool)
  /-- Loads like vld but trims at the first failing element and records it in vffi (R193). -/
  | vldff (d a m : Reg)
  /-- Asks for the bytes a vld would read to be brought into the die caches, never trapping (R203). -/
  | vpf (a m : Reg)
  /-- Loads active elements at a signed scalar stride (R198). -/
  | vlds (d a b m : Reg)
  /-- Stores active elements at a signed scalar stride (R198). -/
  | vsts (d a b m : Reg) (chainB : Bool)
  /-- Loads active elements at base plus index times element size (R198). -/
  | vldx (d a b m : Reg) (chainB : Bool)
  /-- Scatters active elements at base plus index times element size, the highest index prevailing (R198). -/
  | vstx (d a b m : Reg) (chainA chainB : Bool)
  /-- Loads active block-scaled segments into an element group and its following scale group (R194). -/
  | vldseg (d a m : Reg)
  /-- Stores active block-scaled segments, each single-copy atomic (R194). -/
  | vstseg (d b m : Reg) (chainB : Bool)
  /-- Atomically adds each active element at its address and returns the old values (R199). -/
  | vamoAdd (d a b m : Reg) (chainA chainB : Bool)
  /-- Atomically takes the minimum at each active address and returns the old values (R199). -/
  | vamoMin (d a b m : Reg) (chainA chainB : Bool)
  /-- Atomically takes the maximum at each active address and returns the old values (R199). -/
  | vamoMax (d a b m : Reg) (chainA chainB : Bool)
  /-- Atomically ANDs at each active address and returns the old values (R199). -/
  | vamoAnd (d a b m : Reg) (chainA chainB : Bool)
  /-- Atomically ORs at each active address and returns the old values (R199). -/
  | vamoOr (d a b m : Reg) (chainA chainB : Bool)
  /-- Atomically XORs at each active address and returns the old values (R199). -/
  | vamoXor (d a b m : Reg) (chainA chainB : Bool)
  /-- Atomically swaps each active element into memory and returns the old values (R199). -/
  | vamoSwap (d a b m : Reg) (chainA chainB : Bool)
  /-- Atomically compares and swaps at each active address, returning the old values in d (R200). -/
  | vcas (d a b m : Reg) (chainA chainB : Bool)
  /-- Combines active elements by address and adds each sum atomically into memory (R201). -/
  | vsca (d a b m : Reg) (chainA chainB : Bool)
  /-- Adds each active float element exactly into the wide cell at its address (R201). -/
  | vfacc (d a b m : Reg) (chainA chainB : Bool)
  /-- Sends active elements as remote-reduce packets to the near-memory reduce units of a target device (R202). -/
  | vrred (d a b m : Reg) (chainB : Bool)
  /-- A memory attribute word and the following vector memory word form one two-word instruction with the given scope and order (R53). -/
  | memoryAttributeWord (sc : Scope) (od : Ordering) (next : Instr)
  /-- Orders every earlier access of the strand before every later one at the named scope (R288). -/
  | fence (sc : Scope)
  /-- In deterministic mode waits until every earlier instruction of the strand has completed in full; otherwise does nothing (R289). -/
  | convoy
  /-- Writes a + b rounded once for active elements (R211). -/
  | fadd (d a b m : Reg) (chainA chainB : Bool) (rm : Rounding)
  /-- Writes a − b rounded once for active elements (R211). -/
  | fsub (d a b m : Reg) (chainA chainB : Bool) (rm : Rounding)
  /-- Writes a × b rounded once for active elements (R211). -/
  | fmul (d a b m : Reg) (chainA chainB : Bool) (rm : Rounding)
  /-- Writes a × b + d rounded once for active elements (R211). -/
  | fma (d a b m : Reg) (chainA chainB : Bool) (rm : Rounding)
  /-- Writes a / b rounded once for active elements (R211). -/
  | fdiv (d a b m : Reg) (chainA chainB : Bool) (rm : Rounding)
  /-- Writes the square root of a rounded once for active elements (R211). -/
  | fsqrt (d a m : Reg) (chainA : Bool) (rm : Rounding)
  /-- Converts active elements from a's tag to d's tag (R213). -/
  | fcvt (d a m : Reg) (chainA : Bool) (rm : Rounding)
  /-- Rounds active elements to integral values in their own format (R211). -/
  | fround (d a m : Reg) (chainA : Bool) (rm : Rounding)
  /-- Writes a × 2^n with n from an integer index group, rounded once (R212). -/
  | fscale (d a b m : Reg) (chainA chainB : Bool) (rm : Rounding)
  /-- Writes the table-interpolated base-2 exponential of active elements (R214). -/
  | fspecExp2 (d a m : Reg) (chainA : Bool) (rm : Rounding)
  /-- Writes the table-interpolated base-2 logarithm of active elements (R214). -/
  | fspecLog2 (d a m : Reg) (chainA : Bool) (rm : Rounding)
  /-- Writes the table-interpolated reciprocal of active elements (R214). -/
  | fspecRcp (d a m : Reg) (chainA : Bool) (rm : Rounding)
  /-- Writes the table-interpolated reciprocal square root of active elements (R214). -/
  | fspecRsqrt (d a m : Reg) (chainA : Bool) (rm : Rounding)
  /-- Writes the table-interpolated hyperbolic tangent of active elements (R214). -/
  | fspecTanh (d a m : Reg) (chainA : Bool) (rm : Rounding)
  /-- Writes the table-interpolated sigmoid of active elements (R214). -/
  | fspecSigmoid (d a m : Reg) (chainA : Bool) (rm : Rounding)
  /-- Writes the minimumNumber of active element pairs (R211). -/
  | fmin (d a b m : Reg) (chainA chainB : Bool)
  /-- Writes the maximumNumber of active element pairs (R211). -/
  | fmax (d a b m : Reg) (chainA chainB : Bool)
  /-- Clears the sign bit of active elements (R211). -/
  | fabs (d a m : Reg) (chainA : Bool)
  /-- Inverts the sign bit of active elements (R211). -/
  | fneg (d a m : Reg) (chainA : Bool)
  /-- Sums active elements by the fixed index tree and adds the seed into element 0 of d (R140). -/
  | fredsum (d a : Reg) (rm : Rounding) (m : Reg) (chainA : Bool)
  /-- Writes the maximum of the seed and the active elements into element 0 of d (R140). -/
  | fredmax (d a m : Reg) (chainA : Bool)
  /-- Packs blocks of 32 floats into block-scaled elements and scale words (R215). -/
  | vblk (d a : Reg) (rm : Rounding) (m : Reg) (chainA : Bool)
  /-- Unpacks block-scaled blocks into floats of d's format (R215). -/
  | vunblk (d a : Reg) (rm : Rounding) (m : Reg) (chainA : Bool)
  /-- Reads wide cells from group a out as rounded floats of d's format (R216). -/
  | fcell (d a : Reg) (rm : Rounding) (m : Reg) (chainA : Bool)
  /-- Queues and performs the exact product A × B over K into tile d (R233). -/
  | mopa (d a b : Reg) (chainA chainB : Bool)
  /-- Queues a product with A compressed to the K-positions set in mask k (R234). -/
  | mopas (d a b k : Reg) (chainA chainB : Bool)
  /-- Writes clause-zero bits for 1-bit A and B, an empty clause giving 0 (R235). -/
  | mclzE0 (d a b : Reg) (chainA chainB : Bool)
  /-- Writes clause-zero bits for 1-bit A and B, an empty clause giving 1 (R235). -/
  | mclzE1 (d a b : Reg) (chainA chainB : Bool)
  /-- Rounds row x[b] of tile a into elements 0 to 31 of d under RM (R239). -/
  | mrnd (d a b m : Reg) (rm : Rounding)
  /-- Writes the matrix extents ROWS, COLS and K into mext (R236). -/
  | mshape (a b : Reg)
  /-- Sets a tile's anchor and rescales its elements (R237). -/
  | manch (d a : Reg)
  /-- Zeroes a tile's elements and clears its flags, keeping its anchor (R238). -/
  | mzero (d : Reg)
  /-- Writes a tile's flags and anchor into x[d] (R238). -/
  | mstat (d a : Reg)
  /-- Copies a tile row exactly into register d (R240). -/
  | mrow (d a b : Reg)
  /-- Writes a tile row from the bytes of register a (R240). -/
  | mwrow (d a b : Reg) (chainA : Bool)
  /-- Writes a tile as a 32,832-byte image in memory (R241). -/
  | msave (d a : Reg)
  /-- Reads a tile image from memory into a tile (R241). -/
  | mload (d a : Reg)
  /-- Sets mask bits where a draw falls below each element's probability (R253). -/
  | cdraw (d a m : Reg) (chainA : Bool)
  /-- Turns clamped votes into feedback-selection probabilities (R252). -/
  | cprob (d a b m : Reg) (chainA : Bool)
  /-- Applies Type I feedback to automaton planes or step counts, one draw per active element (R254). -/
  | cfb1 (d a b m : Reg) (chainA chainB : Bool)
  /-- Applies Type II feedback to automaton planes or step counts (R255). -/
  | cfb2 (d a b m : Reg) (chainA chainB : Bool)
  /-- Steps each active automaton up or down by its direction bit, saturating (R256). -/
  | cstep (d a m : Reg) (chainA : Bool)
  /-- Adds signed step counts to automaton states with saturation (R257). -/
  | cadd (d a m : Reg) (chainA : Bool)
  /-- Translates and hands a linear copy to the copy engine, optionally draining a barrier (R269). -/
  | xcp (d a b : Reg) (sc : Scope) (od : Ordering)
  /-- Hands a two-dimensional strided copy described in the SDM to the copy engine (R269). -/
  | xcp2 (d a b : Reg) (sc : Scope) (od : Ordering)
  /-- Hands an indexed row-gather copy to the copy engine (R269). -/
  | xgat (d a b : Reg) (sc : Scope) (od : Ordering)
  /-- Hands a pointer-table page-gather copy to the copy engine (R269). -/
  | xpg (d a b : Reg) (sc : Scope) (od : Ordering)
  /-- Initialises a barrier with an arrival count (R276). -/
  | bini (a b : Reg) (sc : Scope) (od : Ordering)
  /-- Arrives at a barrier adding expected bytes and returns the phase (R276). -/
  | barr (d a b : Reg) (sc : Scope) (od : Ordering)
  /-- Adds expected bytes to a barrier and returns the phase (R276). -/
  | bexp (d a b : Reg) (sc : Scope) (od : Ordering)
  /-- Waits until a barrier's phase differs from the token (R276). -/
  | bwait (d a b : Reg) (sc : Scope) (od : Ordering)
  /-- Returns whether a barrier's phase differs from the token (R276). -/
  | btest (d a b : Reg) (sc : Scope) (od : Ordering)
  /-- Initialises a queue header with capacity and element size (R279). -/
  | qini (a b : Reg) (sc : Scope) (od : Ordering)
  /-- Enqueues one element or returns FULL or invalid status without waiting (R279). -/
  | qenq (d a b : Reg) (sc : Scope) (od : Ordering)
  /-- Dequeues one element or returns EMPTY or invalid status without waiting (R279). -/
  | qdeq (d a b : Reg) (sc : Scope) (od : Ordering)
  /-- Reads a strand control register into x[d] (R321). -/
  | scrr (d : Reg) (n : BitVec 6)
  /-- Writes a strand control register from x[a] under its access rule (R321). -/
  | scrw (a : Reg) (n : BitVec 6)
  /-- Makes the strand trap with cause SOFTWARE and the given code (R321). -/
  | trap (n : BitVec 6)
  /-- Sets PC to tpc and enters or stays in SELF (R321). -/
  | tret
  /-- Writes a strand image of the named vector, mask and state parts (R323). -/
  | vsave (a b : Reg)
  /-- Restores or lazily marks absent the named parts of a strand image (R323). -/
  | vrest (a b : Reg)
  /-- Returns the dirty set and clears the bits named by x[a] (R321). -/
  | vdirty (d a : Reg)
  /-- Reads the device nanosecond timer, or 0 in deterministic mode (R321). -/
  | rdtime (d : Reg)
  /-- Reads the logical core's cycle count, or 0 in deterministic mode (R321). -/
  | rdcyc (d : Reg)
  /-- Reads the capability mask or usable scratchpad bytes by selector (R321). -/
  | cap (d a : Reg)
  /-- Makes the strand trap with cause BREAK at the brk itself (R321). -/
  | brk (n : BitVec 6)
  /-- Appends one block to every target strand's buffer, all or nothing, returning the full set (R96). -/
  | kbcast (b a d : Reg)
  /-- Appends one block to every target buffer, waiting until none is full (R96). -/
  | kbcastw (b a d : Reg)
  /-- Starts every idle, unbuffered, non-farm strand of the set in SELF at an address (R98). -/
  | kgo (b a d : Reg)
  /-- Waits until every strand of the set is TRAPPED or idle and returns the trapped set (R99). -/
  | kjoin (a d : Reg)
  /-- Waits until a pending strand event in the source mask is set, then returns and consumes it (R99). -/
  | kwait (a d : Reg)
  /-- Reads one selected item of an IDLE or TRAPPED strand (R100). -/
  | ksget (s : BitVec 7) (a d : Reg)
  /-- Writes one selected item of an IDLE or TRAPPED strand (R100). -/
  | ksput (s : BitVec 7) (b a : Reg)
  /-- Declares a farm of n indices over a strand set in the lowest free slot (R102). -/
  | kfarm (b a d : Reg)
  /-- Resumes every TRAPPED strand of the set, first running an implicit vrest where vrq is nonzero (R101). -/
  | kresume (a d : Reg)
  /-- Finishes the core with an exit code (R103). -/
  | kcfgExit (a : Reg)
  /-- Sets the strand watchdog limit and returns the old one (R103). -/
  | kcfgWdog (a d : Reg)
  /-- Writes a job format-table entry, waiting for matrix instructions that captured it (R103). -/
  | kcfgFmtw (b a d : Reg)
  /-- Empties the named link channels and returns the previous full set (R103). -/
  | kcfgLclr (a d : Reg)
  /-- The control hart executes one RISC-V base, M, A, C, Zicsr, Zifencei, Zba or Zbb instruction through the job's Sv48 tables (R90). -/
  | controlHartInstruction (i : Rv) (compressed : Bool)
  /-- The control hart takes the strand-event interrupt when kpend AND kie is nonzero (R93). -/
  | strandEventInterrupt (p : Nat)
  /-- An M-mode write of kpre requests the stop of the named strands (R318). -/
  | kpreWrite (p : Nat) (v : BitVec 64)
  /-- A strand whose PRE bit is set reaches a resumable boundary and takes PREEMPT (R318). -/
  | preemptStop (p k elems : Nat)
  /-- A strand's no-retirement count passes the limit and it takes WATCHDOG or LINK (R325). -/
  | watchdogExpiry (p k : Nat)
  /-- A block reaching the head of an idle strand's buffer starts in BLOCK state (R79). -/
  | blockStart (p k : Nat)
  /-- A strand that has passed 24 opportunities issues its oldest ready micro-op ahead of all others (R84). -/
  | issueStarvationPromotion (p k : Nat)
  /-- Data or acknowledgement for a strand memory access arrives and the access performs (R122). -/
  | memoryResponse (p k : Nat)
  /-- A waiting signal latches once kwait has consumed the previous SIG bit (R107). -/
  | signalLatch (p k : Nat)
  /-- A waiting vpost fills its channel once it is empty (R108). -/
  | vpostComplete (p k : Nat)
  /-- A waiting vtake takes the register once its channel is full (R108). -/
  | vtakeComplete (p k : Nat)
  /-- A waiting bwait returns once the barrier phase has changed (R276). -/
  | bwaitReturn (p k : Nat)
  /-- A waiting kjoin completes when its last condition is met (R99). -/
  | kjoinReturn (p : Nat)
  /-- A waiting kwait completes when a source event becomes pending (R99). -/
  | kwaitReturn (p : Nat)
  /-- A waiting kbcastw delivers its block once no target buffer is full (R96). -/
  | kbcastwDeliver (p : Nat)
  /-- A waiting FMTW takes effect once every matrix instruction that captured the entry has completed (R230). -/
  | fmtwApply (p : Nat)
  /-- A queued matrix instruction starts when its strand order and the tile scoreboard allow (R229). -/
  | matrixStart (p : Nat)
  /-- A matrix instruction finishes its passes and drain and the tile completes as one event (R227). -/
  | matrixComplete (p : Nat)
  /-- The copy engine writes one 64-byte destination unit and drains its barrier (R271). -/
  | copyUnitWrite (p : Nat)
  /-- A copy command finishes its last unit and releases its interlock entry (R271). -/
  | copyComplete (p : Nat)
  /-- After a shoot-down the engine retranslates a suspended command and resumes, faults or abandons it (R281). -/
  | copyRetranslate (p : Nat)
  /-- A near-memory reduce unit applies a remote-reduce packet to its stack in coherence order (R18). -/
  | nmrReduceApply (stack : Nat)
  /-- A receiving col die matches a remote reduce packet to an import slot and applies, holds or drops it (R348). -/
  | reducePacketReceive (pkt : ReducePacket)
  /-- The fault merger receives a fault record and writes ring entries for newly outstanding pages (R192). -/
  | faultRecordMerge
  /-- 256 cycles after a job's first record the merger sends one MSI-X vector 1 notification (R192). -/
  | faultNotify (job : BitVec 64)
  /-- The merger writes a held notification entry once the ring has room and is enabled (R346). -/
  | heldFaultEntryWrite
  /-- A core's translation agent removes named entries, stops instructions using them and acknowledges (R196). -/
  | shootdownAck (p : Nat) (stops : List (Nat × Nat))
  /-- The dispatcher reads and checks a published job record, entering it in the job table (R67). -/
  | recordRead (c : Nat)
  /-- The dispatcher places a waiting job on a chosen team of free covering cores and starts or restores it (R74). -/
  | jobPlace (job : BitVec 64)
  /-- Each 2 ms of waiting raises a job's effective class by one up to 7 (R72). -/
  | jobAging (job : BitVec 64)
  /-- After 4 ms as head the dispatcher stops placing later jobs ahead of the head (R73). -/
  | headWaitExpiry
  /-- The dispatcher chooses lower-class victims that have run 1 ms and requests their halt for the head (R76). -/
  | priorityPreempt
  /-- A halted core reaches its resumable boundary within 350 cycles and saves its context (R326). -/
  | haltBoundary (p : Nat) (stops : List (Nat × Nat))
  /-- A pre-empted job's context reaches device memory and the job re-enters its queue as waiting (R77). -/
  | contextSaveDone (job : BitVec 64)
  /-- A core that executed EXIT finishes once its started copy commands have completed (R70). -/
  | coreFinish (p : Nat)
  /-- A held undelivered completion entry is written once the ring has room and is enabled (R347). -/
  | undeliveredEntryWrite
  /-- A host write of PROD publishes records of a class queue or sets OVR when it would overfill (R341). -/
  | prodWrite (c : Nat) (v : BitVec 64)
  /-- A host write of QCTL sets K and EN, judged with the EN it gives (R341). -/
  | qctlWrite (c : Nat) (v : BitVec 64)
  /-- A host write of FCTL sets the fault ring's K and EN under its write rules (R346). -/
  | fctlWrite (v : BitVec 64)
  /-- A host write of CCTL sets the undelivered ring's K and EN under its write rules (R347). -/
  | cctlWrite (v : BitVec 64)
  /-- A host write of PLIMIT sets the power limit, capped at the ceiling (R362). -/
  | plimitWrite (v : BitVec 64)
  /-- A write to a register with no row of its own takes effect by its access code (R9). -/
  | registerWrite (off : Nat) (v : BitVec 64)
  /-- Mailbox command that drops a completed job from the job table (R344). -/
  | retire
  /-- Mailbox command that completes an uncompleted job with CANCELLED (R345). -/
  | cancel
  /-- Mailbox command that answers one notified page as mapped or unmappable, resuming or failing its strands (R344). -/
  | answer
  /-- Mailbox command that sends a shoot-down for an ASID and page range and is done when all acknowledge (R344). -/
  | shoot
  /-- Mailbox command that opens an import window for remote reduces (R344). -/
  | import
  /-- Mailbox command that closes an import slot once its held packets are applied or dropped (R344). -/
  | unimport
  /-- Mailbox command that registers a resident package and returns its handle (R344). -/
  | pkgAdd (info : PackageInfo)
  /-- Mailbox command that drops a resident package handle unless a job names it (R344). -/
  | pkgDrop
  /-- Mailbox command that returns the form, serial number and firmware versions (R356). -/
  | identify
  /-- Mailbox command that carries one SPDM 1.3 message and returns the response (R357). -/
  | spdm
  /-- Mailbox command that copies a firmware image into SMC staging storage (R356). -/
  | fwStage
  /-- Mailbox command that verifies the staged image and installs it for the next start (R355). -/
  | fwCommit
  /-- Mailbox command that writes the start record to host memory (R358). -/
  | record
  /-- Mailbox command that clears matching start-record entries (R356). -/
  | recordClear
  /-- Mailbox command that restarts the part unless a job is in the job table (R356). -/
  | restart
  /-- Mailbox command FENCE that asks the root firmware to fence a class on a core (R360). -/
  | fenceCommand
  /-- A mailbox GO with an unassigned OP value returns BAD_OP (R344). -/
  | mailboxBadOp
  /-- A host CXL.mem access to device memory takes its place at the line's home die cache (R338). -/
  | hostMemAccess (acc : HostAccess)
  /-- A link port receives a 256-byte flit, accepting it in order or requesting replay on a CRC failure (R349). -/
  | flitReceive (port : Nat) (flit : Flit)
  /-- A width request stops a port's sending and starts retraining at the new width (R351). -/
  | linkWidthChange (port width : Nat)
  /-- A retraining attempt ends, replaying held flits on success or retrying narrower on failure (R351). -/
  | retrainAttemptEnd (port : Nat) (ok : Bool)
  /-- At power-on or restart the SMC runs the start steps, recording each unit's result (R358). -/
  | partStart (units : List UnitTest)
  /-- The service firmware runs a test pattern on an idle withheld core and compares results (R360). -/
  | inFieldTest (p cls : Nat) (run : FieldTest)
  /-- The root firmware fences a class on a core and the dispatcher applies it as one event (R361). -/
  | classFence (p cls : Nat)
  /-- Loss of a regulator phase derates the die's ILIMIT, sets DERATED and may fence the die (R364). -/
  | phaseLoss (die phases : Nat)
  /-- The service firmware lowers or raises the clock or ALCCAP to keep power and current within limits (R364). -/
  | throttleStep (lower : Bool)
  /-- An idle device enters the deepest power state whose exit latency is within LATTOL (R363). -/
  | powerStateEntry
  /-- A doorbell, mailbox GO or link traffic returns the device to ACTIVE after the exit latency (R363). -/
  | powerStateExit
  /-- A lane group with no micro-op for 64 cycles is gated (R363). -/
  | laneGroupGate (p g : Nat)
  /-- A gated lane group ungates in 20 cycles when a micro-op needs it (R363). -/
  | laneGroupUngate (p g : Nat)
  /-- A corrected soft error increments CE_SRAM or CE_HBM (R365). -/
  | correctedError (hbm : Bool) (unit : BitVec 16) (addr : BitVec 64)
  /-- An uncorrectable error consumed by a job completes it with UNCORRECTABLE and is logged (R365). -/
  | uncorrectableError (job : BitVec 64) (unit : BitVec 16) (addr : BitVec 64)
  /-- A service-firmware access outside its rights is blocked and logged as SANDBOX (R354). -/
  | sandboxViolation (unit : BitVec 16) (addr : BitVec 64)
  /-- A RAS writer stalled on a full ring writes its entry once RASCONS advances (R366). -/
  | stalledRasEntryWrite
  /-- A strand fetches and decodes a word that is no instruction, such as an all-zero word, an unassigned major or function, or a word with a nonzero reserved field, and takes the illegal-instruction trap (R57). -/
  | illegalInstruction (w : BitVec 32)
  /-- The root firmware retires a mapped lane group while the part is in service, and the spare group takes its logical number in the pricking (R143). -/
  | laneGroupRetire (p g : Nat)
  deriving DecidableEq, Repr

end Sys2Proof
end

