-- ==== Sys2Proof/WellFormed.lean ====
section
/-! DEFINITION. Well-formed instructions: the field values that decode checks 3 and 4 allow (R57), and for events the
ranges of the device's numbers. -/

namespace Sys2Proof

/-- A governing-mask field: 0 to 23 or 31 (R47). -/
def governing (m : Reg) : Bool := m.toNat < 24 || m.toNat == 31

/-- A mask-register operand: 0 to 23 (R47). -/
def maskReg (m : Reg) : Bool := m.toNat < 24

/-- A tile field: 0 to 7 (R47). -/
def tileReg (t : Reg) : Bool := t.toNat < 8

/-- A tag CODE of R144. -/
def tagCodeAssigned (c : Nat) : Bool := c < 0x0D || (0x10 ≤ c && c < 0x14) || (0x20 ≤ c && c < 0x30)

/-- CODE in bits 5 to 0 and ALT in bit 6; ALT only on f16, bf16, fx0 and fx1 (R144). -/
def tagCode (t : BitVec 7) : Bool :=
  let c := t.toNat % 64
  tagCodeAssigned c && (t.toNat < 64 || c == 0x08 || c == 0x09 || c == 0x20 || c == 0x21)

/-- An assigned strand control register number (R319). -/
def assignedReg (n : BitVec 6) : Bool := n.toNat < 29 || (32 ≤ n.toNat && n.toNat < 48)

/-- A class bit of the use and capability masks (R63). -/
def classBit (b : Nat) : Bool := b < 11 || (16 ≤ b && b < 29) || (32 ≤ b && b < 48)

/-- Whether an attribute word with this ORD may stand before the instruction (R55). -/
def Instr.acceptsOrdering (i : Instr) (od : Ordering) : Bool :=
  match i with
  | .add _ _ _ => false
  | .sub _ _ _ => false
  | .and _ _ _ => false
  | .or _ _ _ => false
  | .xor _ _ _ => false
  | .andn _ _ _ => false
  | .sll _ _ _ => false
  | .srl _ _ _ => false
  | .sra _ _ _ => false
  | .slt _ _ _ => false
  | .sltu _ _ _ => false
  | .min _ _ _ => false
  | .max _ _ _ => false
  | .minu _ _ _ => false
  | .maxu _ _ _ => false
  | .clz _ _ => false
  | .ctz _ _ => false
  | .popc _ _ => false
  | .mul _ _ _ => false
  | .bfx _ _ _ => false
  | .bfi _ _ _ => false
  | .fsh _ _ _ _ => false
  | .slli _ _ _ => false
  | .srli _ _ _ => false
  | .srai _ _ _ => false
  | .jalr _ _ _ => false
  | .lb _ _ _ _ _ => false
  | .lh _ _ _ _ _ => false
  | .lw _ _ _ _ _ => false
  | .ld _ _ _ _ _ => false
  | .lbu _ _ _ _ _ => false
  | .lhu _ _ _ _ _ => false
  | .lwu _ _ _ _ _ => false
  | .sb _ _ _ _ _ => false
  | .sh _ _ _ _ _ => false
  | .sw _ _ _ _ _ => false
  | .sd _ _ _ _ _ => false
  | .stop => false
  | .go _ => false
  | .signal _ => false
  | .vpost _ _ => false
  | .vtake _ _ => false
  | .addi _ _ _ => false
  | .andi _ _ _ => false
  | .ori _ _ _ => false
  | .xori _ _ _ => false
  | .slti _ _ _ => false
  | .sltiu _ _ _ => false
  | .jal _ _ => false
  | .lui _ _ => false
  | .lpc _ _ => false
  | .beq _ _ _ => false
  | .bne _ _ _ => false
  | .blt _ _ _ => false
  | .bge _ _ _ => false
  | .bltu _ _ _ => false
  | .bgeu _ _ _ => false
  | .vcfg _ _ => false
  | .vgrp _ => false
  | .vtag _ _ => false
  | .stripLt _ _ _ _ => false
  | .stripLe _ _ _ _ => false
  | .stripLtu _ _ _ _ => false
  | .stripLeu _ _ _ _ => false
  | .stripN _ _ _ => false
  | .vcmpEq _ _ _ _ _ _ => false
  | .vcmpNe _ _ _ _ _ _ => false
  | .vcmpLt _ _ _ _ _ _ => false
  | .vcmpLe _ _ _ _ _ _ => false
  | .vcmpGt _ _ _ _ _ _ => false
  | .vcmpGe _ _ _ _ _ _ => false
  | .mand _ _ _ => false
  | .mor _ _ _ => false
  | .mxor _ _ _ => false
  | .mandn _ _ _ => false
  | .mnot _ _ => false
  | .mmov _ _ => false
  | .mset _ => false
  | .mclr _ => false
  | .mshl _ _ _ => false
  | .mshr _ _ _ => false
  | .mbrk _ _ => false
  | .mcnt _ _ => false
  | .mfirst _ _ => false
  | .mlast _ _ => false
  | .mfromidx _ _ _ _ => false
  | .vadd _ _ _ _ _ _ => false
  | .vsub _ _ _ _ _ _ => false
  | .vadc _ _ _ _ _ _ => false
  | .vsbc _ _ _ _ _ _ => false
  | .vmin _ _ _ _ _ _ => false
  | .vmax _ _ _ _ _ _ => false
  | .vminu _ _ _ _ _ _ => false
  | .vmaxu _ _ _ _ _ _ => false
  | .vsadd _ _ _ _ _ _ => false
  | .vssub _ _ _ _ _ _ => false
  | .vabs _ _ _ _ => false
  | .vneg _ _ _ _ => false
  | .vand _ _ _ _ _ _ => false
  | .vor _ _ _ _ _ _ => false
  | .vxor _ _ _ _ _ _ => false
  | .vandn _ _ _ _ _ _ => false
  | .vnot _ _ _ _ => false
  | .vshl _ _ _ _ _ _ => false
  | .vshr _ _ _ _ _ _ => false
  | .vsra _ _ _ _ _ _ => false
  | .vrot _ _ _ _ _ _ => false
  | .vfsh _ _ _ _ _ _ => false
  | .vmulh _ _ _ _ _ _ _ => false
  | .vavg _ _ _ _ _ _ _ => false
  | .vmul _ _ _ _ _ _ => false
  | .vpopc _ _ _ _ => false
  | .vclz _ _ _ _ => false
  | .vbfx _ _ _ _ _ _ => false
  | .vbfi _ _ _ _ _ _ => false
  | .vsel _ _ _ _ _ _ => false
  | .vdup _ _ _ => false
  | .viota _ _ => false
  | .vmov _ _ _ _ => false
  | .vredsum _ _ _ _ _ _ => false
  | .vredmin _ _ _ _ _ _ => false
  | .vredmax _ _ _ _ _ _ => false
  | .vredand _ _ _ _ _ _ => false
  | .vredor _ _ _ _ _ _ => false
  | .vredxor _ _ _ _ _ _ => false
  | .vslup _ _ _ _ _ => false
  | .vsldn _ _ _ _ _ => false
  | .vgath _ _ _ _ _ _ => false
  | .vcomp _ _ _ _ => false
  | .vexpd _ _ _ _ => false
  | .vzip _ _ _ _ _ _ => false
  | .vunzip _ _ _ _ _ _ => false
  | .vrev _ _ _ _ => false
  | .vtopk _ _ _ _ _ => false
  | .visect _ _ _ _ _ _ => false
  | .vconf _ _ _ _ => false
  | .vld _ _ _ => od = .rlx ∨ od = .acq
  | .vst _ _ _ _ => od = .rlx ∨ od = .rel
  | .vldff _ _ _ => od = .rlx ∨ od = .acq
  | .vpf _ _ => od = .rlx ∨ od = .acq
  | .vlds _ _ _ _ => od = .rlx ∨ od = .acq
  | .vsts _ _ _ _ _ => od = .rlx ∨ od = .rel
  | .vldx _ _ _ _ _ => od = .rlx ∨ od = .acq
  | .vstx _ _ _ _ _ _ => od = .rlx ∨ od = .rel
  | .vldseg _ _ _ => od = .rlx ∨ od = .acq
  | .vstseg _ _ _ _ => od = .rlx ∨ od = .rel
  | .vamoAdd _ _ _ _ _ _ => true
  | .vamoMin _ _ _ _ _ _ => true
  | .vamoMax _ _ _ _ _ _ => true
  | .vamoAnd _ _ _ _ _ _ => true
  | .vamoOr _ _ _ _ _ _ => true
  | .vamoXor _ _ _ _ _ _ => true
  | .vamoSwap _ _ _ _ _ _ => true
  | .vcas _ _ _ _ _ _ => true
  | .vsca _ _ _ _ _ _ => od = .rlx ∨ od = .rel
  | .vfacc _ _ _ _ _ _ => od = .rlx ∨ od = .rel
  | .vrred _ _ _ _ _ => od = .rlx ∨ od = .rel
  | .memoryAttributeWord _ _ _ => false
  | .fence _ => false
  | .convoy => false
  | .fadd _ _ _ _ _ _ _ => false
  | .fsub _ _ _ _ _ _ _ => false
  | .fmul _ _ _ _ _ _ _ => false
  | .fma _ _ _ _ _ _ _ => false
  | .fdiv _ _ _ _ _ _ _ => false
  | .fsqrt _ _ _ _ _ => false
  | .fcvt _ _ _ _ _ => false
  | .fround _ _ _ _ _ => false
  | .fscale _ _ _ _ _ _ _ => false
  | .fspecExp2 _ _ _ _ _ => false
  | .fspecLog2 _ _ _ _ _ => false
  | .fspecRcp _ _ _ _ _ => false
  | .fspecRsqrt _ _ _ _ _ => false
  | .fspecTanh _ _ _ _ _ => false
  | .fspecSigmoid _ _ _ _ _ => false
  | .fmin _ _ _ _ _ _ => false
  | .fmax _ _ _ _ _ _ => false
  | .fabs _ _ _ _ => false
  | .fneg _ _ _ _ => false
  | .fredsum _ _ _ _ _ => false
  | .fredmax _ _ _ _ => false
  | .vblk _ _ _ _ _ => false
  | .vunblk _ _ _ _ _ => false
  | .fcell _ _ _ _ _ => false
  | .mopa _ _ _ _ _ => false
  | .mopas _ _ _ _ _ _ => false
  | .mclzE0 _ _ _ _ _ => false
  | .mclzE1 _ _ _ _ _ => false
  | .mrnd _ _ _ _ _ => false
  | .mshape _ _ => false
  | .manch _ _ => false
  | .mzero _ => false
  | .mstat _ _ => false
  | .mrow _ _ _ => false
  | .mwrow _ _ _ _ => false
  | .msave _ _ => false
  | .mload _ _ => false
  | .cdraw _ _ _ _ => false
  | .cprob _ _ _ _ _ => false
  | .cfb1 _ _ _ _ _ _ => false
  | .cfb2 _ _ _ _ _ _ => false
  | .cstep _ _ _ _ => false
  | .cadd _ _ _ _ => false
  | .xcp _ _ _ _ _ => false
  | .xcp2 _ _ _ _ _ => false
  | .xgat _ _ _ _ _ => false
  | .xpg _ _ _ _ _ => false
  | .bini _ _ _ _ => false
  | .barr _ _ _ _ _ => false
  | .bexp _ _ _ _ _ => false
  | .bwait _ _ _ _ _ => false
  | .btest _ _ _ _ _ => false
  | .qini _ _ _ _ => false
  | .qenq _ _ _ _ _ => false
  | .qdeq _ _ _ _ _ => false
  | .scrr _ _ => false
  | .scrw _ _ => false
  | .trap _ => false
  | .tret => false
  | .vsave _ _ => false
  | .vrest _ _ => false
  | .vdirty _ _ => false
  | .rdtime _ => false
  | .rdcyc _ => false
  | .cap _ _ => false
  | .brk _ => false
  | .kbcast _ _ _ => false
  | .kbcastw _ _ _ => false
  | .kgo _ _ _ => false
  | .kjoin _ _ => false
  | .kwait _ _ => false
  | .ksget _ _ _ => false
  | .ksput _ _ _ => false
  | .kfarm _ _ _ => false
  | .kresume _ _ => false
  | .kcfgExit _ => false
  | .kcfgWdog _ _ => false
  | .kcfgFmtw _ _ _ => false
  | .kcfgLclr _ _ => false
  | .controlHartInstruction _ _ => false
  | .strandEventInterrupt _ => false
  | .kpreWrite _ _ => false
  | .preemptStop _ _ _ => false
  | .watchdogExpiry _ _ => false
  | .blockStart _ _ => false
  | .issueStarvationPromotion _ _ => false
  | .memoryResponse _ _ => false
  | .signalLatch _ _ => false
  | .vpostComplete _ _ => false
  | .vtakeComplete _ _ => false
  | .bwaitReturn _ _ => false
  | .kjoinReturn _ => false
  | .kwaitReturn _ => false
  | .kbcastwDeliver _ => false
  | .fmtwApply _ => false
  | .matrixStart _ => false
  | .matrixComplete _ => false
  | .copyUnitWrite _ => false
  | .copyComplete _ => false
  | .copyRetranslate _ => false
  | .nmrReduceApply _ => false
  | .reducePacketReceive _ => false
  | .faultRecordMerge => false
  | .faultNotify _ => false
  | .heldFaultEntryWrite => false
  | .shootdownAck _ _ => false
  | .recordRead _ => false
  | .jobPlace _ => false
  | .jobAging _ => false
  | .headWaitExpiry => false
  | .priorityPreempt => false
  | .haltBoundary _ _ => false
  | .contextSaveDone _ => false
  | .coreFinish _ => false
  | .undeliveredEntryWrite => false
  | .prodWrite _ _ => false
  | .qctlWrite _ _ => false
  | .fctlWrite _ => false
  | .cctlWrite _ => false
  | .plimitWrite _ => false
  | .registerWrite _ _ => false
  | .retire => false
  | .cancel => false
  | .answer => false
  | .shoot => false
  | .import => false
  | .unimport => false
  | .pkgAdd _ => false
  | .pkgDrop => false
  | .identify => false
  | .spdm => false
  | .fwStage => false
  | .fwCommit => false
  | .record => false
  | .recordClear => false
  | .restart => false
  | .fenceCommand => false
  | .mailboxBadOp => false
  | .hostMemAccess _ => false
  | .flitReceive _ _ => false
  | .linkWidthChange _ _ => false
  | .retrainAttemptEnd _ _ => false
  | .partStart _ => false
  | .inFieldTest _ _ _ => false
  | .classFence _ _ => false
  | .phaseLoss _ _ => false
  | .throttleStep _ => false
  | .powerStateEntry => false
  | .powerStateExit => false
  | .laneGroupGate _ _ => false
  | .laneGroupUngate _ _ => false
  | .correctedError _ _ _ => false
  | .uncorrectableError _ _ _ => false
  | .sandboxViolation _ _ => false
  | .stalledRasEntryWrite => false
  | .illegalInstruction _ => false
  | .laneGroupRetire _ _ => false

/-- The access sizes of the control hart's loads and stores (RISC-V base, R90). -/
def Rv.wf (i : Rv) : Bool :=
  match i with
  | .load bytes unsigned _ _ _ => (bytes == 1 || bytes == 2 || bytes == 4) || (bytes == 8 && !unsigned)
  | .store bytes _ _ _ => bytes == 1 || bytes == 2 || bytes == 4 || bytes == 8
  | .lui _ _ | .auipc _ _ | .jal _ _ | .jalr _ _ _ | .branch _ _ _ _ | .aluImm _ _ _ _ | .alu _ _ _ _
  | .aluWImm _ _ _ _ | .aluW _ _ _ _ | .unary _ _ _ | .fence | .fenceI | .ecall | .ebreak | .mret | .wfi
  | .csr _ _ _ _ | .lr _ _ _ _ _ | .sc _ _ _ _ _ _ | .amo _ _ _ _ _ _ _ | .illegal _ => true

/-- The well-formed instructions. -/
def Instr.wf (i : Instr) : Bool :=
  match i with
  | .add _ _ _ => true
  | .sub _ _ _ => true
  | .and _ _ _ => true
  | .or _ _ _ => true
  | .xor _ _ _ => true
  | .andn _ _ _ => true
  | .sll _ _ _ => true
  | .srl _ _ _ => true
  | .sra _ _ _ => true
  | .slt _ _ _ => true
  | .sltu _ _ _ => true
  | .min _ _ _ => true
  | .max _ _ _ => true
  | .minu _ _ _ => true
  | .maxu _ _ _ => true
  | .clz _ _ => true
  | .ctz _ _ => true
  | .popc _ _ => true
  | .mul _ _ _ => true
  | .bfx _ _ _ => true
  | .bfi _ _ _ => true
  | .fsh _ _ _ _ => true
  | .slli _ _ _ => true
  | .srli _ _ _ => true
  | .srai _ _ _ => true
  | .jalr _ _ _ => true
  | .lb _ _ _ _ _ => true
  | .lh _ _ _ _ _ => true
  | .lw _ _ _ _ _ => true
  | .ld _ _ _ _ _ => true
  | .lbu _ _ _ _ _ => true
  | .lhu _ _ _ _ _ => true
  | .lwu _ _ _ _ _ => true
  | .sb _ _ _ _ _ => true
  | .sh _ _ _ _ _ => true
  | .sw _ _ _ _ _ => true
  | .sd _ _ _ _ _ => true
  | .stop => true
  | .go _ => true
  | .signal _ => true
  | .vpost _ _ => true
  | .vtake _ _ => true
  | .addi _ _ _ => true
  | .andi _ _ _ => true
  | .ori _ _ _ => true
  | .xori _ _ _ => true
  | .slti _ _ _ => true
  | .sltiu _ _ _ => true
  | .jal _ _ => true
  | .lui _ _ => true
  | .lpc _ _ => true
  | .beq _ _ _ => true
  | .bne _ _ _ => true
  | .blt _ _ _ => true
  | .bge _ _ _ => true
  | .bltu _ _ _ => true
  | .bgeu _ _ _ => true
  | .vcfg _ t => tagCode t
  | .vgrp _ => true
  | .vtag _ t => tagCode t
  | .stripLt _ _ _ w => decide (w ≠ 7)
  | .stripLe _ _ _ w => decide (w ≠ 7)
  | .stripLtu _ _ _ w => decide (w ≠ 7)
  | .stripLeu _ _ _ w => decide (w ≠ 7)
  | .stripN _ _ w => decide (w ≠ 7)
  | .vcmpEq d _ _ m _ _ => governing m && maskReg d
  | .vcmpNe d _ _ m _ _ => governing m && maskReg d
  | .vcmpLt d _ _ m _ _ => governing m && maskReg d
  | .vcmpLe d _ _ m _ _ => governing m && maskReg d
  | .vcmpGt d _ _ m _ _ => governing m && maskReg d
  | .vcmpGe d _ _ m _ _ => governing m && maskReg d
  | .mand d a b => maskReg d && maskReg a && maskReg b
  | .mor d a b => maskReg d && maskReg a && maskReg b
  | .mxor d a b => maskReg d && maskReg a && maskReg b
  | .mandn d a b => maskReg d && maskReg a && maskReg b
  | .mnot d a => maskReg d && maskReg a
  | .mmov d a => maskReg d && maskReg a
  | .mset d => maskReg d
  | .mclr d => maskReg d
  | .mshl d a _ => maskReg d && maskReg a
  | .mshr d a _ => maskReg d && maskReg a
  | .mbrk d a => maskReg d && maskReg a
  | .mcnt _ a => maskReg a
  | .mfirst _ a => maskReg a
  | .mlast _ a => maskReg a
  | .mfromidx d _ m _ => governing m && maskReg d
  | .vadd _ _ _ m _ _ => governing m
  | .vsub _ _ _ m _ _ => governing m
  | .vadc _ _ _ k _ _ => maskReg k
  | .vsbc _ _ _ k _ _ => maskReg k
  | .vmin _ _ _ m _ _ => governing m
  | .vmax _ _ _ m _ _ => governing m
  | .vminu _ _ _ m _ _ => governing m
  | .vmaxu _ _ _ m _ _ => governing m
  | .vsadd _ _ _ m _ _ => governing m
  | .vssub _ _ _ m _ _ => governing m
  | .vabs _ _ m _ => governing m
  | .vneg _ _ m _ => governing m
  | .vand _ _ _ m _ _ => governing m
  | .vor _ _ _ m _ _ => governing m
  | .vxor _ _ _ m _ _ => governing m
  | .vandn _ _ _ m _ _ => governing m
  | .vnot _ _ m _ => governing m
  | .vshl _ _ _ m _ _ => governing m
  | .vshr _ _ _ m _ _ => governing m
  | .vsra _ _ _ m _ _ => governing m
  | .vrot _ _ _ m _ _ => governing m
  | .vfsh _ _ _ m _ _ => governing m
  | .vmulh _ _ _ m _ _ rm => governing m && decide (rm ≠ .rsd)
  | .vavg _ _ _ m _ _ rm => governing m && decide (rm ≠ .rsd)
  | .vmul _ _ _ m _ _ => governing m
  | .vpopc _ _ m _ => governing m
  | .vclz _ _ m _ => governing m
  | .vbfx _ _ _ m _ _ => governing m
  | .vbfi _ _ _ m _ _ => governing m
  | .vsel _ _ _ m _ _ => governing m
  | .vdup _ _ m => governing m
  | .viota _ m => governing m
  | .vmov _ _ m _ => governing m
  | .vredsum _ _ _ m _ _ => governing m
  | .vredmin _ _ _ m _ _ => governing m
  | .vredmax _ _ _ m _ _ => governing m
  | .vredand _ _ _ m _ _ => governing m
  | .vredor _ _ _ m _ _ => governing m
  | .vredxor _ _ _ m _ _ => governing m
  | .vslup _ _ _ m _ => governing m
  | .vsldn _ _ _ m _ => governing m
  | .vgath _ _ _ m _ _ => governing m
  | .vcomp _ _ m _ => governing m
  | .vexpd _ _ m _ => governing m
  | .vzip _ _ _ m _ _ => governing m
  | .vunzip _ _ _ m _ _ => governing m
  | .vrev _ _ m _ => governing m
  | .vtopk _ _ _ m _ => governing m
  | .visect d _ _ m _ _ => governing m && maskReg d
  | .vconf d _ m _ => governing m && maskReg d
  | .vld _ _ m => governing m
  | .vst _ _ m _ => governing m
  | .vldff _ _ m => governing m
  | .vpf _ m => governing m
  | .vlds _ _ _ m => governing m
  | .vsts _ _ _ m _ => governing m
  | .vldx _ _ _ m _ => governing m
  | .vstx _ _ _ m _ _ => governing m
  | .vldseg _ _ m => governing m
  | .vstseg _ _ m _ => governing m
  | .vamoAdd _ _ _ m _ _ => governing m
  | .vamoMin _ _ _ m _ _ => governing m
  | .vamoMax _ _ _ m _ _ => governing m
  | .vamoAnd _ _ _ m _ _ => governing m
  | .vamoOr _ _ _ m _ _ => governing m
  | .vamoXor _ _ _ m _ _ => governing m
  | .vamoSwap _ _ _ m _ _ => governing m
  | .vcas _ _ _ m _ _ => governing m
  | .vsca _ _ _ m _ _ => governing m
  | .vfacc _ _ _ m _ _ => governing m
  | .vrred _ _ _ m _ => governing m
  | .memoryAttributeWord _ od next => next.acceptsOrdering od && next.wf
  | .fence _ => true
  | .convoy => true
  | .fadd _ _ _ m _ _ _ => governing m
  | .fsub _ _ _ m _ _ _ => governing m
  | .fmul _ _ _ m _ _ _ => governing m
  | .fma _ _ _ m _ _ _ => governing m
  | .fdiv _ _ _ m _ _ _ => governing m
  | .fsqrt _ _ m _ _ => governing m
  | .fcvt _ _ m _ _ => governing m
  | .fround _ _ m _ _ => governing m
  | .fscale _ _ _ m _ _ _ => governing m
  | .fspecExp2 _ _ m _ _ => governing m
  | .fspecLog2 _ _ m _ _ => governing m
  | .fspecRcp _ _ m _ _ => governing m
  | .fspecRsqrt _ _ m _ _ => governing m
  | .fspecTanh _ _ m _ _ => governing m
  | .fspecSigmoid _ _ m _ _ => governing m
  | .fmin _ _ _ m _ _ => governing m
  | .fmax _ _ _ m _ _ => governing m
  | .fabs _ _ m _ => governing m
  | .fneg _ _ m _ => governing m
  | .fredsum _ _ _ m _ => governing m
  | .fredmax _ _ m _ => governing m
  | .vblk _ _ _ m _ => governing m
  | .vunblk _ _ _ m _ => governing m
  | .fcell _ _ _ m _ => governing m
  | .mopa d _ _ _ _ => tileReg d
  | .mopas d _ _ k _ _ => maskReg k && tileReg d
  | .mclzE0 _ _ _ _ _ => true
  | .mclzE1 _ _ _ _ _ => true
  | .mrnd _ a _ m _ => governing m && tileReg a
  | .mshape _ _ => true
  | .manch d _ => tileReg d
  | .mzero d => tileReg d
  | .mstat _ a => tileReg a
  | .mrow _ a _ => tileReg a
  | .mwrow d _ _ _ => tileReg d
  | .msave _ a => tileReg a
  | .mload d _ => tileReg d
  | .cdraw d _ m _ => governing m && maskReg d
  | .cprob _ _ _ m _ => governing m
  | .cfb1 _ _ _ m _ _ => governing m
  | .cfb2 _ _ _ m _ _ => governing m
  | .cstep _ _ m _ => governing m
  | .cadd _ _ m _ => governing m
  | .xcp _ _ _ _ _ => true
  | .xcp2 _ _ _ _ _ => true
  | .xgat _ _ _ _ _ => true
  | .xpg _ _ _ _ _ => true
  | .bini _ _ _ _ => true
  | .barr _ _ _ _ _ => true
  | .bexp _ _ _ _ _ => true
  | .bwait _ _ _ _ _ => true
  | .btest _ _ _ _ _ => true
  | .qini _ _ _ _ => true
  | .qenq _ _ _ _ _ => true
  | .qdeq _ _ _ _ _ => true
  | .scrr _ n => assignedReg n
  | .scrw _ n => assignedReg n
  | .trap _ => true
  | .tret => true
  | .vsave _ _ => true
  | .vrest _ _ => true
  | .vdirty _ _ => true
  | .rdtime _ => true
  | .rdcyc _ => true
  | .cap _ _ => true
  | .brk _ => true
  | .kbcast _ _ _ => true
  | .kbcastw _ _ _ => true
  | .kgo _ _ _ => true
  | .kjoin _ _ => true
  | .kwait _ _ => true
  | .ksget _ _ _ => true
  | .ksput _ _ _ => true
  | .kfarm _ _ _ => true
  | .kresume _ _ => true
  | .kcfgExit _ => true
  | .kcfgWdog _ _ => true
  | .kcfgFmtw _ _ _ => true
  | .kcfgLclr _ _ => true
  | .controlHartInstruction i _ => i.wf
  | .strandEventInterrupt p => decide (p < 192)
  | .kpreWrite p _ => decide (p < 192)
  | .preemptStop p k _ => decide (p < 192) && decide (k < 24)
  | .watchdogExpiry p k => decide (p < 192) && decide (k < 24)
  | .blockStart p k => decide (p < 192) && decide (k < 24)
  | .issueStarvationPromotion p k => decide (p < 192) && decide (k < 24)
  | .memoryResponse p k => decide (p < 192) && decide (k < 24)
  | .signalLatch p k => decide (p < 192) && decide (k < 24)
  | .vpostComplete p k => decide (p < 192) && decide (k < 24)
  | .vtakeComplete p k => decide (p < 192) && decide (k < 24)
  | .bwaitReturn p k => decide (p < 192) && decide (k < 24)
  | .kjoinReturn p => decide (p < 192)
  | .kwaitReturn p => decide (p < 192)
  | .kbcastwDeliver p => decide (p < 192)
  | .fmtwApply p => decide (p < 192)
  | .matrixStart p => decide (p < 192)
  | .matrixComplete p => decide (p < 192)
  | .copyUnitWrite p => decide (p < 192)
  | .copyComplete p => decide (p < 192)
  | .copyRetranslate p => decide (p < 192)
  | .nmrReduceApply stack => decide (stack < 8)
  | .reducePacketReceive _ => true
  | .faultRecordMerge => true
  | .faultNotify _ => true
  | .heldFaultEntryWrite => true
  | .shootdownAck p _ => decide (p < 192)
  | .recordRead c => decide (c < 8)
  | .jobPlace _ => true
  | .jobAging _ => true
  | .headWaitExpiry => true
  | .priorityPreempt => true
  | .haltBoundary p _ => decide (p < 192)
  | .contextSaveDone _ => true
  | .coreFinish p => decide (p < 192)
  | .undeliveredEntryWrite => true
  | .prodWrite c _ => decide (c < 8)
  | .qctlWrite c _ => decide (c < 8)
  | .fctlWrite _ => true
  | .cctlWrite _ => true
  | .plimitWrite _ => true
  | .registerWrite _ _ => true
  | .retire => true
  | .cancel => true
  | .answer => true
  | .shoot => true
  | .import => true
  | .unimport => true
  | .pkgAdd _ => true
  | .pkgDrop => true
  | .identify => true
  | .spdm => true
  | .fwStage => true
  | .fwCommit => true
  | .record => true
  | .recordClear => true
  | .restart => true
  | .fenceCommand => true
  | .mailboxBadOp => true
  | .hostMemAccess _ => true
  | .flitReceive port _ => decide (port < 18)
  | .linkWidthChange port width => decide (port < 18) && decide (1 ≤ width ∧ width ≤ 3)
  | .retrainAttemptEnd port _ => decide (port < 18)
  | .partStart _ => true
  | .inFieldTest p cls _ => decide (p < 192) && classBit cls
  | .classFence p cls => decide (p < 192) && classBit cls
  | .phaseLoss die phases => decide (die < 4 ∧ phases ≤ 16)
  | .throttleStep _ => true
  | .powerStateEntry => true
  | .powerStateExit => true
  | .laneGroupGate p g => decide (p < 192) && decide (g < 4)
  | .laneGroupUngate p g => decide (p < 192) && decide (g < 4)
  | .correctedError _ _ _ => true
  | .uncorrectableError _ _ _ => true
  | .sandboxViolation _ _ => true
  | .stalledRasEntryWrite => true
  | .illegalInstruction _ => true
  | .laneGroupRetire p g => decide (p < 192) && decide (g < 4)

end Sys2Proof
end

