-- ==== Sys2Proof/Decode.lean ====
section
/-! DEFINITION. Decoding: from the words a strand or a control hart fetches to instructions, by the encodings of
the opcode map (R46 to R61), and the encoder written from the same tables. Fields are taken by division, so that
the decoder is Nat arithmetic. -/

namespace Sys2Proof

/-- Why bytes are no instruction. -/
inductive Reject where
  /-- Fewer bytes than the instruction has. -/
  | tooShort
  /-- The all-zero or all-ones word (R56; check 1 of R57). -/
  | zeroOrOnes
  /-- No row of the opcode map, or a reserved bit is set (checks 2 and 3 of R57). -/
  | noRow
  /-- A code, mask, tile, tag or register number that the row does not allow (checks 2 to 4 of R57). -/
  | badField
  /-- The attribute word's conditions of R55 fail. -/
  | badAttribute
  deriving DecidableEq, Repr

/-- Bits lo to lo + len - 1 of a word. -/
def fieldOf (n lo len : Nat) : Nat := n / 2 ^ lo % 2 ^ len

/-- A 5-bit field as a register number. -/
def regOf (n lo : Nat) : Reg := BitVec.ofNat 5 (fieldOf n lo 5)

/-- One bit. -/
def bitOf (n lo : Nat) : Bool := fieldOf n lo 1 == 1

/-- SCOPE codes; 6 and 7 are illegal (R49). -/
def scopeOf (c : Nat) : Option Scope :=
  match c with
  | 0 => some .strand | 1 => some .core | 2 => some .die | 3 => some .dev | 4 => some .fab | 5 => some .sys
  | _ => none

/-- The code of a scope. -/
def scopeCode (sc : Scope) : Nat :=
  match sc with
  | .strand => 0 | .core => 1 | .die => 2 | .dev => 3 | .fab => 4 | .sys => 5

/-- ORD codes (R49). -/
def orderingOf (c : Nat) : Ordering :=
  match c with
  | 0 => .rlx | 1 => .acq | 2 => .rel | _ => .acqRel

/-- The code of an order. -/
def orderingCode (od : Ordering) : Nat :=
  match od with
  | .rlx => 0 | .acq => 1 | .rel => 2 | .acqRel => 3

/-- RM codes; 6 and 7 are illegal (R49). -/
def roundingOf (c : Nat) : Option Rounding :=
  match c with
  | 0 => some .rne | 1 => some .rz | 2 => some .rdn | 3 => some .rup | 4 => some .rna | 5 => some .rsd
  | _ => none

/-- The code of a rounding mode. -/
def roundingCode (rm : Rounding) : Nat :=
  match rm with
  | .rne => 0 | .rz => 1 | .rdn => 2 | .rup => 3 | .rna => 4 | .rsd => 5

/-- Words of major 0x01, part 1 (R50). -/
def decodeMajor01Part1 (n : Nat) : Option Instr :=
  if fieldOf n 0 11 = 0 then some (.add (regOf n 21) (regOf n 16) (regOf n 11))
  else if fieldOf n 0 11 = 64 then some (.sub (regOf n 21) (regOf n 16) (regOf n 11))
  else if fieldOf n 0 11 = 128 then some (.and (regOf n 21) (regOf n 16) (regOf n 11))
  else if fieldOf n 0 11 = 192 then some (.or (regOf n 21) (regOf n 16) (regOf n 11))
  else if fieldOf n 0 11 = 256 then some (.xor (regOf n 21) (regOf n 16) (regOf n 11))
  else if fieldOf n 0 11 = 320 then some (.andn (regOf n 21) (regOf n 16) (regOf n 11))
  else if fieldOf n 0 11 = 384 then some (.sll (regOf n 21) (regOf n 16) (regOf n 11))
  else if fieldOf n 0 11 = 448 then some (.srl (regOf n 21) (regOf n 16) (regOf n 11))
  else if fieldOf n 0 11 = 512 then some (.sra (regOf n 21) (regOf n 16) (regOf n 11))
  else if fieldOf n 0 11 = 576 then some (.slt (regOf n 21) (regOf n 16) (regOf n 11))
  else if fieldOf n 0 11 = 640 then some (.sltu (regOf n 21) (regOf n 16) (regOf n 11))
  else if fieldOf n 0 11 = 704 then some (.min (regOf n 21) (regOf n 16) (regOf n 11))
  else if fieldOf n 0 11 = 768 then some (.max (regOf n 21) (regOf n 16) (regOf n 11))
  else if fieldOf n 0 11 = 832 then some (.minu (regOf n 21) (regOf n 16) (regOf n 11))
  else none

/-- Words of major 0x01, part 2 (R50). -/
def decodeMajor01Part2 (n : Nat) : Option Instr :=
  if fieldOf n 0 11 = 896 then some (.maxu (regOf n 21) (regOf n 16) (regOf n 11))
  else if fieldOf n 0 16 = 960 then some (.clz (regOf n 21) (regOf n 16))
  else if fieldOf n 0 16 = 1024 then some (.ctz (regOf n 21) (regOf n 16))
  else if fieldOf n 0 16 = 1088 then some (.popc (regOf n 21) (regOf n 16))
  else if fieldOf n 0 11 = 1152 then some (.mul (regOf n 21) (regOf n 16) (regOf n 11))
  else if fieldOf n 0 11 = 1216 then some (.bfx (regOf n 21) (regOf n 16) (regOf n 11))
  else if fieldOf n 0 11 = 1280 then some (.bfi (regOf n 21) (regOf n 16) (regOf n 11))
  else if fieldOf n 6 5 = 21 then some (.fsh (regOf n 21) (regOf n 16) (regOf n 11) (BitVec.ofNat 6 (fieldOf n 0 6)))
  else if fieldOf n 6 10 = 22 then some (.slli (regOf n 21) (regOf n 16) (BitVec.ofNat 6 (fieldOf n 0 6)))
  else if fieldOf n 6 10 = 23 then some (.srli (regOf n 21) (regOf n 16) (BitVec.ofNat 6 (fieldOf n 0 6)))
  else if fieldOf n 6 10 = 24 then some (.srai (regOf n 21) (regOf n 16) (BitVec.ofNat 6 (fieldOf n 0 6)))
  else if fieldOf n 0 11 = 1600 then some (.jalr (regOf n 21) (regOf n 16) (regOf n 11))
  else if fieldOf n 0 2 = 0 ∧ fieldOf n 6 5 = 26 then (scopeOf (fieldOf n 3 3)).map fun sc => .lb (regOf n 21) (regOf n 16) (regOf n 11) sc (bitOf n 2)
  else if fieldOf n 0 2 = 1 ∧ fieldOf n 6 5 = 26 then (scopeOf (fieldOf n 3 3)).map fun sc => .lh (regOf n 21) (regOf n 16) (regOf n 11) sc (bitOf n 2)
  else none

/-- Words of major 0x01, part 3 (R50). -/
def decodeMajor01Part3 (n : Nat) : Option Instr :=
  if fieldOf n 0 2 = 2 ∧ fieldOf n 6 5 = 26 then (scopeOf (fieldOf n 3 3)).map fun sc => .lw (regOf n 21) (regOf n 16) (regOf n 11) sc (bitOf n 2)
  else if fieldOf n 0 2 = 3 ∧ fieldOf n 6 5 = 26 then (scopeOf (fieldOf n 3 3)).map fun sc => .ld (regOf n 21) (regOf n 16) (regOf n 11) sc (bitOf n 2)
  else if fieldOf n 0 2 = 0 ∧ fieldOf n 6 5 = 27 then (scopeOf (fieldOf n 3 3)).map fun sc => .lbu (regOf n 21) (regOf n 16) (regOf n 11) sc (bitOf n 2)
  else if fieldOf n 0 2 = 1 ∧ fieldOf n 6 5 = 27 then (scopeOf (fieldOf n 3 3)).map fun sc => .lhu (regOf n 21) (regOf n 16) (regOf n 11) sc (bitOf n 2)
  else if fieldOf n 0 2 = 2 ∧ fieldOf n 6 5 = 27 then (scopeOf (fieldOf n 3 3)).map fun sc => .lwu (regOf n 21) (regOf n 16) (regOf n 11) sc (bitOf n 2)
  else if fieldOf n 0 2 = 0 ∧ fieldOf n 6 5 = 28 then (scopeOf (fieldOf n 3 3)).map fun sc => .sb (regOf n 21) (regOf n 16) (regOf n 11) sc (bitOf n 2)
  else if fieldOf n 0 2 = 1 ∧ fieldOf n 6 5 = 28 then (scopeOf (fieldOf n 3 3)).map fun sc => .sh (regOf n 21) (regOf n 16) (regOf n 11) sc (bitOf n 2)
  else if fieldOf n 0 2 = 2 ∧ fieldOf n 6 5 = 28 then (scopeOf (fieldOf n 3 3)).map fun sc => .sw (regOf n 21) (regOf n 16) (regOf n 11) sc (bitOf n 2)
  else if fieldOf n 0 2 = 3 ∧ fieldOf n 6 5 = 28 then (scopeOf (fieldOf n 3 3)).map fun sc => .sd (regOf n 21) (regOf n 16) (regOf n 11) sc (bitOf n 2)
  else if fieldOf n 0 26 = 1856 then some .stop
  else if fieldOf n 0 16 = 1857 ∧ fieldOf n 21 5 = 0 then some (.go (regOf n 16))
  else if fieldOf n 0 16 = 1858 ∧ fieldOf n 21 5 = 0 then some (.signal (regOf n 16))
  else if fieldOf n 0 3 = 3 ∧ fieldOf n 6 5 = 29 ∧ fieldOf n 16 10 = 0 then some (.vpost (regOf n 11) (BitVec.ofNat 3 (fieldOf n 3 3)))
  else if fieldOf n 0 3 = 4 ∧ fieldOf n 6 15 = 29 then some (.vtake (regOf n 21) (BitVec.ofNat 3 (fieldOf n 3 3)))
  else none

/-- Words of major 0x01 (R50). -/
def decodeMajor01 (n : Nat) : Option Instr :=
  decodeMajor01Part1 n <|> decodeMajor01Part2 n <|> decodeMajor01Part3 n

/-- Words of major 0x02 (R50). -/
def decodeMajor02 (n : Nat) : Option Instr :=
  some (.addi (regOf n 21) (regOf n 16) (BitVec.ofNat 16 (fieldOf n 0 16)))

/-- Words of major 0x03 (R50). -/
def decodeMajor03 (n : Nat) : Option Instr :=
  some (.andi (regOf n 21) (regOf n 16) (BitVec.ofNat 16 (fieldOf n 0 16)))

/-- Words of major 0x04 (R50). -/
def decodeMajor04 (n : Nat) : Option Instr :=
  some (.ori (regOf n 21) (regOf n 16) (BitVec.ofNat 16 (fieldOf n 0 16)))

/-- Words of major 0x05 (R50). -/
def decodeMajor05 (n : Nat) : Option Instr :=
  some (.xori (regOf n 21) (regOf n 16) (BitVec.ofNat 16 (fieldOf n 0 16)))

/-- Words of major 0x06 (R50). -/
def decodeMajor06 (n : Nat) : Option Instr :=
  some (.slti (regOf n 21) (regOf n 16) (BitVec.ofNat 16 (fieldOf n 0 16)))

/-- Words of major 0x07 (R50). -/
def decodeMajor07 (n : Nat) : Option Instr :=
  some (.sltiu (regOf n 21) (regOf n 16) (BitVec.ofNat 16 (fieldOf n 0 16)))

/-- Words of major 0x08 (R50). -/
def decodeMajor08 (n : Nat) : Option Instr :=
  some (.jal (regOf n 21) (BitVec.ofNat 21 (fieldOf n 0 21)))

/-- Words of major 0x09 (R50). -/
def decodeMajor09 (n : Nat) : Option Instr :=
  if fieldOf n 20 1 = 0 then some (.lui (regOf n 21) (BitVec.ofNat 20 (fieldOf n 0 20)))
  else if fieldOf n 20 1 = 1 then some (.lpc (regOf n 21) (BitVec.ofNat 20 (fieldOf n 0 20)))
  else none

/-- Words of major 0x0A (R50). -/
def decodeMajor0A (n : Nat) : Option Instr :=
  some (.beq (regOf n 21) (regOf n 16) (BitVec.ofNat 16 (fieldOf n 0 16)))

/-- Words of major 0x0B (R50). -/
def decodeMajor0B (n : Nat) : Option Instr :=
  some (.bne (regOf n 21) (regOf n 16) (BitVec.ofNat 16 (fieldOf n 0 16)))

/-- Words of major 0x0C (R50). -/
def decodeMajor0C (n : Nat) : Option Instr :=
  some (.blt (regOf n 21) (regOf n 16) (BitVec.ofNat 16 (fieldOf n 0 16)))

/-- Words of major 0x0D (R50). -/
def decodeMajor0D (n : Nat) : Option Instr :=
  some (.bge (regOf n 21) (regOf n 16) (BitVec.ofNat 16 (fieldOf n 0 16)))

/-- Words of major 0x0E (R50). -/
def decodeMajor0E (n : Nat) : Option Instr :=
  some (.bltu (regOf n 21) (regOf n 16) (BitVec.ofNat 16 (fieldOf n 0 16)))

/-- Words of major 0x0F (R50). -/
def decodeMajor0F (n : Nat) : Option Instr :=
  some (.bgeu (regOf n 21) (regOf n 16) (BitVec.ofNat 16 (fieldOf n 0 16)))

/-- Words of major 0x10 (R50). -/
def decodeMajor10 (n : Nat) : Option Instr :=
  if fieldOf n 0 11 = 0 ∧ fieldOf n 18 3 = 0 ∧ fieldOf n 23 3 = 0 then some (.vcfg (BitVec.ofNat 2 (fieldOf n 21 2)) (BitVec.ofNat 7 (fieldOf n 11 7)))
  else if fieldOf n 0 21 = 1 ∧ fieldOf n 23 3 = 0 then some (.vgrp (BitVec.ofNat 2 (fieldOf n 21 2)))
  else if fieldOf n 0 11 = 2 ∧ fieldOf n 18 3 = 0 then some (.vtag (regOf n 21) (BitVec.ofNat 7 (fieldOf n 11 7)))
  else none

/-- Words of major 0x11 (R50). -/
def decodeMajor11 (n : Nat) : Option Instr :=
  if fieldOf n 3 8 = 0 then some (.stripLt (regOf n 21) (regOf n 16) (regOf n 11) (BitVec.ofNat 3 (fieldOf n 0 3)))
  else if fieldOf n 3 8 = 8 then some (.stripLe (regOf n 21) (regOf n 16) (regOf n 11) (BitVec.ofNat 3 (fieldOf n 0 3)))
  else if fieldOf n 3 8 = 16 then some (.stripLtu (regOf n 21) (regOf n 16) (regOf n 11) (BitVec.ofNat 3 (fieldOf n 0 3)))
  else if fieldOf n 3 8 = 24 then some (.stripLeu (regOf n 21) (regOf n 16) (regOf n 11) (BitVec.ofNat 3 (fieldOf n 0 3)))
  else if fieldOf n 3 13 = 32 then some (.stripN (regOf n 21) (regOf n 16) (BitVec.ofNat 3 (fieldOf n 0 3)))
  else none

/-- Words of major 0x12 (R50). -/
def decodeMajor12 (n : Nat) : Option Instr :=
  if fieldOf n 0 4 = 0 then some (.vcmpEq (regOf n 21) (regOf n 16) (regOf n 11) (regOf n 6) (bitOf n 5) (bitOf n 4))
  else if fieldOf n 0 4 = 1 then some (.vcmpNe (regOf n 21) (regOf n 16) (regOf n 11) (regOf n 6) (bitOf n 5) (bitOf n 4))
  else if fieldOf n 0 4 = 2 then some (.vcmpLt (regOf n 21) (regOf n 16) (regOf n 11) (regOf n 6) (bitOf n 5) (bitOf n 4))
  else if fieldOf n 0 4 = 3 then some (.vcmpLe (regOf n 21) (regOf n 16) (regOf n 11) (regOf n 6) (bitOf n 5) (bitOf n 4))
  else if fieldOf n 0 4 = 4 then some (.vcmpGt (regOf n 21) (regOf n 16) (regOf n 11) (regOf n 6) (bitOf n 5) (bitOf n 4))
  else if fieldOf n 0 4 = 5 then some (.vcmpGe (regOf n 21) (regOf n 16) (regOf n 11) (regOf n 6) (bitOf n 5) (bitOf n 4))
  else none

/-- Words of major 0x13 (R50). -/
def decodeMajor13 (n : Nat) : Option Instr :=
  if fieldOf n 0 11 = 0 then some (.mand (regOf n 21) (regOf n 16) (regOf n 11))
  else if fieldOf n 0 11 = 1 then some (.mor (regOf n 21) (regOf n 16) (regOf n 11))
  else if fieldOf n 0 11 = 2 then some (.mxor (regOf n 21) (regOf n 16) (regOf n 11))
  else if fieldOf n 0 11 = 3 then some (.mandn (regOf n 21) (regOf n 16) (regOf n 11))
  else if fieldOf n 0 16 = 4 then some (.mnot (regOf n 21) (regOf n 16))
  else if fieldOf n 0 16 = 5 then some (.mmov (regOf n 21) (regOf n 16))
  else if fieldOf n 0 21 = 6 then some (.mset (regOf n 21))
  else if fieldOf n 0 21 = 7 then some (.mclr (regOf n 21))
  else if fieldOf n 0 11 = 8 then some (.mshl (regOf n 21) (regOf n 16) (regOf n 11))
  else if fieldOf n 0 11 = 9 then some (.mshr (regOf n 21) (regOf n 16) (regOf n 11))
  else if fieldOf n 0 16 = 10 then some (.mbrk (regOf n 21) (regOf n 16))
  else none

/-- Words of major 0x14 (R50). -/
def decodeMajor14 (n : Nat) : Option Instr :=
  if fieldOf n 0 16 = 0 then some (.mcnt (regOf n 21) (regOf n 16))
  else if fieldOf n 0 16 = 1 then some (.mfirst (regOf n 21) (regOf n 16))
  else if fieldOf n 0 16 = 2 then some (.mlast (regOf n 21) (regOf n 16))
  else if fieldOf n 0 5 = 3 ∧ fieldOf n 11 5 = 0 then some (.mfromidx (regOf n 21) (regOf n 16) (regOf n 6) (bitOf n 5))
  else none

/-- Words of major 0x18 (R50). -/
def decodeMajor18 (n : Nat) : Option Instr :=
  if fieldOf n 0 4 = 0 then some (.vadd (regOf n 21) (regOf n 16) (regOf n 11) (regOf n 6) (bitOf n 5) (bitOf n 4))
  else if fieldOf n 0 4 = 1 then some (.vsub (regOf n 21) (regOf n 16) (regOf n 11) (regOf n 6) (bitOf n 5) (bitOf n 4))
  else if fieldOf n 0 4 = 2 then some (.vadc (regOf n 21) (regOf n 16) (regOf n 11) (regOf n 6) (bitOf n 5) (bitOf n 4))
  else if fieldOf n 0 4 = 3 then some (.vsbc (regOf n 21) (regOf n 16) (regOf n 11) (regOf n 6) (bitOf n 5) (bitOf n 4))
  else if fieldOf n 0 4 = 4 then some (.vmin (regOf n 21) (regOf n 16) (regOf n 11) (regOf n 6) (bitOf n 5) (bitOf n 4))
  else if fieldOf n 0 4 = 5 then some (.vmax (regOf n 21) (regOf n 16) (regOf n 11) (regOf n 6) (bitOf n 5) (bitOf n 4))
  else if fieldOf n 0 4 = 6 then some (.vminu (regOf n 21) (regOf n 16) (regOf n 11) (regOf n 6) (bitOf n 5) (bitOf n 4))
  else if fieldOf n 0 4 = 7 then some (.vmaxu (regOf n 21) (regOf n 16) (regOf n 11) (regOf n 6) (bitOf n 5) (bitOf n 4))
  else if fieldOf n 0 4 = 8 then some (.vsadd (regOf n 21) (regOf n 16) (regOf n 11) (regOf n 6) (bitOf n 5) (bitOf n 4))
  else if fieldOf n 0 4 = 9 then some (.vssub (regOf n 21) (regOf n 16) (regOf n 11) (regOf n 6) (bitOf n 5) (bitOf n 4))
  else if fieldOf n 0 5 = 10 ∧ fieldOf n 11 5 = 0 then some (.vabs (regOf n 21) (regOf n 16) (regOf n 6) (bitOf n 5))
  else if fieldOf n 0 5 = 11 ∧ fieldOf n 11 5 = 0 then some (.vneg (regOf n 21) (regOf n 16) (regOf n 6) (bitOf n 5))
  else none

/-- Words of major 0x19 (R50). -/
def decodeMajor19 (n : Nat) : Option Instr :=
  if fieldOf n 0 4 = 0 then some (.vand (regOf n 21) (regOf n 16) (regOf n 11) (regOf n 6) (bitOf n 5) (bitOf n 4))
  else if fieldOf n 0 4 = 1 then some (.vor (regOf n 21) (regOf n 16) (regOf n 11) (regOf n 6) (bitOf n 5) (bitOf n 4))
  else if fieldOf n 0 4 = 2 then some (.vxor (regOf n 21) (regOf n 16) (regOf n 11) (regOf n 6) (bitOf n 5) (bitOf n 4))
  else if fieldOf n 0 4 = 3 then some (.vandn (regOf n 21) (regOf n 16) (regOf n 11) (regOf n 6) (bitOf n 5) (bitOf n 4))
  else if fieldOf n 0 5 = 4 ∧ fieldOf n 11 5 = 0 then some (.vnot (regOf n 21) (regOf n 16) (regOf n 6) (bitOf n 5))
  else if fieldOf n 0 4 = 5 then some (.vshl (regOf n 21) (regOf n 16) (regOf n 11) (regOf n 6) (bitOf n 5) (bitOf n 4))
  else if fieldOf n 0 4 = 6 then some (.vshr (regOf n 21) (regOf n 16) (regOf n 11) (regOf n 6) (bitOf n 5) (bitOf n 4))
  else if fieldOf n 0 4 = 7 then some (.vsra (regOf n 21) (regOf n 16) (regOf n 11) (regOf n 6) (bitOf n 5) (bitOf n 4))
  else if fieldOf n 0 4 = 8 then some (.vrot (regOf n 21) (regOf n 16) (regOf n 11) (regOf n 6) (bitOf n 5) (bitOf n 4))
  else if fieldOf n 0 4 = 9 then some (.vfsh (regOf n 21) (regOf n 16) (regOf n 11) (regOf n 6) (bitOf n 5) (bitOf n 4))
  else none

/-- Words of major 0x1A (R50). -/
def decodeMajor1A (n : Nat) : Option Instr :=
  if fieldOf n 3 1 = 0 then (roundingOf (fieldOf n 0 3)).map fun rm => .vmulh (regOf n 21) (regOf n 16) (regOf n 11) (regOf n 6) (bitOf n 5) (bitOf n 4) rm
  else if fieldOf n 3 1 = 1 then (roundingOf (fieldOf n 0 3)).map fun rm => .vavg (regOf n 21) (regOf n 16) (regOf n 11) (regOf n 6) (bitOf n 5) (bitOf n 4) rm
  else none

/-- Words of major 0x1B (R50). -/
def decodeMajor1B (n : Nat) : Option Instr :=
  if fieldOf n 0 4 = 0 then some (.vmul (regOf n 21) (regOf n 16) (regOf n 11) (regOf n 6) (bitOf n 5) (bitOf n 4))
  else if fieldOf n 0 5 = 1 ∧ fieldOf n 11 5 = 0 then some (.vpopc (regOf n 21) (regOf n 16) (regOf n 6) (bitOf n 5))
  else if fieldOf n 0 5 = 2 ∧ fieldOf n 11 5 = 0 then some (.vclz (regOf n 21) (regOf n 16) (regOf n 6) (bitOf n 5))
  else if fieldOf n 0 4 = 3 then some (.vbfx (regOf n 21) (regOf n 16) (regOf n 11) (regOf n 6) (bitOf n 5) (bitOf n 4))
  else if fieldOf n 0 4 = 4 then some (.vbfi (regOf n 21) (regOf n 16) (regOf n 11) (regOf n 6) (bitOf n 5) (bitOf n 4))
  else none

/-- Words of major 0x1C (R50). -/
def decodeMajor1C (n : Nat) : Option Instr :=
  if fieldOf n 0 4 = 0 then some (.vsel (regOf n 21) (regOf n 16) (regOf n 11) (regOf n 6) (bitOf n 5) (bitOf n 4))
  else if fieldOf n 0 6 = 1 ∧ fieldOf n 11 5 = 0 then some (.vdup (regOf n 21) (regOf n 16) (regOf n 6))
  else if fieldOf n 0 6 = 2 ∧ fieldOf n 11 10 = 0 then some (.viota (regOf n 21) (regOf n 6))
  else if fieldOf n 0 5 = 3 ∧ fieldOf n 11 5 = 0 then some (.vmov (regOf n 21) (regOf n 16) (regOf n 6) (bitOf n 5))
  else none

/-- Words of major 0x1D (R50). -/
def decodeMajor1D (n : Nat) : Option Instr :=
  if fieldOf n 0 4 = 0 then some (.vredsum (regOf n 21) (regOf n 16) (regOf n 11) (regOf n 6) (bitOf n 5) (bitOf n 4))
  else if fieldOf n 0 4 = 1 then some (.vredmin (regOf n 21) (regOf n 16) (regOf n 11) (regOf n 6) (bitOf n 5) (bitOf n 4))
  else if fieldOf n 0 4 = 2 then some (.vredmax (regOf n 21) (regOf n 16) (regOf n 11) (regOf n 6) (bitOf n 5) (bitOf n 4))
  else if fieldOf n 0 4 = 3 then some (.vredand (regOf n 21) (regOf n 16) (regOf n 11) (regOf n 6) (bitOf n 5) (bitOf n 4))
  else if fieldOf n 0 4 = 4 then some (.vredor (regOf n 21) (regOf n 16) (regOf n 11) (regOf n 6) (bitOf n 5) (bitOf n 4))
  else if fieldOf n 0 4 = 5 then some (.vredxor (regOf n 21) (regOf n 16) (regOf n 11) (regOf n 6) (bitOf n 5) (bitOf n 4))
  else none

/-- Words of major 0x24 (R50). -/
def decodeMajor24 (n : Nat) : Option Instr :=
  if fieldOf n 0 5 = 0 then some (.vslup (regOf n 21) (regOf n 16) (regOf n 11) (regOf n 6) (bitOf n 5))
  else if fieldOf n 0 5 = 1 then some (.vsldn (regOf n 21) (regOf n 16) (regOf n 11) (regOf n 6) (bitOf n 5))
  else if fieldOf n 0 4 = 2 then some (.vgath (regOf n 21) (regOf n 16) (regOf n 11) (regOf n 6) (bitOf n 5) (bitOf n 4))
  else if fieldOf n 0 5 = 3 ∧ fieldOf n 11 5 = 0 then some (.vcomp (regOf n 21) (regOf n 16) (regOf n 6) (bitOf n 5))
  else if fieldOf n 0 5 = 4 ∧ fieldOf n 11 5 = 0 then some (.vexpd (regOf n 21) (regOf n 16) (regOf n 6) (bitOf n 5))
  else if fieldOf n 0 4 = 5 then some (.vzip (regOf n 21) (regOf n 16) (regOf n 11) (regOf n 6) (bitOf n 5) (bitOf n 4))
  else if fieldOf n 0 4 = 6 then some (.vunzip (regOf n 21) (regOf n 16) (regOf n 11) (regOf n 6) (bitOf n 5) (bitOf n 4))
  else if fieldOf n 0 5 = 7 ∧ fieldOf n 11 5 = 0 then some (.vrev (regOf n 21) (regOf n 16) (regOf n 6) (bitOf n 5))
  else none

/-- Words of major 0x25 (R50). -/
def decodeMajor25 (n : Nat) : Option Instr :=
  if fieldOf n 0 5 = 0 then some (.vtopk (regOf n 21) (regOf n 16) (regOf n 11) (regOf n 6) (bitOf n 5))
  else if fieldOf n 0 4 = 1 then some (.visect (regOf n 21) (regOf n 16) (regOf n 11) (regOf n 6) (bitOf n 5) (bitOf n 4))
  else if fieldOf n 0 5 = 2 ∧ fieldOf n 11 5 = 0 then some (.vconf (regOf n 21) (regOf n 16) (regOf n 6) (bitOf n 5))
  else none

/-- Words of major 0x28 (R50). -/
def decodeMajor28 (n : Nat) : Option Instr :=
  if fieldOf n 0 6 = 0 ∧ fieldOf n 11 5 = 0 then some (.vld (regOf n 21) (regOf n 16) (regOf n 6))
  else if fieldOf n 0 4 = 1 ∧ fieldOf n 5 1 = 0 ∧ fieldOf n 16 5 = 0 then some (.vst (regOf n 21) (regOf n 11) (regOf n 6) (bitOf n 4))
  else if fieldOf n 0 6 = 2 ∧ fieldOf n 11 5 = 0 then some (.vldff (regOf n 21) (regOf n 16) (regOf n 6))
  else if fieldOf n 0 6 = 3 ∧ fieldOf n 11 5 = 0 ∧ fieldOf n 21 5 = 0 then some (.vpf (regOf n 16) (regOf n 6))
  else none

/-- Words of major 0x29 (R50). -/
def decodeMajor29 (n : Nat) : Option Instr :=
  if fieldOf n 0 6 = 0 then some (.vlds (regOf n 21) (regOf n 16) (regOf n 11) (regOf n 6))
  else if fieldOf n 0 4 = 1 ∧ fieldOf n 5 1 = 0 then some (.vsts (regOf n 21) (regOf n 16) (regOf n 11) (regOf n 6) (bitOf n 4))
  else none

/-- Words of major 0x2A (R50). -/
def decodeMajor2A (n : Nat) : Option Instr :=
  if fieldOf n 0 4 = 0 ∧ fieldOf n 5 1 = 0 then some (.vldx (regOf n 21) (regOf n 16) (regOf n 11) (regOf n 6) (bitOf n 4))
  else if fieldOf n 0 4 = 1 then some (.vstx (regOf n 21) (regOf n 16) (regOf n 11) (regOf n 6) (bitOf n 5) (bitOf n 4))
  else none

/-- Words of major 0x2B (R50). -/
def decodeMajor2B (n : Nat) : Option Instr :=
  if fieldOf n 0 6 = 0 ∧ fieldOf n 11 5 = 0 then some (.vldseg (regOf n 21) (regOf n 16) (regOf n 6))
  else if fieldOf n 0 4 = 1 ∧ fieldOf n 5 1 = 0 ∧ fieldOf n 16 5 = 0 then some (.vstseg (regOf n 21) (regOf n 11) (regOf n 6) (bitOf n 4))
  else none

/-- Words of major 0x2C (R50). -/
def decodeMajor2C (n : Nat) : Option Instr :=
  if fieldOf n 0 4 = 0 then some (.vamoAdd (regOf n 21) (regOf n 16) (regOf n 11) (regOf n 6) (bitOf n 5) (bitOf n 4))
  else if fieldOf n 0 4 = 1 then some (.vamoMin (regOf n 21) (regOf n 16) (regOf n 11) (regOf n 6) (bitOf n 5) (bitOf n 4))
  else if fieldOf n 0 4 = 2 then some (.vamoMax (regOf n 21) (regOf n 16) (regOf n 11) (regOf n 6) (bitOf n 5) (bitOf n 4))
  else if fieldOf n 0 4 = 3 then some (.vamoAnd (regOf n 21) (regOf n 16) (regOf n 11) (regOf n 6) (bitOf n 5) (bitOf n 4))
  else if fieldOf n 0 4 = 4 then some (.vamoOr (regOf n 21) (regOf n 16) (regOf n 11) (regOf n 6) (bitOf n 5) (bitOf n 4))
  else if fieldOf n 0 4 = 5 then some (.vamoXor (regOf n 21) (regOf n 16) (regOf n 11) (regOf n 6) (bitOf n 5) (bitOf n 4))
  else if fieldOf n 0 4 = 6 then some (.vamoSwap (regOf n 21) (regOf n 16) (regOf n 11) (regOf n 6) (bitOf n 5) (bitOf n 4))
  else none

/-- Words of major 0x2D (R50). -/
def decodeMajor2D (n : Nat) : Option Instr :=
  if fieldOf n 0 4 = 0 then some (.vcas (regOf n 21) (regOf n 16) (regOf n 11) (regOf n 6) (bitOf n 5) (bitOf n 4))
  else if fieldOf n 0 4 = 1 then some (.vsca (regOf n 21) (regOf n 16) (regOf n 11) (regOf n 6) (bitOf n 5) (bitOf n 4))
  else if fieldOf n 0 4 = 2 then some (.vfacc (regOf n 21) (regOf n 16) (regOf n 11) (regOf n 6) (bitOf n 5) (bitOf n 4))
  else if fieldOf n 0 4 = 3 ∧ fieldOf n 5 1 = 0 then some (.vrred (regOf n 21) (regOf n 16) (regOf n 11) (regOf n 6) (bitOf n 4))
  else none

/-- Words of major 0x2E (R50). -/
def decodeMajor2E (n : Nat) : Option Instr :=
  if fieldOf n 0 11 = 0 ∧ fieldOf n 14 12 = 0 then (scopeOf (fieldOf n 11 3)).map fun sc => .fence sc
  else if fieldOf n 0 26 = 1 then some .convoy
  else none

/-- Words of major 0x30 (R50). -/
def decodeMajor30 (n : Nat) : Option Instr :=
  if fieldOf n 3 1 = 0 then (roundingOf (fieldOf n 0 3)).map fun rm => .fadd (regOf n 21) (regOf n 16) (regOf n 11) (regOf n 6) (bitOf n 5) (bitOf n 4) rm
  else if fieldOf n 3 1 = 1 then (roundingOf (fieldOf n 0 3)).map fun rm => .fsub (regOf n 21) (regOf n 16) (regOf n 11) (regOf n 6) (bitOf n 5) (bitOf n 4) rm
  else none

/-- Words of major 0x31 (R50). -/
def decodeMajor31 (n : Nat) : Option Instr :=
  if fieldOf n 3 1 = 0 then (roundingOf (fieldOf n 0 3)).map fun rm => .fmul (regOf n 21) (regOf n 16) (regOf n 11) (regOf n 6) (bitOf n 5) (bitOf n 4) rm
  else if fieldOf n 3 1 = 1 then (roundingOf (fieldOf n 0 3)).map fun rm => .fma (regOf n 21) (regOf n 16) (regOf n 11) (regOf n 6) (bitOf n 5) (bitOf n 4) rm
  else none

/-- Words of major 0x32 (R50). -/
def decodeMajor32 (n : Nat) : Option Instr :=
  if fieldOf n 3 1 = 0 then (roundingOf (fieldOf n 0 3)).map fun rm => .fdiv (regOf n 21) (regOf n 16) (regOf n 11) (regOf n 6) (bitOf n 5) (bitOf n 4) rm
  else if fieldOf n 3 2 = 1 ∧ fieldOf n 11 5 = 0 then (roundingOf (fieldOf n 0 3)).map fun rm => .fsqrt (regOf n 21) (regOf n 16) (regOf n 6) (bitOf n 5) rm
  else none

/-- Words of major 0x33 (R50). -/
def decodeMajor33 (n : Nat) : Option Instr :=
  if fieldOf n 3 2 = 0 ∧ fieldOf n 11 5 = 0 then (roundingOf (fieldOf n 0 3)).map fun rm => .fcvt (regOf n 21) (regOf n 16) (regOf n 6) (bitOf n 5) rm
  else if fieldOf n 3 2 = 1 ∧ fieldOf n 11 5 = 0 then (roundingOf (fieldOf n 0 3)).map fun rm => .fround (regOf n 21) (regOf n 16) (regOf n 6) (bitOf n 5) rm
  else none

/-- Words of major 0x34 (R50). -/
def decodeMajor34 (n : Nat) : Option Instr :=
  if fieldOf n 3 1 = 0 then (roundingOf (fieldOf n 0 3)).map fun rm => .fscale (regOf n 21) (regOf n 16) (regOf n 11) (regOf n 6) (bitOf n 5) (bitOf n 4) rm
  else if fieldOf n 3 2 = 1 ∧ fieldOf n 11 5 = 0 then (roundingOf (fieldOf n 0 3)).map fun rm => .fspecExp2 (regOf n 21) (regOf n 16) (regOf n 6) (bitOf n 5) rm
  else if fieldOf n 3 2 = 1 ∧ fieldOf n 11 5 = 1 then (roundingOf (fieldOf n 0 3)).map fun rm => .fspecLog2 (regOf n 21) (regOf n 16) (regOf n 6) (bitOf n 5) rm
  else if fieldOf n 3 2 = 1 ∧ fieldOf n 11 5 = 2 then (roundingOf (fieldOf n 0 3)).map fun rm => .fspecRcp (regOf n 21) (regOf n 16) (regOf n 6) (bitOf n 5) rm
  else if fieldOf n 3 2 = 1 ∧ fieldOf n 11 5 = 3 then (roundingOf (fieldOf n 0 3)).map fun rm => .fspecRsqrt (regOf n 21) (regOf n 16) (regOf n 6) (bitOf n 5) rm
  else if fieldOf n 3 2 = 1 ∧ fieldOf n 11 5 = 4 then (roundingOf (fieldOf n 0 3)).map fun rm => .fspecTanh (regOf n 21) (regOf n 16) (regOf n 6) (bitOf n 5) rm
  else if fieldOf n 3 2 = 1 ∧ fieldOf n 11 5 = 5 then (roundingOf (fieldOf n 0 3)).map fun rm => .fspecSigmoid (regOf n 21) (regOf n 16) (regOf n 6) (bitOf n 5) rm
  else none

/-- Words of major 0x35 (R50). -/
def decodeMajor35 (n : Nat) : Option Instr :=
  if fieldOf n 0 4 = 0 then some (.fmin (regOf n 21) (regOf n 16) (regOf n 11) (regOf n 6) (bitOf n 5) (bitOf n 4))
  else if fieldOf n 0 4 = 1 then some (.fmax (regOf n 21) (regOf n 16) (regOf n 11) (regOf n 6) (bitOf n 5) (bitOf n 4))
  else if fieldOf n 0 5 = 2 ∧ fieldOf n 11 5 = 0 then some (.fabs (regOf n 21) (regOf n 16) (regOf n 6) (bitOf n 5))
  else if fieldOf n 0 5 = 3 ∧ fieldOf n 11 5 = 0 then some (.fneg (regOf n 21) (regOf n 16) (regOf n 6) (bitOf n 5))
  else if fieldOf n 0 5 = 4 ∧ fieldOf n 14 2 = 0 then (roundingOf (fieldOf n 11 3)).map fun rm => .fredsum (regOf n 21) (regOf n 16) rm (regOf n 6) (bitOf n 5)
  else if fieldOf n 0 5 = 5 ∧ fieldOf n 11 5 = 0 then some (.fredmax (regOf n 21) (regOf n 16) (regOf n 6) (bitOf n 5))
  else if fieldOf n 0 5 = 6 ∧ fieldOf n 14 2 = 0 then (roundingOf (fieldOf n 11 3)).map fun rm => .vblk (regOf n 21) (regOf n 16) rm (regOf n 6) (bitOf n 5)
  else if fieldOf n 0 5 = 7 ∧ fieldOf n 14 2 = 0 then (roundingOf (fieldOf n 11 3)).map fun rm => .vunblk (regOf n 21) (regOf n 16) rm (regOf n 6) (bitOf n 5)
  else if fieldOf n 0 5 = 8 ∧ fieldOf n 14 2 = 0 then (roundingOf (fieldOf n 11 3)).map fun rm => .fcell (regOf n 21) (regOf n 16) rm (regOf n 6) (bitOf n 5)
  else none

/-- Words of major 0x36 (R50). -/
def decodeMajor36 (n : Nat) : Option Instr :=
  if fieldOf n 0 4 = 0 ∧ fieldOf n 6 5 = 0 then some (.mopa (regOf n 21) (regOf n 16) (regOf n 11) (bitOf n 5) (bitOf n 4))
  else if fieldOf n 0 4 = 1 then some (.mopas (regOf n 21) (regOf n 16) (regOf n 11) (regOf n 6) (bitOf n 5) (bitOf n 4))
  else if fieldOf n 0 4 = 2 ∧ fieldOf n 6 5 = 0 then some (.mclzE0 (regOf n 21) (regOf n 16) (regOf n 11) (bitOf n 5) (bitOf n 4))
  else if fieldOf n 0 4 = 3 ∧ fieldOf n 6 5 = 0 then some (.mclzE1 (regOf n 21) (regOf n 16) (regOf n 11) (bitOf n 5) (bitOf n 4))
  else none

/-- Words of major 0x37 (R50). -/
def decodeMajor37 (n : Nat) : Option Instr :=
  if fieldOf n 3 3 = 0 then (roundingOf (fieldOf n 0 3)).map fun rm => .mrnd (regOf n 21) (regOf n 16) (regOf n 11) (regOf n 6) rm
  else none

/-- Words of major 0x38 (R50). -/
def decodeMajor38 (n : Nat) : Option Instr :=
  if fieldOf n 0 11 = 0 ∧ fieldOf n 21 5 = 0 then some (.mshape (regOf n 16) (regOf n 11))
  else if fieldOf n 0 16 = 1 then some (.manch (regOf n 21) (regOf n 16))
  else if fieldOf n 0 21 = 2 then some (.mzero (regOf n 21))
  else if fieldOf n 0 16 = 3 then some (.mstat (regOf n 21) (regOf n 16))
  else none

/-- Words of major 0x39 (R50). -/
def decodeMajor39 (n : Nat) : Option Instr :=
  if fieldOf n 0 11 = 0 then some (.mrow (regOf n 21) (regOf n 16) (regOf n 11))
  else if fieldOf n 0 5 = 1 ∧ fieldOf n 6 5 = 0 then some (.mwrow (regOf n 21) (regOf n 16) (regOf n 11) (bitOf n 5))
  else if fieldOf n 0 16 = 2 then some (.msave (regOf n 21) (regOf n 16))
  else if fieldOf n 0 16 = 3 then some (.mload (regOf n 21) (regOf n 16))
  else none

/-- Words of major 0x3A (R50). -/
def decodeMajor3A (n : Nat) : Option Instr :=
  if fieldOf n 0 5 = 0 ∧ fieldOf n 11 5 = 0 then some (.cdraw (regOf n 21) (regOf n 16) (regOf n 6) (bitOf n 5))
  else if fieldOf n 0 5 = 1 then some (.cprob (regOf n 21) (regOf n 16) (regOf n 11) (regOf n 6) (bitOf n 5))
  else none

/-- Words of major 0x3B (R50). -/
def decodeMajor3B (n : Nat) : Option Instr :=
  if fieldOf n 0 4 = 0 then some (.cfb1 (regOf n 21) (regOf n 16) (regOf n 11) (regOf n 6) (bitOf n 5) (bitOf n 4))
  else if fieldOf n 0 4 = 1 then some (.cfb2 (regOf n 21) (regOf n 16) (regOf n 11) (regOf n 6) (bitOf n 5) (bitOf n 4))
  else if fieldOf n 0 5 = 2 ∧ fieldOf n 11 5 = 0 then some (.cstep (regOf n 21) (regOf n 16) (regOf n 6) (bitOf n 5))
  else if fieldOf n 0 5 = 3 ∧ fieldOf n 11 5 = 0 then some (.cadd (regOf n 21) (regOf n 16) (regOf n 6) (bitOf n 5))
  else none

/-- Words of major 0x3C (R50). -/
def decodeMajor3C (n : Nat) : Option Instr :=
  if fieldOf n 0 1 = 0 ∧ fieldOf n 6 5 = 0 then (scopeOf (fieldOf n 3 3)).map fun sc => .xcp (regOf n 21) (regOf n 16) (regOf n 11) sc (orderingOf (fieldOf n 1 2))
  else if fieldOf n 0 1 = 0 ∧ fieldOf n 6 5 = 1 then (scopeOf (fieldOf n 3 3)).map fun sc => .xcp2 (regOf n 21) (regOf n 16) (regOf n 11) sc (orderingOf (fieldOf n 1 2))
  else if fieldOf n 0 1 = 0 ∧ fieldOf n 6 5 = 2 then (scopeOf (fieldOf n 3 3)).map fun sc => .xgat (regOf n 21) (regOf n 16) (regOf n 11) sc (orderingOf (fieldOf n 1 2))
  else if fieldOf n 0 1 = 0 ∧ fieldOf n 6 5 = 3 then (scopeOf (fieldOf n 3 3)).map fun sc => .xpg (regOf n 21) (regOf n 16) (regOf n 11) sc (orderingOf (fieldOf n 1 2))
  else if fieldOf n 0 1 = 0 ∧ fieldOf n 6 5 = 4 ∧ fieldOf n 21 5 = 0 then (scopeOf (fieldOf n 3 3)).map fun sc => .bini (regOf n 16) (regOf n 11) sc (orderingOf (fieldOf n 1 2))
  else if fieldOf n 0 1 = 0 ∧ fieldOf n 6 5 = 5 then (scopeOf (fieldOf n 3 3)).map fun sc => .barr (regOf n 21) (regOf n 16) (regOf n 11) sc (orderingOf (fieldOf n 1 2))
  else if fieldOf n 0 1 = 0 ∧ fieldOf n 6 5 = 6 then (scopeOf (fieldOf n 3 3)).map fun sc => .bexp (regOf n 21) (regOf n 16) (regOf n 11) sc (orderingOf (fieldOf n 1 2))
  else if fieldOf n 0 1 = 0 ∧ fieldOf n 6 5 = 7 then (scopeOf (fieldOf n 3 3)).map fun sc => .bwait (regOf n 21) (regOf n 16) (regOf n 11) sc (orderingOf (fieldOf n 1 2))
  else if fieldOf n 0 1 = 0 ∧ fieldOf n 6 5 = 8 then (scopeOf (fieldOf n 3 3)).map fun sc => .btest (regOf n 21) (regOf n 16) (regOf n 11) sc (orderingOf (fieldOf n 1 2))
  else none

/-- Words of major 0x3D (R50). -/
def decodeMajor3D (n : Nat) : Option Instr :=
  if fieldOf n 0 1 = 0 ∧ fieldOf n 6 5 = 0 ∧ fieldOf n 21 5 = 0 then (scopeOf (fieldOf n 3 3)).map fun sc => .qini (regOf n 16) (regOf n 11) sc (orderingOf (fieldOf n 1 2))
  else if fieldOf n 0 1 = 0 ∧ fieldOf n 6 5 = 1 then (scopeOf (fieldOf n 3 3)).map fun sc => .qenq (regOf n 21) (regOf n 16) (regOf n 11) sc (orderingOf (fieldOf n 1 2))
  else if fieldOf n 0 1 = 0 ∧ fieldOf n 6 5 = 2 then (scopeOf (fieldOf n 3 3)).map fun sc => .qdeq (regOf n 21) (regOf n 16) (regOf n 11) sc (orderingOf (fieldOf n 1 2))
  else none

/-- Words of major 0x3E (R50). -/
def decodeMajor3E (n : Nat) : Option Instr :=
  if fieldOf n 6 15 = 0 then some (.scrr (regOf n 21) (BitVec.ofNat 6 (fieldOf n 0 6)))
  else if fieldOf n 6 10 = 1 ∧ fieldOf n 21 5 = 0 then some (.scrw (regOf n 16) (BitVec.ofNat 6 (fieldOf n 0 6)))
  else if fieldOf n 6 20 = 2 then some (.trap (BitVec.ofNat 6 (fieldOf n 0 6)))
  else if fieldOf n 0 26 = 192 then some .tret
  else if fieldOf n 0 11 = 256 ∧ fieldOf n 21 5 = 0 then some (.vsave (regOf n 16) (regOf n 11))
  else if fieldOf n 0 11 = 320 ∧ fieldOf n 21 5 = 0 then some (.vrest (regOf n 16) (regOf n 11))
  else if fieldOf n 0 16 = 384 then some (.vdirty (regOf n 21) (regOf n 16))
  else if fieldOf n 0 21 = 448 then some (.rdtime (regOf n 21))
  else if fieldOf n 0 21 = 512 then some (.rdcyc (regOf n 21))
  else if fieldOf n 0 16 = 576 then some (.cap (regOf n 21) (regOf n 16))
  else if fieldOf n 6 20 = 10 then some (.brk (BitVec.ofNat 6 (fieldOf n 0 6)))
  else none

/-- The row of the opcode map that a Plisor word falls under, chosen by its major (R46, R50). -/
def decodeRow (n : Nat) : Option Instr :=
  match fieldOf n 26 6 with
  | 1 => decodeMajor01 n
  | 2 => decodeMajor02 n
  | 3 => decodeMajor03 n
  | 4 => decodeMajor04 n
  | 5 => decodeMajor05 n
  | 6 => decodeMajor06 n
  | 7 => decodeMajor07 n
  | 8 => decodeMajor08 n
  | 9 => decodeMajor09 n
  | 10 => decodeMajor0A n
  | 11 => decodeMajor0B n
  | 12 => decodeMajor0C n
  | 13 => decodeMajor0D n
  | 14 => decodeMajor0E n
  | 15 => decodeMajor0F n
  | 16 => decodeMajor10 n
  | 17 => decodeMajor11 n
  | 18 => decodeMajor12 n
  | 19 => decodeMajor13 n
  | 20 => decodeMajor14 n
  | 24 => decodeMajor18 n
  | 25 => decodeMajor19 n
  | 26 => decodeMajor1A n
  | 27 => decodeMajor1B n
  | 28 => decodeMajor1C n
  | 29 => decodeMajor1D n
  | 36 => decodeMajor24 n
  | 37 => decodeMajor25 n
  | 40 => decodeMajor28 n
  | 41 => decodeMajor29 n
  | 42 => decodeMajor2A n
  | 43 => decodeMajor2B n
  | 44 => decodeMajor2C n
  | 45 => decodeMajor2D n
  | 46 => decodeMajor2E n
  | 48 => decodeMajor30 n
  | 49 => decodeMajor31 n
  | 50 => decodeMajor32 n
  | 51 => decodeMajor33 n
  | 52 => decodeMajor34 n
  | 53 => decodeMajor35 n
  | 54 => decodeMajor36 n
  | 55 => decodeMajor37 n
  | 56 => decodeMajor38 n
  | 57 => decodeMajor39 n
  | 58 => decodeMajor3A n
  | 59 => decodeMajor3B n
  | 60 => decodeMajor3C n
  | 61 => decodeMajor3D n
  | 62 => decodeMajor3E n
  | _ => none

/-- One Plisor word other than an attribute word, by checks 1 to 4 of R57. -/
def decodeWord (w : IWord) : Except Reject Instr :=
  if w.toNat = 0 ∨ w.toNat = 2 ^ 32 - 1 then .error .zeroOrOnes
  else match decodeRow w.toNat with
    | none => .error .noRow
    | some i => if i.wf then .ok i else .error .badField

/-- Whether a word is an attribute word: major 0x2F (R53). -/
def isAttribute (w : IWord) : Bool := fieldOf w.toNat 26 6 == 0x2F

/-- An attribute word and the word after it, none when the attribute word ends its block (R53, R55). -/
def decodePair (w : IWord) (second : Option IWord) : Except Reject Instr :=
  let n := w.toNat
  if fieldOf n 5 21 ≠ 0 then .error .noRow
  else match scopeOf (fieldOf n 2 3), second with
    | some sc, some w2 =>
      if 0x28 ≤ fieldOf w2.toNat 26 6 ∧ fieldOf w2.toNat 26 6 ≤ 0x2D then
        match decodeWord w2 with
        | .ok i =>
          let od := orderingOf (fieldOf n 0 2)
          if i.acceptsOrdering od then .ok (.memoryAttributeWord sc od i) else .error .badAttribute
        | .error r => .error r
      else .error .badAttribute
    | _, _ => .error .badAttribute

/-- What a strand reads at its PC: the first word, and the word after it where the strand may fetch one (R57). -/
def decodeStrand (w : IWord) (second : Option IWord) : Except Reject Instr :=
  if isAttribute w then decodePair w second else decodeWord w

/-- Little-endian bytes as a number (R8). -/
def ofBytes : List Byte → Nat
  | [] => 0
  | b :: bs => b.toNat + 256 * ofBytes bs

/-- The low `k` bytes of a number, little-endian (R8). -/
def toBytes : (k : Nat) → Nat → List Byte
  | 0, _ => []
  | k + 1, n => BitVec.ofNat 8 n :: toBytes k (n / 256)

/-- A strand's instruction at the head of a byte string, and the rest of the string. -/
def decodeBytes (bs : List Byte) : Except Reject (Instr × List Byte) :=
  if bs.length < 4 then .error .tooShort
  else
    let w := BitVec.ofNat 32 (ofBytes (bs.take 4))
    if isAttribute w then
      if bs.length < 8 then .error .badAttribute
      else match decodePair w (some (BitVec.ofNat 32 (ofBytes ((bs.drop 4).take 4)))) with
        | .ok i => .ok (i, bs.drop 8)
        | .error r => .error r
    else match decodeWord w with
      | .ok i => .ok (i, bs.drop 4)
      | .error r => .error r

/-- The control-hart extensions of custom-0 and custom-1 (R60, R95, R103). -/
def decodeExtension (n : Nat) : Option Instr :=
  if fieldOf n 0 7 = 11 ∧ fieldOf n 12 3 = 0 ∧ fieldOf n 25 7 = 0 then some (.kbcast (regOf n 20) (regOf n 15) (regOf n 7))
  else if fieldOf n 0 7 = 11 ∧ fieldOf n 12 3 = 1 ∧ fieldOf n 25 7 = 0 then some (.kbcastw (regOf n 20) (regOf n 15) (regOf n 7))
  else if fieldOf n 0 7 = 11 ∧ fieldOf n 12 3 = 2 ∧ fieldOf n 25 7 = 0 then some (.kgo (regOf n 20) (regOf n 15) (regOf n 7))
  else if fieldOf n 0 7 = 11 ∧ fieldOf n 12 3 = 3 ∧ fieldOf n 20 12 = 0 then some (.kjoin (regOf n 15) (regOf n 7))
  else if fieldOf n 0 7 = 11 ∧ fieldOf n 12 3 = 4 ∧ fieldOf n 20 12 = 0 then some (.kwait (regOf n 15) (regOf n 7))
  else if fieldOf n 0 7 = 11 ∧ fieldOf n 12 3 = 5 ∧ fieldOf n 20 5 = 0 then some (.ksget (BitVec.ofNat 7 (fieldOf n 25 7)) (regOf n 15) (regOf n 7))
  else if fieldOf n 0 15 = 24587 then some (.ksput (BitVec.ofNat 7 (fieldOf n 25 7)) (regOf n 20) (regOf n 15))
  else if fieldOf n 0 7 = 11 ∧ fieldOf n 12 3 = 7 ∧ fieldOf n 25 7 = 0 then some (.kfarm (regOf n 20) (regOf n 15) (regOf n 7))
  else if fieldOf n 0 7 = 43 ∧ fieldOf n 12 3 = 0 ∧ fieldOf n 20 12 = 0 then some (.kresume (regOf n 15) (regOf n 7))
  else if fieldOf n 0 15 = 4139 ∧ fieldOf n 20 12 = 0 then some (.kcfgExit (regOf n 15))
  else if fieldOf n 0 7 = 43 ∧ fieldOf n 12 3 = 1 ∧ fieldOf n 20 12 = 32 then some (.kcfgWdog (regOf n 15) (regOf n 7))
  else if fieldOf n 0 7 = 43 ∧ fieldOf n 12 3 = 1 ∧ fieldOf n 25 7 = 2 then some (.kcfgFmtw (regOf n 20) (regOf n 15) (regOf n 7))
  else if fieldOf n 0 7 = 43 ∧ fieldOf n 12 3 = 1 ∧ fieldOf n 20 12 = 96 then some (.kcfgLclr (regOf n 15) (regOf n 7))
  else none

/-- The 12-bit immediate of an I-type word (RISC-V base, R90). -/
def rvImmI (n : Nat) : BitVec 12 := BitVec.ofNat 12 (fieldOf n 20 12)

/-- Operations of OP-IMM on 64 bits: base, Zbb and Zba shift forms (R90). -/
def decodeOpImm (n : Nat) : Option Rv :=
  let rd := regOf n 7
  let rs1 := regOf n 15
  let imm := rvImmI n
  let sh := BitVec.ofNat 12 (fieldOf n 20 6)
  let f6 := fieldOf n 26 6
  match fieldOf n 12 3 with
  | 0 => some (.aluImm .add rd rs1 imm)
  | 2 => some (.aluImm .slt rd rs1 imm)
  | 3 => some (.aluImm .sltu rd rs1 imm)
  | 4 => some (.aluImm .xor rd rs1 imm)
  | 6 => some (.aluImm .or rd rs1 imm)
  | 7 => some (.aluImm .and rd rs1 imm)
  | 1 =>
    if f6 = 0 then some (.aluImm .sll rd rs1 sh)
    else match fieldOf n 20 12 with
      | 0x600 => some (.unary .clz rd rs1)
      | 0x601 => some (.unary .ctz rd rs1)
      | 0x602 => some (.unary .cpop rd rs1)
      | 0x604 => some (.unary .sextb rd rs1)
      | 0x605 => some (.unary .sexth rd rs1)
      | _ => none
  | _ =>
    if f6 = 0 then some (.aluImm .srl rd rs1 sh)
    else if f6 = 0x10 then some (.aluImm .sra rd rs1 sh)
    else if f6 = 0x18 then some (.aluImm .ror rd rs1 sh)
    else if fieldOf n 20 12 = 0x287 then some (.unary .orcb rd rs1)
    else if fieldOf n 20 12 = 0x6B8 then some (.unary .rev8 rd rs1)
    else none

/-- Operations of OP on 64 bits: base, M, Zba and Zbb (R90). -/
def decodeOp (n : Nat) : Option Rv :=
  let mk := fun op => some (Rv.alu op (regOf n 7) (regOf n 15) (regOf n 20))
  match fieldOf n 25 7, fieldOf n 12 3 with
  | 0x00, 0 => mk .add
  | 0x00, 1 => mk .sll
  | 0x00, 2 => mk .slt
  | 0x00, 3 => mk .sltu
  | 0x00, 4 => mk .xor
  | 0x00, 5 => mk .srl
  | 0x00, 6 => mk .or
  | 0x00, 7 => mk .and
  | 0x20, 0 => mk .sub
  | 0x20, 5 => mk .sra
  | 0x20, 4 => mk .xnor
  | 0x20, 6 => mk .orn
  | 0x20, 7 => mk .andn
  | 0x01, 0 => mk .mul
  | 0x01, 1 => mk .mulh
  | 0x01, 2 => mk .mulhsu
  | 0x01, 3 => mk .mulhu
  | 0x01, 4 => mk .div
  | 0x01, 5 => mk .divu
  | 0x01, 6 => mk .rem
  | 0x01, 7 => mk .remu
  | 0x05, 4 => mk .min
  | 0x05, 5 => mk .minu
  | 0x05, 6 => mk .max
  | 0x05, 7 => mk .maxu
  | 0x10, 2 => mk .sh1add
  | 0x10, 4 => mk .sh2add
  | 0x10, 6 => mk .sh3add
  | 0x30, 1 => mk .rol
  | 0x30, 5 => mk .ror
  | _, _ => none

/-- Operations of OP-IMM-32 (R90). -/
def decodeOpImm32 (n : Nat) : Option Rv :=
  let rd := regOf n 7
  let rs1 := regOf n 15
  let sh := BitVec.ofNat 12 (fieldOf n 20 5)
  match fieldOf n 12 3 with
  | 0 => some (.aluWImm .addw rd rs1 (rvImmI n))
  | 1 =>
    if fieldOf n 25 7 = 0 then some (.aluWImm .sllw rd rs1 sh)
    else if fieldOf n 26 6 = 2 then some (.aluImm .slliuw rd rs1 (BitVec.ofNat 12 (fieldOf n 20 6)))
    else match fieldOf n 20 12 with
      | 0x600 => some (.unary .clzw rd rs1)
      | 0x601 => some (.unary .ctzw rd rs1)
      | 0x602 => some (.unary .cpopw rd rs1)
      | _ => none
  | 5 =>
    if fieldOf n 25 7 = 0 then some (.aluWImm .srlw rd rs1 sh)
    else if fieldOf n 25 7 = 0x20 then some (.aluWImm .sraw rd rs1 sh)
    else if fieldOf n 25 7 = 0x30 then some (.aluWImm .rorw rd rs1 sh)
    else none
  | _ => none

/-- Operations of OP-32 (R90). -/
def decodeOp32 (n : Nat) : Option Rv :=
  let mk := fun op => some (Rv.aluW op (regOf n 7) (regOf n 15) (regOf n 20))
  let mkD := fun op => some (Rv.alu op (regOf n 7) (regOf n 15) (regOf n 20))
  match fieldOf n 25 7, fieldOf n 12 3 with
  | 0x00, 0 => mk .addw
  | 0x20, 0 => mk .subw
  | 0x00, 1 => mk .sllw
  | 0x00, 5 => mk .srlw
  | 0x20, 5 => mk .sraw
  | 0x01, 0 => mk .mulw
  | 0x01, 4 => mk .divw
  | 0x01, 5 => mk .divuw
  | 0x01, 6 => mk .remw
  | 0x01, 7 => mk .remuw
  | 0x30, 1 => mk .rolw
  | 0x30, 5 => mk .rorw
  | 0x04, 0 => mkD .adduw
  | 0x04, 4 => if fieldOf n 20 5 = 0 then some (.unary .zexth (regOf n 7) (regOf n 15)) else none
  | 0x10, 2 => mkD .sh1adduw
  | 0x10, 4 => mkD .sh2adduw
  | 0x10, 6 => mkD .sh3adduw
  | _, _ => none

/-- The A extension (R90). -/
def decodeAmo (n : Nat) : Option Rv :=
  let rd := regOf n 7
  let rs1 := regOf n 15
  let rs2 := regOf n 20
  let f3 := fieldOf n 12 3
  let double := f3 == 3
  let aq := n.testBit 26
  let rl := n.testBit 25
  if f3 ≠ 2 ∧ f3 ≠ 3 then none
  else match fieldOf n 27 5 with
    | 0x02 => if rs2.toNat = 0 then some (.lr double aq rl rd rs1) else none
    | 0x03 => some (.sc double aq rl rd rs1 rs2)
    | 0x00 => some (.amo .add double aq rl rd rs1 rs2)
    | 0x01 => some (.amo .swap double aq rl rd rs1 rs2)
    | 0x04 => some (.amo .xor double aq rl rd rs1 rs2)
    | 0x08 => some (.amo .or double aq rl rd rs1 rs2)
    | 0x0C => some (.amo .and double aq rl rd rs1 rs2)
    | 0x10 => some (.amo .min double aq rl rd rs1 rs2)
    | 0x14 => some (.amo .max double aq rl rd rs1 rs2)
    | 0x18 => some (.amo .minu double aq rl rd rs1 rs2)
    | 0x1C => some (.amo .maxu double aq rl rd rs1 rs2)
    | _ => none

/-- SYSTEM words: environment calls, returns and Zicsr (R90). -/
def decodeSystem (n : Nat) : Option Rv :=
  let rd := regOf n 7
  let csr := BitVec.ofNat 12 (fieldOf n 20 12)
  let reg := CsrSrc.reg (regOf n 15)
  let imm := CsrSrc.imm (regOf n 15)
  match fieldOf n 12 3 with
  | 0 =>
    match n with
    | 0x00000073 => some .ecall
    | 0x00100073 => some .ebreak
    | 0x30200073 => some .mret
    | 0x10500073 => some .wfi
    | _ => none
  | 1 => some (.csr .rw rd csr reg)
  | 2 => some (.csr .rs rd csr reg)
  | 3 => some (.csr .rc rd csr reg)
  | 5 => some (.csr .rw rd csr imm)
  | 6 => some (.csr .rs rd csr imm)
  | 7 => some (.csr .rc rd csr imm)
  | _ => none

/-- A 32-bit word of the control hart's RISC-V subset (R90). -/
def decodeRv32 (n : Nat) : Option Rv :=
  let rd := regOf n 7
  let rs1 := regOf n 15
  let rs2 := regOf n 20
  let immS := BitVec.ofNat 12 (fieldOf n 25 7 * 32 + fieldOf n 7 5)
  match fieldOf n 0 7 with
  | 0x37 => some (.lui rd (BitVec.ofNat 20 (fieldOf n 12 20)))
  | 0x17 => some (.auipc rd (BitVec.ofNat 20 (fieldOf n 12 20)))
  | 0x6F =>
    some (.jal rd (BitVec.ofNat 21 (fieldOf n 31 1 * 2 ^ 20 + fieldOf n 12 8 * 2 ^ 12
      + fieldOf n 20 1 * 2 ^ 11 + fieldOf n 21 10 * 2)))
  | 0x67 => if fieldOf n 12 3 = 0 then some (.jalr rd rs1 (rvImmI n)) else none
  | 0x63 =>
    let imm := BitVec.ofNat 13 (fieldOf n 31 1 * 2 ^ 12 + fieldOf n 7 1 * 2 ^ 11
      + fieldOf n 25 6 * 2 ^ 5 + fieldOf n 8 4 * 2)
    match fieldOf n 12 3 with
    | 0 => some (.branch .eq rs1 rs2 imm)
    | 1 => some (.branch .ne rs1 rs2 imm)
    | 4 => some (.branch .lt rs1 rs2 imm)
    | 5 => some (.branch .ge rs1 rs2 imm)
    | 6 => some (.branch .ltu rs1 rs2 imm)
    | 7 => some (.branch .geu rs1 rs2 imm)
    | _ => none
  | 0x03 =>
    match fieldOf n 12 3 with
    | 0 => some (.load 1 false rd rs1 (rvImmI n))
    | 1 => some (.load 2 false rd rs1 (rvImmI n))
    | 2 => some (.load 4 false rd rs1 (rvImmI n))
    | 3 => some (.load 8 false rd rs1 (rvImmI n))
    | 4 => some (.load 1 true rd rs1 (rvImmI n))
    | 5 => some (.load 2 true rd rs1 (rvImmI n))
    | 6 => some (.load 4 true rd rs1 (rvImmI n))
    | _ => none
  | 0x23 =>
    match fieldOf n 12 3 with
    | 0 => some (.store 1 rs1 rs2 immS)
    | 1 => some (.store 2 rs1 rs2 immS)
    | 2 => some (.store 4 rs1 rs2 immS)
    | 3 => some (.store 8 rs1 rs2 immS)
    | _ => none
  | 0x13 => decodeOpImm n
  | 0x33 => decodeOp n
  | 0x1B => decodeOpImm32 n
  | 0x3B => decodeOp32 n
  | 0x2F => decodeAmo n
  | 0x0F =>
    match fieldOf n 12 3 with
    | 0 => some .fence
    | 1 => some .fenceI
    | _ => none
  | 0x73 => decodeSystem n
  | _ => none

/-- A register field of three bits: x8 to x15 (C extension, R90). -/
def rvcReg (n lo : Nat) : Reg := BitVec.ofNat 5 (8 + fieldOf n lo 3)

/-- The six-bit signed immediate of CI-type words. -/
def rvcImm6 (n : Nat) : BitVec 12 := (BitVec.ofNat 6 (fieldOf n 12 1 * 32 + fieldOf n 2 5)).signExtend 12

/-- Quadrant 0 of the C extension (R90). -/
def decodeC0 (n : Nat) : Option Rv :=
  let rd' := rvcReg n 2
  let rs1' := rvcReg n 7
  let offW := BitVec.ofNat 12 (fieldOf n 10 3 * 8 + fieldOf n 6 1 * 4 + fieldOf n 5 1 * 64)
  let offD := BitVec.ofNat 12 (fieldOf n 10 3 * 8 + fieldOf n 5 2 * 64)
  match fieldOf n 13 3 with
  | 0 =>
    let imm := fieldOf n 11 2 * 16 + fieldOf n 7 4 * 64 + fieldOf n 6 1 * 4 + fieldOf n 5 1 * 8
    if imm = 0 then none else some (.aluImm .add rd' 2 (BitVec.ofNat 12 imm))
  | 2 => some (.load 4 false rd' rs1' offW)
  | 3 => some (.load 8 false rd' rs1' offD)
  | 6 => some (.store 4 rs1' rd' offW)
  | 7 => some (.store 8 rs1' rd' offD)
  | _ => none

/-- Quadrant 1 of the C extension (R90). -/
def decodeC1 (n : Nat) : Option Rv :=
  let rd := regOf n 7
  let rd' := rvcReg n 7
  let rs2' := rvcReg n 2
  let imm := rvcImm6 n
  let offB := (BitVec.ofNat 9 (fieldOf n 12 1 * 256 + fieldOf n 10 2 * 8 + fieldOf n 5 2 * 64
    + fieldOf n 3 2 * 2 + fieldOf n 2 1 * 32)).signExtend 13
  match fieldOf n 13 3 with
  | 0 => some (.aluImm .add rd rd imm)
  | 1 => if rd.toNat = 0 then none else some (.aluWImm .addw rd rd imm)
  | 2 => some (.aluImm .add rd 0 imm)
  | 3 =>
    if imm.toNat = 0 then none
    else if rd.toNat = 2 then
      some (.aluImm .add 2 2 ((BitVec.ofNat 10 (fieldOf n 12 1 * 512 + fieldOf n 6 1 * 16 + fieldOf n 5 1 * 64
        + fieldOf n 3 2 * 128 + fieldOf n 2 1 * 32)).signExtend 12))
    else some (.lui rd ((BitVec.ofNat 6 (fieldOf n 12 1 * 32 + fieldOf n 2 5)).signExtend 20))
  | 4 =>
    let sh := BitVec.ofNat 12 (fieldOf n 12 1 * 32 + fieldOf n 2 5)
    match fieldOf n 10 2 with
    | 0 => some (.aluImm .srl rd' rd' sh)
    | 1 => some (.aluImm .sra rd' rd' sh)
    | 2 => some (.aluImm .and rd' rd' imm)
    | _ =>
      match fieldOf n 12 1, fieldOf n 5 2 with
      | 0, 0 => some (.alu .sub rd' rd' rs2')
      | 0, 1 => some (.alu .xor rd' rd' rs2')
      | 0, 2 => some (.alu .or rd' rd' rs2')
      | 0, _ => some (.alu .and rd' rd' rs2')
      | _, 0 => some (.aluW .subw rd' rd' rs2')
      | _, 1 => some (.aluW .addw rd' rd' rs2')
      | _, _ => none
  | 5 =>
    some (.jal 0 ((BitVec.ofNat 12 (fieldOf n 12 1 * 2048 + fieldOf n 11 1 * 16 + fieldOf n 9 2 * 256
      + fieldOf n 8 1 * 1024 + fieldOf n 7 1 * 64 + fieldOf n 6 1 * 128 + fieldOf n 3 3 * 2
      + fieldOf n 2 1 * 32)).signExtend 21))
  | 6 => some (.branch .eq rd' 0 offB)
  | _ => some (.branch .ne rd' 0 offB)

/-- Quadrant 2 of the C extension (R90). -/
def decodeC2 (n : Nat) : Option Rv :=
  let rd := regOf n 7
  let rs2 := regOf n 2
  match fieldOf n 13 3 with
  | 0 => some (.aluImm .sll rd rd (BitVec.ofNat 12 (fieldOf n 12 1 * 32 + fieldOf n 2 5)))
  | 2 =>
    if rd.toNat = 0 then none
    else some (.load 4 false rd 2 (BitVec.ofNat 12 (fieldOf n 12 1 * 32 + fieldOf n 4 3 * 4 + fieldOf n 2 2 * 64)))
  | 3 =>
    if rd.toNat = 0 then none
    else some (.load 8 false rd 2 (BitVec.ofNat 12 (fieldOf n 12 1 * 32 + fieldOf n 5 2 * 8 + fieldOf n 2 3 * 64)))
  | 4 =>
    if fieldOf n 12 1 = 0 then
      if rs2.toNat = 0 then (if rd.toNat = 0 then none else some (.jalr 0 rd 0))
      else some (.alu .add rd 0 rs2)
    else if rs2.toNat = 0 then (if rd.toNat = 0 then some .ebreak else some (.jalr 1 rd 0))
    else some (.alu .add rd rd rs2)
  | 6 => some (.store 4 2 rs2 (BitVec.ofNat 12 (fieldOf n 9 4 * 4 + fieldOf n 7 2 * 64)))
  | 7 => some (.store 8 2 rs2 (BitVec.ofNat 12 (fieldOf n 10 3 * 8 + fieldOf n 7 3 * 64)))
  | _ => none

/-- A compressed instruction, expanded; the all-zero half word and reserved encodings are none (R61). -/
def decodeCompressed (n : Nat) : Option Rv :=
  if n % 2 ^ 16 = 0 then none
  else match fieldOf n 0 2 with
    | 0 => decodeC0 n
    | 1 => decodeC1 n
    | _ => decodeC2 n

/-- The control hart's decoder: total, every other word being `illegal` with its bits (R61). -/
def decodeHart (w : IWord) : Instr :=
  let n := w.toNat
  if fieldOf n 0 2 ≠ 3 then
    match decodeCompressed (n % 2 ^ 16) with
    | some i => .controlHartInstruction i true
    | none => .controlHartInstruction (.illegal (BitVec.ofNat 32 (n % 2 ^ 16))) true
  else if fieldOf n 0 7 = 0x0B ∨ fieldOf n 0 7 = 0x2B then
    match decodeExtension n with
    | some i => i
    | none => .controlHartInstruction (.illegal w) false
  else match decodeRv32 n with
    | some i => .controlHartInstruction i false
    | none => .controlHartInstruction (.illegal w) false


/-- A 0 or 1 bit. -/
def bitCode (b : Bool) : Nat := if b then 1 else 0

/-- The 32 bits of an instruction of one word, from the encodings of R46 to R60; 0 where the spec gives no word. -/
def encodeWord (i : Instr) : Nat :=
  match i with
  | .add d a b => 67108864 + d.toNat * 2097152 + a.toNat * 65536 + b.toNat * 2048
  | .sub d a b => 67108928 + d.toNat * 2097152 + a.toNat * 65536 + b.toNat * 2048
  | .and d a b => 67108992 + d.toNat * 2097152 + a.toNat * 65536 + b.toNat * 2048
  | .or d a b => 67109056 + d.toNat * 2097152 + a.toNat * 65536 + b.toNat * 2048
  | .xor d a b => 67109120 + d.toNat * 2097152 + a.toNat * 65536 + b.toNat * 2048
  | .andn d a b => 67109184 + d.toNat * 2097152 + a.toNat * 65536 + b.toNat * 2048
  | .sll d a b => 67109248 + d.toNat * 2097152 + a.toNat * 65536 + b.toNat * 2048
  | .srl d a b => 67109312 + d.toNat * 2097152 + a.toNat * 65536 + b.toNat * 2048
  | .sra d a b => 67109376 + d.toNat * 2097152 + a.toNat * 65536 + b.toNat * 2048
  | .slt d a b => 67109440 + d.toNat * 2097152 + a.toNat * 65536 + b.toNat * 2048
  | .sltu d a b => 67109504 + d.toNat * 2097152 + a.toNat * 65536 + b.toNat * 2048
  | .min d a b => 67109568 + d.toNat * 2097152 + a.toNat * 65536 + b.toNat * 2048
  | .max d a b => 67109632 + d.toNat * 2097152 + a.toNat * 65536 + b.toNat * 2048
  | .minu d a b => 67109696 + d.toNat * 2097152 + a.toNat * 65536 + b.toNat * 2048
  | .maxu d a b => 67109760 + d.toNat * 2097152 + a.toNat * 65536 + b.toNat * 2048
  | .clz d a => 67109824 + d.toNat * 2097152 + a.toNat * 65536
  | .ctz d a => 67109888 + d.toNat * 2097152 + a.toNat * 65536
  | .popc d a => 67109952 + d.toNat * 2097152 + a.toNat * 65536
  | .mul d a b => 67110016 + d.toNat * 2097152 + a.toNat * 65536 + b.toNat * 2048
  | .bfx d a b => 67110080 + d.toNat * 2097152 + a.toNat * 65536 + b.toNat * 2048
  | .bfi d a b => 67110144 + d.toNat * 2097152 + a.toNat * 65536 + b.toNat * 2048
  | .fsh d a b h => 67110208 + d.toNat * 2097152 + a.toNat * 65536 + b.toNat * 2048 + h.toNat
  | .slli d a h => 67110272 + d.toNat * 2097152 + a.toNat * 65536 + h.toNat
  | .srli d a h => 67110336 + d.toNat * 2097152 + a.toNat * 65536 + h.toNat
  | .srai d a h => 67110400 + d.toNat * 2097152 + a.toNat * 65536 + h.toNat
  | .jalr d a b => 67110464 + d.toNat * 2097152 + a.toNat * 65536 + b.toNat * 2048
  | .lb d a b sc ordered => 67110528 + d.toNat * 2097152 + a.toNat * 65536 + b.toNat * 2048 + scopeCode sc * 8 + bitCode ordered * 4
  | .lh d a b sc ordered => 67110529 + d.toNat * 2097152 + a.toNat * 65536 + b.toNat * 2048 + scopeCode sc * 8 + bitCode ordered * 4
  | .lw d a b sc ordered => 67110530 + d.toNat * 2097152 + a.toNat * 65536 + b.toNat * 2048 + scopeCode sc * 8 + bitCode ordered * 4
  | .ld d a b sc ordered => 67110531 + d.toNat * 2097152 + a.toNat * 65536 + b.toNat * 2048 + scopeCode sc * 8 + bitCode ordered * 4
  | .lbu d a b sc ordered => 67110592 + d.toNat * 2097152 + a.toNat * 65536 + b.toNat * 2048 + scopeCode sc * 8 + bitCode ordered * 4
  | .lhu d a b sc ordered => 67110593 + d.toNat * 2097152 + a.toNat * 65536 + b.toNat * 2048 + scopeCode sc * 8 + bitCode ordered * 4
  | .lwu d a b sc ordered => 67110594 + d.toNat * 2097152 + a.toNat * 65536 + b.toNat * 2048 + scopeCode sc * 8 + bitCode ordered * 4
  | .sb d a b sc ordered => 67110656 + d.toNat * 2097152 + a.toNat * 65536 + b.toNat * 2048 + scopeCode sc * 8 + bitCode ordered * 4
  | .sh d a b sc ordered => 67110657 + d.toNat * 2097152 + a.toNat * 65536 + b.toNat * 2048 + scopeCode sc * 8 + bitCode ordered * 4
  | .sw d a b sc ordered => 67110658 + d.toNat * 2097152 + a.toNat * 65536 + b.toNat * 2048 + scopeCode sc * 8 + bitCode ordered * 4
  | .sd d a b sc ordered => 67110659 + d.toNat * 2097152 + a.toNat * 65536 + b.toNat * 2048 + scopeCode sc * 8 + bitCode ordered * 4
  | .stop => 67110720
  | .go a => 67110721 + a.toNat * 65536
  | .signal a => 67110722 + a.toNat * 65536
  | .vpost b c => 67110723 + b.toNat * 2048 + c.toNat * 8
  | .vtake d c => 67110724 + d.toNat * 2097152 + c.toNat * 8
  | .addi d a i => 134217728 + d.toNat * 2097152 + a.toNat * 65536 + i.toNat
  | .andi d a i => 201326592 + d.toNat * 2097152 + a.toNat * 65536 + i.toNat
  | .ori d a i => 268435456 + d.toNat * 2097152 + a.toNat * 65536 + i.toNat
  | .xori d a i => 335544320 + d.toNat * 2097152 + a.toNat * 65536 + i.toNat
  | .slti d a i => 402653184 + d.toNat * 2097152 + a.toNat * 65536 + i.toNat
  | .sltiu d a i => 469762048 + d.toNat * 2097152 + a.toNat * 65536 + i.toNat
  | .jal d o => 536870912 + d.toNat * 2097152 + o.toNat
  | .lui d i => 603979776 + d.toNat * 2097152 + i.toNat
  | .lpc d o => 605028352 + d.toNat * 2097152 + o.toNat
  | .beq a b o => 671088640 + a.toNat * 2097152 + b.toNat * 65536 + o.toNat
  | .bne a b o => 738197504 + a.toNat * 2097152 + b.toNat * 65536 + o.toNat
  | .blt a b o => 805306368 + a.toNat * 2097152 + b.toNat * 65536 + o.toNat
  | .bge a b o => 872415232 + a.toNat * 2097152 + b.toNat * 65536 + o.toNat
  | .bltu a b o => 939524096 + a.toNat * 2097152 + b.toNat * 65536 + o.toNat
  | .bgeu a b o => 1006632960 + a.toNat * 2097152 + b.toNat * 65536 + o.toNat
  | .vcfg g t => 1073741824 + g.toNat * 2097152 + t.toNat * 2048
  | .vgrp g => 1073741825 + g.toNat * 2097152
  | .vtag d t => 1073741826 + d.toNat * 2097152 + t.toNat * 2048
  | .stripLt d a b w => 1140850688 + d.toNat * 2097152 + a.toNat * 65536 + b.toNat * 2048 + w.toNat
  | .stripLe d a b w => 1140850752 + d.toNat * 2097152 + a.toNat * 65536 + b.toNat * 2048 + w.toNat
  | .stripLtu d a b w => 1140850816 + d.toNat * 2097152 + a.toNat * 65536 + b.toNat * 2048 + w.toNat
  | .stripLeu d a b w => 1140850880 + d.toNat * 2097152 + a.toNat * 65536 + b.toNat * 2048 + w.toNat
  | .stripN d a w => 1140850944 + d.toNat * 2097152 + a.toNat * 65536 + w.toNat
  | .vcmpEq d a b m chainA chainB => 1207959552 + d.toNat * 2097152 + a.toNat * 65536 + b.toNat * 2048 + m.toNat * 64 + bitCode chainA * 32 + bitCode chainB * 16
  | .vcmpNe d a b m chainA chainB => 1207959553 + d.toNat * 2097152 + a.toNat * 65536 + b.toNat * 2048 + m.toNat * 64 + bitCode chainA * 32 + bitCode chainB * 16
  | .vcmpLt d a b m chainA chainB => 1207959554 + d.toNat * 2097152 + a.toNat * 65536 + b.toNat * 2048 + m.toNat * 64 + bitCode chainA * 32 + bitCode chainB * 16
  | .vcmpLe d a b m chainA chainB => 1207959555 + d.toNat * 2097152 + a.toNat * 65536 + b.toNat * 2048 + m.toNat * 64 + bitCode chainA * 32 + bitCode chainB * 16
  | .vcmpGt d a b m chainA chainB => 1207959556 + d.toNat * 2097152 + a.toNat * 65536 + b.toNat * 2048 + m.toNat * 64 + bitCode chainA * 32 + bitCode chainB * 16
  | .vcmpGe d a b m chainA chainB => 1207959557 + d.toNat * 2097152 + a.toNat * 65536 + b.toNat * 2048 + m.toNat * 64 + bitCode chainA * 32 + bitCode chainB * 16
  | .mand d a b => 1275068416 + d.toNat * 2097152 + a.toNat * 65536 + b.toNat * 2048
  | .mor d a b => 1275068417 + d.toNat * 2097152 + a.toNat * 65536 + b.toNat * 2048
  | .mxor d a b => 1275068418 + d.toNat * 2097152 + a.toNat * 65536 + b.toNat * 2048
  | .mandn d a b => 1275068419 + d.toNat * 2097152 + a.toNat * 65536 + b.toNat * 2048
  | .mnot d a => 1275068420 + d.toNat * 2097152 + a.toNat * 65536
  | .mmov d a => 1275068421 + d.toNat * 2097152 + a.toNat * 65536
  | .mset d => 1275068422 + d.toNat * 2097152
  | .mclr d => 1275068423 + d.toNat * 2097152
  | .mshl d a b => 1275068424 + d.toNat * 2097152 + a.toNat * 65536 + b.toNat * 2048
  | .mshr d a b => 1275068425 + d.toNat * 2097152 + a.toNat * 65536 + b.toNat * 2048
  | .mbrk d a => 1275068426 + d.toNat * 2097152 + a.toNat * 65536
  | .mcnt d a => 1342177280 + d.toNat * 2097152 + a.toNat * 65536
  | .mfirst d a => 1342177281 + d.toNat * 2097152 + a.toNat * 65536
  | .mlast d a => 1342177282 + d.toNat * 2097152 + a.toNat * 65536
  | .mfromidx d a m chainA => 1342177283 + d.toNat * 2097152 + a.toNat * 65536 + m.toNat * 64 + bitCode chainA * 32
  | .vadd d a b m chainA chainB => 1610612736 + d.toNat * 2097152 + a.toNat * 65536 + b.toNat * 2048 + m.toNat * 64 + bitCode chainA * 32 + bitCode chainB * 16
  | .vsub d a b m chainA chainB => 1610612737 + d.toNat * 2097152 + a.toNat * 65536 + b.toNat * 2048 + m.toNat * 64 + bitCode chainA * 32 + bitCode chainB * 16
  | .vadc d a b k chainA chainB => 1610612738 + d.toNat * 2097152 + a.toNat * 65536 + b.toNat * 2048 + k.toNat * 64 + bitCode chainA * 32 + bitCode chainB * 16
  | .vsbc d a b k chainA chainB => 1610612739 + d.toNat * 2097152 + a.toNat * 65536 + b.toNat * 2048 + k.toNat * 64 + bitCode chainA * 32 + bitCode chainB * 16
  | .vmin d a b m chainA chainB => 1610612740 + d.toNat * 2097152 + a.toNat * 65536 + b.toNat * 2048 + m.toNat * 64 + bitCode chainA * 32 + bitCode chainB * 16
  | .vmax d a b m chainA chainB => 1610612741 + d.toNat * 2097152 + a.toNat * 65536 + b.toNat * 2048 + m.toNat * 64 + bitCode chainA * 32 + bitCode chainB * 16
  | .vminu d a b m chainA chainB => 1610612742 + d.toNat * 2097152 + a.toNat * 65536 + b.toNat * 2048 + m.toNat * 64 + bitCode chainA * 32 + bitCode chainB * 16
  | .vmaxu d a b m chainA chainB => 1610612743 + d.toNat * 2097152 + a.toNat * 65536 + b.toNat * 2048 + m.toNat * 64 + bitCode chainA * 32 + bitCode chainB * 16
  | .vsadd d a b m chainA chainB => 1610612744 + d.toNat * 2097152 + a.toNat * 65536 + b.toNat * 2048 + m.toNat * 64 + bitCode chainA * 32 + bitCode chainB * 16
  | .vssub d a b m chainA chainB => 1610612745 + d.toNat * 2097152 + a.toNat * 65536 + b.toNat * 2048 + m.toNat * 64 + bitCode chainA * 32 + bitCode chainB * 16
  | .vabs d a m chainA => 1610612746 + d.toNat * 2097152 + a.toNat * 65536 + m.toNat * 64 + bitCode chainA * 32
  | .vneg d a m chainA => 1610612747 + d.toNat * 2097152 + a.toNat * 65536 + m.toNat * 64 + bitCode chainA * 32
  | .vand d a b m chainA chainB => 1677721600 + d.toNat * 2097152 + a.toNat * 65536 + b.toNat * 2048 + m.toNat * 64 + bitCode chainA * 32 + bitCode chainB * 16
  | .vor d a b m chainA chainB => 1677721601 + d.toNat * 2097152 + a.toNat * 65536 + b.toNat * 2048 + m.toNat * 64 + bitCode chainA * 32 + bitCode chainB * 16
  | .vxor d a b m chainA chainB => 1677721602 + d.toNat * 2097152 + a.toNat * 65536 + b.toNat * 2048 + m.toNat * 64 + bitCode chainA * 32 + bitCode chainB * 16
  | .vandn d a b m chainA chainB => 1677721603 + d.toNat * 2097152 + a.toNat * 65536 + b.toNat * 2048 + m.toNat * 64 + bitCode chainA * 32 + bitCode chainB * 16
  | .vnot d a m chainA => 1677721604 + d.toNat * 2097152 + a.toNat * 65536 + m.toNat * 64 + bitCode chainA * 32
  | .vshl d a b m chainA chainB => 1677721605 + d.toNat * 2097152 + a.toNat * 65536 + b.toNat * 2048 + m.toNat * 64 + bitCode chainA * 32 + bitCode chainB * 16
  | .vshr d a b m chainA chainB => 1677721606 + d.toNat * 2097152 + a.toNat * 65536 + b.toNat * 2048 + m.toNat * 64 + bitCode chainA * 32 + bitCode chainB * 16
  | .vsra d a b m chainA chainB => 1677721607 + d.toNat * 2097152 + a.toNat * 65536 + b.toNat * 2048 + m.toNat * 64 + bitCode chainA * 32 + bitCode chainB * 16
  | .vrot d a b m chainA chainB => 1677721608 + d.toNat * 2097152 + a.toNat * 65536 + b.toNat * 2048 + m.toNat * 64 + bitCode chainA * 32 + bitCode chainB * 16
  | .vfsh d a b m chainA chainB => 1677721609 + d.toNat * 2097152 + a.toNat * 65536 + b.toNat * 2048 + m.toNat * 64 + bitCode chainA * 32 + bitCode chainB * 16
  | .vmulh d a b m chainA chainB rm => 1744830464 + d.toNat * 2097152 + a.toNat * 65536 + b.toNat * 2048 + m.toNat * 64 + bitCode chainA * 32 + bitCode chainB * 16 + roundingCode rm
  | .vavg d a b m chainA chainB rm => 1744830472 + d.toNat * 2097152 + a.toNat * 65536 + b.toNat * 2048 + m.toNat * 64 + bitCode chainA * 32 + bitCode chainB * 16 + roundingCode rm
  | .vmul d a b m chainA chainB => 1811939328 + d.toNat * 2097152 + a.toNat * 65536 + b.toNat * 2048 + m.toNat * 64 + bitCode chainA * 32 + bitCode chainB * 16
  | .vpopc d a m chainA => 1811939329 + d.toNat * 2097152 + a.toNat * 65536 + m.toNat * 64 + bitCode chainA * 32
  | .vclz d a m chainA => 1811939330 + d.toNat * 2097152 + a.toNat * 65536 + m.toNat * 64 + bitCode chainA * 32
  | .vbfx d a b m chainA chainB => 1811939331 + d.toNat * 2097152 + a.toNat * 65536 + b.toNat * 2048 + m.toNat * 64 + bitCode chainA * 32 + bitCode chainB * 16
  | .vbfi d a b m chainA chainB => 1811939332 + d.toNat * 2097152 + a.toNat * 65536 + b.toNat * 2048 + m.toNat * 64 + bitCode chainA * 32 + bitCode chainB * 16
  | .vsel d a b m chainA chainB => 1879048192 + d.toNat * 2097152 + a.toNat * 65536 + b.toNat * 2048 + m.toNat * 64 + bitCode chainA * 32 + bitCode chainB * 16
  | .vdup d a m => 1879048193 + d.toNat * 2097152 + a.toNat * 65536 + m.toNat * 64
  | .viota d m => 1879048194 + d.toNat * 2097152 + m.toNat * 64
  | .vmov d a m chainA => 1879048195 + d.toNat * 2097152 + a.toNat * 65536 + m.toNat * 64 + bitCode chainA * 32
  | .vredsum d a b m chainA chainB => 1946157056 + d.toNat * 2097152 + a.toNat * 65536 + b.toNat * 2048 + m.toNat * 64 + bitCode chainA * 32 + bitCode chainB * 16
  | .vredmin d a b m chainA chainB => 1946157057 + d.toNat * 2097152 + a.toNat * 65536 + b.toNat * 2048 + m.toNat * 64 + bitCode chainA * 32 + bitCode chainB * 16
  | .vredmax d a b m chainA chainB => 1946157058 + d.toNat * 2097152 + a.toNat * 65536 + b.toNat * 2048 + m.toNat * 64 + bitCode chainA * 32 + bitCode chainB * 16
  | .vredand d a b m chainA chainB => 1946157059 + d.toNat * 2097152 + a.toNat * 65536 + b.toNat * 2048 + m.toNat * 64 + bitCode chainA * 32 + bitCode chainB * 16
  | .vredor d a b m chainA chainB => 1946157060 + d.toNat * 2097152 + a.toNat * 65536 + b.toNat * 2048 + m.toNat * 64 + bitCode chainA * 32 + bitCode chainB * 16
  | .vredxor d a b m chainA chainB => 1946157061 + d.toNat * 2097152 + a.toNat * 65536 + b.toNat * 2048 + m.toNat * 64 + bitCode chainA * 32 + bitCode chainB * 16
  | .vslup d a b m chainA => 2415919104 + d.toNat * 2097152 + a.toNat * 65536 + b.toNat * 2048 + m.toNat * 64 + bitCode chainA * 32
  | .vsldn d a b m chainA => 2415919105 + d.toNat * 2097152 + a.toNat * 65536 + b.toNat * 2048 + m.toNat * 64 + bitCode chainA * 32
  | .vgath d a b m chainA chainB => 2415919106 + d.toNat * 2097152 + a.toNat * 65536 + b.toNat * 2048 + m.toNat * 64 + bitCode chainA * 32 + bitCode chainB * 16
  | .vcomp d a m chainA => 2415919107 + d.toNat * 2097152 + a.toNat * 65536 + m.toNat * 64 + bitCode chainA * 32
  | .vexpd d a m chainA => 2415919108 + d.toNat * 2097152 + a.toNat * 65536 + m.toNat * 64 + bitCode chainA * 32
  | .vzip d a b m chainA chainB => 2415919109 + d.toNat * 2097152 + a.toNat * 65536 + b.toNat * 2048 + m.toNat * 64 + bitCode chainA * 32 + bitCode chainB * 16
  | .vunzip d a b m chainA chainB => 2415919110 + d.toNat * 2097152 + a.toNat * 65536 + b.toNat * 2048 + m.toNat * 64 + bitCode chainA * 32 + bitCode chainB * 16
  | .vrev d a m chainA => 2415919111 + d.toNat * 2097152 + a.toNat * 65536 + m.toNat * 64 + bitCode chainA * 32
  | .vtopk d a b m chainA => 2483027968 + d.toNat * 2097152 + a.toNat * 65536 + b.toNat * 2048 + m.toNat * 64 + bitCode chainA * 32
  | .visect d a b m chainA chainB => 2483027969 + d.toNat * 2097152 + a.toNat * 65536 + b.toNat * 2048 + m.toNat * 64 + bitCode chainA * 32 + bitCode chainB * 16
  | .vconf d a m chainA => 2483027970 + d.toNat * 2097152 + a.toNat * 65536 + m.toNat * 64 + bitCode chainA * 32
  | .vld d a m => 2684354560 + d.toNat * 2097152 + a.toNat * 65536 + m.toNat * 64
  | .vst d b m chainB => 2684354561 + d.toNat * 2097152 + b.toNat * 2048 + m.toNat * 64 + bitCode chainB * 16
  | .vldff d a m => 2684354562 + d.toNat * 2097152 + a.toNat * 65536 + m.toNat * 64
  | .vpf a m => 2684354563 + a.toNat * 65536 + m.toNat * 64
  | .vlds d a b m => 2751463424 + d.toNat * 2097152 + a.toNat * 65536 + b.toNat * 2048 + m.toNat * 64
  | .vsts d a b m chainB => 2751463425 + d.toNat * 2097152 + a.toNat * 65536 + b.toNat * 2048 + m.toNat * 64 + bitCode chainB * 16
  | .vldx d a b m chainB => 2818572288 + d.toNat * 2097152 + a.toNat * 65536 + b.toNat * 2048 + m.toNat * 64 + bitCode chainB * 16
  | .vstx d a b m chainA chainB => 2818572289 + d.toNat * 2097152 + a.toNat * 65536 + b.toNat * 2048 + m.toNat * 64 + bitCode chainA * 32 + bitCode chainB * 16
  | .vldseg d a m => 2885681152 + d.toNat * 2097152 + a.toNat * 65536 + m.toNat * 64
  | .vstseg d b m chainB => 2885681153 + d.toNat * 2097152 + b.toNat * 2048 + m.toNat * 64 + bitCode chainB * 16
  | .vamoAdd d a b m chainA chainB => 2952790016 + d.toNat * 2097152 + a.toNat * 65536 + b.toNat * 2048 + m.toNat * 64 + bitCode chainA * 32 + bitCode chainB * 16
  | .vamoMin d a b m chainA chainB => 2952790017 + d.toNat * 2097152 + a.toNat * 65536 + b.toNat * 2048 + m.toNat * 64 + bitCode chainA * 32 + bitCode chainB * 16
  | .vamoMax d a b m chainA chainB => 2952790018 + d.toNat * 2097152 + a.toNat * 65536 + b.toNat * 2048 + m.toNat * 64 + bitCode chainA * 32 + bitCode chainB * 16
  | .vamoAnd d a b m chainA chainB => 2952790019 + d.toNat * 2097152 + a.toNat * 65536 + b.toNat * 2048 + m.toNat * 64 + bitCode chainA * 32 + bitCode chainB * 16
  | .vamoOr d a b m chainA chainB => 2952790020 + d.toNat * 2097152 + a.toNat * 65536 + b.toNat * 2048 + m.toNat * 64 + bitCode chainA * 32 + bitCode chainB * 16
  | .vamoXor d a b m chainA chainB => 2952790021 + d.toNat * 2097152 + a.toNat * 65536 + b.toNat * 2048 + m.toNat * 64 + bitCode chainA * 32 + bitCode chainB * 16
  | .vamoSwap d a b m chainA chainB => 2952790022 + d.toNat * 2097152 + a.toNat * 65536 + b.toNat * 2048 + m.toNat * 64 + bitCode chainA * 32 + bitCode chainB * 16
  | .vcas d a b m chainA chainB => 3019898880 + d.toNat * 2097152 + a.toNat * 65536 + b.toNat * 2048 + m.toNat * 64 + bitCode chainA * 32 + bitCode chainB * 16
  | .vsca d a b m chainA chainB => 3019898881 + d.toNat * 2097152 + a.toNat * 65536 + b.toNat * 2048 + m.toNat * 64 + bitCode chainA * 32 + bitCode chainB * 16
  | .vfacc d a b m chainA chainB => 3019898882 + d.toNat * 2097152 + a.toNat * 65536 + b.toNat * 2048 + m.toNat * 64 + bitCode chainA * 32 + bitCode chainB * 16
  | .vrred d a b m chainB => 3019898883 + d.toNat * 2097152 + a.toNat * 65536 + b.toNat * 2048 + m.toNat * 64 + bitCode chainB * 16
  | .memoryAttributeWord _ _ _ => 0
  | .fence sc => 3087007744 + scopeCode sc * 2048
  | .convoy => 3087007745
  | .fadd d a b m chainA chainB rm => 3221225472 + d.toNat * 2097152 + a.toNat * 65536 + b.toNat * 2048 + m.toNat * 64 + bitCode chainA * 32 + bitCode chainB * 16 + roundingCode rm
  | .fsub d a b m chainA chainB rm => 3221225480 + d.toNat * 2097152 + a.toNat * 65536 + b.toNat * 2048 + m.toNat * 64 + bitCode chainA * 32 + bitCode chainB * 16 + roundingCode rm
  | .fmul d a b m chainA chainB rm => 3288334336 + d.toNat * 2097152 + a.toNat * 65536 + b.toNat * 2048 + m.toNat * 64 + bitCode chainA * 32 + bitCode chainB * 16 + roundingCode rm
  | .fma d a b m chainA chainB rm => 3288334344 + d.toNat * 2097152 + a.toNat * 65536 + b.toNat * 2048 + m.toNat * 64 + bitCode chainA * 32 + bitCode chainB * 16 + roundingCode rm
  | .fdiv d a b m chainA chainB rm => 3355443200 + d.toNat * 2097152 + a.toNat * 65536 + b.toNat * 2048 + m.toNat * 64 + bitCode chainA * 32 + bitCode chainB * 16 + roundingCode rm
  | .fsqrt d a m chainA rm => 3355443208 + d.toNat * 2097152 + a.toNat * 65536 + m.toNat * 64 + bitCode chainA * 32 + roundingCode rm
  | .fcvt d a m chainA rm => 3422552064 + d.toNat * 2097152 + a.toNat * 65536 + m.toNat * 64 + bitCode chainA * 32 + roundingCode rm
  | .fround d a m chainA rm => 3422552072 + d.toNat * 2097152 + a.toNat * 65536 + m.toNat * 64 + bitCode chainA * 32 + roundingCode rm
  | .fscale d a b m chainA chainB rm => 3489660928 + d.toNat * 2097152 + a.toNat * 65536 + b.toNat * 2048 + m.toNat * 64 + bitCode chainA * 32 + bitCode chainB * 16 + roundingCode rm
  | .fspecExp2 d a m chainA rm => 3489660936 + d.toNat * 2097152 + a.toNat * 65536 + m.toNat * 64 + bitCode chainA * 32 + roundingCode rm
  | .fspecLog2 d a m chainA rm => 3489662984 + d.toNat * 2097152 + a.toNat * 65536 + m.toNat * 64 + bitCode chainA * 32 + roundingCode rm
  | .fspecRcp d a m chainA rm => 3489665032 + d.toNat * 2097152 + a.toNat * 65536 + m.toNat * 64 + bitCode chainA * 32 + roundingCode rm
  | .fspecRsqrt d a m chainA rm => 3489667080 + d.toNat * 2097152 + a.toNat * 65536 + m.toNat * 64 + bitCode chainA * 32 + roundingCode rm
  | .fspecTanh d a m chainA rm => 3489669128 + d.toNat * 2097152 + a.toNat * 65536 + m.toNat * 64 + bitCode chainA * 32 + roundingCode rm
  | .fspecSigmoid d a m chainA rm => 3489671176 + d.toNat * 2097152 + a.toNat * 65536 + m.toNat * 64 + bitCode chainA * 32 + roundingCode rm
  | .fmin d a b m chainA chainB => 3556769792 + d.toNat * 2097152 + a.toNat * 65536 + b.toNat * 2048 + m.toNat * 64 + bitCode chainA * 32 + bitCode chainB * 16
  | .fmax d a b m chainA chainB => 3556769793 + d.toNat * 2097152 + a.toNat * 65536 + b.toNat * 2048 + m.toNat * 64 + bitCode chainA * 32 + bitCode chainB * 16
  | .fabs d a m chainA => 3556769794 + d.toNat * 2097152 + a.toNat * 65536 + m.toNat * 64 + bitCode chainA * 32
  | .fneg d a m chainA => 3556769795 + d.toNat * 2097152 + a.toNat * 65536 + m.toNat * 64 + bitCode chainA * 32
  | .fredsum d a rm m chainA => 3556769796 + d.toNat * 2097152 + a.toNat * 65536 + roundingCode rm * 2048 + m.toNat * 64 + bitCode chainA * 32
  | .fredmax d a m chainA => 3556769797 + d.toNat * 2097152 + a.toNat * 65536 + m.toNat * 64 + bitCode chainA * 32
  | .vblk d a rm m chainA => 3556769798 + d.toNat * 2097152 + a.toNat * 65536 + roundingCode rm * 2048 + m.toNat * 64 + bitCode chainA * 32
  | .vunblk d a rm m chainA => 3556769799 + d.toNat * 2097152 + a.toNat * 65536 + roundingCode rm * 2048 + m.toNat * 64 + bitCode chainA * 32
  | .fcell d a rm m chainA => 3556769800 + d.toNat * 2097152 + a.toNat * 65536 + roundingCode rm * 2048 + m.toNat * 64 + bitCode chainA * 32
  | .mopa d a b chainA chainB => 3623878656 + d.toNat * 2097152 + a.toNat * 65536 + b.toNat * 2048 + bitCode chainA * 32 + bitCode chainB * 16
  | .mopas d a b k chainA chainB => 3623878657 + d.toNat * 2097152 + a.toNat * 65536 + b.toNat * 2048 + k.toNat * 64 + bitCode chainA * 32 + bitCode chainB * 16
  | .mclzE0 d a b chainA chainB => 3623878658 + d.toNat * 2097152 + a.toNat * 65536 + b.toNat * 2048 + bitCode chainA * 32 + bitCode chainB * 16
  | .mclzE1 d a b chainA chainB => 3623878659 + d.toNat * 2097152 + a.toNat * 65536 + b.toNat * 2048 + bitCode chainA * 32 + bitCode chainB * 16
  | .mrnd d a b m rm => 3690987520 + d.toNat * 2097152 + a.toNat * 65536 + b.toNat * 2048 + m.toNat * 64 + roundingCode rm
  | .mshape a b => 3758096384 + a.toNat * 65536 + b.toNat * 2048
  | .manch d a => 3758096385 + d.toNat * 2097152 + a.toNat * 65536
  | .mzero d => 3758096386 + d.toNat * 2097152
  | .mstat d a => 3758096387 + d.toNat * 2097152 + a.toNat * 65536
  | .mrow d a b => 3825205248 + d.toNat * 2097152 + a.toNat * 65536 + b.toNat * 2048
  | .mwrow d a b chainA => 3825205249 + d.toNat * 2097152 + a.toNat * 65536 + b.toNat * 2048 + bitCode chainA * 32
  | .msave d a => 3825205250 + d.toNat * 2097152 + a.toNat * 65536
  | .mload d a => 3825205251 + d.toNat * 2097152 + a.toNat * 65536
  | .cdraw d a m chainA => 3892314112 + d.toNat * 2097152 + a.toNat * 65536 + m.toNat * 64 + bitCode chainA * 32
  | .cprob d a b m chainA => 3892314113 + d.toNat * 2097152 + a.toNat * 65536 + b.toNat * 2048 + m.toNat * 64 + bitCode chainA * 32
  | .cfb1 d a b m chainA chainB => 3959422976 + d.toNat * 2097152 + a.toNat * 65536 + b.toNat * 2048 + m.toNat * 64 + bitCode chainA * 32 + bitCode chainB * 16
  | .cfb2 d a b m chainA chainB => 3959422977 + d.toNat * 2097152 + a.toNat * 65536 + b.toNat * 2048 + m.toNat * 64 + bitCode chainA * 32 + bitCode chainB * 16
  | .cstep d a m chainA => 3959422978 + d.toNat * 2097152 + a.toNat * 65536 + m.toNat * 64 + bitCode chainA * 32
  | .cadd d a m chainA => 3959422979 + d.toNat * 2097152 + a.toNat * 65536 + m.toNat * 64 + bitCode chainA * 32
  | .xcp d a b sc od => 4026531840 + d.toNat * 2097152 + a.toNat * 65536 + b.toNat * 2048 + scopeCode sc * 8 + orderingCode od * 2
  | .xcp2 d a b sc od => 4026531904 + d.toNat * 2097152 + a.toNat * 65536 + b.toNat * 2048 + scopeCode sc * 8 + orderingCode od * 2
  | .xgat d a b sc od => 4026531968 + d.toNat * 2097152 + a.toNat * 65536 + b.toNat * 2048 + scopeCode sc * 8 + orderingCode od * 2
  | .xpg d a b sc od => 4026532032 + d.toNat * 2097152 + a.toNat * 65536 + b.toNat * 2048 + scopeCode sc * 8 + orderingCode od * 2
  | .bini a b sc od => 4026532096 + a.toNat * 65536 + b.toNat * 2048 + scopeCode sc * 8 + orderingCode od * 2
  | .barr d a b sc od => 4026532160 + d.toNat * 2097152 + a.toNat * 65536 + b.toNat * 2048 + scopeCode sc * 8 + orderingCode od * 2
  | .bexp d a b sc od => 4026532224 + d.toNat * 2097152 + a.toNat * 65536 + b.toNat * 2048 + scopeCode sc * 8 + orderingCode od * 2
  | .bwait d a b sc od => 4026532288 + d.toNat * 2097152 + a.toNat * 65536 + b.toNat * 2048 + scopeCode sc * 8 + orderingCode od * 2
  | .btest d a b sc od => 4026532352 + d.toNat * 2097152 + a.toNat * 65536 + b.toNat * 2048 + scopeCode sc * 8 + orderingCode od * 2
  | .qini a b sc od => 4093640704 + a.toNat * 65536 + b.toNat * 2048 + scopeCode sc * 8 + orderingCode od * 2
  | .qenq d a b sc od => 4093640768 + d.toNat * 2097152 + a.toNat * 65536 + b.toNat * 2048 + scopeCode sc * 8 + orderingCode od * 2
  | .qdeq d a b sc od => 4093640832 + d.toNat * 2097152 + a.toNat * 65536 + b.toNat * 2048 + scopeCode sc * 8 + orderingCode od * 2
  | .scrr d n => 4160749568 + d.toNat * 2097152 + n.toNat
  | .scrw a n => 4160749632 + a.toNat * 65536 + n.toNat
  | .trap n => 4160749696 + n.toNat
  | .tret => 4160749760
  | .vsave a b => 4160749824 + a.toNat * 65536 + b.toNat * 2048
  | .vrest a b => 4160749888 + a.toNat * 65536 + b.toNat * 2048
  | .vdirty d a => 4160749952 + d.toNat * 2097152 + a.toNat * 65536
  | .rdtime d => 4160750016 + d.toNat * 2097152
  | .rdcyc d => 4160750080 + d.toNat * 2097152
  | .cap d a => 4160750144 + d.toNat * 2097152 + a.toNat * 65536
  | .brk n => 4160750208 + n.toNat
  | .kbcast b a d => 11 + b.toNat * 1048576 + a.toNat * 32768 + d.toNat * 128
  | .kbcastw b a d => 4107 + b.toNat * 1048576 + a.toNat * 32768 + d.toNat * 128
  | .kgo b a d => 8203 + b.toNat * 1048576 + a.toNat * 32768 + d.toNat * 128
  | .kjoin a d => 12299 + a.toNat * 32768 + d.toNat * 128
  | .kwait a d => 16395 + a.toNat * 32768 + d.toNat * 128
  | .ksget s a d => 20491 + s.toNat * 33554432 + a.toNat * 32768 + d.toNat * 128
  | .ksput s b a => 24587 + s.toNat * 33554432 + b.toNat * 1048576 + a.toNat * 32768
  | .kfarm b a d => 28683 + b.toNat * 1048576 + a.toNat * 32768 + d.toNat * 128
  | .kresume a d => 43 + a.toNat * 32768 + d.toNat * 128
  | .kcfgExit a => 4139 + a.toNat * 32768
  | .kcfgWdog a d => 33558571 + a.toNat * 32768 + d.toNat * 128
  | .kcfgFmtw b a d => 67113003 + b.toNat * 1048576 + a.toNat * 32768 + d.toNat * 128
  | .kcfgLclr a d => 100667435 + a.toNat * 32768 + d.toNat * 128
  | .controlHartInstruction _ _ => 0
  | .strandEventInterrupt _ => 0
  | .kpreWrite _ _ => 0
  | .preemptStop _ _ _ => 0
  | .watchdogExpiry _ _ => 0
  | .blockStart _ _ => 0
  | .issueStarvationPromotion _ _ => 0
  | .memoryResponse _ _ => 0
  | .signalLatch _ _ => 0
  | .vpostComplete _ _ => 0
  | .vtakeComplete _ _ => 0
  | .bwaitReturn _ _ => 0
  | .kjoinReturn _ => 0
  | .kwaitReturn _ => 0
  | .kbcastwDeliver _ => 0
  | .fmtwApply _ => 0
  | .matrixStart _ => 0
  | .matrixComplete _ => 0
  | .copyUnitWrite _ => 0
  | .copyComplete _ => 0
  | .copyRetranslate _ => 0
  | .nmrReduceApply _ => 0
  | .reducePacketReceive _ => 0
  | .faultRecordMerge => 0
  | .faultNotify _ => 0
  | .heldFaultEntryWrite => 0
  | .shootdownAck _ _ => 0
  | .recordRead _ => 0
  | .jobPlace _ => 0
  | .jobAging _ => 0
  | .headWaitExpiry => 0
  | .priorityPreempt => 0
  | .haltBoundary _ _ => 0
  | .contextSaveDone _ => 0
  | .coreFinish _ => 0
  | .undeliveredEntryWrite => 0
  | .prodWrite _ _ => 0
  | .qctlWrite _ _ => 0
  | .fctlWrite _ => 0
  | .cctlWrite _ => 0
  | .plimitWrite _ => 0
  | .registerWrite _ _ => 0
  | .retire => 0
  | .cancel => 0
  | .answer => 0
  | .shoot => 0
  | .import => 0
  | .unimport => 0
  | .pkgAdd _ => 0
  | .pkgDrop => 0
  | .identify => 0
  | .spdm => 0
  | .fwStage => 0
  | .fwCommit => 0
  | .record => 0
  | .recordClear => 0
  | .restart => 0
  | .fenceCommand => 0
  | .mailboxBadOp => 0
  | .hostMemAccess _ => 0
  | .flitReceive _ _ => 0
  | .linkWidthChange _ _ => 0
  | .retrainAttemptEnd _ _ => 0
  | .partStart _ => 0
  | .inFieldTest _ _ _ => 0
  | .classFence _ _ => 0
  | .phaseLoss _ _ => 0
  | .throttleStep _ => 0
  | .powerStateEntry => 0
  | .powerStateExit => 0
  | .laneGroupGate _ _ => 0
  | .laneGroupUngate _ _ => 0
  | .correctedError _ _ _ => 0
  | .uncorrectableError _ _ _ => 0
  | .sandboxViolation _ _ => 0
  | .stalledRasEntryWrite => 0
  | .illegalInstruction _ => 0
  | .laneGroupRetire _ _ => 0

/-- The words of an instruction in the order they stand in memory: one, two for an attribute pair (R53), none for an
event. -/
def encode (i : Instr) : List IWord :=
  match i with
  | .memoryAttributeWord sc od next =>
    [BitVec.ofNat 32 (0x2F * 2 ^ 26 + scopeCode sc * 4 + orderingCode od), BitVec.ofNat 32 (encodeWord next)]
  | _ => if encodeWord i = 0 then [] else [BitVec.ofNat 32 (encodeWord i)]

/-- The instruction that the decoders read from `nbits` bits numbered as the opcode table numbers them: the bits are
laid out as little-endian words, zero above, and given to the strand's decoder; where that refuses, the word is given
to the control hart's decoder of custom-0 and custom-1 (log 17). -/
def decodeTableWord (nbits w : Nat) : Option Instr :=
  let n := w % 2 ^ nbits
  match decodeBytes (toBytes 8 n) with
  | .ok (i, _) => some i
  | .error _ => decodeExtension (n % 2 ^ 32)

end Sys2Proof
end

