-- ==== Sys2Proof/Config.lean ====
section
/-! DEFINITION. What an implementation fixes: the sizes of this part, and the free values, which are constants
without a body, so that nothing can be proved of the value the spec leaves open. -/

namespace Sys2Proof.Config

/-- Register length in bits (R6, R141). -/
def vmax : Nat := 16384

/-- Bits of a mask register: vmax/8 (R141). -/
def mlen : Nat := 2048

/-- Cores of the device (R14). -/
def cores : Nat := 192

/-- Strands of a core (R20). -/
def strands : Nat := 24

/-- Scratchpad bytes of a core (R20). -/
def spadBytes : Nat := 0x400000

/-- SDM bytes of a core (R20). -/
def sdmBytes : Nat := 0x40000

/-- Device memory bytes (R15, R185). -/
def deviceBytes : Nat := 0x8000000000

/-- Bytes of one core's saved context (R329). -/
def contextBytes : Nat := 0x840000

/-- The agent that moves when the agenda is empty: a core number and, below it, a strand or the control hart (log 4). -/
opaque freeTurn : Nat → Nat

/-- Time that has passed when a counter is read: cycles or nanoseconds (R321, log 6). -/
opaque elapsed : Nat → Nat

/-- Whether an access uses the cached translation of a page whose tables have changed and that no shoot-down has named
yet: true for the cached one (R302, log 10). Arguments: tick and virtual page. -/
opaque usesCached : Nat → Nat → Bool

/-- Which of the two values next to the exact result `fspec` delivers on f32, where the bound is 1 ulp: true for the
one further from zero (R214, log 13). Arguments: container and mantissa width of the format, function, operand bits, rounding code. -/
opaque fspecOuter : Nat → Nat → Nat → Nat → Nat → Bool

/-- The interpolated value that stands for x under `.rsd`, as the fraction p of R135 (R214, log 13). Arguments: container
and mantissa width of the format, function and operand bits. -/
opaque fspecFraction : Nat → Nat → Nat → Nat → Nat

/-- A tie under `.rne` between the largest value of a CLASS 1 format and the next exponent's first, whose lowest mantissa
bits are both 0: true for the further one from zero, which overflows (R135, log 35). -/
opaque nanGapUp : Bool

/-- How many elements at or above `vstart` a stopped load or store has performed besides those below it (R195, R304, log 28).
Argument: tick. -/
opaque ranAhead : Nat → Nat

/-- PENDING of a barrier after a drain that takes it below -2^55 (R275, log 31). -/
opaque pendingBelow : Nat → BitVec 56

/-- The public key that verifies firmware images, as the 64 bytes of its coordinates, whose SHA-256 digest is fused at manufacture
(R355, log 15). -/
opaque verifyingKey : List Byte

/-- The root image that the part was delivered with (R355, R358, log 15). -/
opaque deliveredRoot : List Byte
/-- The service image that the part was delivered with (R355, R358, log 15). -/
opaque deliveredService : List Byte

/-- KIND in the header of a firmware image: true for root (R355, log 15). -/
opaque imageRoot : List Byte → Bool
/-- VERSION in the header of a firmware image (R355, log 15). -/
opaque imageVersion : List Byte → BitVec 32
/-- SIZE in the header of a firmware image: the bytes of its body (R355, log 15). -/
opaque imageSize : List Byte → Nat

/-- The bytes that stand for the capability masks and pricking tables by core (R357, log 15). -/
opaque maskBytes : List (Word × List Nat) → List Byte

/-- The bytes of the certificate chain in slot 0 before the public key of its last certificate, the identity key's (R357, log 15). -/
opaque chainBefore : List Byte
/-- The bytes of that certificate behind its public key, its signature among them (R357, log 15). -/
opaque chainAfter : List Byte

/-- CTExponent of the SPDM capabilities: how long the device may take for a signature or a measurement (R357, log 15). -/
opaque spdmTimeout : Byte
/-- DMTF value type of the measurement of an index (R357, log 15). -/
opaque measurementType : Nat → Byte
/-- The 32-byte nonce of an SPDM response at a tick (R357, log 15). -/
opaque spdmNonce : Nat → BitVec 256
/-- The device's identity key: the secret number of an ECDSA key on P-256 (R4, R357, log 15). -/
opaque identityKey : Nat
/-- The secret number that an ECDSA signature draws at a tick (R357, log 15). -/
opaque signatureNonce : Nat → Nat

/-- The bytes of the start record in host memory, from the entries' STEP, UNIT, RESULT and CAUSE (R356, R358, log 15). -/
opaque startRecordImage : List (Nat × Nat × Nat × Nat) → List Byte

/-- The serial number of the part (R356, log 15). -/
opaque serialNumber : Word

/-- The FORM field of the part: false package, true module (R1, R356, log 15). -/
opaque moduleForm : Bool

/-- The rated current of compute die d's core rail (R362, log 15). -/
opaque railRating : Nat → BitVec 16

/-- How many flits of a class beyond one a port may send before the peer returns a credit (R349, log 46). -/
opaque moreCredits : Nat

/-- Plane pairs that the running matrix instruction has completed when a halt strikes at a tick (R231, log 30). -/
opaque pairsDone : Nat → Nat

/-- Byte i of an area of a saved context whose inner layout the spec does not give, by the area's offset and the values it
holds (R329, log 11). -/
opaque contextByte : Nat → List Nat → Nat → Byte

end Sys2Proof.Config
end

