-- ==== Sys2Proof/Machine/State.lean ====
section
/-! DEFINITION. The state of the device as plain data: strands, control harts, cores, memories, dispatcher, host
registers, links and the system management controller; and its value right after reset. -/

namespace Sys2Proof.Machine

/-- Bytes by address, in canonical form: addresses strictly rising and no entry 0, which is what an unlisted address
reads as (log 3). -/
abbrev Mem := List Host.Cell

/-- Values by number in the same canonical form over a default, which unlisted numbers hold: register files, tile
elements, and the cores and strands themselves. -/
abbrev Table (α : Type) := List (Nat × α)

/-- States of a strand (R79). -/
inductive StrandSt where
  | idle | block | self | trapped | held
  deriving DecidableEq, Repr

/-- A block: the address of its first word and its number of words (R96). -/
structure Block where
  addr  : Word
  words : Nat
  deriving DecidableEq, Repr

/-- What a copy command that has issued and waits has read: its descriptor, its list of indices, and pointers of its table by row
(R268, R269). -/
structure CopyRead where
  desc : Nat
  list : Option (List Byte)
  ptrs : List (Nat × Nat)
  deriving DecidableEq, Repr

/-- What an instruction holds since it issued: the format entries and the capability mask of that time and its attribute word, and
what a copy command has read (R53, R130, R268). -/
structure Issue where
  fmts : Table Word
  caps : Word
  attr : Option (Scope × Ordering)
  copy : Option CopyRead := none
  deriving DecidableEq, Repr

/-- An instruction that waits in place: itself, the tick at which it began to wait, and, where it has issued and then waits, what it
holds since then (R108, R110, R130, R272). -/
structure Waiting where
  instr  : Instr
  since  : Nat
  issued : Option Issue := none
  deriving DecidableEq, Repr

/-- Where a byte lives: device memory, host memory, a core's scratchpad or SDM, or the memory of device n, which the
model holds as this device knows it (R183, R184, R339; log 23). -/
inductive Space where
  | device
  | host
  | spad (p : Nat)
  | sdm (p : Nat)
  | remote (n : Nat)
  deriving DecidableEq, Repr

/-- A store of a strand that its core's store queue holds behind a copy command (R272): where its bytes go, and the key
it carries (R295). -/
structure Held where
  source : Sender
  /-- Its place among the accesses of the device, its ordering interval, and its instruction (R155, R272). -/
  no       : Nat
  interval : Nat
  pc       : Word
  blk      : Option Block
  space  : Space
  addr  : Nat
  bytes : List Byte
  /-- The virtual page that it was translated by (R302). -/
  page  : Nat
  /-- Its translation has been removed: it is translated again when it performs (R196, R302). -/
  stale : Bool
  /-- The host has not answered its page yet (R281, log 56). -/
  awaiting : Bool
  key   : Option Key
  /-- What it carries as a release (R287, R295). -/
  sync  : Release
  /-- The next store of the queue holds more bytes of the same element or segment, and performs with this one (R194,
  R284). -/
  more  : Bool
  deriving DecidableEq, Repr

/-- A copy command of a strand that its engine has abandoned, for the trap at the strand's next boundary (R281): the
command's PC, the block that it stood in, the failing address and row. -/
structure Abandoned where
  pc   : Word
  blk  : Option Block
  addr : Word
  row  : Nat
  deriving DecidableEq, Repr

/-- One strand (R79, R112, R141, R142, R217, R220, R245, R319). -/
structure Strand where
  /-- State of R79. -/
  st        : StrandSt
  /-- State before the last trap (FROM, R317). -/
  fromSt    : StrandSt
  /-- State before a halt (R79). -/
  heldSt    : StrandSt
  /-- `x1` to `x31`; unlisted 0 (R112). -/
  x         : Table Word
  pc        : Word
  /-- PC was written by `ksput` while TRAPPED (R101). -/
  pcWritten : Bool
  /-- The block that runs or that a trap stopped (R97). -/
  blk       : Option Block
  /-- Blocks that wait to start (R80). -/
  buf       : List Block
  /-- The farm slot the strand belongs to (R102). -/
  farm      : Option Nat
  /-- `v0` to `v31`; unlisted 0 (R141). -/
  v         : Table VReg
  /-- `m0` to `m23`; unlisted 0 (R141). -/
  m         : Table MReg
  /-- Tags of `v0` to `v31`; unlisted 0x03 (R142, R144). -/
  tags      : Table (BitVec 8)
  sbound    : BitVec 32
  vgrp      : Nat
  vstart    : BitVec 32
  vffi      : BitVec 32
  vfill     : Word
  /-- VALID of `vdstat` (R319). -/
  vdValid   : Bool
  /-- The performed set of an interrupted instruction (R195). -/
  vdone     : VReg
  fstat     : Word
  mext      : Word
  mfmt      : Word
  cwidth    : Word
  cspec     : Word
  cgeom     : Word
  dseed     : Word
  dmode     : Word
  dtab      : Word
  dpos      : Word
  detf      : Word
  vabs      : Word
  vimg      : Word
  vrq       : Word
  tpc       : Word
  /-- The dirty set in the layout of `vabs` (R321). -/
  dirty     : BitVec 33
  /-- Trap record words 0 to 4 (R317). -/
  rec0      : Word
  rec1      : Word
  rec2      : Word
  rec3      : Word
  rec4      : Word
  /-- `ksig` (R92). -/
  sig       : Word
  /-- SIG bit of `kpend` (R93). -/
  sigPend   : Bool
  /-- Watchdog count (R325). -/
  wd        : Nat
  waiting   : Option Waiting
  /-- Number of the open ordering interval (R155). -/
  interval  : Nat
  /-- Stores held in the store queue, oldest first (R272). -/
  storeQ    : List Held
  /-- Epoch after the last fence of device scope or wider, at the last fence of die scope, and the largest epoch that
  relaxed loads have met (R287, R295). -/
  fep       : Nat
  fepDie    : Nat
  seen      : Nat
  /-- An implicit `vrest` runs before the next instruction (R331). -/
  restore   : Bool
  /-- Copy commands abandoned and not yet trapped for, oldest first (R281). -/
  abandoned : List Abandoned
  /-- The instruction at PC has been stopped part-way and has yet to complete: the strand is at no instruction boundary (R195,
  R281, R316). -/
  partWay   : Bool
  deriving DecidableEq, Repr

/-- Privilege modes of the control hart (R90). -/
inductive Mode where
  | m | u
  deriving DecidableEq, Repr

/-- The control hart (R90). -/
structure Hart where
  /-- `x1` to `x31`; unlisted 0. -/
  x          : Table Word
  pc         : Word
  mode       : Mode
  mstatus    : Word
  mie        : Word
  mtvec      : Word
  mscratch   : Word
  mepc       : Word
  mcause     : Word
  mtval      : Word
  mcounteren : Word
  /-- As those of a strand (R287, R295). -/
  fep        : Nat
  seen       : Nat
  /-- Retired instructions (R90). -/
  instret    : Word
  waiting    : Option Waiting
  deriving DecidableEq, Repr

/-- What a link channel carries: one register's bytes and its tag (R108). -/
structure Channel where
  bytes : VReg
  tag   : BitVec 8
  deriving DecidableEq, Repr

/-- An accumulator tile (R224). -/
structure Tile where
  /-- Element 32m + n is c[m][n]; unlisted 0. -/
  c      : Table (BitVec 256)
  anchor : Int
  inx    : Bool
  ovf    : Bool
  nan    : Bool
  deriving DecidableEq, Repr

/-- A farm slot in use: its set, entry, count and next index, and the strands still in it (R102). -/
structure Farm where
  set   : BitVec 24
  entry : Word
  count : Nat
  next  : Nat
  /-- Strands of the set that are still in the farm. -/
  live  : BitVec 24
  /-- How many indices each strand has been dealt (deterministic dealing, R82); unlisted 0. -/
  dealt : Table Nat
  deriving DecidableEq, Repr

/-- What an entry of the matrix queue does to the tile that it writes: nothing; the product of operands at two registers, of
which a K-mask selects positions where `mopas` does; a new anchor; zero; a row; or an image (R233 to R241). -/
inductive MatrixOp where
  | none
  | product (a b : Reg) (kmask : Option MReg)
  | anchor (x : Int)
  | zero
  | row (r : Nat) (bits : VReg)
  | image (t : Tile)
  deriving DecidableEq, Repr

/-- An entry of the matrix queue: its strand, the values it captured, and how far it has come (R228 to R231). -/
structure MatrixEntry where
  strand   : Nat
  op       : MatrixOp
  /-- The tile that it writes as it was before it. -/
  before   : Tile
  /-- The format entries it captured, and their values. -/
  formats  : List Nat
  values   : List Word
  mext     : Word
  mfmt     : Word
  /-- The bits of its vector operand groups, where it is a product or `mclz`. -/
  operands : List Nat
  /-- Tiles that it reads and writes; a product, which has operands, adds onto what it writes. -/
  reads    : List Nat
  writes   : List Nat
  started  : Bool
  /-- Plane pairs that a started entry had completed at the last halt, and its exact partial sums by element, an integer and the
  power of two that it counts (R231). -/
  pairs    : Nat
  sums     : List (Int × Int)
  deriving DecidableEq, Repr

/-- One row of a copy command (R269). -/
structure CopyRow where
  src : Word
  dst : Word
  len : Nat
  deriving DecidableEq, Repr

/-- A copy command in its phase two, with its interlock entry (R270, R273, R280). -/
structure Copy where
  strand   : Nat
  /-- Its place among the accesses of the device. -/
  no       : Nat
  pc       : Word
  /-- The block that it stood in. -/
  blk      : Option Block
  interval : Nat
  scope    : Scope
  order    : Ordering
  rows     : List CopyRow
  /-- The row in progress and the next byte of it. -/
  row      : Nat
  offset   : Nat
  /-- Barrier: logical core and offset (R267). -/
  barrier  : Option (Nat × Nat)
  /-- The key its writes carry, and what they carry as a release (R295). -/
  key      : Option Key
  sync     : Release
  /-- Physical pages by virtual page, as phase one took them (R302). -/
  pages    : List (Nat × Nat)
  srcLo    : Nat
  srcHi    : Nat
  dstLo    : Nat
  dstHi    : Nat
  /-- A unit of this many bytes is written and not yet published: writes to other devices of these numbers are not
  acknowledged (R277, R290). -/
  unit      : Option (Nat × Nat × Nat)
  /-- Suspended by a shoot-down, with the pages to translate again (R281). -/
  suspended : Bool
  /-- Pages whose fault the host has not answered yet (R281). -/
  awaiting  : List Word
  deriving DecidableEq, Repr

/-- A cached translation: the virtual page and its entry word (R186). -/
structure TlbEntry where
  vpage : Nat
  pte   : Word
  deriving DecidableEq, Repr

/-- The placed job as its team core knows it (R62, R65). -/
structure Place where
  job      : BitVec 64
  team     : Nat
  size     : Nat
  strands  : Nat
  useMask  : Word
  det      : Bool
  spad     : Nat
  sdm      : Nat
  ptRoot   : Word
  ctxBase  : Word
  /-- Physical core of each logical core. -/
  cores    : List Nat
  discards : List (Nat × Nat)
  deriving DecidableEq, Repr

/-- A shoot-down received and not yet acknowledged: ASID, first page and number of pages, 0 for all (R196, R344). -/
structure Shoot where
  asid  : Nat
  base  : Word
  pages : Nat
  /-- The core has given the translations up; accesses numbered below this may have used them (R302). -/
  given : Option Nat := none
  /-- The agents whose instruction it has stopped: they go on once it is acknowledged (R196). -/
  stopped : List Nat := []
  deriving DecidableEq, Repr

/-- One core (R20). -/
structure Core where
  capMask    : Word
  spadUsable : Nat
  /-- Usable physical lane groups (R359). -/
  usable     : BitVec 4
  /-- Physical lane group of each mapped logical group (R143). -/
  prick      : List Nat
  /-- Gated lane groups (R363). -/
  gated      : BitVec 4
  /-- Withheld for an in-field test (R360). -/
  withheld   : Bool
  /-- How often in-field tests have narrowed the core's voltage margin (R360). -/
  margin     : Nat
  place      : Option Place
  hart       : Hart
  /-- Strands 0 to 23; unlisted `Strand.reset`. -/
  strands    : Table Strand
  spad       : Mem
  sdm        : Mem
  /-- Link channels 0 to 7; unlisted empty. -/
  chans      : Table (Option Channel)
  /-- Tiles 0 to 7; unlisted zero. -/
  tiles      : Table Tile
  /-- Format entries 9 to 15; unlisted entry 0 (R128). -/
  fmts       : Table Word
  /-- Farm slots 0 to 3; unlisted free. -/
  farms      : Table (Option Farm)
  farmEnd    : BitVec 4
  kie        : Word
  kpre       : BitVec 24
  kdisc      : Word
  wdLimit    : Nat
  mq         : List MatrixEntry
  copies     : List Copy
  tlb        : List TlbEntry
  epoch      : Nat
  cyc        : Nat
  exit       : Option (BitVec 32)
  finished   : Bool
  /-- A halt has been requested, and has reached its boundary (R77, R326). -/
  haltReq    : Bool
  halted     : Bool
  /-- The core has taken up a saved context, and its agents wait until the writes of the job's earlier run have performed
  (R298, R351). -/
  resuming   : Bool
  shoots     : List Shoot
  deriving DecidableEq, Repr

/-- A class queue's registers (R340). -/
structure ClassQueue where
  base : Word
  k    : Nat
  en   : Bool
  ovr  : Bool
  prod : BitVec 32
  cons : BitVec 32
  deriving DecidableEq, Repr

/-- A job record as read (R65). -/
structure JobRecord where
  id      : BitVec 64
  pkg     : BitVec 32
  kidx    : Nat
  useMask : Word
  spad    : Nat
  sdm     : Nat
  team    : Nat
  strands : Nat
  cls     : Nat
  det     : Bool
  args    : Word
  ctxBase : Word
  done    : Word
  prereq  : List (BitVec 64)
  ptRoot  : Word
  deriving DecidableEq, Repr

/-- Status codes of a completion entry (R70). -/
inductive JobStatus where
  | ok | noEligibleCore | badRecord | badKernel | badPrereq | prereqFailed | jobFault | uncorrectable | cancelled
  deriving DecidableEq, Repr

/-- Where a job of the job table stands (R68 to R78). -/
inductive JobState where
  | blocked
  | waiting
  | placed
  | halting
  /-- Stopped, its cores freed: what it has sent to other devices is not acknowledged yet, and then it completes so (R299). -/
  | draining (status : JobStatus) (exception : Bool) (code : Nat)
  | done (status : JobStatus)
  deriving DecidableEq, Repr

/-- A job of the job table. -/
structure Job where
  record : JobRecord
  state    : JobState
  /-- Class after aging (R72). -/
  eff      : Nat
  /-- When it became ready, when it last became waiting and when it was last placed (R72, R76). -/
  readyAt  : Nat
  waitAt   : Nat
  placedAt : Nat
  preempted : Bool
  fencedDuring : Bool
  detRead  : Bool
  /-- Physical core of each logical core while placed. -/
  cores    : List Nat
  /-- Saved contexts by logical core (R77, log 11). -/
  saved    : List Core
  /-- Keys and releases on its cores' scratchpads and SDMs while it is not placed, the spaces named by logical core
  (R295). -/
  keys     : List ((Space × Nat) × Key)
  syncs    : List ((Space × Nat) × (BitVec 64 × Release))
  /-- Host-cancelled while its halt was in progress (R345). -/
  ending   : Option JobStatus
  deriving DecidableEq, Repr

/-- The mailbox (R343). -/
structure Mailbox where
  op     : BitVec 8
  go     : Bool
  /-- The SHOOT that runs has sent its shoot-downs (R344). -/
  sent   : Bool
  status : BitVec 8
  arg0   : Word
  arg1   : Word
  arg2   : Word
  arg3   : Word
  deriving DecidableEq, Repr

/-- A notification entry of the fault ring (R346). -/
structure FaultEntry where
  job  : BitVec 64
  page : Word
  kind : Nat
  src  : Nat
  asid : Nat
  slot : Nat
  deriving DecidableEq, Repr

/-- A fault record the merger has received: who faulted, and the pages it lists (R191, R192). -/
structure FaultReport where
  job    : BitVec 64
  /-- Logical core. -/
  core   : Nat
  strand : Nat
  kind   : Nat
  asid   : Nat
  pages  : List Word
  /-- The engine reports it for a copy command (R281). -/
  engine : Bool
  deriving DecidableEq, Repr

/-- The fault merger and its ring registers (R192, R346). -/
structure Merger where
  base  : Word
  k     : Nat
  en    : Bool
  prod  : BitVec 32
  cons  : BitVec 32
  /-- Records passed to the merger and not yet merged, oldest first. -/
  inbox : List FaultReport
  /-- Records merged and not yet answered in full. -/
  open_ : List FaultReport
  /-- Pages reported and not yet answered: job, or 0 with the import slot, and the page. -/
  outstanding : List (BitVec 64 × Nat × Word)
  /-- Entries waiting for the ring. -/
  held  : List FaultEntry
  /-- Jobs with a notification due. -/
  due   : List (BitVec 64)
  deriving DecidableEq, Repr

/-- The undelivered-completion ring (R347). -/
structure Undelivered where
  base : Word
  k    : Nat
  en   : Bool
  prod : BitVec 32
  cons : BitVec 32
  held : List (List Byte)
  deriving DecidableEq, Repr

/-- An import window (R348). -/
structure ImportSlot where
  ptRoot : Word
  base   : Word
  len    : Nat
  deriving DecidableEq, Repr

/-- States of a link port (R350). -/
inductive PortSt where
  | down | training | up | retraining
  deriving DecidableEq, Repr

/-- A Druene link port (R349, R350). -/
structure Port where
  st      : PortSt
  width   : Nat
  peer    : BitVec 6
  replays : BitVec 32
  sheds   : BitVec 16
  /-- Sequence number of the next flit to send and of the next to accept. -/
  sendSeq : BitVec 12
  recvSeq : BitVec 12
  /-- Flits sent and not acknowledged, oldest first (at most 256). -/
  replay  : List Flit
  /-- Flits that wait to be sent. -/
  queue   : List Flit
  /-- Failed attempts of the retraining in progress, and the width it tries. -/
  fails   : Nat
  tryWidth : Nat
  /-- Flits of each class sent whose credit the peer has not returned, and credits to return to the peer (R349). -/
  used    : Credits
  owed    : Credits
  /-- Received loads that wait for room in the hold buffer of import windows, oldest first (R348). -/
  inbox   : List FlitLoad
  deriving DecidableEq, Repr

/-- A resident package (R344). -/
structure Package where
  handle : BitVec 32
  addr   : Word
  size   : Word
  info   : PackageInfo
  deriving DecidableEq, Repr

/-- A reduce packet at a near-memory reduce unit: the packet as it was sent, its additions and 4 KiB unit at physical
addresses, for a local one the ordering interval of its `vrred` and the virtual pages that it was translated by, and for one
of another device the import slot and the ASID (R202, R301, R302, R348). -/
structure Reduce where
  sent     : ReducePacket
  adds     : List ReduceAdd
  page     : Nat
  interval : Nat
  /-- Its place among the accesses and arrivals of the device. -/
  no       : Nat
  vpages   : List Nat
  slot     : Option (Nat × Nat)
  deriving DecidableEq, Repr

/-- A reduce packet that the col die holds for an import window: the slot it matched, and its place among the arrivals
(R348). -/
structure HeldPacket where
  slot   : Nat
  packet : ReducePacket
  no     : Nat
  deriving DecidableEq, Repr

/-- An element or unit of an access: its index, address and bytes. -/
structure Elem where
  idx  : Nat
  addr : Nat
  len  : Nat
  deriving DecidableEq, Repr

/-- Bytes of an element where they live, and the virtual page that leads there (R302). Where another device has answered the
element, `data` are the bytes that it answered with (R199, R339). -/
structure Piece where
  space : Space
  addr  : Nat
  len   : Nat
  page  : Nat := 0
  data  : Option (List Byte) := none
  deriving DecidableEq, Repr

/-- A write to another device that is not acknowledged: the device, who wrote, the pieces of the element or segment that it
belongs to, and its place among the accesses of the device (R194, R290, R302). -/
structure Posted where
  device : Nat
  source : Sender
  unit   : List Piece
  no     : Nat
  deriving DecidableEq, Repr

/-- Results of a start step (R358). -/
inductive StartResult where
  | ok | failed | skipped | alternate | held
  deriving DecidableEq, Repr

/-- An entry of the start record; `again` marks a unit that failed in its ALTERNATE way (R358). -/
structure StartEntry where
  step   : Nat
  unit   : Nat
  result : StartResult
  cause  : BitVec 16
  again  : Bool
  deriving DecidableEq, Repr

/-- Kinds of RAS entries (R366). -/
inductive RasKind where
  | corrected | uncorrectable | fence | derating | linkDown | sandbox
  deriving DecidableEq, Repr

/-- A RAS entry (R366). -/
structure RasEntry where
  kind : RasKind
  unit : BitVec 16
  addr : Word
  job  : BitVec 64
  time : Word
  deriving DecidableEq, Repr

/-- The firmware store of the SMC: the greatest VERSION of each KIND that a commit or a later start has accepted, and the images
(R355, R356). -/
structure Firmware where
  minRoot    : BitVec 32
  minService : BitVec 32
  /-- The images of this start, and those installed for the next; none for the one that the part was delivered with (R355, R357; log
15). -/
  rootImage    : List Byte
  serviceImage : List Byte
  nextRootImage    : List Byte
  nextServiceImage : List Byte
  staged     : Option (List Byte)
  deriving DecidableEq, Repr

/-- What the SMC keeps of an attestation: how far the requester has negotiated (1 version, 2 capabilities, 3 algorithms), and
the messages that its next signature covers: the negotiation, and since then those of certificates and of measurements (R357; log
15). -/
structure Attestation where
  phase    : Nat
  setup    : List Byte
  certs    : List Byte
  measured : List Byte
  deriving DecidableEq, Repr

/-- Who moves next (log 4). -/
inductive Turn where
  | strand (p k : Nat)
  | hart (p : Nat)
  | event (i : Instr)
  | pass (cycles ns : Nat)
  /-- The host stores bytes into host memory (R296). -/
  | hostStore (addr : Nat) (data : List Byte)
  deriving DecidableEq, Repr

/-- What an access has asked of another device, and the bytes that came back (R339). -/
structure Ask where
  id     : Nat
  /-- The index of the element that it is for (R199). -/
  elem   : Nat
  device : Nat
  addr   : Nat
  next   : Nat
  len    : Nat
  op     : RemoteOp
  answer : Option (List Byte × List (Nat × Release))
  deriving DecidableEq, Repr

/-- An access of an agent in phase two that waits for other devices: its elements as phase one placed them, and what it has
asked (R339, R351). -/
structure Flight where
  source : Sender
  elems  : List (Elem × List Piece)
  asks   : List Ask
  /-- The core's format entries and capability mask when the access issued (R130). -/
  fmts   : Table Word
  caps   : Word
  /-- The instruction and its attribute word, of an access of an instruction. -/
  instr  : Option Instr
  attr   : Option (Scope × Ordering)
  /-- The strand's held stores when it asked, at their places: its loads read them before memory (R121). -/
  held   : List Held
  /-- A core halt has stopped the instruction: the elements that it has asked for come first, this many units, and the
  instruction runs again for the rest (R195, R197). -/
  stopped : Option Nat
  deriving DecidableEq, Repr

/-- The reservation of a control hart's load-reserved (R90, R292; log 12). -/
structure Resv where
  /-- The device of the hart, 0 for this one, its job there, and its core: by logical number on another device. -/
  device : Nat := 0
  job    : BitVec 64 := 0
  core  : Nat
  space : Space
  addr  : Nat
  size  : Nat
  deriving DecidableEq, Repr

/-- The state of the device. -/
structure State where
  devMem    : Mem
  hostMem   : Mem
  /-- Memories of other devices by fabric number (R339, log 23). -/
  remotes   : Table Mem
  /-- Lines that the host may hold (R338). -/
  hostLines : List Nat
  /-- Data that the last host read returned (R338). -/
  hostRead  : List Byte
  /-- Keys of bytes written in deterministic mode (R295). -/
  keys      : List ((Space × Nat) × Key)
  /-- What the writes of a byte carry as releases, with their job (R287, R295). -/
  syncs     : List ((Space × Nat) × (BitVec 64 × Release))
  /-- Reservations of control harts. -/
  resvs     : List Resv
  /-- Cores 0 to 191; unlisted `Core.reset`. -/
  cores     : Table Core
  devid     : BitVec 6
  queues    : Table ClassQueue
  jobs      : List Job
  lastJobId : BitVec 64
  /-- The head of the waiting jobs, since when, and whether it blocks later jobs (R73). -/
  headJob   : Option (BitVec 64)
  headSince : Nat
  headBlocks : Bool
  pkgs      : List Package
  nextHandle : BitVec 32
  mbox      : Mailbox
  merger    : Merger
  undel     : Undelivered
  imports   : Table (Option ImportSlot)
  /-- Reduce packets held by import windows (R348). -/
  heldPkts  : List HeldPacket
  /-- Reduce packets on their way to a near-memory reduce unit (R202). -/
  nmrQ      : List Reduce
  /-- Remote reduces sent and not yet acknowledged, with the device that they are for (R288). -/
  remoteQ   : List (Nat × ReducePacket)
  /-- Writes to other devices not yet acknowledged (R290, R351). -/
  postedQ   : List Posted
  /-- Accesses that wait for other devices, and the number of the next access or arrival (R339). -/
  flights   : List Flight
  askId     : Nat
  routes    : Table (BitVec 6)
  ports     : Table Port
  msix      : List Nat
  lattol    : BitVec 32
  plimit    : BitVec 12
  mhz       : BitVec 12
  alccap    : Nat
  power     : Nat
  /-- A PROD doorbell has rung since the part entered its low power state (R363). -/
  wake      : Bool
  derated   : Bool
  /-- Working regulator phases of each die's rail (R362). -/
  phases    : Table Nat
  /-- Fences in always-on storage: core and class (R361). -/
  fences    : List (Nat × Nat)
  startRec  : List StartEntry
  /-- The start record as this start left it (R357). -/
  startLeft : List StartEntry
  /-- Restarts within this power-on (R358). -/
  restarts  : Nat
  recovery  : Bool
  /-- The part restarts: its start steps have not run (R358). -/
  starting  : Bool
  fw        : Firmware
  attest    : Attestation
  ceSram    : Word
  ceHbm     : Word
  /-- RAS entries not yet consumed, oldest first, consumed ones that their slots still show, newest first, entries of
  stalled writers, and the two counts (R366). -/
  ras       : List RasEntry
  rasRead   : List RasEntry
  rasStalled : List RasEntry
  rasProd   : Word
  rasCons   : Word
  /-- Nanoseconds since the device last started (R321). -/
  now       : Nat
  /-- The core and the strand whose instruction is being performed (log 4). -/
  curCore   : Nat
  curStrand : Nat
  /-- The attribute word before the instruction being performed (R53, log 4). -/
  attr      : Option (Scope × Ordering)
  /-- Elements that a vector memory instruction performs before the stop that strikes it (R195, log 9). -/
  cut       : Option Nat
  agenda    : List Turn
  tick      : Nat
  deriving DecidableEq, Repr

/-- Why the machine stops: never. Every access to an address outside every range has the access violation of the spec (R185,
R339; log 72), so that no step raises a fault. -/
inductive Fault
  deriving DecidableEq, Repr

/-- Why the model has no meaning for what was asked. -/
inductive Refusal where
  /-- An instruction that the model gives no meaning yet: raised by its arm of exec. Safe. -/
  | notModelled (mnemonic : String)
  deriving DecidableEq, Repr

/-- A strand right after reset and at every job start (R79, R112, R141, R142, R217, R220, R221, R245, R319; log 1). -/
def Strand.reset : Strand where
  st := .idle
  fromSt := .idle
  heldSt := .idle
  x := []
  pc := 0
  pcWritten := false
  blk := none
  buf := []
  farm := none
  v := []
  m := []
  tags := []
  sbound := 0xFFFFFFFF
  vgrp := 1
  vstart := 0
  vffi := 0
  vfill := 0
  vdValid := false
  vdone := 0
  fstat := 0
  mext := 0x2002020
  mfmt := 0x0707
  cwidth := 8
  cspec := 0x4000
  cgeom := 1
  dseed := 0
  dmode := 0
  dtab := 0xFFFF800000000000
  dpos := 0
  detf := 0
  vabs := 0
  vimg := 0
  vrq := 0
  tpc := 0
  dirty := 0
  rec0 := 0
  rec1 := 0
  rec2 := 0
  rec3 := 0
  rec4 := 0
  sig := 0
  sigPend := false
  wd := 0
  waiting := none
  interval := 0
  storeQ := []
  fep := 0
  fepDie := 0
  seen := 0
  restore := false
  abandoned := []
  partWay := false

/-- The control hart right after reset (R90; log 1, log 12). -/
def Hart.reset : Hart where
  x := []
  pc := 0
  mode := .m
  mstatus := 0x200000000
  mie := 0
  mtvec := 0
  mscratch := 0
  mepc := 0
  mcause := 0
  mtval := 0
  mcounteren := 0
  fep := 0
  seen := 0
  instret := 0
  waiting := none

/-- A zero tile (R224). -/
def Tile.reset : Tile where
  c := []
  anchor := 0
  inx := false
  ovf := false
  nan := false

/-- Every defined class of R63. -/
def allClasses : Word := 0x0000FFFF1FFF07FF

/-- A core of a part without a defect, holding no job (R20, R359; log 2). -/
def Core.reset : Core where
  capMask := allClasses
  spadUsable := Config.spadBytes
  usable := 0xF
  prick := [0, 1, 2, 3]
  gated := 0
  withheld := false
  margin := 0
  place := none
  hart := Hart.reset
  strands := []
  spad := []
  sdm := []
  chans := []
  tiles := []
  fmts := []
  farms := []
  farmEnd := 0
  kie := 0
  kpre := 0
  kdisc := 0
  wdLimit := 0x1000000
  mq := []
  copies := []
  tlb := []
  epoch := 0
  cyc := 0
  exit := none
  finished := false
  haltReq := false
  halted := false
  resuming := false
  shoots := []

/-- A class queue right after reset (R340). -/
def ClassQueue.reset : ClassQueue where
  base := 0
  k := 4
  en := false
  ovr := false
  prod := 0
  cons := 0

/-- A link port right after reset (R350). -/
def Port.reset : Port where
  st := .down
  width := 0
  peer := 0
  replays := 0
  sheds := 0
  sendSeq := 0
  recvSeq := 0
  replay := []
  queue := []
  fails := 0
  tryWidth := 3
  used := ⟨0, 0, 0⟩
  owed := ⟨0, 0, 0⟩
  inbox := []

/-- The start record of a clean start: one entry for each step and unit, every one OK (R358; log 2). -/
def startRecReset : List StartEntry :=
  let one (step unit : Nat) : StartEntry := { step := step, unit := unit, result := .ok, cause := 0, again := false }
  [one 1 0, one 2 0, one 3 0] ++ (List.range 8).map (one 4) ++ (List.range 6).map (one 5)
    ++ (List.range 192).map (one 6) ++ (List.range 18).map (one 7) ++ [one 8 0]

/-- The device right after reset: in service, no job, every register at its reset value. CE_SRAM, CE_HBM, RASPROD, RASCONS and the slots
of the RAS ring, among others, have no stated one: the model's choice (log 1). -/
def State.reset : State where
  devMem := []
  hostMem := []
  remotes := []
  hostLines := []
  hostRead := []
  keys := []
  syncs := []
  resvs := []
  cores := []
  devid := 0
  queues := []
  jobs := []
  lastJobId := 0
  headJob := none
  headSince := 0
  headBlocks := false
  pkgs := []
  nextHandle := 1
  mbox := { op := 0, go := false, sent := false, status := 0, arg0 := 0, arg1 := 0, arg2 := 0, arg3 := 0 }
  merger := { base := 0, k := 4, en := false, prod := 0, cons := 0, inbox := [], open_ := [], outstanding := [],
              held := [], due := [] }
  undel := { base := 0, k := 4, en := false, prod := 0, cons := 0, held := [] }
  imports := []
  heldPkts := []
  nmrQ := []
  remoteQ := []
  postedQ := []
  flights := []
  askId := 0
  routes := []
  ports := []
  msix := []
  lattol := 0
  plimit := 1800
  mhz := 1750
  alccap := 0
  power := 0
  wake := false
  derated := false
  phases := []
  fences := []
  startRec := startRecReset
  startLeft := startRecReset
  restarts := 0
  recovery := false
  starting := false
  fw := { minRoot := 0, minService := 0, rootImage := [], serviceImage := [], nextRootImage := [], nextServiceImage := [],
          staged := none }
  attest := { phase := 0, setup := [], certs := [], measured := [] }
  ceSram := 0
  ceHbm := 0
  ras := []
  rasRead := []
  rasStalled := []
  rasProd := 0
  rasCons := 0
  now := 0
  curCore := 0
  curStrand := 0
  attr := none
  cut := none
  agenda := []
  tick := 0

end Sys2Proof.Machine
end

