-- ==== Sys2Proof/Machine/Ops.lean ====
section
/-! DEFINITION. The named operations over tables, registers and strands: reading and writing by number, retiring an
instruction, control transfers, and taking a strand trap and returning from it. -/

namespace Sys2Proof.Machine

/-- The outcome of a step. -/
abbrev Res := Host.Outcome State Fault Refusal

/-- The value at a number, or the default. -/
def Table.get {α : Type} (d : α) : Table α → Nat → α
  | [], _ => d
  | (k', v) :: t, k => if k = k' then v else Table.get d t k

/-- Write one number, keeping the canonical form: the default is not listed. -/
def Table.set {α : Type} [DecidableEq α] (d : α) (t : Table α) (k : Nat) (v : α) : Table α :=
  t.filter (fun e => e.1 < k) ++ (if v = d then [] else [(k, v)]) ++ t.filter (fun e => k < e.1)

/-- Bytes numbered from `a`, without those that an unlisted address reads as. -/
def Mem.cellsAt : Nat → List Byte → Mem
  | _, [] => []
  | a, b :: bs => if b = 0 then Mem.cellsAt (a + 1) bs else (a, b) :: Mem.cellsAt (a + 1) bs

/-- One byte; an unlisted address reads 0 (log 3). -/
def Mem.get (m : Mem) (a : Nat) : Byte := Table.get 0 m a

/-- Store bytes at consecutive addresses, keeping the canonical form. -/
def Mem.write (m : Mem) (a : Nat) (bs : List Byte) : Mem :=
  m.filter (fun e => e.1 < a) ++ Mem.cellsAt a bs ++ m.filter (fun e => a + bs.length ≤ e.1)

/-- The bytes at `n` consecutive addresses. -/
def Mem.read (m : Mem) (a n : Nat) : List Byte := (List.range n).map fun i => m.get (a + i)

/-- The canonical form over a default: numbers strictly rising, no default listed. -/
def Table.wf {α : Type} [DecidableEq α] (d : α) : Table α → Bool
  | [] => true
  | [(_, v)] => v ≠ d
  | (k, v) :: (k', v') :: t => v ≠ d && k < k' && Table.wf d ((k', v') :: t)

/-- The canonical form of memory (log 3). -/
def Mem.wf (m : Mem) : Bool := Table.wf 0 m

/-- Core p. -/
def State.core (s : State) (p : Nat) : Core := Table.get Core.reset s.cores p

/-- Replace core p. -/
def State.setCore (s : State) (p : Nat) (c : Core) : State :=
  { s with cores := Table.set Core.reset s.cores p c }

/-- Strand k of a core. -/
def Core.strand (c : Core) (k : Nat) : Strand := Table.get Strand.reset c.strands k

/-- The strand executes instructions: BLOCK or SELF (R79). -/
def Strand.runs (st : Strand) : Bool := st.st = .block || st.st = .self

/-- Replace strand k of a core. One that executes nothing has no stop requested (R318). -/
def Core.setStrand (c : Core) (k : Nat) (st : Strand) : Core :=
  { c with
    strands := Table.set Strand.reset c.strands k st
    kpre := if st.runs then c.kpre else c.kpre &&& ~~~ (BitVec.ofNat 24 (2 ^ k)) }

/-- Make core p, and its strand k, the one whose instruction is performed. -/
def State.at_ (s : State) (p k : Nat) : State := { s with curCore := p, curStrand := k }

/-- The core whose instruction is being performed. -/
def State.myCore (s : State) : Core := s.core s.curCore

/-- Replace that core. -/
def State.setMyCore (s : State) (c : Core) : State := s.setCore s.curCore c

/-- The strand whose instruction is being performed. -/
def State.me (s : State) : Strand := s.myCore.strand s.curStrand

/-- Replace that strand. -/
def State.setMe (s : State) (st : Strand) : State := s.setMyCore (s.myCore.setStrand s.curStrand st)

/-- A scalar register; `x0` reads as zero (R112). -/
def Strand.getX (st : Strand) (r : Reg) : Word := if r = 0 then 0 else Table.get 0 st.x r.toNat

/-- Write a scalar register; a write to `x0` is discarded (R112). -/
def Strand.setX (st : Strand) (r : Reg) (w : Word) : Strand :=
  if r = 0 then st else { st with x := Table.set 0 st.x r.toNat w }

/-- A vector register. -/
def Strand.getV (st : Strand) (n : Nat) : VReg := Table.get 0 st.v n

/-- Write a vector register and mark it dirty (R321). -/
def Strand.setV (st : Strand) (n : Nat) (w : VReg) : Strand :=
  { st with v := Table.set 0 st.v n w, dirty := st.dirty ||| (BitVec.ofNat 33 (2 ^ n)) }

/-- A mask register. -/
def Strand.getM (st : Strand) (n : Nat) : MReg := Table.get 0 st.m n

/-- Write a mask register and mark the masks dirty (R321). -/
def Strand.setM (st : Strand) (n : Nat) (w : MReg) : Strand :=
  { st with m := Table.set 0 st.m n w, dirty := st.dirty ||| (BitVec.ofNat 33 (2 ^ 32)) }

/-- The tag byte of a vector register; 0x03 (i64) unless written (R142). -/
def Strand.tag (st : Strand) (n : Nat) : Nat := (Table.get (3 : BitVec 8) st.tags n).toNat

/-- Set the tag byte of a vector register. -/
def Strand.setTag (st : Strand) (n : Nat) (t : Nat) : Strand :=
  { st with tags := Table.set 3 st.tags n (BitVec.ofNat 8 t) }

/-- A tile. -/
def Core.tile (c : Core) (t : Nat) : Tile := Table.get Tile.reset c.tiles t

/-- Replace a tile. -/
def Core.setTile (c : Core) (t : Nat) (v : Tile) : Core := { c with tiles := Table.set Tile.reset c.tiles t v }

/-- Element c[m][n] of a tile (R224). -/
def Tile.get (t : Tile) (m n : Nat) : BitVec 256 := Table.get 0 t.c (32 * m + n)

/-- The fixed format entries 0 to 8, and entry 0 again for the job's entries until they are written (R128). -/
def fixedFormat (e : Nat) : Word :=
  match e with
  | 1 => 0x00901E25
  | 2 => 0x001C0212
  | 3 => 0x009C0623
  | 4 => 0x009C0232
  | 5 => 0x01201EA5
  | 6 => 0x0110FE78
  | 7 => 0x01B0FF78
  | 8 => 0x02760000
  | _ => 0x009A0E34

/-- Format-table entry e (R127, R128). -/
def Core.fmt (c : Core) (e : Nat) : Word := if e < 9 then fixedFormat e else Table.get 0x009A0E34 c.fmts e

/-- A link channel. -/
def Core.chan (c : Core) (n : Nat) : Option Channel := Table.get none c.chans n

/-- Replace a link channel. -/
def Core.setChan (c : Core) (n : Nat) (v : Option Channel) : Core := { c with chans := Table.set none c.chans n v }

/-- A farm slot. -/
def Core.farm (c : Core) (f : Nat) : Option Farm := Table.get none c.farms f

/-- Replace a farm slot. -/
def Core.setFarm (c : Core) (f : Nat) (v : Option Farm) : Core := { c with farms := Table.set none c.farms f v }

/-- The use mask of the job placed on a core (R63). -/
def Core.useMask (c : Core) : Word := (c.place.map Place.useMask).getD 0

/-- Whether the job placed on a core runs in deterministic mode (R88). -/
def Core.det (c : Core) : Bool := (c.place.map Place.det).getD false

/-- STRANDS of the job placed on a core (R65). -/
def Core.strandCount (c : Core) : Nat := (c.place.map Place.strands).getD 0

/-- A halt has been requested, of the core or of a strand of it, and has not reached its boundary (R326). -/
def Core.stopPending (c : Core) : Bool := (c.haltReq && !c.halted) || c.kpre ≠ 0

/-- The active lane count, by the mapped lane groups and the power limit, which counts for nothing from a halt request to its
boundary (R22, R326, R362, R364). -/
def State.alc (s : State) (p : Nat) : Nat :=
  let n := (s.core p).prick.length
  let cap := if s.alccap = 0 || (s.core p).stopPending then 64 else if s.alccap = 1 then 32 else 16
  if n = 0 then 0 else min cap (if 4 ≤ n then 64 else if 2 ≤ n then 32 else 16)

/-- Bytes of the instruction being performed: 8 for an attribute pair, else 4 (R54). -/
def State.ilen (s : State) : Nat := if s.attr.isSome then 8 else 4

/-- A block ends: the next buffered block starts, or the strand becomes IDLE (R79, R80). -/
def Strand.endBlock (st : Strand) : Strand :=
  match st.buf with
  | b :: rest => { st with st := .block, blk := some b, buf := rest, pc := b.addr }
  | [] => { st with st := .idle, blk := none }

/-- Whether an address lies in a block, at `from` bytes or further. -/
def Block.holds (b : Block) (a : Word) (start : Nat) : Bool :=
  start ≤ (a - b.addr).toNat && (a - b.addr).toNat < 4 * b.words

/-- Go on at the word after the instruction: in BLOCK, running past the last word ends the block (R97). A strand that becomes
IDLE so keeps the address behind the block as its PC: R100 gives an IDLE strand no next word to perform, and this is the model's
choice (log 67). -/
def Strand.goOn (st : Strand) (next : Word) : Strand :=
  match st.st, st.blk with
  | .block, some b => if b.holds next 0 then { st with pc := next } else Strand.endBlock { st with pc := next }
  | _, _ => { st with pc := next }

/-- The instruction has completed: the strand retires it and goes on after it. -/
def Strand.retire (st : Strand) (len : Nat) : Strand :=
  { st with wd := 0, waiting := none, partWay := false }.goOn (st.pc + BitVec.ofNat 64 len)

/-- Complete the current strand's instruction. -/
def State.retire (s : State) : State := s.setMe (s.me.retire s.ilen)

/-- A step that completes the instruction with a new value of the strand. -/
def State.complete (s : State) (st : Strand) : Res := .next (s.setMe (st.retire s.ilen))

/-- The causes of strand traps (R315). -/
inductive Cause where
  | illegal | undeclared | fenced | misalign | xlate | access | brk | vabsent | link | watchdog | preempt | float
  | software
  deriving DecidableEq, Repr

/-- The CAUSE code of R315. -/
def Cause.code (c : Cause) : Nat :=
  match c with
  | .illegal => 1 | .undeclared => 2 | .fenced => 3 | .misalign => 4 | .xlate => 5 | .access => 6 | .brk => 7
  | .vabsent => 8 | .link => 9 | .watchdog => 10 | .preempt => 11 | .float => 12 | .software => 13

/-- What a trap record holds besides FROM and PC (R317). -/
structure Trap where
  cause : Cause
  code  : Nat := 0
  reg   : Nat := 0
  info  : Nat := 0
  elem  : Nat := 0
  count : Nat := 0
  deriving DecidableEq, Repr

/-- FROM of R317: 1 BLOCK, 2 SELF. -/
def fromCode (st : StrandSt) : Nat := if st = .block then 1 else 2

/-- A strand takes a trap: it becomes TRAPPED, writes its record, and word 1, `tpc` and PC hold the resume point
(R79, R317). -/
def Strand.trap (st : Strand) (t : Trap) (resume : Word) : Strand :=
  { st with
    st := .trapped
    fromSt := st.st
    rec0 := BitVec.ofNat 64 (t.cause.code + t.code * 2 ^ 8 + fromCode st.st * 2 ^ 16 + t.reg * 2 ^ 24)
    rec1 := resume
    rec2 := BitVec.ofNat 64 t.info
    rec3 := BitVec.ofNat 64 t.elem
    rec4 := BitVec.ofNat 64 t.count
    tpc := resume
    pc := resume
    pcWritten := false
    waiting := none
    restore := false
    wd := 0 }

/-- A flight is one of core p. -/
def Core.flies (c : Core) (f : Flight) : Bool := c.place.any fun pl => f.source.job = pl.job && f.source.core = pl.team

/-- A flight is one of agent k of a core: an access of it, a fetch, or a walk for either (R339). -/
def Core.fliesFor (c : Core) (k : Nat) (f : Flight) : Bool := c.flies f && f.source.agent % 32 = k

/-- What strand k of core p waits for from other devices is no longer waited for (R339). -/
def State.dropFlight (s : State) (p k : Nat) : State :=
  { s with flights := s.flights.filter fun f => !(s.core p).fliesFor k f }

/-- A trap of strand k of core p; `Core.setStrand` clears a pending `kpre` request of the strand (R316, R318). -/
def State.trapAt (s : State) (p k : Nat) (t : Trap) (resume : Word) : State :=
  let c := s.core p
  let s := s.dropFlight p k
  s.setCore p (c.setStrand k ((c.strand k).trap t resume))

/-- The current strand's instruction traps and performs nothing; the resume point is the instruction (R57, R315). -/
def State.trapHere (s : State) (t : Trap) : State := s.trapAt s.curCore s.curStrand t s.me.pc

/-- The current strand's instruction ends in a trap. -/
def State.trapped (s : State) (t : Trap) : Res := .next (s.trapHere t)

/-- What an instruction holds that issues now, or that has issued and runs on so (R130, R268). -/
def State.issueNow (s : State) (copy : Option CopyRead := none) : Issue where
  fmts := s.myCore.fmts
  caps := s.myCore.capMask
  attr := s.attr
  copy := copy

/-- The current strand's instruction waits in place (R110): nothing changes but that it waits, since its first try, with what it
holds where it has issued. -/
def State.waitsWith (s : State) (i : Instr) (issued : Option Issue) : Res :=
  let st := s.me
  let since := match st.waiting with
    | some w => if w.instr = i then w.since else s.tick
    | none => s.tick
  .next (s.setMe { st with waiting := some { instr := i, since := since, issued := issued } })

/-- The current strand's instruction waits before it issues, or for something that no value of its issue reaches (R110). -/
def State.waits (s : State) (i : Instr) : Res := s.waitsWith i none

/-- The current strand's instruction has issued and then waits (R130, R272, R273). -/
def State.waitsIssued (s : State) (i : Instr) : Res := s.waitsWith i (some s.issueNow)

/-- The strand's instruction that has issued and waits, with what it holds since then (R130). -/
def Strand.issuedWait (st : Strand) : Option (Instr × Issue) := st.waiting.bind fun w => w.issued.map fun u => (w.instr, u)

/-- Return of a TRAPPED strand to execution at its PC: into the state before the trap, or into SELF when PC was written
meanwhile, the rest of its block then counting as ended (R79, R101). A block whose last word is behind PC has ended. -/
def Strand.resume (st : Strand) : Strand :=
  if st.pcWritten then { st with st := .self, blk := none, pcWritten := false, wd := 0, partWay := false }
  else Strand.goOn { st with st := st.fromSt, wd := 0 } st.pc

/-- `tret`: PC := `tpc`, and the strand stays in SELF (R321). -/
def Strand.trapReturn (st : Strand) : Strand := { st with st := .self, pc := st.tpc, wd := 0, waiting := none, partWay := false }

/-- A field of a control and status register put in place: `len` bits from `lo`. -/
def setBits (w : Word) (lo len v : Nat) : Word :=
  (w &&& ~~~ (BitVec.ofNat 64 ((2 ^ len - 1) * 2 ^ lo))) ||| BitVec.ofNat 64 (v % 2 ^ len * 2 ^ lo)

/-- Entry into M-mode: `mepc`, `mcause`, `mtval`, MPP and MPIE keep what was, MIE becomes 0, and pc is the handler's
address, by cause for an interrupt when `mtvec` is vectored (R90; RISC-V privileged architecture, log 12). -/
def Hart.enterTrap (h : Hart) (interrupt : Bool) (cause : Nat) (tval : Word) : Hart :=
  let base := h.mtvec &&& ~~~ 3
  { h with
    mepc := h.pc
    mcause := BitVec.ofNat 64 (cause + if interrupt then 2 ^ 63 else 0)
    mtval := tval
    mstatus := setBits (setBits (setBits h.mstatus 7 1 (if h.mstatus.getLsbD 3 then 1 else 0)) 3 1 0)
      11 2 (match h.mode with | .m => 3 | .u => 0)
    mode := .m
    waiting := none
    pc := if interrupt && h.mtvec.getLsbD 0 then base + BitVec.ofNat 64 (4 * cause) else base }

/-- `mret`: the mode in MPP and MIE from MPIE are restored, MPIE becomes 1 and MPP U, MPRV is cleared on leaving M-mode,
and pc is `mepc` (R90; RISC-V privileged architecture, log 12). -/
def Hart.trapReturn (h : Hart) : Hart :=
  let toM := h.mstatus.getLsbD 11
  let st := setBits (setBits (setBits h.mstatus 3 1 (if h.mstatus.getLsbD 7 then 1 else 0)) 7 1 1) 11 2 0
  { h with
    mstatus := if toM then st else setBits st 17 1 0
    mode := if toM then .m else .u
    pc := h.mepc
    waiting := none }

/-- A taken branch or jump of the current strand to `target`: any target in SELF; in BLOCK a later word of the same
block, and otherwise the illegal-instruction trap, the link register unwritten (R97). -/
def State.jump (s : State) (word : Nat) (st : Strand) (target : Word) : Res :=
  match s.me.st, s.me.blk with
  | .block, some b =>
    if b.holds target ((s.me.pc - b.addr).toNat + 1)
    then .next (s.setMe { st with pc := target, wd := 0, waiting := none, partWay := false })
    else s.trapped { cause := .illegal, info := word }
  | _, _ => .next (s.setMe { st with pc := target, wd := 0, waiting := none, partWay := false })

/-- The first class of the list that the job's use mask lacks, then the first that the core's capability mask lacks
(checks 7 and 8 of R57, R147). -/
def State.classTrap (s : State) (classes : List Nat) : Option Trap :=
  match classes.find? (fun b => !s.myCore.useMask.getLsbD b) with
  | some b => some { cause := .undeclared, info := b }
  | none =>
    match classes.find? (fun b => !s.myCore.capMask.getLsbD b) with
    | some b => some { cause := .fenced, info := b }
    | none => none

/-- A group of registers: its first register and its span. -/
structure Group where
  first : Nat
  span  : Nat
  deriving DecidableEq, Repr

/-- Two groups share a register. -/
def Group.meets (g h : Group) : Bool := g.first < h.first + h.span && h.first < g.first + g.span

/-- Two groups partly overlap: they share a register and differ in first register or size (R58). -/
def Group.partly (g h : Group) : Bool := g.meets h && g ≠ h

/-- Checks 5 and 6 of R57: groups whose first register is not a multiple of their span, and a destination that partly
overlaps a source. -/
def groupsIllegal (dst src : List Group) : Bool :=
  (dst ++ src).any (fun g => g.first % g.span ≠ 0) || dst.any fun d => src.any fun g => d.partly g

/-- The set of registers of some groups, as bits. -/
def groupSet (gs : List Group) : Nat :=
  (List.range 32).foldl (fun acc n => if gs.any (fun g => g.first ≤ n && n < g.first + g.span) then acc ||| 2 ^ n else acc) 0

/-- The first-use test: the absent registers among the groups named, and the masks where one is used (R322). -/
def Strand.absentTrap (st : Strand) (gs : List Group) (masks : Bool) : Option Trap :=
  let regs := (groupSet gs) &&& st.vabs.toNat
  let all := regs + (if masks && st.vabs.getLsbD 32 then 2 ^ 32 else 0)
  if all = 0 then none
  else some { cause := .vabsent, info := all, reg := ((List.range 33).find? (fun n => all.testBit n)).getD 0 }

/-- The gate of a strand's instruction, in the order of R57 and R316: group checks, classes, first use. Operands are the
word, its class, the destination and source groups of the decode checks, every group it names, and whether it uses a
mask register. -/
def State.gate (s : State) (i : Instr) (cls : Nat) (dst src named : List Group) (masks : Bool) : Option Trap :=
  if groupsIllegal dst src then some { cause := .illegal, info := encodeWord i }
  else match s.classTrap [cls] with
    | some t => some t
    | none => s.me.absentTrap named masks

/-- A scalar instruction: the class SCALAR, or another class without groups. -/
def State.scalarGate (s : State) (cls : Nat) (k : State → Res) : Res :=
  match s.classTrap [cls] with
  | some t => s.trapped t
  | none => k s

end Sys2Proof.Machine
end

