-- ==== Sys2Proof/Machine/Ports.lean ====
section
/-! DEFINITION. Link ports: routes, traffic classes and credits, and sending flits (R297, R340, R349, R351). -/

namespace Sys2Proof.Machine

/-- A link port. -/
def State.port (s : State) (p : Nat) : Port := Table.get Port.reset s.ports p

/-- Replace a link port. -/
def State.setPort (s : State) (p : Nat) (q : Port) : State := { s with ports := Table.set Port.reset s.ports p q }

/-- The port that carries traffic to device n, where its ROUTE entry is valid (R349). -/
def State.route (s : State) (n : Nat) : Option Nat :=
  let r := Table.get 0 s.routes n
  if r.getLsbD 5 then some (r.toNat % 32) else none

/-- The target of a load, where it has one (R349). -/
def flitTarget (l : FlitLoad) : Option Nat :=
  match l with
  | .idle => none
  | .part t _ _ _ => some t
  | .write t _ _ _ _ _ _ => some t
  | .writeAck t _ _ => some t
  | .request t _ _ _ _ _ _ _ => some t
  | .response t _ _ _ _ _ => some t
  | .reduce t _ => some t
  | .reduceAck t _ _ => some t

/-- The device that a load comes from, where the load says so. -/
def flitSource (l : FlitLoad) : Option Nat :=
  match l with
  | .idle => none
  | .part _ d _ _ => some d
  | .write _ src _ _ _ _ _ => some src.device
  | .writeAck _ _ d => some d
  | .request _ src _ _ _ _ _ _ => some src.device
  | .response _ _ d _ _ _ => some d
  | .reduce _ pkt => some pkt.device
  | .reduceAck _ _ _ => none

/-- The job that a load belongs to on the device that owns its access, with that device; an answer belongs to the access
that it answers. -/
def flitOwner (l : FlitLoad) : Option (Nat × BitVec 64) :=
  match l with
  | .idle => none
  | .part _ d job _ => some (d, job)
  | .write _ src _ _ _ _ _ => some (src.device, src.job)
  | .writeAck _ src _ => some (src.device, src.job)
  | .request _ src _ _ _ _ _ _ => some (src.device, src.job)
  | .response _ src _ _ _ _ => some (src.device, src.job)
  | .reduce _ pkt => some (pkt.device, pkt.job)
  | .reduceAck _ pkt _ => some (pkt.device, pkt.job)

/-- Credits of the class of a load: one, and none for a load without a class. Acknowledgements travel with the responses
(R297; log 46). -/
def flitCredit (l : FlitLoad) : Credits :=
  match l with
  | .idle => ⟨0, 0, 0⟩
  | .part _ _ _ cls => cls
  | .write _ _ _ _ _ _ _ => ⟨1, 0, 0⟩
  | .reduce _ _ => ⟨0, 0, 1⟩
  | _ => ⟨0, 1, 0⟩

/-- More credits. -/
def addCredits (a b : Credits) : Credits := ⟨a.posted + b.posted, a.nonPosted + b.nonPosted, a.reduce + b.reduce⟩

/-- Fewer credits. -/
def subCredits (a b : Credits) : Credits := ⟨a.posted - b.posted, a.nonPosted - b.nonPosted, a.reduce - b.reduce⟩

/-- Another flit that uses `c` is within the credits that the peer has given (R349, log 46). -/
def creditRoom (used c : Credits) : Bool :=
  let within (u n : Nat) : Bool := n = 0 || u < Config.moreCredits + 1
  within used.posted c.posted && within used.nonPosted c.nonPosted && within used.reduce c.reduce

/-- What the device's condition lets its ports send. -/
structure LinkRule where
  /-- The device has a fabric number, and so sends fabric traffic (R340). -/
  fabric : Bool
  /-- The hold buffer of the import windows is full: credits of the reduce class are withheld (R348). -/
  full   : Bool
  deriving DecidableEq, Repr

/-- Packets that the hold buffer takes (R348). -/
def holdSize : Nat := 64

/-- The hold buffer of the import windows has no room for another packet (R348). -/
def State.holdFull (s : State) : Bool := holdSize ≤ s.heldPkts.length

/-- The condition of the device for its ports. -/
def State.linkRule (s : State) : LinkRule := { fabric := s.devid ≠ 0, full := s.holdFull }

/-- The credits that a flit returns, of those owed; the rest stays owed (R348, R349). -/
def LinkRule.returned (c : LinkRule) (owed : Credits) : Credits := if c.full then { owed with reduce := 0 } else owed

/-- A port sends a flit: it takes the next sequence number, returns the credits that are due, and stays in the replay buffer
until acknowledged (R349). -/
def Port.send (q : Port) (c : LinkRule) (nak : Bool) (l : FlitLoad) : Port :=
  { q with
    sendSeq := q.sendSeq + 1
    used := addCredits q.used (flitCredit l)
    owed := subCredits q.owed (c.returned q.owed)
    replay := q.replay ++
      [{ seq := q.sendSeq, crcOk := true, ack := q.recvSeq - 1, nak := nak, credits := c.returned q.owed, load := l }] }

/-- A port may send a load now: it is UP, its replay buffer of 256 flits has room, the class has a credit, and traffic of the
fabric is on (R340, R349, R351). -/
def Port.maySend (q : Port) (c : LinkRule) (l : FlitLoad) : Bool :=
  q.st = .up && q.replay.length < 256 && creditRoom q.used (flitCredit l) && (c.fabric || (flitTarget l).isNone)

/-- A port sends the flits that wait, in order; one that it may not send holds back those behind it for the same target
(R297, R349, R351). `held` are the targets held back. -/
def Port.sendQueued (q : Port) (c : LinkRule) (held : List Nat) : List Flit → Port
  | [] => { q with queue := [] }
  | f :: rest =>
    let t := (flitTarget f.load).getD 0
    if q.maySend c f.load && !held.contains t then (q.send c f.nak f.load).sendQueued c held rest
    else
      let r := q.sendQueued c (t :: held) rest
      { r with queue := f :: r.queue }

/-- A flit that waits to be sent. -/
def waitingFlit (nak : Bool) (l : FlitLoad) : Flit :=
  { seq := 0, crcOk := true, ack := 0, nak := nak, credits := ⟨0, 0, 0⟩, load := l }

/-- A flit joins the queue of port p, which sends what it may. -/
def State.pushFlit (s : State) (p : Nat) (f : Flit) : State :=
  let q := s.port p
  s.setPort p (q.sendQueued s.linkRule [] (q.queue ++ [f]))

/-- A flit for device n goes to the port of its route; without a route, or while the device sends no fabric traffic, it is
dropped (R340, R349). -/
def State.sendFlit (s : State) (n : Nat) (l : FlitLoad) : State :=
  match s.route n with
  | none => s
  | some p => if s.devid = 0 then s else s.pushFlit p (waitingFlit false l)

/-- Bytes of an addition in a packet: an integer's own, and 4 for what goes into a wide cell (R202, log 46). -/
def addBytes (a : ReduceAdd) : Nat :=
  match a with
  | .int _ n _ => n
  | .cell _ _ _ => 4

/-- Bytes of a load's payload (R349, log 46). -/
def flitBytes (l : FlitLoad) : Nat :=
  match l with
  | .write _ _ _ _ data _ _ => data.length
  | .response _ _ _ _ data _ => data.length
  | .reduce _ pkt => (pkt.adds.map addBytes).sum
  | _ => 0

/-- The flits before the last of a load whose payload needs several of 240 bytes (R349, log 46). -/
def flitParts (l : FlitLoad) : List FlitLoad :=
  match flitTarget l, flitOwner l with
  | some t, some o => List.replicate ((flitBytes l - 1) / 240) (.part t o.1 o.2 (flitCredit l))
  | _, _ => []

/-- A load for device n, in one flit or several (R349). -/
def State.queueFlit (s : State) (n : Nat) (l : FlitLoad) : State :=
  (flitParts l ++ [l]).foldl (fun t f => t.sendFlit n f) s

/-- Traffic for device n can no longer arrive: no route, or a port that is DOWN (R352). -/
def State.cutOff (s : State) (n : Nat) : Bool :=
  match s.route n with
  | some p => (s.port p).st = .down
  | none => true

end Sys2Proof.Machine
end

