-- ==== Sys2Proof/Machine/Memory.lean ====
section
/-! DEFINITION. The job's address space: physical decode, windows, the Sv48 walk with its cached translations, phase
one of an access with its traps and fault record, and phase two: loads, stores, keyed stores and read-modify-writes. -/

namespace Sys2Proof.Machine

/-- A number as n bytes, little-endian (R8). -/
def leBytes (n k : Nat) : List Byte := (List.range n).map fun i => BitVec.ofNat 8 (k >>> (8 * i))

/-- The number that bytes form, little-endian (R8). -/
def leNat : List Byte → Nat
  | [] => 0
  | b :: bs => b.toNat + 256 * leNat bs

/-- The memory of a space. -/
def State.memOf (s : State) (sp : Space) : Mem :=
  match sp with
  | .device => s.devMem
  | .host => s.hostMem
  | .spad p => (s.core p).spad
  | .sdm p => (s.core p).sdm
  | .remote n => Table.get [] s.remotes n

/-- Replace the memory of a space. -/
def State.setMem (s : State) (sp : Space) (m : Mem) : State :=
  match sp with
  | .device => { s with devMem := m }
  | .host => { s with hostMem := m }
  | .spad p => s.setCore p { s.core p with spad := m }
  | .sdm p => s.setCore p { s.core p with sdm := m }
  | .remote n => { s with remotes := Table.set [] s.remotes n m }

/-- The bytes of a place. -/
def State.peek (s : State) (sp : Space) (a n : Nat) : List Byte := (s.memOf sp).read a n

/-- Two byte ranges share a byte. -/
def rangesMeet (a n b m : Nat) : Bool := a < b + m && b < a + n && 0 < n && 0 < m

/-- What a write of n bytes by any agent takes away: the host's copies of their lines (R338) and the reservations on
them (log 12). -/
def State.dropCopies (s : State) (sp : Space) (a n : Nat) : State :=
  { s with
    hostLines := if sp = .device then s.hostLines.filter (fun l => !rangesMeet (64 * l) 64 a n) else s.hostLines
    resvs := s.resvs.filter fun r => !(r.space = sp && rangesMeet r.addr r.size a n) }

/-- Bytes written by any agent. -/
def State.put (s : State) (sp : Space) (a : Nat) (bs : List Byte) : State :=
  State.setMem (s.dropCopies sp a bs.length) sp ((s.memOf sp).write a bs)

/-- Where a device physical address leads (R339). While FNUM is 0 an address of another device leads nowhere, also where its route is
valid: the model's choice (log 82). -/
def State.physical (s : State) (pa : Nat) : Option (Space × Nat) :=
  if pa < Config.deviceBytes then some (.device, pa)
  else if pa / 2 ^ 52 = 8 then some (.host, pa % 2 ^ 52)
  else if pa / 2 ^ 54 = 1 && pa / 2 ^ 39 % 2 ^ 9 = 0 then
    let n := pa / 2 ^ 48 % 64
    if n = 0 || s.devid = 0 then none
    else if n = s.devid.toNat then some (.device, pa % 2 ^ 39)
    else if (Table.get 0 s.routes n).getLsbD 5 then some (.remote n, pa % 2 ^ 39)
    else none
  else none

/-- Where the n bytes at a device physical address lie, all in one range (R339). -/
def State.physicalRange (s : State) (pa n : Nat) : Option (Space × Nat) :=
  match s.physical pa with
  | some (sp, a) => if s.physical (pa + (n - 1)) = some (sp, a + (n - 1)) then some (sp, a) else none
  | none => none

/-- What an access does, for the rights it needs (R185) and for KIND (R191). -/
inductive Access where
  | load | store | rmw | reduce | fetch
  deriving DecidableEq, Repr

/-- The access writes. -/
def Access.writes (a : Access) : Bool :=
  match a with
  | .load | .fetch => false
  | .store | .rmw | .reduce => true

/-- KIND of R191. -/
def Access.kind (a : Access) : Nat :=
  match a with
  | .load | .fetch => 0
  | .store => 1
  | .rmw => 2
  | .reduce => 3

/-- What a walk of the tables finds. -/
inductive Walk where
  | missing
  | outside
  | leaf (pte : Word)
  deriving DecidableEq, Repr

/-- Walk the tables: n levels are left and the next table lies at `table`. A leaf is given as the entry of the 4 KiB
page; pages are 4 KiB, 2 MiB and 1 GiB, so the root table holds no leaf (R4, R185, R186). -/
def State.walkFrom (s : State) (va : Nat) : Nat → Nat → Walk
  | 0, _ => .missing
  | l + 1, table =>
    match s.physical (table + 8 * (va / 2 ^ (12 + 9 * l) % 512)) with
    | none => .outside
    | some (sp, a) =>
      let e := leNat (s.peek sp a 8)
      let ppn := e / 1024 % 2 ^ 44
      if !e.testBit 0 || (e.testBit 2 && !e.testBit 1) || e / 2 ^ 54 ≠ 0 then .missing
      else if !e.testBit 1 && !e.testBit 3 then s.walkFrom va l (ppn * 4096)
      else if l = 3 || ppn % 2 ^ (9 * l) ≠ 0 then .missing
      else .leaf (BitVec.ofNat 64 (e + va / 4096 % 2 ^ (9 * l) * 1024))

/-- The entries in other devices' memories that a walk reads, by device and address, as far as this device knows the tables
(R185, R339). -/
def State.walkAsks (s : State) (va : Nat) : Nat → Nat → List (Nat × Nat)
  | 0, _ => []
  | l + 1, table =>
    match s.physical (table + 8 * (va / 2 ^ (12 + 9 * l) % 512)) with
    | none => []
    | some (sp, a) =>
      let e := leNat (s.peek sp a 8)
      let here := match sp with
        | .remote n => [(n, a)]
        | _ => []
      if e % 2 = 1 && e / 2 % 8 = 0 then here ++ s.walkAsks va l (e / 1024 % 2 ^ 44 * 4096) else here

/-- The root table of a PT_ROOT word (R65). -/
def rootOf (w : Word) : Nat := w.toNat % 2 ^ 44 * 4096

/-- The ASID of a PT_ROOT word (R65). -/
def asidOf (w : Word) : Nat := w.toNat / 2 ^ 44 % 2 ^ 16

/-- The entry that core p uses for an address: the walked one, or a cached one that a change of the tables has not yet
reached (R186, R302; log 10). -/
def State.leafOf (s : State) (p va : Nat) : Walk :=
  match (s.core p).place with
  | none => .outside
  | some pl =>
    let w := s.walkFrom va 4 (rootOf pl.ptRoot)
    match (s.core p).tlb.find? (fun e => e.vpage = va / 4096) with
    | none => w
    | some e => if w = .leaf e.pte then w else if Config.usesCached s.tick (va / 4096) then .leaf e.pte else w

/-- The fate of the translation of one address (R183 to R185). -/
inductive Fate where
  | at_ (sp : Space) (a : Nat)
  | missing
  | forbidden
  deriving DecidableEq, Repr

/-- An address is canonical (R183). -/
def canonical (va : Nat) : Bool := va / 2 ^ 47 = 0 || va / 2 ^ 47 = 0x1FFFF

/-- The entries that core p's walks for some pages read in other devices' memories; a page whose translation it holds needs
none, and one that is not canonical has none (R183, R186, R339). -/
def State.tableAsks (s : State) (p : Nat) (pages : List Nat) : List (Nat × Nat) :=
  match (s.core p).place with
  | none => []
  | some pl => (pages.filter fun pg => canonical (pg * 4096) && !(s.core p).tlb.any fun e => e.vpage = pg).flatMap fun pg =>
      s.walkAsks (pg * 4096) 4 (rootOf pl.ptRoot)

/-- The rights that a leaf must give (R185). An M-mode access of the control hart needs no U bit (R90). -/
def State.leafFate (s : State) (acc : Access) (machine : Bool) (va : Nat) (w : Walk) : Fate :=
  match w with
  | .missing => .missing
  | .outside => .forbidden
  | .leaf pte =>
    if !pte.getLsbD 6 || (acc.writes && !pte.getLsbD 7) then .missing
    else if !machine && !pte.getLsbD 4 then .forbidden
    else if (acc = .load && !pte.getLsbD 1) || (acc.writes && !pte.getLsbD 2) || (acc = .fetch && !pte.getLsbD 3)
    then .forbidden
    else match s.physical (pte.toNat / 1024 % 2 ^ 44 * 4096 + va % 4096) with
      | some (sp, a) => .at_ sp a
      | none => .forbidden

/-- First address of the windows, and of the team windows (R183, R184). -/
def windowBase : Nat := 0xFFFF800000000000

/-- First address of the team windows (R184). -/
def teamBase : Nat := 0xFFFF900000000000

/-- An address lies in the window range (R183). -/
def inWindows (va : Nat) : Bool := windowBase ≤ va && va < 0xFFFFA00000000000

/-- Scratchpad or SDM bytes of physical core p at an offset of its window (R184). -/
def State.windowAt (s : State) (p o len : Nat) : Fate :=
  if o < Config.spadBytes then
    if o + len ≤ (s.core p).spadUsable then .at_ (.spad p) o else .forbidden
  else if o - Config.spadBytes + len ≤ Config.sdmBytes then .at_ (.sdm p) (o - Config.spadBytes)
  else .forbidden

/-- The window bytes that an address of the window range reaches from core p (R184). -/
def State.window (s : State) (p va len : Nat) : Fate :=
  if va < teamBase then s.windowAt p (va - windowBase) len
  else
    match (s.core p).place with
    | none => .forbidden
    | some pl =>
      match pl.cores[(va - teamBase) / 0x800000]? with
      | none => .forbidden
      | some q => s.windowAt q ((va - teamBase) % 0x800000) len

/-- Translate an address whose `len` bytes lie in one 4 KiB page (R183). -/
def State.translate (s : State) (p : Nat) (acc : Access) (machine : Bool) (va len : Nat) : Fate :=
  if !canonical va then .forbidden
  else if inWindows va then s.window p va len
  else s.leafFate acc machine va (s.leafOf p va)

/-- A run of bytes inside one page: its address and length. -/
abbrev Run := Nat × Nat

/-- Cut bytes at page boundaries; addresses wrap at 2^64 (R188). -/
def pageRuns : Nat → Nat → Nat → List Run
  | 0, _, _ => []
  | fuel + 1, va, len =>
    if len = 0 then []
    else
      let k := Nat.min len (4096 - va % 4096)
      (va, k) :: pageRuns fuel ((va + k) % 2 ^ 64) (len - k)

/-- The runs of `len` bytes at an address. -/
def runsOf (va len : Nat) : List Run := pageRuns (len / 4096 + 2) va len

/-- Without repeats, first occurrences kept. -/
def dedup : List Nat → List Nat
  | [] => []
  | a :: l => a :: (dedup l).filter (fun b => b ≠ a)

/-- The pages outside the windows that some runs reach, each once. -/
def pagesOf (runs : List Run) : List Nat :=
  dedup ((runs.filter (fun r => !(canonical r.1 && inWindows r.1))).map (fun r => r.1 / 4096))

/-- What phase one takes of the pages: each page outside the windows once, with the fate of its first byte (R190). -/
def State.pageFates (s : State) (p : Nat) (acc : Access) (machine : Bool) (runs : List Run) : List (Nat × Fate) :=
  (pagesOf runs).map fun pg => (pg, s.translate p acc machine (pg * 4096) 1)

/-- A reduce reaches device memory alone (R202). -/
def Access.limits (acc : Access) (f : Fate) : Fate :=
  match acc, f with
  | .reduce, .at_ .device _ => f
  | .reduce, .at_ _ _ => .forbidden
  | _, _ => f

/-- The fate of one run, from the fates of the pages. -/
def State.runFate (s : State) (p : Nat) (acc : Access) (fates : List (Nat × Fate)) (r : Run) : Fate :=
  acc.limits
    (if canonical r.1 && inWindows r.1 then s.window p r.1 r.2
    else match fates.find? (fun f => f.1 = r.1 / 4096) with
      | some (_, .at_ sp a) => .at_ sp (a + r.1 % 4096)
      | some (_, f) => f
      | none => .forbidden)

/-- The outcome of phase one (R190). -/
inductive Phase where
  | misaligned (e : Elem)
  | missing (failed : List Elem) (pages : List Nat)
  | forbidden (e : Elem)
  | ok (es : List (Elem × List Piece)) (pages : List Nat)
  deriving DecidableEq, Repr

/-- The pieces of an element whose runs all have a place. -/
def State.piecesOf (s : State) (p : Nat) (acc : Access) (fates : List (Nat × Fate)) (e : Elem) : List Piece :=
  (runsOf e.addr e.len).filterMap fun r =>
    match s.runFate p acc fates r with
    | .at_ sp a => some { space := sp, addr := a, len := r.2, page := r.1 / 4096 }
    | _ => none

/-- Insert into an ascending list. -/
def insertNat (a : Nat) : List Nat → List Nat
  | [] => [a]
  | b :: l => if a ≤ b then a :: b :: l else b :: insertNat a l

/-- Sort ascending. -/
def sortNat (l : List Nat) : List Nat := l.foldr insertNat []

/-- Phase one over the active elements: alignment, then translations, then rights, each over all elements (R190). -/
def State.phaseOne (s : State) (p : Nat) (acc : Access) (machine : Bool) (align : Nat) (es : List Elem) : Phase :=
  match es.find? (fun e => e.addr % align ≠ 0) with
  | some e => .misaligned e
  | none =>
    let fates := s.pageFates p acc machine (es.flatMap fun e => runsOf e.addr e.len)
    let bad (f : Fate) (e : Elem) : Bool := (runsOf e.addr e.len).any fun r => s.runFate p acc fates r = f
    let failed := es.filter (bad .missing)
    if failed ≠ [] then .missing failed (sortNat ((fates.filter (fun f => f.2 = .missing)).map (·.1)))
    else match es.find? (bad .forbidden) with
      | some e => .forbidden e
      | none => .ok (es.map fun e => (e, s.piecesOf p acc fates e)) (fates.map (·.1))

/-- Keep the translations that an access of core p has used: at most 2,048, the newest first (R186, log 10). -/
def State.fillTlb (s : State) (p : Nat) (pages : List Nat) : State :=
  let used : List TlbEntry := pages.filterMap fun pg =>
    match s.leafOf p (pg * 4096) with
    | .leaf pte =>
      let e : TlbEntry := { vpage := pg, pte := pte }
      if e ∈ (s.core p).tlb then none else some e
    | _ => none
  if used = [] then s
  else s.setCore p { s.core p with
    tlb := (used ++ (s.core p).tlb.filter (fun e => !used.any (fun u => u.vpage = e.vpage))).take 2048 }

/-- The physical address of strand k's fault-record slot on the core that holds `pl` (R329). -/
def Place.faultSlot (pl : Place) (k : Nat) : Nat :=
  pl.ctxBase.toNat + pl.team * Config.contextBytes + 0x8000 + k * 0x1000

/-- The 4 KiB fault record. TEAM_NO is the core's logical number, as the record's table has it (R191), though R14 says that
fault records name cores by physical index or by die and position: the model's choice (log 58). -/
def faultRecord (pl : Place) (k kind : Nat) (pc : Word) (failed pages : List Nat) : List Byte :=
  let listed := pages.take 248
  leBytes 8 pl.job.toNat ++ leBytes 2 pl.team ++ leBytes 1 k ++ leBytes 1 kind
    ++ leBytes 4 (if 248 < pages.length then 1 else 0) ++ leBytes 8 pc.toNat ++ leBytes 4 failed.length
    ++ leBytes 4 pages.length ++ leBytes 4 listed.length ++ leBytes 4 ((failed.head?).getD 0) ++ leBytes 24 0
    ++ leBytes 2048 (failed.foldl (fun acc i => acc ||| 2 ^ i) 0)
    ++ listed.flatMap (fun pg => leBytes 8 (pg * 4096)) ++ leBytes (1984 - 8 * listed.length) 0

/-- Core p keeps no cached translation of pages whose walk faulted (R302). -/
def State.forgetPages (s : State) (p : Nat) (pages : List Nat) : State :=
  if (s.core p).tlb.any fun e => pages.contains e.vpage then
    s.setCore p { s.core p with tlb := (s.core p).tlb.filter fun e => !pages.contains e.vpage }
  else s

/-- Scope and order of an access. -/
structure Order where
  scope : Scope
  acq   : Bool
  rel   : Bool
  deriving DecidableEq, Repr

/-- The order of an ORD code (R49). -/
def Order.of (sc : Scope) (od : Ordering) : Order :=
  { scope := sc, acq := od = .acq || od = .acqRel, rel := od = .rel || od = .acqRel }

/-- Device scope or wider (R295). -/
def wideScope (sc : Scope) : Bool :=
  match sc with
  | .dev | .fab | .sys => true
  | _ => false

/-- The order of the current vector memory instruction: its attribute word's, else `.core.rlx` (R53). -/
def State.order (s : State) : Order :=
  match s.attr with
  | some (sc, od) => Order.of sc od
  | none => Order.of .core .rlx

/-- The virtual address of a held store's bytes outside the windows. -/
def Held.va (h : Held) : Nat := h.page * 4096 + h.addr % 4096

/-- Where the bytes of a held store of core p go: to the place that it was translated to, or by a new translation where that one
has been given up (R302). -/
def State.heldFate (s : State) (p : Nat) (h : Held) : Fate :=
  if h.stale then s.translate p .store false h.va h.bytes.length else .at_ h.space h.addr

/-- Held stores of the current core at their places; one without a place reaches no bytes. -/
def State.heldAt (s : State) (hs : List Held) : List Held :=
  hs.filterMap fun h =>
    match s.heldFate s.curCore h with
    | .at_ sp a => some { h with space := sp, addr := a }
    | _ => none

/-- A held store of the current strand has given up its translation, and where its bytes go now is not known: its page is missing, or
the tables of it are another device's (R121, R302). -/
def State.heldUnplaced (s : State) : Bool :=
  s.me.storeQ.any fun h => h.stale && (s.heldFate s.curCore h = .missing || s.tableAsks s.curCore [h.page] ≠ [])

/-- Some bytes replaced by those of a held store that reach them. -/
def Held.over (h : Held) (sp : Space) (a : Nat) (bs : List Byte) : List Byte :=
  if h.space = sp then
    bs.zipIdx.map fun (b, i) => if h.addr ≤ a + i then (h.bytes[a + i - h.addr]?).getD b else b
  else bs

/-- Bytes at a place under some held stores, the oldest first. -/
def heldOver (hs : List Held) (sp : Space) (a : Nat) (bs : List Byte) : List Byte :=
  hs.foldl (fun bs h => h.over sp a bs) bs

/-- The bytes of a piece: what another device has answered for it, or those of memory as this device knows it. -/
def State.pieceBytes (s : State) (q : Piece) : List Byte := q.data.getD (s.peek q.space q.addr q.len)

/-- The bytes a strand's load reads: its own held stores stand before memory (R121, R272). -/
def State.loadAs (s : State) (st : Strand) (ps : List Piece) : List Byte :=
  ps.flatMap fun q => heldOver (s.heldAt st.storeQ) q.space q.addr (s.pieceBytes q)

/-- The key of a byte left by a job (R295). -/
def State.keyOf (s : State) (sp : Space) (a : Nat) : Option Key :=
  (s.keys.find? (fun e => e.1 = (sp, a))).map (·.2)

/-- The compute die of a core (R14). -/
def dieOf (p : Nat) : Nat := p / 48

/-- The logical core t of the current core's team lies on the current core's die (R14, R287). -/
def State.onMyDie (s : State) (t : Nat) : Bool :=
  match s.myCore.place.bind fun pl => pl.cores[t]? with
  | some q => dieOf q = dieOf s.curCore
  | none => false

/-- The epoch count that synchronising with a release gives the current core: one of device scope or wider reaches every
core, one of die scope those of its die (R287, R295). -/
def State.releaseValue (s : State) (r : Release) : Nat := if s.onMyDie r.core then Nat.max r.wide r.die else r.wide

/-- The largest epoch count that releases of this job have left on some bytes for the current core (R287, R295). -/
def State.syncOf (s : State) (job : BitVec 64) (ps : List Piece) : Nat :=
  s.syncs.foldl (fun acc e =>
    if e.2.1 = job && e.2.2.device = 0 && ps.any (fun q => q.space = e.1.1 && q.addr ≤ e.1.2 && e.1.2 < q.addr + q.len)
    then Nat.max acc (s.releaseValue e.2.2) else acc) 0

/-- Bytes without a key and without a release. -/
def State.unkey (s : State) (sp : Space) (a n : Nat) : State :=
  { s with
    keys := s.keys.filter fun e => !(e.1.1 = sp && a ≤ e.1.2 && e.1.2 < a + n)
    syncs := s.syncs.filter fun e => !(e.1.1 = sp && a ≤ e.1.2 && e.1.2 < a + n) }

/-- Bytes that carry a release too; nothing where it says none. -/
def State.setSync (s : State) (job : BitVec 64) (sp : Space) (a n : Nat) (v : Release) : State :=
  if v.wide = 0 && v.die = 0 then s
  else
    let new := (List.range n).map (fun i => ((sp, a + i), (job, v)))
    { s with syncs := new ++ s.syncs.filter fun e => !new.contains e }

/-- A byte holds a higher key of the same job, so that the write is not applied (R295). -/
def State.outranked (s : State) (key : Key) (sp : Space) (a : Nat) : Bool :=
  match s.keyOf sp a with
  | some k => k.job = key.job && k.device = key.device && (key.epoch < k.epoch || (key.epoch = k.epoch && key.core < k.core))
  | none => false

/-- One keyed byte: not applied when the byte holds a higher key of the same job (R295). -/
def State.putKeyedByte (s : State) (key : Key) (sync : Release) (sp : Space) (a : Nat) (b : Byte) : State :=
  if s.outranked key sp a then s
  else
    let t := ((s.put sp a [b]).unkey sp a 1)
    State.setSync { t with keys := ((sp, a), key) :: t.keys } key.job sp a 1 sync

/-- Keyed bytes in increasing address order. -/
def State.putKeyed (s : State) (key : Key) (sync : Release) (sp : Space) : Nat → List Byte → State
  | _, [] => s
  | a, b :: bs => State.putKeyed (s.putKeyedByte key sync sp a b) key sync sp (a + 1) bs

/-- The number of the next access or arrival, which is taken. -/
def State.takeNumber (s : State) : State := { s with askId := s.askId + 1 }

/-- A posted write of an agent to device n waits for its acknowledgement; `unit` are the pieces of the element that it belongs to.
Its key and its release travel with it, and bytes beyond the 4 KiB page of a lie from `next` on (R290, R295, R339, R349). -/
def State.postWrite (s : State) (src : Sender) (key : Option Key) (sync : Release) (n a next : Nat) (unit : List Piece)
    (bs : List Byte) : State :=
  let w : Posted := { device := n, source := src, unit := unit, no := s.askId }
  State.queueFlit { s.takeNumber with postedQ := s.postedQ ++ [w] } n (.write n src a next bs key sync)

/-- A plain store of an agent: keyed in deterministic mode, and posted where the bytes live on another device (R295,
R339). -/
def State.plainStore (s : State) (src : Sender) (key : Option Key) (sync : Release) (sp : Space) (a : Nat)
    (bs : List Byte) (unit : List Piece := []) : State :=
  match sp, key with
  | .remote n, k => s.postWrite src k sync n a 0 unit bs
  | _, none => (s.put sp a bs).unkey sp a bs.length
  | _, some k => s.putKeyed k sync sp a bs

/-- The device of a piece that another device holds. -/
def Piece.device (q : Piece) : Option Nat :=
  match q.space with
  | .remote n => some n
  | _ => none

/-- The writes of one element or segment over its pieces: two pieces on one other device travel as one write (R194, R284,
R339). `unit` are all its pieces. -/
def writePieces (src : Sender) (key : Option Key) (sync : Release) (unit : List Piece) :
    List Piece → List Byte → State → State
  | [], _, s => s
  | [q], bs, s => s.plainStore src key sync q.space q.addr (bs.take q.len) unit
  | q :: r :: ps, bs, s =>
    match (if r.space = q.space then q.device else none) with
    | some n => writePieces src key sync unit ps (bs.drop (q.len + r.len))
        (s.postWrite src key sync n q.addr r.addr unit (bs.take (q.len + r.len)))
    | none => writePieces src key sync unit (r :: ps) (bs.drop q.len)
        (s.plainStore src key sync q.space q.addr (bs.take q.len) unit)

/-- A plain store of one element or segment over its pieces (R194, R284, R339). -/
def storePieces (src : Sender) (key : Option Key) (sync : Release) (ps : List Piece) (bs : List Byte) (s : State) : State :=
  writePieces src key sync ps ps bs s

/-- The pieces lie on several devices, this one counting as one of them (R194, R339). -/
def acrossPieces (ps : List Piece) : Bool := ps.any fun q => ps.any fun r => q.device ≠ r.device

/-- Two lists of pieces share a byte. -/
def piecesMeet (ps qs : List Piece) : Bool :=
  ps.any fun q => qs.any fun r => q.space = r.space && rangesMeet q.addr q.len r.addr r.len

/-- A unit that another agent of this device writes on several devices reaches some bytes, and its parts have not all performed:
until then no access of this device comes between them (R194, R284; log 73). -/
def State.unitOpen (s : State) (src : Sender) (ps : List Piece) : Bool :=
  s.postedQ.any fun e => e.source ≠ src && acrossPieces e.unit && piecesMeet e.unit ps

/-- Another agent of this device reads a unit on several devices that has some of these bytes (R194, R284; log 73). -/
def State.unitRead (s : State) (src : Sender) (ps : List Piece) : Bool :=
  s.flights.any fun f => f.source ≠ src && f.elems.any fun e => acrossPieces e.2 && piecesMeet e.2 ps

/-- An access to one element must wait for a unit on several devices: for one that is being written, and where it writes also for
one that is being read (R194, R284; log 73). -/
def State.unitWaits (s : State) (src : Sender) (writes : Bool) (ps : List Piece) : Bool :=
  s.unitOpen src ps || (writes && s.unitRead src ps)

/-- Bytes cut into units of 64, each with its offset; the number bounds the units. -/
def units64 : Nat → Nat → List Byte → List (Nat × List Byte)
  | 0, _, _ => []
  | n + 1, o, bs => if bs = [] then [] else (o, bs.take 64) :: units64 n (o + 64) (bs.drop 64)

/-- Bytes written by an agent without a key: at once, or posted in units of 64 bytes where another device holds them (R339). -/
def State.agentWrite (s : State) (src : Sender) (sp : Space) (a : Nat) (bs : List Byte) : State :=
  match sp with
  | .remote n => (units64 (bs.length / 64 + 1) 0 bs).foldl
      (fun t u => t.postWrite src none ⟨0, 0, 0, 0⟩ n (a + u.1) 0 [] u.2) s
  | _ => (s.put sp a bs).unkey sp a bs.length

/-- The number of a core's translation agent among its agents. -/
def translationAgent : Nat := 26

/-- The translation agent of core p writes the fault record of its strand k and passes it to the merger: the new state
and the record's address (R191, R192). The engine reports in the same way for a copy command (R281). A slot that lies outside
every range is the failing address of an access violation instead (R339; log 72). -/
def State.reportFault (s : State) (p k kind : Nat) (pc : Word) (failed pages : List Nat) (engine : Bool := false) :
    Except Nat (State × Nat) :=
  match (s.core p).place with
  | none => .ok (s, 0)
  | some pl =>
    let a := pl.faultSlot k
    match s.physicalRange a 4096 with
    | none => .error a
    | some (sp, o) =>
      let agent : Sender := { device := s.devid.toNat, job := pl.job, core := pl.team, agent := translationAgent }
      let s := (s.forgetPages p pages).agentWrite agent sp o (faultRecord pl k kind pc failed pages)
      let report : FaultReport := {
        job := pl.job
        core := pl.team
        strand := k
        kind := kind
        asid := asidOf pl.ptRoot
        engine := engine
        pages := (pages.take 248).map fun pg => BitVec.ofNat 64 (pg * 4096) }
      .ok ({ s with merger := { s.merger with inbox := s.merger.inbox ++ [report] } }, a)

/-- The trap of the current strand for a failing phase one (R190). -/
def State.phaseTrap (s : State) (acc : Access) (ph : Phase) : Option Res :=
  match ph with
  | .misaligned e => some (s.trapped { cause := .misalign, info := e.addr, elem := e.idx })
  | .forbidden e => some (s.trapped { cause := .access, info := e.addr, elem := e.idx })
  | .missing failed pages =>
    let first := ((failed.map Elem.idx).head?).getD 0
    match s.reportFault s.curCore s.curStrand acc.kind s.me.pc (failed.map Elem.idx) pages with
    | .error a => some (s.trapped { cause := .access, info := a, elem := first })
    | .ok (s, a) => some (s.trapped { cause := .xlate, info := a, elem := first })
  | .ok _ _ => none

/-- The write of a read-modify-write: no key, and the releases that the bytes carried go on (R287, R295). -/
def State.rmwStore (s : State) (job : BitVec 64) (sync : Release) (sp : Space) (a : Nat) (bs : List Byte) : State :=
  let t := ((s.put sp a bs).unkey sp a bs.length)
  State.setSync { t with syncs := s.syncs } job sp a bs.length sync

/-- The job placed on the current core, 0 for none. -/
def State.myJob (s : State) : BitVec 64 := ((s.myCore.place).map Place.job).getD 0

/-- The logical number of the current core. -/
def State.myTeam (s : State) : Nat := ((s.myCore.place).map Place.team).getD 0

/-- A write that is neither keyed nor a read-modify-write (R275, R279, R295). -/
def State.freshStore (s : State) (job : BitVec 64) (sync : Release) (sp : Space) (a : Nat) (bs : List Byte) : State :=
  ((s.put sp a bs).unkey sp a bs.length).setSync job sp a bs.length sync

/-- The key of a store of the current core (R295). -/
def State.storeKey (s : State) : Option Key :=
  if s.myCore.det then some { job := s.myJob, epoch := s.myCore.epoch, core := s.myTeam } else none

/-- The sender of an access of an agent of the current core. -/
def State.senderOf (s : State) (agent : Nat) : Sender :=
  { device := s.devid.toNat, job := s.myJob, core := s.myTeam, agent := agent }

/-- The sender of the current strand's accesses. -/
def State.mySender (s : State) : Sender := s.senderOf s.curStrand

/-- What a write of the current strand carries as a release: the counts just after its own release and after the strand's
last fences (R287, R295). -/
def State.relEpoch (s : State) (o : Order) : Release :=
  if !s.myCore.det then ⟨0, 0, s.myTeam, 0⟩
  else
    { wide := if o.rel && wideScope o.scope then s.myCore.epoch + 1 else s.me.fep
      die := if o.rel && o.scope = .die then s.myCore.epoch else s.me.fepDie
      core := s.myTeam }

/-- A release of device scope or wider adds 1 to the epoch count in deterministic mode (R295). -/
def State.epochRel (s : State) (o : Order) : State :=
  if s.myCore.det && o.rel && wideScope o.scope then s.setMyCore { s.myCore with epoch := s.myCore.epoch + 1 } else s

/-- The current strand has read bytes that carry an epoch: an acquire of device scope or wider takes the larger count,
any other read counts at the next fence (R287, R295). -/
def State.epochAcq (s : State) (o : Order) (ps : List Piece) : State :=
  if !s.myCore.det then s
  else
    let v := s.syncOf s.myJob ps
    if o.acq && wideScope o.scope then s.setMyCore { s.myCore with epoch := Nat.max s.myCore.epoch v }
    else s.setMe { s.me with seen := Nat.max s.me.seen v }

/-- The command acquires (R272). -/
def Copy.acquires (c : Copy) : Bool := c.order = .acq || c.order = .acqRel

/-- The copy commands of the current strand that have not completed (R273). -/
def State.myCopies (s : State) : List Copy := s.myCore.copies.filter fun c => c.strand = s.curStrand

/-- A team-window address of the core's own logical number as its local-window address (R273). -/
def State.localise (s : State) (va : Nat) : Nat :=
  if teamBase ≤ va && va < 0xFFFFA00000000000 && (va - teamBase) / 0x800000 = s.myTeam
  then windowBase + (va - teamBase) % 0x800000 else va

/-- Two spans, each a lowest address and one past the highest, overlap. -/
def spansMeet (x y : Nat × Nat) : Bool := x.1 < y.2 && y.1 < x.2

/-- The range of job virtual addresses of an element: one that wraps past 2^64 reaches every address from its ends (R269,
R273). -/
def State.spanOfElem (s : State) (e : Elem) : Nat × Nat :=
  let a := s.localise e.addr
  if 2 ^ 64 < a + e.len then (0, 2 ^ 64) else (a, a + e.len)

/-- The interlock: an access of the current strand to some bytes waits behind an older copy command (R273, R274), and a
load behind an acquiring one (R272). -/
def State.interlocked (s : State) (writes : Bool) (es : List Elem) : Bool :=
  s.myCopies.any fun c =>
    (!writes && c.acquires) ||
    es.any fun e => spansMeet (s.spanOfElem e) (c.dstLo, c.dstHi) ||
      (writes && spansMeet (s.spanOfElem e) (c.srcLo, c.srcHi))

/-- A packet is one of the current strand. -/
def State.mine (s : State) (r : ReducePacket) : Bool :=
  r.job = s.myJob && r.core = s.myTeam && r.strand = s.curStrand

/-- The current strand's own local reduces that are not yet applied (R288, R301). -/
def State.myReduces (s : State) : List Reduce := s.nmrQ.filter fun r => r.sent.device = 0 && s.mine r.sent

/-- Remote reduces of the current strand that are not yet acknowledged (R288). -/
def State.myRemoteReduces (s : State) : Bool := s.remoteQ.any fun r => s.mine r.2

/-- A remote reduce of the current strand waits to be sent at a link port (R288, R351). -/
def State.myUnsent (s : State) : Bool :=
  s.ports.any fun q => q.2.queue.any fun f =>
    match f.load with
    | .reduce _ pkt => pkt.device = s.devid.toNat && s.mine pkt
    | _ => false

/-- A reduce of the current strand of an earlier interval is not applied, or one for another device is not sent: as writes
of their interval they come before the stores of later ones (R291, R301). -/
def State.lateReduces (s : State) : Bool := (s.myReduces.any fun r => r.interval < s.me.interval) || s.myUnsent

/-- A copy command of an earlier interval or an acquiring one, or a reduce of an earlier interval, holds back the stores of
the current strand (R272, R291, R301). -/
def State.holdsStores (s : State) : Bool :=
  s.lateReduces || s.myCopies.any fun c => c.interval < s.me.interval || c.acquires

/-- A store of the current strand is held in the store queue: something holds it back, or a store before it is held
(R272). -/
def State.storeHeld (s : State) : Bool := s.me.storeQ ≠ [] || s.holdsStores

/-- Reduces of the current strand have performed for a scope: local ones are applied, remote ones sent, and for `.fab` and
`.sys` acknowledged (R288). -/
def State.reducesDone (s : State) (sc : Scope) : Bool :=
  s.myReduces = [] && !s.myUnsent && !((sc = .fab || sc = .sys) && s.myRemoteReduces)

/-- Writes of an agent of the current core to other devices are not yet acknowledged (R290). -/
def State.postsOut (s : State) (agent : Nat) : Bool := s.postedQ.any fun e => e.source = s.senderOf agent

/-- Every earlier access of the current strand has performed for a scope: copy commands, held stores, reduces, and for
`.fab` and `.sys` writes to other devices. For `.strand` there is nothing to wait for (R286, R288, R290, R300, R301,
R351). -/
def State.settled (s : State) (sc : Scope) : Bool :=
  sc = .strand || (s.myCopies = [] && s.me.storeQ = [] && s.reducesDone sc
    && !((sc = .fab || sc = .sys) && s.postsOut s.curStrand))

/-- The bytes that an addition changes at a near-memory reduce unit, as runs of physical addresses (R138, R202). -/
def reduceRuns (a : ReduceAdd) : List Run :=
  match a with
  | .int addr bytes _ => [(addr.toNat, bytes)]
  | .cell addr next _ =>
    let n := Nat.min 48 (4096 - addr.toNat % 4096)
    if n = 48 then [(addr.toNat, n)] else [(addr.toNat, n), (next.toNat, 48 - n)]

/-- An access of the current strand reaches bytes of its own local reduce that is not yet applied: it follows it in program
order (R121, R285, R301). -/
def State.reducesMeet (s : State) (ps : List Piece) : Bool :=
  s.myReduces.any fun r => r.adds.any fun a => (reduceRuns a).any fun run =>
    ps.any fun q => q.space = .device && rangesMeet q.addr q.len run.1 run.2

/-- A held store of the current strand, with what it carries as a release; where its bytes go follows. -/
def State.heldFrom (s : State) (sync : Release) : Held where
  source := s.mySender
  no := s.askId
  interval := s.me.interval
  pc := s.me.pc
  blk := s.me.blk
  space := .device
  addr := 0
  bytes := []
  page := 0
  stale := false
  awaiting := false
  key := s.storeKey
  sync := sync
  more := false

/-- The held stores of some pieces, all but the last marked to perform with the next. -/
def heldPieces (h : Held) : List Piece → List Byte → List Held
  | [], _ => []
  | q :: ps, bs =>
    { h with
      space := q.space
      addr := q.addr
      bytes := bs.take q.len
      page := q.page
      more := !ps.isEmpty } :: heldPieces h ps (bs.drop q.len)

/-- A plain store of the current strand, one element or segment, performed or held as a whole (R198, R272, R284). -/
def State.strandStore (s : State) (o : Order) (ps : List Piece) (bs : List Byte) : State :=
  let sync := s.relEpoch o
  if s.storeHeld then
    s.takeNumber.setMe { s.me with storeQ := s.me.storeQ ++ heldPieces (s.heldFrom sync) ps bs }
  else storePieces s.mySender s.storeKey sync ps bs s

/-- The write of a read-modify-write of the current strand; what another device has answered for, it has written itself. -/
def State.strandRmw (s : State) (o : Order) (ps : List Piece) (bs : List Byte) : State :=
  (ps.foldl (fun (acc : State × Nat) q =>
    (acc.1.rmwStore acc.1.myJob (acc.1.relEpoch o) q.space q.addr ((bs.drop acc.2).take q.len),
      acc.2 + q.len)) (s, 0)).1

/-- The write of a read-modify-write of the current strand that lies on several devices: here at once, and posted to the others
(R138, R201; log 53). -/
def State.unitRmw (s : State) (o : Order) (ps : List Piece) (bs : List Byte) : State :=
  (ps.foldl (fun (acc : State × Nat) q =>
    (match q.device with
      | some n => acc.1.postWrite s.mySender none (s.relEpoch o) n q.addr 0 ps ((bs.drop acc.2).take q.len)
      | none => acc.1,
      acc.2 + q.len)) (s.strandRmw o ps bs, 0)).1

/-- The bytes a load of the current strand reads. -/
def State.strandLoad (s : State) (ps : List Piece) : List Byte := s.loadAs s.me ps

end Sys2Proof.Machine
end

