-- ==== Sys2Proof/Machine/Flags.lean ====
section
/-! DEFINITION. Number formats, the six rounding modes, special values, the draw generator, and the five float
conditions with their sticky register and trap. -/

namespace Sys2Proof.Machine

/-- The five conditions in the order of `fstat`[4:0]: NX, UF, OF, DZ, NV (R136, R217). -/
abbrev Flags := BitVec 5

/-- Inexact. -/
def fNX : Flags := 1
/-- Underflow. -/
def fUF : Flags := 2
/-- Overflow. -/
def fOF : Flags := 4
/-- Division by zero. -/
def fDZ : Flags := 8
/-- Invalid. -/
def fNV : Flags := 16

/-- A float format: exponent and mantissa widths, bias, class, saturation, slices and container width (R125, R127). -/
structure Fmt where
  ew     : Nat
  mw     : Nat
  bias   : Nat
  cls    : Nat
  sat    : Bool
  slices : Nat
  w      : Nat
  deriving DecidableEq, Repr

/-- binary16 (R125). -/
def Fmt.f16 : Fmt := ⟨5, 10, 15, 0, false, 2, 16⟩
/-- bfloat16 (R125). -/
def Fmt.bf16 : Fmt := ⟨8, 7, 127, 0, false, 1, 16⟩
/-- binary32 (R125). -/
def Fmt.f32 : Fmt := ⟨8, 23, 127, 0, false, 3, 32⟩
/-- binary64 (R125). -/
def Fmt.f64 : Fmt := ⟨11, 52, 1023, 0, false, 7, 64⟩

/-- Bits [hi:lo] of a word (R8). -/
def bitsOf (w : Word) (hi lo : Nat) : Nat := w.toNat / 2 ^ lo % 2 ^ (hi + 1 - lo)

/-- WIDTH of an entry: the smallest container that holds 1 + EW + MW bits; binary64 has 64 (R127). -/
def entryWidth (v : Word) : Nat :=
  if bitsOf v 18 17 = 3 then 4
  else
    let n := 1 + bitsOf v 3 0 + bitsOf v 8 4
    if n ≤ 4 then 0 else if n ≤ 8 then 1 else if n ≤ 16 then 2 else 3

/-- The format that an entry describes (R127, R128). -/
def Fmt.ofEntry (v : Word) : Fmt :=
  if bitsOf v 18 17 = 3 then Fmt.f64
  else ⟨bitsOf v 3 0, bitsOf v 8 4, bitsOf v 16 9, bitsOf v 18 17, v.getLsbD 19, bitsOf v 22 20, 4 * 2 ^ entryWidth v⟩

/-- Bits of a format's elements; those above in a container are zero (R123). -/
def Fmt.total (f : Fmt) : Nat := 1 + f.ew + f.mw

/-- An entry value is valid (R129). -/
def entryValid (v : Word) : Bool :=
  let ew := bitsOf v 3 0
  let mw := bitsOf v 8 4
  let cls := bitsOf v 18 17
  1 ≤ ew && ew ≤ 8 && mw ≤ 23 && cls ≤ 2 && (cls = 2 || 1 ≤ mw) && (cls ≠ 2 || v.getLsbD 19)
    && mw + 1 ≤ 8 * bitsOf v 22 20

/-- An entry as the core holds it: WIDTH set by the hardware, reserved bits zero (R127, R129). -/
def entryHeld (v : Word) : Word := BitVec.ofNat 64 (v.toNat % 2 ^ 23 + entryWidth v * 2 ^ 23)

/-- A decoded value: a finite nonzero one is (−1)^neg × m × 2^e (R125, R127). -/
inductive Val where
  | zero (neg : Bool)
  | num (neg : Bool) (m : Nat) (e : Int)
  | inf (neg : Bool)
  | nan (neg : Bool) (man : Nat) (quiet : Bool)
  deriving DecidableEq, Repr

/-- The sign of a value. -/
def Val.neg (v : Val) : Bool :=
  match v with
  | .zero n => n
  | .num n _ _ => n
  | .inf n => n
  | .nan n _ _ => n

/-- A NaN. -/
def Val.isNaN (v : Val) : Bool :=
  match v with
  | .nan _ _ _ => true
  | _ => false

/-- A signalling NaN. -/
def Val.isSNaN (v : Val) : Bool :=
  match v with
  | .nan _ _ q => !q
  | _ => false

/-- Decode an element; bits above the format are ignored (R123, R125, R127). -/
def Fmt.decode (f : Fmt) (bits : Nat) : Val :=
  let neg := bits.testBit (f.ew + f.mw)
  let ex := bits / 2 ^ f.mw % 2 ^ f.ew
  let man := bits % 2 ^ f.mw
  if f.cls = 0 && ex = 2 ^ f.ew - 1 then
    if man = 0 then .inf neg else .nan neg man (man.testBit (f.mw - 1))
  else if f.cls = 1 && ex = 2 ^ f.ew - 1 && man = 2 ^ f.mw - 1 then .nan neg man true
  else if ex = 0 then
    if man = 0 then .zero neg else .num neg man (1 - (f.bias : Int) - f.mw)
  else .num neg (man + 2 ^ f.mw) ((ex : Int) - f.bias - f.mw)

/-- Sign, exponent field and mantissa field put together. -/
def Fmt.pack (f : Fmt) (neg : Bool) (ex man : Nat) : Nat :=
  (if neg then 2 ^ (f.ew + f.mw) else 0) + ex * 2 ^ f.mw + man

/-- Exponent and mantissa fields of the largest finite value (R127, R128). -/
def Fmt.top (f : Fmt) : Nat × Nat :=
  if f.cls = 0 then (2 ^ f.ew - 2, 2 ^ f.mw - 1)
  else if f.cls = 1 then (2 ^ f.ew - 1, 2 ^ f.mw - 2)
  else (2 ^ f.ew - 1, 2 ^ f.mw - 1)

/-- The largest finite value of a sign. -/
def Fmt.largest (f : Fmt) (neg : Bool) : Nat := f.pack neg f.top.1 f.top.2

/-- A result and the conditions it raises. -/
structure Out where
  bits : Nat
  fl   : Flags
  deriving DecidableEq, Repr

/-- The canonical NaN; a CLASS 2 target receives +0 and NV (R125, R127, R136). -/
def Fmt.canonical (f : Fmt) : Out :=
  if f.cls = 0 then ⟨f.pack false (2 ^ f.ew - 1) (2 ^ (f.mw - 1)), 0⟩
  else if f.cls = 1 then ⟨f.pack false (2 ^ f.ew - 1) (2 ^ f.mw - 1), 0⟩
  else ⟨0, fNV⟩

/-- The result of an invalid operation (R136). -/
def Fmt.invalid (f : Fmt) : Out := ⟨f.canonical.bits, fNV⟩

/-- A NaN of a format delivered to a target: made quiet, payload aligned at its top. CLASS 1 has one NaN code of each
sign: a mantissa that is not narrowed keeps the sign, a narrowed one gives the canonical NaN (R136, log 35). -/
def Fmt.nanFrom (f src : Fmt) (neg : Bool) (man : Nat) (quiet : Bool) : Out :=
  let nv : Flags := if quiet then 0 else fNV
  if f.cls = 1 && src.mw ≤ f.mw then ⟨f.pack neg (2 ^ f.ew - 1) (2 ^ f.mw - 1), nv⟩
  else if f.cls ≠ 0 then ⟨f.canonical.bits, f.canonical.fl ||| nv⟩
  else
    let pay := if src.mw ≤ f.mw then man * 2 ^ (f.mw - src.mw) else man / 2 ^ (src.mw - f.mw)
    ⟨f.pack neg (2 ^ f.ew - 1) (pay ||| 2 ^ (f.mw - 1)), nv⟩

/-- A zero of a sign. -/
def Fmt.zero (f : Fmt) (neg : Bool) : Out := ⟨f.pack neg 0 0, 0⟩

/-- An infinity delivered to a target (R125, R136). -/
def Fmt.inf (f : Fmt) (neg : Bool) : Out :=
  if f.cls = 0 then ⟨f.pack neg (2 ^ f.ew - 1) 0, 0⟩ else ⟨f.largest neg, fOF⟩

/-- Round m × 2^e, of a sign, to a multiple of 2^q: the multiple, and whether it differs. `sticky` says that the exact
value lies above by less than 2^e; d is the draw of `.rsd` (R135). On a tie of `.rne` in a format without mantissa bits neither
value has a lowest mantissa bit: between two normal values the one further from zero is taken, and between zero and the least value
of such a format, zero: the model's choice (log 70). -/
def gridRound (rm : Rounding) (d : Nat) (neg : Bool) (m : Nat) (e q : Int) (sticky : Bool) : Nat × Bool :=
  let sh := (q - e).toNat
  let lo := if q ≤ e then m * 2 ^ (e - q).toNat else m / 2 ^ sh
  let rem := if q ≤ e then 0 else m % 2 ^ sh
  if rem = 0 && !sticky then (lo, false)
  else
    let above := 2 ^ sh < 2 * rem || (2 * rem = 2 ^ sh && sticky)
    let tie := 2 * rem = 2 ^ sh && !sticky
    let up := match rm with
      | .rne => above || (tie && lo % 2 = 1)
      | .rz => false
      | .rdn => neg
      | .rup => !neg
      | .rna => above || tie
      | .rsd => d < rem * 65536 / 2 ^ sh
    (lo + (if up then 1 else 0), true)

/-- The overflow table (R135). -/
def Fmt.overflow (f : Fmt) (rm : Rounding) (neg : Bool) : Nat :=
  if f.sat || f.cls = 2 then f.largest neg
  else if f.cls = 1 then f.canonical.bits
  else
    let away := match rm with
      | .rne | .rna | .rsd => true
      | .rz => false
      | .rdn => neg
      | .rup => !neg
    if away then f.pack neg (2 ^ f.ew - 1) 0 else f.largest neg

/-- Rounding between the largest value of a CLASS 1 format and the next exponent's first, in units of 2^q: the code in
their middle is the NaN, so the grid has no point there. Both ends have lowest mantissa bit 0, and a tie under `.rne` takes
the one that the part takes (R135, log 35). -/
def Fmt.gapRound (f : Fmt) (rm : Rounding) (d : Nat) (neg : Bool) (m : Nat) (e q : Int) (sticky : Bool) : Nat × Bool :=
  if rm = .rne && gridRound .rz d neg m e q sticky = (2 ^ (f.mw + 1) - 1, false) then
    (2 ^ (f.mw + 1) - (if Config.nanGapUp then 0 else 2), true)
  else
    let (k, inexact) := gridRound rm d neg m e (q + 1) sticky
    (2 * k, inexact)

/-- Rounding to the format's grid at a spacing of 2^q (R135). -/
def Fmt.gridPoint (f : Fmt) (rm : Rounding) (d : Nat) (neg : Bool) (m : Nat) (e q : Int) (sticky : Bool) : Nat × Bool :=
  if f.cls = 1 && q = ((2 ^ f.ew - 1 : Nat) : Int) - f.bias - f.mw
      && 2 ^ (f.mw + 1) - 2 ≤ (gridRound .rz d neg m e q sticky).1
  then f.gapRound rm d neg m e q sticky else gridRound rm d neg m e q sticky

/-- Round the exact value (−1)^neg × m × 2^e, and a little more when `sticky`, to a format (R135). -/
def Fmt.round (f : Fmt) (rm : Rounding) (d : Nat) (neg : Bool) (m : Nat) (e : Int) (sticky : Bool) : Out :=
  if m = 0 && !sticky then f.zero neg
  else
    let emin : Int := 1 - (f.bias : Int)
    let lead : Int := e + (Nat.log2 m : Int) - f.mw
    let q : Int := if lead < emin - f.mw then emin - f.mw else lead
    let (mag, inexact) := f.gridPoint rm d neg m e q sticky
    let tiny := inexact && lead < q && (gridRound rm d neg m e lead sticky).1 < 2 ^ (emin - lead).toNat
    let fl : Flags := (if inexact then fNX else 0) ||| (if tiny then fUF else 0)
    if mag = 0 then ⟨f.pack neg 0 0, fl⟩
    else
      let mag' := if 2 ^ (f.mw + 1) ≤ mag then mag / 2 else mag
      let q' := if 2 ^ (f.mw + 1) ≤ mag then q + 1 else q
      let ex := if 2 ^ f.mw ≤ mag' then (q' + f.mw + f.bias).toNat else 0
      let man := mag' % 2 ^ f.mw
      if f.top.1 < ex || (ex = f.top.1 && f.top.2 < man) then ⟨f.overflow rm neg, fOF ||| fNX ||| fl⟩
      else ⟨f.pack neg ex man, fl⟩

/-- Round an exact integer number of units of 2^e; a zero takes the sign given. -/
def Fmt.roundInt (f : Fmt) (rm : Rounding) (d : Nat) (x e : Int) (zeroNeg : Bool) : Out :=
  if x = 0 then f.zero zeroNeg else f.round rm d (x < 0) x.natAbs e false

/-- round_int of R166 on (−1)^neg × m × 2^e: the integer, and whether it differs. -/
def integralRound (rm : Rounding) (d : Nat) (neg : Bool) (m : Nat) (e : Int) : Int × Bool :=
  let (k, inexact) := gridRound rm d neg m e 0 false
  (if neg then -(k : Int) else k, inexact)

/-- A value of one format delivered to another, rounded once (R136, R213). -/
def Fmt.convert (f src : Fmt) (rm : Rounding) (d : Nat) (v : Val) : Out :=
  match v with
  | .zero n => f.zero n
  | .num n m e => f.round rm d n m e false
  | .inf n => f.inf n
  | .nan n man q => f.nanFrom src n man q

/-- Rotate a word towards higher bits. -/
def rotl (y : Word) (r : Nat) : Word := y <<< r ||| y >>> (64 - r)

/-- One round of the draw generator (R247). -/
def drawRound (k : Word) (xy : Word × Word) (rot : Nat) (rc : Word) : Word × Word :=
  let x := xy.1 + xy.2
  let y := rotl xy.2 rot ^^^ x
  (x + (k ^^^ rc), y)

/-- The 16-bit draw of two counter words under a key (R247). -/
def draw (k c0 c1 : Word) : Nat :=
  let g : Word := 0x9E3779B97F4A7C15
  let r0 := drawRound k (c0 ^^^ k, c1) 16 0
  let r1 := drawRound k r0 40 g
  let r2 := drawRound k r1 24 (2 * g)
  let r3 := drawRound k r2 32 (3 * g)
  (r3.1 ^^^ r3.2).toNat % 65536

/-- The draw of `.rsd` for a register number and an index; no other mode draws (R135). -/
def Strand.rsdDraw (st : Strand) (rm : Rounding) (reg idx : Nat) : Nat :=
  if rm = .rsd then
    draw st.dseed (st.getX 30) (BitVec.ofNat 64 (0xE * 2 ^ 60 + reg * 2 ^ 48 + idx % 2 ^ 24))
  else 0

/-- The sum of two values of one format, with the sign rules of zero (R135, R136). -/
def Fmt.add (f : Fmt) (rm : Rounding) (d : Nat) (a b : Val) : Out :=
  match a, b with
  | .nan n m q, b => let o := f.nanFrom f n m q; ⟨o.bits, o.fl ||| if b.isSNaN then fNV else 0⟩
  | _, .nan n m q => f.nanFrom f n m q
  | .inf n, .inf n' => if n = n' then f.inf n else f.invalid
  | .inf n, _ => f.inf n
  | _, .inf n => f.inf n
  | .zero n, .zero n' => f.zero (if n = n' then n else rm = .rdn)
  | .zero _, .num n m e => f.round rm d n m e false
  | .num n m e, .zero _ => f.round rm d n m e false
  | .num n m e, .num n' m' e' =>
    let lo := if e ≤ e' then e else e'
    let x : Int := (if n then -1 else 1) * (m * 2 ^ (e - lo).toNat : Nat)
    let y : Int := (if n' then -1 else 1) * (m' * 2 ^ (e' - lo).toNat : Nat)
    f.roundInt rm d (x + y) lo (rm = .rdn)

/-- The opposite value. -/
def Val.negate (v : Val) : Val :=
  match v with
  | .zero n => .zero (!n)
  | .num n m e => .num (!n) m e
  | .inf n => .inf (!n)
  | .nan n m q => .nan n m q

/-- A × B exactly, for operands that are no NaN; none for 0 × ∞. -/
def Val.times (a b : Val) : Option Val :=
  let n := a.neg != b.neg
  match a, b with
  | .inf _, .zero _ => none
  | .zero _, .inf _ => none
  | .inf _, _ => some (.inf n)
  | _, .inf _ => some (.inf n)
  | .num _ m e, .num _ m' e' => some (.num n (m * m') (e + e'))
  | _, _ => some (.zero n)

/-- The first NaN among the operands, made quiet, with NV for any signalling one (R136). -/
def Fmt.firstNaN (f : Fmt) (vs : List Val) : Option Out :=
  match vs.find? Val.isNaN with
  | some (.nan n m q) =>
    let o := f.nanFrom f n m q
    some ⟨o.bits, o.fl ||| if vs.any Val.isSNaN then fNV else 0⟩
  | _ => none

/-- The product of two values, rounded once (R211). -/
def Fmt.mul (f : Fmt) (rm : Rounding) (d : Nat) (a b : Val) : Out :=
  match f.firstNaN [a, b] with
  | some o => o
  | none => match a.times b with
    | none => f.invalid
    | some v => f.convert f rm d v

/-- A × B + C, rounded once (R211). Of the two rules of R136 that hold for 0 × ∞ with a quiet NaN addend, that of NaN operands goes
first: the NaN is delivered and NV is not raised, the model's choice (log 76). -/
def Fmt.fma (f : Fmt) (rm : Rounding) (d : Nat) (a b c : Val) : Out :=
  match f.firstNaN [a, b, c] with
  | some o => o
  | none => match a.times b with
    | none => f.invalid
    | some v => f.add rm d v c

/-- Whole square root by bits, from bit position n down: the root so far and what remains of the number. -/
def sqrtBits : Nat → Nat → Nat → Nat
  | 0, x, r => if (r + 1) * (r + 1) ≤ x then r + 1 else r
  | n + 1, x, r =>
    let r' := r + 2 ^ (n + 1)
    sqrtBits n x (if r' * r' ≤ x then r' else r)

/-- The whole square root of a number. -/
def isqrt (x : Nat) : Nat := sqrtBits (Nat.log2 x / 2 + 1) x 0

/-- A / B, rounded once (R211). The quotient keeps 128 bits and whether it is cut. -/
def Fmt.div (f : Fmt) (rm : Rounding) (d : Nat) (a b : Val) : Out :=
  let n := a.neg != b.neg
  match f.firstNaN [a, b] with
  | some o => o
  | none => match a, b with
    | .inf _, .inf _ => f.invalid
    | .zero _, .zero _ => f.invalid
    | .inf _, _ => f.inf n
    | _, .inf _ => f.zero n
    | .zero _, _ => f.zero n
    | _, .zero _ => ⟨(f.inf n).bits, fDZ ||| (f.inf n).fl⟩
    | .num _ m e, .num _ m' e' => f.round rm d n (m * 2 ^ 128 / m') (e - e' - 128) (m * 2 ^ 128 % m' ≠ 0)
    | _, _ => f.invalid

/-- √A, rounded once (R211). The root keeps at least 80 bits and whether it is cut. -/
def Fmt.sqrt (f : Fmt) (rm : Rounding) (d : Nat) (a : Val) : Out :=
  match f.firstNaN [a] with
  | some o => o
  | none => match a with
    | .zero n => f.zero n
    | .inf n => if n then f.invalid else f.inf false
    | .num n m e =>
      if n then f.invalid
      else
        let k : Int := e % 2
        let x := m * 2 ^ (160 + k.toNat)
        let r := isqrt x
        f.round rm d false r ((e - k) / 2 - 80) (r * r ≠ x)
    | .nan _ _ _ => f.invalid

/-- A × 2^k before rounding; a NaN passes unchanged (R212). A scale far below the format's least value counts as one that is just as lost: the
rounding, its conditions and the fraction p of R135 are the same. -/
def Fmt.scale (f : Fmt) (rm : Rounding) (d : Nat) (a : Val) (k : Int) : Out :=
  match a with
  | .num n m e =>
    let least : Int := -((f.bias + f.mw + 64 + Nat.log2 m + 1 : Nat) : Int)
    f.round rm d n m (if e + k < least then least else e + k) false
  | .nan n m q => ⟨f.pack n (2 ^ f.ew - 1) m, if q then 0 else fNV⟩
  | v => f.convert f rm d v

/-- A rounded to an integral value in its own format (R211); NX when the value changes. -/
def Fmt.integral (f : Fmt) (rm : Rounding) (d : Nat) (a : Val) : Out :=
  match a with
  | .num n m e =>
    let (k, inexact) := gridRound rm d n m e 0 false
    let o := f.round rm d n k 0 false
    ⟨o.bits, o.fl ||| if inexact then fNX else 0⟩
  | v => f.convert f rm d v

/-- Order of two values that are no NaN: −1, 0 or 1, by value; the zeros are equal. -/
def Val.compare (a b : Val) : Int :=
  match a, b with
  | .zero _, .zero _ => 0
  | .inf n, .inf n' => if n = n' then 0 else if n then -1 else 1
  | .inf n, _ => if n then -1 else 1
  | _, .inf n => if n then 1 else -1
  | .zero _, v => if v.neg then 1 else -1
  | v, .zero _ => if v.neg then -1 else 1
  | .num n m e, .num n' m' e' =>
    let lo := if e ≤ e' then e else e'
    let x : Int := (if n then -1 else 1) * (m * 2 ^ (e - lo).toNat : Nat)
    let y : Int := (if n' then -1 else 1) * (m' * 2 ^ (e' - lo).toNat : Nat)
    if x < y then -1 else if y < x then 1 else 0
  | _, _ => 0

/-- The same with −0 below +0 (R136). -/
def Val.compareSigned (a b : Val) : Int :=
  let c := a.compare b
  if c ≠ 0 then c
  else match a, b with
    | .zero true, .zero false => -1
    | .zero false, .zero true => 1
    | _, _ => 0

/-- minimumNumber, or maximumNumber when `big`; bits are those of the operands (R136). -/
def Fmt.pick (f : Fmt) (big : Bool) (x y : Nat) : Out :=
  let a := f.decode x
  let b := f.decode y
  let fl : Flags := if a.isSNaN || b.isSNaN then fNV else 0
  if a.isNaN && b.isNaN then
    match f.firstNaN [a, b] with
    | some o => o
    | none => f.invalid
  else if a.isNaN then ⟨y, fl⟩
  else if b.isNaN then ⟨x, fl⟩
  else
    let c := a.compareSigned b
    let first := if big then decide (0 ≤ c) else decide (c ≤ 0)
    ⟨(if first then x else y) % 2 ^ (1 + f.ew + f.mw), fl⟩

/-- Conditions raised by an instruction: ORed into `fstat` (R217). -/
def Strand.raise (st : Strand) (fl : Flags) : Strand := { st with fstat := st.fstat ||| fl.setWidth 64 }

/-- Complete an instruction that raised conditions: the flags are set, the instruction retires, and an enabled condition
then takes the float trap at the next instruction (R217, R218). -/
def State.finish (s : State) (st : Strand) (fl : Flags) : State :=
  let st' := (st.raise fl).retire s.ilen
  if st.fstat.toNat / 256 % 32 &&& fl.toNat = 0 then s.setMe st'
  else
    let resume := s.me.pc + BitVec.ofNat 64 s.ilen
    let st'' : Strand := { st.raise fl with pc := resume, waiting := none, wd := 0, partWay := false }
    s.setMe (st''.trap { cause := .float, info := fl.toNat } resume)

end Sys2Proof.Machine
end

