-- ==== Sys2Proof/Machine/Special.lean ====
section
/-! DEFINITION. The special functions of `fspec`: exact cases, and the value of the exact result between two neighbours
of the format, from integer arithmetic of some 300 bits (R214). -/

namespace Sys2Proof.Machine

/-- Functions of `fspec` (R214). -/
inductive Special where
  | exp2 | log2 | rcp | rsqrt | tanh | sigmoid
  deriving DecidableEq, Repr

/-- Function code (R210). -/
def Special.code (f : Special) : Nat :=
  match f with
  | .exp2 => 0 | .log2 => 1 | .rcp => 2 | .rsqrt => 3 | .tanh => 4 | .sigmoid => 5

/-- Bits of the fixed-point arithmetic below. -/
def workBits : Nat := 320

/-- One in that arithmetic. -/
def workOne : Nat := 2 ^ workBits

/-- 2^(0.b1 b2 …) for n bits b of a fraction, the highest first; r is 2^(2^−j) at the bit in hand, acc the product so
far. -/
def exp2Bits (frac : Nat) : Nat → Nat → Nat → Nat
  | 0, _, acc => acc
  | n + 1, r, acc => exp2Bits frac n (isqrt (r * workOne)) (if frac.testBit n then acc * r / workOne else acc)

/-- 2^x for a fraction x of n bits. -/
def exp2Frac (frac n : Nat) : Nat := exp2Bits frac n (isqrt (2 * workOne * workOne)) workOne

/-- n bits of log2 of y in [1, 2), y with 512 fraction bits, by squaring. -/
def log2Bits : Nat → Nat → Nat → Nat
  | 0, _, acc => acc
  | n + 1, y, acc =>
    let y2 := y * y / 2 ^ 512
    if 2 ^ 513 ≤ y2 then log2Bits n (y2 / 2) (2 * acc + 1) else log2Bits n y2 (2 * acc)

/-- The sum of z^k/k! from a term on, for n terms. -/
def expTerms (z : Nat) : Nat → Nat → Nat → Nat → Nat
  | 0, _, _, acc => acc
  | n + 1, k, term, acc => expTerms z n (k + 1) (term * z / workOne / (k + 1)) (acc + term)

/-- Square n times. -/
def squareTimes : Nat → Nat → Nat
  | 0, x => x
  | n + 1, x => squareTimes n (x * x / workOne)

/-- e^x for a magnitude m × 2^e, taken as 200 at most. -/
def expOf (m : Nat) (e : Int) : Nat :=
  let sh : Int := e + workBits - 16
  let z := if 0 ≤ sh then m * 2 ^ sh.toNat else m / 2 ^ (-sh).toNat
  squareTimes 16 (expTerms (Nat.min z (200 * workOne / 65536)) 60 0 workOne 0)

/-- A magnitude with its sign: the exact result lies at m × 2^e or, when `sticky`, above it by less than 2^e. -/
structure Approx where
  neg    : Bool
  m      : Nat
  e      : Int
  sticky : Bool
  deriving DecidableEq, Repr

/-- Powers of two and integers are exact; elsewhere the result is irrational or does not end (R214). The operand is
(−1)^neg × m × 2^e, not zero; log2 and rsqrt have a positive one. -/
def Special.approx (f : Special) (neg : Bool) (m : Nat) (e : Int) : Approx :=
  let lead : Int := e + Nat.log2 m
  let power : Bool := m = 2 ^ Nat.log2 m
  match f with
  | .exp2 =>
    if 0 ≤ e || m % 2 ^ (-e).toNat = 0 then
      let x := Nat.min (if 0 ≤ e then m * 2 ^ (Nat.min e.toNat 16) else m / 2 ^ (-e).toNat) 5000
      ⟨false, 1, if neg then -(x : Int) else x, false⟩
    else
      let n := (-e).toNat
      let whole := m / 2 ^ n
      let frac := m % 2 ^ n
      if neg then ⟨false, exp2Frac (2 ^ n - frac) n, -(whole : Int) - 1 - workBits, true⟩
      else ⟨false, exp2Frac frac n, (whole : Int) - workBits, true⟩
  | .log2 =>
    if power then ⟨lead < 0, lead.natAbs, 0, false⟩
    else
      let y := m * 2 ^ 512 / 2 ^ Nat.log2 m
      let x : Int := lead * 2 ^ 128 + log2Bits 128 y 0
      if 0 ≤ x then ⟨false, x.natAbs, -128, true⟩ else ⟨true, x.natAbs - 1, -128, true⟩
  | .rcp =>
    if power then ⟨neg, 1, -lead, false⟩ else ⟨neg, 2 ^ 128 / m, -e - 128, true⟩
  | .rsqrt =>
    if power && lead % 2 = 0 then ⟨false, 1, -(lead / 2), false⟩
    else
      let k : Int := e % 2
      ⟨false, isqrt (2 ^ 320 / (m * 2 ^ k.toNat)), -((e - k) / 2) - 160, true⟩
  | .tanh =>
    if lead < -48 then ⟨neg, m * 2 ^ 64 - 1, e - 64, true⟩
    else
      let t := expOf m (e + 1)
      ⟨neg, (t - workOne) * 2 ^ 600 / (t + workOne), -600, true⟩
  | .sigmoid =>
    let t := expOf m e
    ⟨false, (if neg then workOne else t) * 2 ^ 600 / (t + workOne), -600, true⟩

/-- The result at an operand that is no finite nonzero number, or none (R136, R214). -/
def Special.limit (f : Special) (fm : Fmt) (a : Val) : Option Out :=
  let one (neg : Bool) (e : Int) : Out := fm.round .rne 0 neg 1 e false
  match f, a with
  | _, .nan n m q => some (fm.nanFrom fm n m q)
  | .exp2, .inf n => some (if n then fm.zero false else fm.inf false)
  | .exp2, .zero _ => some (one false 0)
  | .log2, .zero _ => some ⟨(fm.inf true).bits, fDZ⟩
  | .log2, .inf n => some (if n then fm.invalid else fm.inf false)
  | .log2, .num n _ _ => if n then some fm.invalid else none
  | .rcp, .zero n => some ⟨(fm.inf n).bits, fDZ⟩
  | .rcp, .inf n => some (fm.zero n)
  | .rsqrt, .zero n => some ⟨(fm.inf n).bits, fDZ⟩
  | .rsqrt, .inf n => some (if n then fm.invalid else fm.zero false)
  | .rsqrt, .num n _ _ => if n then some fm.invalid else none
  | .tanh, .zero n => some (fm.zero n)
  | .tanh, .inf n => some (one n 0)
  | .sigmoid, .zero _ => some (one false (-1))
  | .sigmoid, .inf n => some (if n then fm.zero false else one false 0)
  | _, _ => none

/-- Deliver one of the two neighbours of a value that is not exact: the further one from zero, or the nearer. -/
def Fmt.neighbour (fm : Fmt) (rm : Rounding) (x : Approx) (outer : Bool) : Out :=
  let toward : Rounding := if !outer then .rz else if x.neg then .rdn else .rup
  let o := fm.round toward 0 x.neg x.m x.e x.sticky
  if o.fl &&& fOF = 0 then o else ⟨fm.overflow rm x.neg, o.fl⟩

/-- `fspec` of one element: correctly rounded in a 16-bit format; in f32 one of the two neighbours, and under `.rsd` one
of them by the fraction of the interpolated value, both as the part has them, for each format on its own (R214, log 13). -/
def Special.eval (f : Special) (fm : Fmt) (rm : Rounding) (d bits : Nat) : Out :=
  match f.limit fm (fm.decode bits) with
  | some o => o
  | none => match fm.decode bits with
    | .num n m e =>
      let x := f.approx n m e
      if !x.sticky then fm.round rm d x.neg x.m x.e false
      else if rm = .rsd then
        fm.neighbour rm x (d < Config.fspecFraction fm.w fm.mw f.code bits % 65536)
      else if fm.w = 16 then fm.round rm d x.neg x.m x.e true
      else fm.neighbour rm x (Config.fspecOuter fm.w fm.mw f.code bits (roundingCode rm))
    | _ => fm.invalid

end Sys2Proof.Machine
end

