-- ==== Sys2Proof/Machine/Flights.lean ====
section
/-! DEFINITION. Accesses that wait for other devices: what an agent asks, the responses, and the walks whose tables other
devices hold (R130, R284, R339, R349). -/

namespace Sys2Proof.Machine

/-! ## Agents -/

/-- The number of a core's control hart among its agents, above its strands. -/
def hartAgent : Nat := 24
/-- The copy engine among the agents. -/
def engineAgent : Nat := 25
/-- The dispatcher among the agents. -/
def dispatcherAgent : Nat := 27
/-- The store queue of a core, where it translates again. -/
def storeAgent : Nat := 28
/-- The walker of import windows. -/
def importAgent : Nat := 29
/-- The first and the second fetch of an agent. -/
def fetchAgent (agent n : Nat) : Nat := 32 * (n + 1) + agent
/-- The table walks for an access of an agent. -/
def walkAgent (agent : Nat) : Nat := 128 + agent

/-! ## Asking -/

/-- What one thing asked of a device is: the device, the address, where bytes beyond its 4 KiB page lie, the number of bytes,
and what to do with them. -/
structure Question where
  /-- The index of the element that it is for. -/
  elem   : Nat := 0
  device : Nat
  addr   : Nat
  next   : Nat
  len    : Nat
  op     : RemoteOp
  deriving DecidableEq, Repr

/-- The loads of element i: one for each piece on another device, two pieces on one device together (R194, R284, R339). -/
def loadQuestions (i : Nat) : List Piece → List Question
  | [] => []
  | [q] => (q.device.map fun n => (⟨i, n, q.addr, 0, q.len, .load⟩ : Question)).toList
  | q :: r :: ps =>
    match q.device with
    | none => loadQuestions i (r :: ps)
    | some n =>
      if r.space = q.space then ⟨i, n, q.addr, r.addr, q.len + r.len, .load⟩ :: loadQuestions i ps
      else ⟨i, n, q.addr, 0, q.len, .load⟩ :: loadQuestions i (r :: ps)

/-- What an access asks of other devices for one element: loads, or an atomic once, at the device that holds it. An atomic that
lies on several devices reads them, and writes them as one unit (R201, R202, R339; log 53). -/
def asksOf (e : Elem × List Piece) (op : Elem → Option RemoteOp) : List Question :=
  match op e.1 with
  | none => []
  | some o =>
    if o = .load || acrossPieces e.2 then loadQuestions e.1.idx e.2
    else match e.2.head? with
    | none => []
    | some q => (q.device.map fun n =>
        (⟨e.1.idx, n, q.addr, ((e.2[1]?).map Piece.addr).getD 0, e.1.len, o⟩ : Question)).toList

/-- What an access asks of other devices: loads of the same address ask once (R198, R339). -/
def questionsOf (es : List (Elem × List Piece)) (op : Elem → Option RemoteOp) : List Question :=
  es.zipIdx.flatMap fun (e, i) =>
    match asksOf e op with
    | [] => []
    | qs => if op e.1 = some .load && (es.take i).any fun x => x.1.addr = e.1.addr && x.1.len = e.1.len then [] else qs

/-- A question only reads. -/
def readsOnly (o : RemoteOp) : Bool :=
  match o with
  | .load => true
  | .lr => true
  | _ => false

/-- The access of an agent that is in phase two and waits for other devices. -/
def State.flight (s : State) (src : Sender) : Option Flight := s.flights.find? fun f => f.source = src

/-- The instruction that an agent waits with, in phase two or for its walks: it runs on as it issued (R130). -/
def State.issued (s : State) (src : Sender) : Option Flight :=
  ((s.flight src).orElse fun _ => s.flight { src with agent := walkAgent src.agent }).filter fun f => f.instr.isSome

/-- What the instruction of a flight holds since it issued (R130). -/
def Flight.issue (f : Flight) : Issue where
  fmts := f.fmts
  caps := f.caps
  attr := f.attr

/-- The instruction of the current strand that has issued and waits, for other devices or in place (R130, R272). -/
def State.underway (s : State) : Option (Instr × Issue) :=
  match s.issued s.mySender with
  | some f => f.instr.map fun i => (i, f.issue)
  | none => s.me.issuedWait

/-- Everything asked has been answered. -/
def Flight.landed (f : Flight) : Bool := f.asks.all fun a => a.answer.isSome

/-- The access has asked for something that changes memory: that cannot be taken back (R195, R304). -/
def Flight.changes (f : Flight) : Bool := f.asks.any fun a => !readsOnly a.op

/-- The access has asked for an element. -/
def Flight.asked (f : Flight) (e : Elem × List Piece) : Bool :=
  e.2.head?.any fun q => f.asks.any fun a => q.device = some a.device && q.addr = a.addr

/-- The pieces that other devices hold, with their bytes out of those that were answered, in order. -/
def answered : List Piece → List Byte → List Piece
  | [], _ => []
  | q :: ps, bs =>
    if q.device.isNone then q :: answered ps bs
    else { q with data := if q.len ≤ bs.length then some (bs.take q.len) else none } :: answered ps (bs.drop q.len)

/-- An answer under the held stores that the strand had when it asked: they come first (R121). -/
def Ask.under (a : Ask) (hs : List Held) : Ask :=
  { a with answer := a.answer.map fun x =>
      let n := Nat.min a.len (4096 - a.addr % 4096)
      (heldOver hs (.remote a.device) a.addr (x.1.take n) ++ heldOver hs (.remote a.device) a.next (x.1.drop n), x.2) }

/-- The index that what an element waits for was asked under: its own, or that of an earlier element with the same bytes, which was
asked for both (R198). -/
def Flight.askedAs (f : Flight) (e : Elem) : Nat :=
  if f.asks.any fun a => a.elem = e.idx then e.idx
  else ((f.elems.find? fun x => x.1.addr = e.addr && x.1.len = e.len).map fun x => x.1.idx).getD e.idx

/-- The elements of an access with what other devices have answered for each: each element takes its own response, and loads of
the same address take one (R198 to R200, R339). -/
def Flight.arrived (f : Flight) : List (Elem × List Piece) :=
  f.elems.map fun e =>
    let mine := f.asks.filter fun a => a.elem = f.askedAs e.1
    (e.1, answered e.2 (mine.flatMap fun a => (((a.under f.held).answer).map Prod.fst).getD []))

/-- Bytes read at one moment. -/
def readAt (read : Piece → List Byte) (e : Elem × List Piece) : Elem × List Piece :=
  (e.1, e.2.map fun q => if q.device.isNone && q.data.isNone then { q with data := some (read q) } else q)

/-- With the last answer for a unit on several devices its bytes of this device are read too: what has come from the other device
before the answer they show, and nothing that comes behind it (R194, R284, R297; log 73). -/
def Flight.readHere (f : Flight) (read : Piece → List Byte) : Flight :=
  { f with elems := f.elems.map fun e =>
      if acrossPieces e.2 && (f.asks.filter fun a => a.elem = f.askedAs e.1).all fun a => a.answer.isSome && a.op = .load
      then readAt read e else e }

/-- An access that waits for other devices stops: what it has asked for comes first, and it runs again for the rest (R195,
R197). -/
def Flight.stop (f : Flight) : Flight :=
  { f with
    elems := f.elems.filter f.asked ++ f.elems.filter fun e => !f.asked e
    stopped := some f.asks.length }

/-- Questions with their numbers. -/
def numbered (no : Nat) (qs : List Question) : List Ask :=
  qs.zipIdx.map fun (q, i) =>
    { id := no + i, elem := q.elem, device := q.device, addr := q.addr, next := q.next, len := q.len, op := q.op, answer := none }

/-- Ask other devices: one non-posted request each, and the access waits for the responses; it keeps the format entries, the
capabilities and the instruction that it issued with, and a strand's access what its held stores write. `before` are questions
asked earlier (R121, R130, R295, R339). -/
def State.takeOff (s : State) (src : Sender) (i : Option Instr) (sync : Release) (es : List (Elem × List Piece))
    (qs : List Question) (before : List Ask := []) : State :=
  let f : Flight := {
    source := src
    elems := es
    asks := before ++ numbered s.askId qs
    fmts := s.myCore.fmts
    caps := s.myCore.capMask
    instr := i
    attr := s.attr
    held := if src = s.mySender then s.heldAt s.me.storeQ else []
    stopped := none }
  let others := s.flights.filter fun g => g.source ≠ src
  (numbered s.askId qs).foldl (fun t a => t.queueFlit a.device (.request a.device src a.id a.addr a.next a.len a.op sync))
    { s with flights := others ++ [f], askId := s.askId + qs.length }

/-- The units of 64 bytes of a range of another device's memory, as an agent asks for them before it goes on. -/
def rangeAsks (sp : Space) (a n : Nat) : List Question :=
  match sp with
  | .remote d => (List.range (n / 64)).map fun i => ⟨i, d, a + 64 * i, 0, 64, .load⟩
  | _ => []

/-! ## Answers -/

/-- Where byte i of what was asked lies. -/
def Ask.place (a : Ask) (i : Nat) : Nat :=
  let n := 4096 - a.addr % 4096
  if i < n then a.addr + i else a.next + (i - n)

/-- The hart that sent an access of this device. -/
def State.sentBy (s : State) (src : Sender) (p : Nat) : Bool :=
  (s.core p).place.any fun pl => pl.job = src.job && pl.team = src.core

/-- What this device knows of another's memory by an answer, and the releases that its bytes carry. A store-conditional that
the other device refused takes the hart's reservation (R90, R295, R339). -/
def State.learn (s : State) (src : Sender) (a : Ask) : State :=
  match a.answer with
  | none => s
  | some (bs, syncs) =>
    let sp := Space.remote a.device
    match a.op with
    | .sc _ =>
      if leNat bs = 1 then s
      else { s with resvs := s.resvs.filter fun r => !(r.device = 0 && r.space = sp && s.sentBy src r.core) }
    | _ =>
      let n := Nat.min a.len (4096 - a.addr % 4096)
      let m := (s.memOf sp).write a.addr (bs.take n)
      let t := s.setMem sp (if bs.length ≤ n then m else m.write a.next (bs.drop n))
      let t := (t.unkey sp a.addr n).unkey sp a.next (a.len - n)
      syncs.foldl (fun t e => t.setSync src.job sp (a.place e.1) 1 e.2) t

/-- The answers of an access have come: the bytes are learnt, of several answers for one address the first, and the access waits
no more. -/
def State.land (s : State) (f : Flight) : State :=
  f.asks.foldr (fun a t => t.learn f.source (a.under f.held)) { s with flights := s.flights.filter fun g => g.source ≠ f.source }

/-! ## Walks -/

/-- What an access comes to before its walks: they can read their entries, or wait for other devices, or need one that no
longer answers. -/
inductive WalkStep where
  | ready (s : State)
  | waits (s : State)
  | lost

/-- The question for an entry of a table. -/
def entryAsk (e : Nat × Nat) : Question := ⟨0, e.1, e.2, 0, 8, .load⟩

/-- An agent walks the tables, or reads what it needs before it can go on: what lies in other devices' memories is asked for
until it needs no more (R185, R339). `need` is what it reads by what is known, and `i` the instruction whose access it is, which
has issued (R130). -/
def State.walkStep (s : State) (src : Sender) (need : State → List Question) (i : Option Instr := none) : WalkStep :=
  let ask (s : State) (l : List Question) (before : List Ask) : WalkStep :=
    if l.any fun q => s.cutOff q.device then .lost
    else .waits (s.takeOff src i ⟨0, 0, 0, 0⟩ [] l before)
  match s.flight src with
  | none =>
    match need s with
    | [] => .ready s
    | l => ask s l []
  | some f =>
    if !f.landed then .waits s
    else
      let t := s.land f
      match (need t).filter fun e => !f.asks.any fun a => a.device = e.device && a.addr = e.addr with
      | [] => .ready t
      | l => ask t l f.asks

/-- The walks of core p for some runs, for an access of an agent. -/
def State.walksOf (s : State) (p agent : Nat) (runs : List Run) (i : Option Instr := none) : WalkStep :=
  s.walkStep ((s.at_ p s.curStrand).senderOf (walkAgent agent)) (fun s => (s.tableAsks p (pagesOf runs)).map entryAsk) i

end Sys2Proof.Machine
end

