-- ==== Sys2Proof/Machine/JobOps.lean ====
section
/-! DEFINITION. The job table and the end of a job: its completion entry, its dependents, and the cores it frees. -/

namespace Sys2Proof.Machine

/-- A job of the job table (R68). -/
def State.job (s : State) (id : BitVec 64) : Option Job := s.jobs.find? fun j => j.record.id = id

/-- Change a job of the job table. -/
def State.mapJob (s : State) (id : BitVec 64) (f : Job → Job) : State :=
  { s with jobs := s.jobs.map fun j => if j.record.id = id then f j else j }

/-- The job has completed (R70). -/
def Job.isDone (j : Job) : Bool :=
  match j.state with
  | .done _ => true
  | _ => false

/-- The job has stopped: it has completed, or only waits for other devices to (R70, R299). -/
def Job.isOver (j : Job) : Bool :=
  match j.state with
  | .done _ => true
  | .draining _ _ _ => true
  | _ => false

/-- The job waits on prerequisites or for cores (R69, R72). -/
def Job.isWaiting (j : Job) : Bool := j.state = .waiting

/-- STATUS (R70). -/
def JobStatus.code (t : JobStatus) : Nat :=
  match t with
  | .ok => 0 | .noEligibleCore => 1 | .badRecord => 2 | .badKernel => 3 | .badPrereq => 4 | .prereqFailed => 5
  | .jobFault => 6 | .uncorrectable => 7 | .cancelled => 8

/-- The device sends an MSI-X vector (R342). -/
def State.sendMsix (s : State) (v : Nat) : State := { s with msix := s.msix ++ [v] }

/-- A mailbox command is done with a status (R342, R343). -/
def State.mailboxDone (s : State) (status : BitVec 8) : State :=
  State.sendMsix { s with mbox := { s.mbox with go := false, sent := false, status := status } } 2

/-- An import slot of an ASID holds what its old tables gave: a packet that it has translated waits to be applied, or its walks
wait for another device (R302, R344, R348). -/
def State.slotHolds (s : State) (asid : Nat) : Bool :=
  s.nmrQ.any (fun r => r.slot.any fun e => e.2 = asid)
    || s.flights.any fun f => f.source.agent = walkAgent importAgent
        && (Table.get none s.imports f.source.core).any fun w => asidOf w.ptRoot = asid

/-- A SHOOT command whose shoot-downs have gone out is done once no core has one to acknowledge, and no import slot of its ASID holds
an old translation (R302, R344). -/
def State.settleShoot (s : State) : State :=
  if s.mbox.go && s.mbox.sent && s.cores.all (fun c => c.2.shoots = []) && !s.slotHolds s.mbox.arg0.toNat then s.mailboxDone 0 else s

/-- A waiting job comes before another: effective class, then the time it became ready, then JOB_ID (R72). -/
def Job.before (a b : Job) : Bool :=
  b.eff < a.eff || (a.eff = b.eff && (a.readyAt < b.readyAt
    || (a.readyAt = b.readyAt && a.record.id.toNat < b.record.id.toNat)))

/-- Insert into the dispatch order. -/
def orderJob (j : Job) : List Job → List Job
  | [] => [j]
  | k :: l => if j.before k then j :: k :: l else k :: orderJob j l

/-- The waiting jobs in dispatch order (R72). -/
def State.waitingJobs (s : State) : List Job := (s.jobs.filter Job.isWaiting).foldr orderJob []

/-- A job that becomes head starts its 4 ms afresh (R73). -/
def State.refreshHead (s : State) : State :=
  let head := (s.waitingJobs.head?).map fun j => j.record.id
  if head = s.headJob then s else { s with headJob := head, headSince := s.now, headBlocks := false }

/-- The 16 bytes of a completion entry (R70). -/
def completionEntry (id : BitVec 64) (status : JobStatus) (flags code : Nat) : List Byte :=
  leBytes 8 id.toNat ++ leBytes 2 status.code ++ leBytes 1 flags ++ leBytes 1 0 ++ leBytes 4 code

/-- Room in a ring of 2^k entries (R346, R347). -/
def ringRoom (k : Nat) (prod cons : BitVec 32) : Bool := (prod - cons).toNat < 2 ^ k

/-- The dispatcher writes the oldest undelivered entry, when the ring is enabled and has room (R347). -/
def State.writeUndelivered (s : State) : State :=
  match s.undel.held with
  | [] => s
  | e :: rest =>
    if s.undel.en && ringRoom s.undel.k s.undel.prod s.undel.cons then
      let a := (s.undel.base.toNat + 16 * (s.undel.prod.toNat % 2 ^ s.undel.k)) % 2 ^ 52
      let t := (s.put .host a e).unkey .host a 16
      State.sendMsix { t with undel := { t.undel with prod := t.undel.prod + 1, held := rest } } 0
    else s

/-- An entry for the undelivered-completion ring, with UNDELIVERED set by the caller (R71, R347). None is lost: one more than 4,096 is
held too, which jobs of the table can bring about after the last record was read: the model's choice (log 83). -/
def State.undelivered (s : State) (e : List Byte) : State :=
  let t := { s with undel := { s.undel with held := s.undel.held ++ [e] } }
  if s.undel.held = [] then t.writeUndelivered else t

/-- Where DONE leads through the job's tables, for the dispatcher's own store (R71). -/
def State.donePlace (s : State) (ptRoot done : Word) : Option (Space × Nat) :=
  if !canonical done.toNat || inWindows done.toNat then none
  else match s.leafFate .store false done.toNat (s.walkFrom done.toNat 4 (rootOf ptRoot)) with
    | .at_ .device a => some (.device, a)
    | .at_ .host a => some (.host, a)
    | _ => none

/-- Write the completion entry of a record that passed check 1 (R71). -/
def State.writeCompletion (s : State) (r : JobRecord) (status : JobStatus) (flags code : Nat) : State :=
  match s.donePlace r.ptRoot r.done with
  | some (sp, a) =>
    let e := completionEntry r.id status flags code
    ((s.put sp a e).unkey sp a 16).sendMsix 0
  | none => s.undelivered (completionEntry r.id status (flags + 16) code)

/-- A core without a job: what belongs to the part stays (R20, R359), the rest is as after reset. -/
def Core.vacate (c : Core) : Core :=
  { Core.reset with
    capMask := c.capMask
    spadUsable := c.spadUsable
    usable := c.usable
    prick := c.prick
    gated := c.gated
    withheld := c.withheld
    margin := c.margin }

/-- A finished core that its job leaves: no job, and nothing under way; registers and memories stay as the job left them
until the next start (R70, R265, R308, R313, R335; log 54). -/
def Core.leave (c : Core) : Core :=
  { c with
    place := none
    kpre := 0
    mq := []
    copies := []
    tlb := []
    exit := none
    finished := false
    haltReq := false
    halted := false
    shoots := [] }

/-- The cores on which a job is placed. -/
def State.coresOf (s : State) (id : BitVec 64) : List Nat :=
  match s.job id with
  | some j => if j.state = .placed || j.state = .halting then j.cores else []
  | none => []

/-- Empty some cores: their reservations are lost (R90; log 12), and what they had to acknowledge counts as acknowledged (R330). -/
def State.vacateCores (s : State) (ps : List Nat) : State :=
  (ps.foldl (fun (s : State) p => s.setCore p (s.core p).vacate)
    { s with resvs := s.resvs.filter fun r => !(r.device = 0 && ps.contains r.core) }).settleShoot

/-- The cores of a job that completes: a core that has not finished discards its state (R70, R330). -/
def State.leaveCores (s : State) (ps : List Nat) : State :=
  (ps.foldl (fun s p => s.setCore p (if (s.core p).finished then (s.core p).leave else (s.core p).vacate)) s).settleShoot

/-- A flit of an access of a job of this device. -/
def State.flitOf (s : State) (id : BitVec 64) (f : Flit) : Bool := flitOwner f.load = some (s.devid.toNat, id)

/-- The loads of a job that wait at a link port and have not been sent (R299). -/
def State.unsentLoads (s : State) (id : BitVec 64) : List FlitLoad :=
  s.ports.flatMap fun q => (q.2.queue.filter (s.flitOf id)).map Flit.load

/-- The last element of a list that a test takes is left out. -/
def eraseLast {α : Type} (p : α → Bool) (l : List α) : List α := (l.reverse.eraseP p).reverse

/-- A load that is not sent asks for nothing: what waits for its acknowledgement waits no more. -/
def State.unsend (s : State) (l : FlitLoad) : State :=
  match l with
  | .write n src _ _ _ _ _ => { s with postedQ := eraseLast (fun e => e.device = n && e.source = src) s.postedQ }
  | .reduce n pkt => { s with remoteQ := eraseLast (fun e => e = (n, pkt)) s.remoteQ }
  | .request _ src id _ _ _ _ _ =>
    { s with flights := s.flights.map fun f =>
        if f.source = src then { f with asks := f.asks.filter fun a => a.id ≠ id } else f }
  | _ => s

/-- What a job has not sent to other devices is not sent: it has not performed (R299). -/
def State.cancelUnsent (s : State) (id : BitVec 64) : State :=
  (s.unsentLoads id).foldl State.unsend
    { s with ports := s.ports.map fun (p, q) => (p, { q with queue := q.queue.filter fun f => !s.flitOf id f }) }

/-- What a job waits for from a device that can no longer answer, and what only reads, is given up (R299, R352). -/
def State.dropCut (s : State) (id : BitVec 64) : State :=
  { s with
    remoteQ := s.remoteQ.filter fun r => !(r.2.job = id && s.cutOff r.1)
    postedQ := s.postedQ.filter fun e => !(e.source.job = id && s.cutOff e.device)
    flights := (s.flights.map fun f =>
      if f.source.job = id
      then { f with asks := f.asks.filter fun a => a.answer.isNone && !readsOnly a.op && !s.cutOff a.device } else f).filter
        fun f => !(f.source.job = id && f.asks = []) }

/-- What a job leaves in the units around its cores is dropped when it ends: fault records not merged or not answered,
reduce packets not applied, and what it has not sent to other devices (R70, R299; log 27). -/
def State.dropTraces (s : State) (id : BitVec 64) : State :=
  State.dropCut (State.cancelUnsent { s with
    merger := { s.merger with
      inbox := s.merger.inbox.filter (fun r => r.job ≠ id)
      open_ := s.merger.open_.filter (fun r => r.job ≠ id) }
    nmrQ := s.nmrQ.filter (fun r => !(r.sent.job = id && r.sent.device = 0))
    resvs := s.resvs.filter (fun r => !(r.device = 0 && (s.coresOf id).contains r.core)) } id) id

/-- Other devices have yet to acknowledge writes, reduces or atomics of a job (R298, R299). -/
def State.outstanding (s : State) (id : BitVec 64) : Bool :=
  s.postedQ.any (fun e => e.source.job = id) || s.remoteQ.any (fun r => r.2.job = id)
    || s.flights.any fun f => f.source.job = id && f.asks.any fun a => a.answer.isNone && !readsOnly a.op

/-- FLAGS of a completion entry (R70). -/
def Job.flags (j : Job) (exception : Bool) : Nat :=
  (if j.preempted then 1 else 0) + (if j.fencedDuring then 2 else 0) + (if j.detRead then 4 else 0)
    + (if exception then 8 else 0)

/-- STATUS, EXCEPTION and CODE with which a job completes: those given, unless an earlier terminal event has decided
already (R70, R345). -/
def Job.verdict (j : Job) (status : JobStatus) (exception : Bool) (code : Nat) : JobStatus × Bool × Nat :=
  match j.ending with
  | some first => (first, false, 0)
  | none => (status, exception, code)

/-- The dispatcher, as the sender of an access for a job. -/
def State.dispatcherOf (s : State) (id : BitVec 64) : Sender :=
  { device := s.devid.toNat, job := id, core := 0, agent := dispatcherAgent }

/-- A job that has stopped completes, and its entry is written, once other devices have acknowledged what it has sent, and
the walk for its DONE address has read what it needs (R70, R71, R299, R339). -/
def State.finishJob (s : State) (id : BitVec 64) : State :=
  match s.job id with
  | none => s
  | some j =>
    match j.state with
    | .draining status exception code =>
      if s.outstanding id then s
      else
        let done := j.record.done.toNat
        match s.walkStep (s.dispatcherOf id) fun s =>
            if !canonical done || inWindows done then [] else (s.walkAsks done 4 (rootOf j.record.ptRoot)).map entryAsk with
        | .waits t => t
        | .ready t => (t.mapJob id fun j => { j with state := .done status }).writeCompletion j.record status
            (j.flags exception) code
        | .lost => (s.mapJob id fun j => { j with state := .done status }).undelivered
            (completionEntry id status (j.flags exception + 16) code)
    | _ => s

/-- One job stops: its cores are freed and its saved contexts discarded, and it completes (R70, R71, R299). -/
def State.endOne (s : State) (id : BitVec 64) (status : JobStatus) (exception : Bool) (code : Nat) : State :=
  match s.job id with
  | none => s
  | some j =>
    if j.isOver then s
    else
      let v := j.verdict status exception code
      let t := ((s.dropTraces id).leaveCores (s.coresOf id)).mapJob id fun j =>
        { j with state := .draining v.1 v.2.1 v.2.2, cores := [], saved := [], keys := [], syncs := [] }
      t.finishJob id

/-- A prerequisite has completed with OK: it is below the table's low-water mark or done with OK (R68). -/
def State.prereqOk (s : State) (p : BitVec 64) : Bool :=
  match s.job p with
  | some j => j.state = .done .ok
  | none => true

/-- A prerequisite has completed with another status (R69). -/
def State.prereqFailed (s : State) (p : BitVec 64) : Bool :=
  match s.job p with
  | some j => j.isDone && j.state ≠ .done .ok
  | none => false

/-- Jobs in order of JOB_ID. -/
def insertJob (j : Job) : List Job → List Job
  | [] => [j]
  | k :: l => if j.record.id.toNat ≤ k.record.id.toNat then j :: k :: l else k :: insertJob j l

/-- Dependents whose prerequisites have failed complete in order of JOB_ID, and theirs after them; those whose
prerequisites are all OK become ready (R69). The number bounds the rounds. -/
def State.settleDependents (s : State) : Nat → State
  | 0 => s
  | n + 1 =>
    let sorted := s.jobs.foldr insertJob []
    match sorted.find? (fun j => j.state = .blocked && j.record.prereq.any s.prereqFailed) with
    | some j => (s.endOne j.record.id .prereqFailed false 0).settleDependents n
    | none =>
      { s with jobs := s.jobs.map fun j =>
          if j.state = .blocked && j.record.prereq.all s.prereqOk
          then { j with state := .waiting, readyAt := s.now, waitAt := s.now, eff := j.record.cls } else j }

/-- A job ends at a terminal event or when its last core finishes, and its dependents follow (R69, R70). -/
def State.endJob (s : State) (id : BitVec 64) (status : JobStatus) (exception : Bool) (code : Nat) : State :=
  let t := s.endOne id status exception code
  (t.settleDependents (t.jobs.length + 1)).refreshHead

/-- A job that has stopped, or one that was resumed, waits for what other devices have to acknowledge (R298, R299, R351). -/
def State.awaitsOthers (s : State) (id : BitVec 64) : Bool :=
  (s.job id).any (fun j => j.isOver && !j.isDone)
    || s.cores.any fun (e : Nat × Core) => e.2.resuming && e.2.place.any fun (pl : Place) => pl.job = id

/-- Another device has acknowledged something of a job: a job that has stopped completes with the last such thing, and the
cores of one that was resumed go on (R298, R299, R351). -/
def State.acknowledged (s : State) (id : BitVec 64) : State :=
  if s.outstanding id || !s.awaitsOthers id then s
  else
    let t := s.finishJob id
    let t := { t with cores := t.cores.map fun (e : Nat × Core) =>
      (e.1, if e.2.resuming && e.2.place.any (fun (pl : Place) => pl.job = id) then { e.2 with resuming := false } else e.2) }
    (t.settleDependents (t.jobs.length + 1)).refreshHead

/-- A read in deterministic mode sets DET_READ of the job on the current core (R70, R90, R319). -/
def State.markDetRead (s : State) : State := s.mapJob s.myJob fun j => { j with detRead := true }

end Sys2Proof.Machine
end

