-- ==== Sys2Proof/Machine/LinkOps.lean ====
section
/-! DEFINITION. What ports do with the flits that wait for them, accesses that wait for other devices, and the frame of a
memory instruction of a strand (R190, R272, R273, R286, R297, R339, R349 to R352). -/

namespace Sys2Proof.Machine

/-! ## Settling the ports -/

/-- The jobs of this device with a flit among some. -/
def State.flitJobs (s : State) (fs : List Flit) : List (BitVec 64) :=
  fs.filterMap fun f => (flitOwner f.load).bind fun o => if o.1 = s.devid.toNat then some o.2 else none

/-- The jobs that wait for a device that can no longer answer (R352; log 46). -/
def State.cutJobs (s : State) : List (BitVec 64) :=
  (s.remoteQ.filter fun r => s.cutOff r.1).map (·.2.job)
    ++ (s.postedQ.filter fun e => s.cutOff e.device).map (·.source.job)
    ++ (s.flights.filter fun f => f.asks.any fun a => a.answer.isNone && s.cutOff a.device).map (·.source.job)

/-- What one port does with its waiting flits: UP it sends them, DOWN it discards them and their jobs complete with
UNCORRECTABLE (R351, R352). -/
def State.settlePort (s : State) (p : Nat) : State :=
  let q := s.port p
  match q.st with
  | .up => s.setPort p (q.sendQueued s.linkRule [] q.queue)
  | .down =>
    (s.flitJobs (q.replay ++ q.queue)).foldl (fun t id => t.endJob id .uncorrectable false 0)
      (s.setPort p { q with replay := [], queue := [], used := ⟨0, 0, 0⟩ })
  | _ => s

/-- Every port settles, and jobs that wait for a device that is cut off complete with UNCORRECTABLE. -/
def State.settlePorts (s : State) : State :=
  let t := (List.range 18).foldl (fun t p =>
    if (t.port p).queue = [] && (t.port p).st ≠ .down then t else t.settlePort p) s
  t.cutJobs.foldl (fun t id => ((t.endJob id .uncorrectable false 0).dropCut id).acknowledged id) t

/-- A device number that a remote reduce may name: fabric traffic is on, the number is one of 1 to 63 and its route is
valid (R339, R340, R349). -/
def State.reaches (s : State) (n : Nat) : Bool := s.devid ≠ 0 && 1 ≤ n && n ≤ 63 && (s.route n).isSome

/-! ## Accesses that wait for other devices -/

/-- Phase two of an agent's access: where other devices hold the bytes it asks them and waits, `w`; `k` goes on with the
elements. `i` is the instruction, and `sync` what an atomic carries as a release. A job whose flit would go to a port that is
DOWN completes with UNCORRECTABLE (R295, R339, R352). -/
def State.acrossDevices (s : State) (src : Sender) (i : Option Instr) (sync : Release) (es : List (Elem × List Piece))
    (op : Elem → Option RemoteOp) (w : State → Res) (k : State → List (Elem × List Piece) → Res) : Res :=
  if es.any fun e => e.2.any fun q => q.device.any s.cutOff then .next (s.endJob src.job .uncorrectable false 0)
  else
    match questionsOf es op with
    | [] => k s es
    | qs => w (s.takeOff src i sync es qs)

/-- An agent's access that already waits for other devices: it goes on once they have answered. One that a core halt or a
shoot-down stopped performs what it has asked for and stops again, to run again for the rest (R195, R197). -/
def State.aloft (s : State) (src : Sender) (w : State → Res) (k : State → List (Elem × List Piece) → Res)
    (fresh : State → Res) : Res :=
  match s.flight src with
  | some f =>
    if !f.landed then w s
    else
      match f.stopped with
      | some n => k { s.land f with cut := some n } f.arrived
      | none => k (s.land f) f.arrived
  | none => fresh s

/-- Every element is aligned (R189, R190). -/
def alignedAll (align : Nat) (es : List Elem) : Bool := es.all fun e => e.addr % align = 0

/-- The walks for an access of an agent of the current core, then the access. A misaligned element comes before any translation,
so that nothing is walked then (R120, R185, R190, R339). -/
def State.walked (s : State) (agent : Nat) (i : Option Instr) (align : Nat) (es : List Elem) (w : State → Res) (k : State → Res) :
    Res :=
  match s.walksOf s.curCore agent (if alignedAll align es then es.flatMap fun e => runsOf e.addr e.len else []) i with
  | .ready t => k t
  | .waits t => w t
  | .lost => .next (s.endJob s.myJob .uncorrectable false 0)

/-- An instruction that has issued and waits, for other devices or in place, runs on as it issued: with its attribute word, and
under the format entries and the capabilities of that time (R130). -/
def State.asIssued (s : State) (u : Issue) (run : State → Res) : Res :=
  let c := s.myCore
  match run (State.setMyCore { s with attr := u.attr } { c with fmts := u.fmts, capMask := u.caps }) with
  | .next t =>
    let d := t.core s.curCore
    .next (t.setCore s.curCore
      { d with capMask := c.capMask, fmts := if d.place.isSome then c.fmts else d.fmts })
  | r => r

/-- Every element of an access is loaded. -/
def loadsAll (_ : Elem) : Option RemoteOp := some .load

/-- No element asks another device: stores are posted. -/
def asksNothing (_ : Elem) : Option RemoteOp := none

/-- What each element of an access asks of a device that holds it, unless said otherwise. -/
def Access.asks (acc : Access) : Elem → Option RemoteOp :=
  match acc with
  | .load | .fetch => loadsAll
  | .store | .rmw | .reduce => asksNothing

/-! ## Memory instructions of strands -/

/-- A memory instruction of the current strand up to phase two: a release waits until every earlier access has
performed, a read-modify-write until no store is held, then the walks; of the elements `pick` takes those that are accessed
(R193), the interlock waits, and phase one examines them; behind the strand's own reduce of the same bytes it waits once more,
reduces of one target commuting (R301), and so it does for a unit on several devices (R194, R284), and a load for a held store of its
strand whose place is not known (R121); while it waits it has issued (R130, R272, R273); `op` is what an element asks of a device that holds its bytes; `k` performs. -/
def State.access (s : State) (i : Instr) (acc : Access) (o : Order) (align : Nat) (es : List Elem)
    (k : State → List (Elem × List Piece) → Res) (op : Elem → Option RemoteOp := acc.asks)
    (pick : State → List Elem → List Elem := fun _ es => es) : Res :=
  s.aloft s.mySender (·.waitsIssued i) k fun s =>
  if o.rel && !s.settled o.scope then s.waitsIssued i
  else if (acc = .rmw || acc = .reduce) && s.storeHeld then s.waitsIssued i
  else
    s.walked s.curStrand (some i) align es (·.waitsIssued i) fun s =>
    let es := pick s es
    if s.interlocked acc.writes es then s.waitsIssued i
    else
      let ph := s.phaseOne s.curCore acc false align es
      match ph with
      | .ok es pages =>
        if (acc ≠ .reduce && s.reducesMeet (es.flatMap Prod.snd)) || (acc = .load && s.heldUnplaced)
            || es.any (fun e => s.unitWaits s.mySender acc.writes e.2)
        then s.waitsIssued i
        else (s.fillTlb s.curCore pages).acrossDevices s.mySender (some i) (s.relEpoch o) es op (·.waitsIssued i) k
      | _ => (s.phaseTrap acc ph).getD (.next s)

end Sys2Proof.Machine
end

