-- ==== Sys2Proof/Machine/HartOps.lean ====
section
/-! DEFINITION. The control hart: its registers, exceptions and interrupts, memory accesses, and the completion of its
instructions. -/

namespace Sys2Proof.Machine

/-- The control hart of the current core. -/
def State.hart (s : State) : Hart := s.myCore.hart

/-- Replace it. -/
def State.setHart (s : State) (h : Hart) : State := s.setMyCore { s.myCore with hart := h }

/-- A register of the control hart; `x0` reads as zero. -/
def Hart.getX (h : Hart) (r : Reg) : Word := if r = 0 then 0 else Table.get 0 h.x r.toNat

/-- Write a register of the control hart; a write to `x0` is discarded. -/
def Hart.setX (h : Hart) (r : Reg) (w : Word) : Hart :=
  if r = 0 then h else { h with x := Table.set 0 h.x r.toNat w }

/-- An exception of the current control hart: M-mode's handler takes it, or, while `mtvec` is zero, the job ends with
JOB_FAULT, EXCEPTION and the cause (R70, R90, R91). -/
def State.hartException (s : State) (cause : Nat) (tval : Word) : State :=
  if s.hart.mtvec = 0 then s.endJob s.myJob .jobFault true cause
  else s.setHart (s.hart.enterTrap false cause tval)

/-- The step that takes an exception. -/
def State.hartTrapped (s : State) (cause : Nat) (tval : Word) : Res := .next (s.hartException cause tval)

/-- The RISC-V illegal-instruction exception of a word (R61). -/
def State.hartIllegal (s : State) (word : Nat) : Res := s.hartTrapped 2 (BitVec.ofNat 64 word)

/-- The strand-command fault of a word (R91). -/
def State.commandFault (s : State) (word : Nat) : Res := s.hartTrapped 24 (BitVec.ofNat 64 word)

/-- Complete an instruction of the control hart of `len` bytes, going on at `next`. -/
def State.hartDone (s : State) (h : Hart) (next : Word) : Res :=
  .next (s.setHart { h with pc := next, instret := h.instret + 1, waiting := none })

/-- Complete a control-hart extension with a result (R95). -/
def State.hartResult (s : State) (rd : Reg) (w : Word) : Res :=
  s.hartDone (s.hart.setX rd w) (s.hart.pc + 4)

/-- An extension waits in place (R96, R99): nothing changes but that the control hart waits, since its first try. -/
def State.hartWaits (s : State) (i : Instr) : Res :=
  let since := match s.hart.waiting with
    | some w => if w.instr = i then w.since else s.tick
    | none => s.tick
  .next (s.setHart { s.hart with waiting := some { instr := i, since := since } })

/-- The class HART is declared and offered (R60, R61). -/
def State.hartClass (s : State) : Bool := s.myCore.useMask.getLsbD 10 && s.myCore.capMask.getLsbD 10

/-- A control-hart extension: illegal without the class HART (R61). -/
def State.extension (s : State) (i : Instr) (k : State → Res) : Res :=
  if s.hartClass then k s else s.hartIllegal (encodeWord i)

/-- Whether a data access of the control hart counts as an M-mode access (R90); MPRV lends the mode in MPP (log 12). -/
def Hart.machineAccess (h : Hart) : Bool :=
  h.mode = .m && !(h.mstatus.getLsbD 17 && !h.mstatus.getLsbD 11)

/-- Exception codes of a failing access: misaligned, page fault and access fault (R90). -/
def hartCauses (acc : Access) : Nat × Nat × Nat :=
  match acc with
  | .fetch => (0, 12, 1)
  | .load => (4, 13, 5)
  | _ => (6, 15, 7)

/-- The sender of the control hart's accesses. -/
def State.hartSender (s : State) : Sender := s.senderOf hartAgent

/-- What a write of the control hart carries as a release: its own acts at system scope, like its fences (R292, R295). -/
def State.hartRel (s : State) (rl : Bool) : Release :=
  { wide := if !s.myCore.det then 0 else if rl then s.myCore.epoch + 1 else s.hart.fep, die := 0, core := s.myTeam }

/-- A data access of the control hart of n bytes: naturally aligned, through the job's tables (R90). Where another device
holds the bytes it asks for `op`, which releases where `rl` says so, and waits (R295, R339). -/
def State.hartAccess (s : State) (i : Instr) (acc : Access) (op : List Piece → Option RemoteOp) (rl : Bool) (va : Word)
    (n : Nat)
    (k : State → List Piece → Res) : Res :=
  let c := hartCauses acc
  let go (s : State) (es : List (Elem × List Piece)) : Res := k s (es.flatMap Prod.snd)
  s.aloft s.hartSender (·.hartWaits i) go fun s =>
  s.walked hartAgent (some i) n [{ idx := 0, addr := va.toNat, len := n }] (·.hartWaits i) fun s =>
  match s.phaseOne s.curCore acc s.hart.machineAccess n [{ idx := 0, addr := va.toNat, len := n }] with
  | .misaligned _ => s.hartTrapped c.1 va
  | .missing _ pages => (s.forgetPages s.curCore pages).hartTrapped c.2.1 va
  | .forbidden _ => s.hartTrapped c.2.2 va
  | .ok es pages =>
    if es.any fun e => s.unitWaits s.hartSender acc.writes e.2 then s.hartWaits i
    else (s.fillTlb s.curCore pages).acrossDevices s.hartSender (some i) (s.hartRel rl) es
      (fun _ => op (es.flatMap Prod.snd)) (·.hartWaits i) go

/-- The bytes of some pieces. -/
def State.readPieces (s : State) (ps : List Piece) : List Byte := ps.flatMap s.pieceBytes

/-- A control-hart load notes the epochs it meets (R287, R295). -/
def State.hartMeets (s : State) (ps : List Piece) : State :=
  if s.myCore.det then s.setHart { s.hart with seen := Nat.max s.hart.seen (s.syncOf s.myJob ps) } else s

/-- A plain store of the control hart (R295). -/
def State.hartStore (s : State) (ps : List Piece) (bs : List Byte) : State :=
  storePieces s.hartSender s.storeKey (s.hartRel false) ps bs s

/-- A `fence` of the control hart, and the release of an A-extension instruction, act at system scope (R292): in
deterministic mode it takes the epochs met and adds 1 (R287, R295). -/
def State.hartFence (s : State) : State :=
  if s.myCore.det then
    let e := Nat.max s.myCore.epoch s.hart.seen + 1
    let t := s.setMyCore { s.myCore with epoch := e }
    t.setHart { t.hart with fep := e }
  else s

/-- A fence or a release of the control hart, at system scope, waits for its writes to other devices (R290, R292). -/
def State.hartSettled (s : State) : Bool := !s.postsOut hartAgent

/-- The control hart of the current core is at a boundary: no access of it waits for another device that it may change
(R93, R339). -/
def State.hartStops (s : State) : Bool := (s.flight s.hartSender).all fun f => !f.changes

/-- Pending strand events of a core (R93): SIG, TRAP and FARM. -/
def Core.kpend (c : Core) : Word :=
  let bits (f : Nat → Bool) (n lo : Nat) : Nat :=
    (List.range n).foldl (fun acc k => if f k then acc + 2 ^ (lo + k) else acc) 0
  BitVec.ofNat 64 (bits (fun k => (c.strand k).sigPend) 24 0 + bits (fun k => (c.strand k).st = .trapped) 24 24
    + bits (fun f => c.farmEnd.getLsbD f) 4 48)

/-- The strand-event interrupt is pending and enabled (R90, R93). -/
def Core.interruptDue (c : Core) : Bool :=
  c.hart.mie.getLsbD 16 && c.kpend &&& c.kie ≠ 0 && (c.hart.mode = .u || c.hart.mstatus.getLsbD 3)

end Sys2Proof.Machine
end

