-- ==== Sys2Proof/Machine/Operands.lean ====
section
/-! DEFINITION. Vector operands: tags and what they mean, operation tags, register groups as numbers, active elements,
and writing a group element by element. -/

namespace Sys2Proof.Machine

/-- What a tag describes (R144): an integer, a float format, bits, a block-scaled element, or nothing. -/
inductive Kind where
  | int (signed : Bool) (w : Nat)
  | flt (f : Fmt)
  | bit
  | bs (n : Nat)
  | none
  deriving DecidableEq, Repr

/-- The code of the format that a tag byte selects: ALT exchanges f16 with bf16 and fx0 with fx1 (R131, R144). -/
def tagCode (t : Nat) : Nat :=
  let c := t % 64
  if t / 64 % 2 = 1 then
    match c with
    | 0x08 => 0x09
    | 0x09 => 0x08
    | 0x20 => 0x21
    | 0x21 => 0x20
    | _ => c
  else c

/-- A byte is a tag: its code is assigned, ALT stands on a tag that takes it and bit 7 is zero (R144). -/
def tagOk (t : Nat) : Bool :=
  let c := t % 64
  t < 128 && (c < 0x0D || (0x10 ≤ c && c < 0x14) || (0x20 ≤ c && c < 0x30))
    && (t < 64 || c = 0x08 || c = 0x09 || c = 0x20 || c = 0x21)

/-- What a tag describes on a core, whose format table names the fx formats (R127, R144). -/
def Core.kind (c : Core) (t : Nat) : Kind :=
  let k := tagCode t
  if k < 4 then .int true (8 * 2 ^ k)
  else if k < 8 then .int false (8 * 2 ^ (k - 4))
  else if k = 0x08 then .flt Fmt.bf16
  else if k = 0x09 then .flt Fmt.f16
  else if k = 0x0A then .flt Fmt.f32
  else if k = 0x0B then .flt Fmt.f64
  else if k = 0x0C then .bit
  else if 0x10 ≤ k && k < 0x14 then .bs (2 ^ (k - 0x10))
  else if 0x20 ≤ k && k < 0x30 then .flt (Fmt.ofEntry (c.fmt (k - 0x20)))
  else .none

/-- Container width in bits; 8 for a byte that is no tag (R123). -/
def Kind.width (k : Kind) : Nat :=
  match k with
  | .int _ w => w
  | .flt f => f.w
  | .bit => 1
  | .bs n => n
  | .none => 8

/-- An element as an instruction writes it: the bits above a format narrower than its container are zero (R123, log 51). -/
def Kind.clip (k : Kind) (x : Nat) : Nat :=
  match k with
  | .flt f => x % 2 ^ f.total
  | _ => x

/-- Bits of an element that hold a value: an instruction that reads it ignores the others (R123). -/
def Kind.bits (k : Kind) : Nat :=
  match k with
  | .flt f => f.total
  | k => k.width

/-- Integer tags. -/
def Kind.isInt (k : Kind) : Bool :=
  match k with
  | .int _ _ => true
  | _ => false

/-- Signed integer tags. -/
def Kind.signed (k : Kind) : Bool :=
  match k with
  | .int s _ => s
  | _ => false

/-- Float tags. -/
def Kind.isFloat (k : Kind) : Bool :=
  match k with
  | .flt _ => true
  | _ => false

/-- Every tag but the block-scaled ones and what is no tag (R175). -/
def Kind.isPlain (k : Kind) : Bool :=
  match k with
  | .int _ _ => true
  | .flt _ => true
  | .bit => true
  | _ => false

/-- Every tag (R162). -/
def Kind.isTag (k : Kind) : Bool := k ≠ .none

/-- Integers and bits (R162). -/
def Kind.isLogic (k : Kind) : Bool :=
  match k with
  | .int _ _ => true
  | .bit => true
  | _ => false

/-- Class bits of a code (R63). -/
def codeClass (c : Nat) : Nat :=
  if c < 8 then 16 + c % 4
  else if c = 0x08 then 21
  else if c = 0x09 then 22
  else if c = 0x0A then 23
  else if c = 0x0B then 24
  else if c = 0x0C then 20
  else if c < 0x14 then 25 + (c - 0x10)
  else 32 + (c - 0x20)

/-- Classes of a tag: with ALT those of both of its formats (R63). -/
def tagClasses (t : Nat) : List Nat :=
  if t / 64 % 2 = 1 then [codeClass (t % 64), codeClass (tagCode t)] else [codeClass (t % 64)]

/-- The tag of the format that a code stands for beside a different tag (R146). -/
def standFor (c : Nat) : Nat :=
  if c = 0x25 then 0x09 else if c = 0x26 then 0x08 else if c = 0x28 then 0x0B
  else if 0x20 ≤ c then 0x0A else c

/-- Width of a standard code. -/
def codeWidth (c : Nat) : Nat :=
  if c < 8 then 8 * 2 ^ (c % 4) else if c < 0x0A then 16 else if c = 0x0A then 32 else 64

/-- The operation tag of two tags (R146). Two equal bsN tags fall under the row of equal tags and under that of bsN with any tag:
the first decides, the model's choice (log 68). -/
def opTag2 (p q : Nat) : Option Nat :=
  if p = q then some p
  else
    let a := tagCode p
    let b := tagCode q
    if a = b then some a
    else if a = 0x0C || b = 0x0C || (0x10 ≤ a && a < 0x20) || (0x10 ≤ b && b < 0x20) then none
    else
      let a := standFor a
      let b := standFor b
      if a = b then some a
      else if a < 8 && b < 8 then
        some (Nat.max (a % 4) (b % 4) + (if 4 ≤ a && 4 ≤ b then 4 else 0))
      else if 8 ≤ a && 8 ≤ b then some (if a = 0x0B || b = 0x0B then 0x0B else 0x0A)
      else
        let f := if a < 8 then b else a
        let w := codeWidth (if a < 8 then a else b)
        some (if w < codeWidth f then f else if w < 32 then 0x0A else 0x0B)

/-- The operation tag of several sources, pair by pair in field order (R146). -/
def opTag (ts : List Nat) : Option Nat :=
  match ts with
  | [] => none
  | t :: rest => rest.foldl (fun acc u => acc.bind fun p => opTag2 p u) (some t)

/-- VL for a container width (R141). -/
def Strand.vl (st : Strand) (w : Nat) : Nat := Config.vmax * st.vgrp / w

/-- A group of registers as one number: register `first` holds its low bits (R148). -/
def Strand.group (st : Strand) (first : Nat) : Nat → Nat
  | 0 => 0
  | span + 1 => (st.getV first).toNat + (st.group (first + 1) span) <<< Config.vmax

/-- Write the registers of a group from its j-th on, those of which a byte is written, and set the tags of all (R145, R148,
R321). -/
def Strand.setGroupFrom (st : Strand) (first t : Nat) (wrote : Nat → Bool) : Nat → Nat → Nat → Strand
  | _, 0, _ => st
  | j, span + 1, g =>
    let st' := if wrote j then st.setV (first + j) (BitVec.ofNat 16384 g) else st
    (st'.setTag (first + j) t).setGroupFrom first t wrote (j + 1) span (g >>> Config.vmax)

/-- Write a group of registers: the data, the tag, and which of its registers have a byte written. -/
def Strand.setGroup (st : Strand) (first span g t : Nat) (wrote : Nat → Bool) : Strand :=
  st.setGroupFrom first t wrote 0 span g

/-- Element i of width w of a group (R123). -/
def elemOf (w g i : Nat) : Nat := (g >>> (w * i)) % 2 ^ w

/-- An element read as two's complement. -/
def toSigned (w x : Nat) : Int := if x < 2 ^ (w - 1) then x else (x : Int) - 2 ^ w

/-- wrap(w, x) of an integer. -/
def wrapTo (w : Nat) (x : Int) : Nat := (x % (2 ^ w : Nat)).toNat

/-- The mask bits that govern an instruction: all ones for an unmasked one (R149). -/
structure Governs where
  masked : Bool
  bits   : Nat
  deriving DecidableEq, Repr

/-- The governing mask field. -/
def Strand.governs (st : Strand) (m : Reg) : Governs :=
  if m = 31 then ⟨false, 0⟩ else ⟨true, (st.getM m.toNat).toNat⟩

/-- The mask lets index i act (R149). -/
def Governs.lets (g : Governs) (i : Nat) : Bool := !g.masked || (i < Config.mlen && g.bits.testBit i)

/-- The bound of the active elements: VL, `sbound`, and MLEN for a masked instruction (R149). -/
def Strand.bound (st : Strand) (vl : Nat) (g : Governs) : Nat :=
  let n := Nat.min vl st.sbound.toNat
  if g.masked then Nat.min n Config.mlen else n

/-- Elements of width w, from index i up to the node of height h over it: below the bound and where `act` holds they are
f's, otherwise the old ones. -/
def mergeTree (w bound old : Nat) (act : Nat → Bool) (f : Nat → Nat) : Nat → Nat → Nat
  | 0, i => if i < bound && act i then f i % 2 ^ w else elemOf w old i
  | h + 1, i =>
    if bound ≤ i then (old >>> (w * i)) % 2 ^ (w * 2 ^ (h + 1))
    else mergeTree w bound old act f h i + (mergeTree w bound old act f h (i + 2 ^ h)) <<< (w * 2 ^ h)

/-- A group of 2^h elements of width w with its active elements replaced (R150). -/
def mergeElems (w vl bound old : Nat) (act : Nat → Bool) (f : Nat → Nat) : Nat :=
  mergeTree w bound old act f (Nat.log2 vl) 0

/-- Register j of a group of elements of width w holds an active element below the bound. -/
def touches (w bound : Nat) (act : Nat → Bool) (j : Nat) : Bool :=
  let n := Config.vmax / w
  (List.range (Nat.min bound (n * (j + 1)) - n * j)).any fun i => act (n * j + i)

/-- The conditions of the active elements below the bound. -/
def flagTree (bound : Nat) (act : Nat → Bool) (f : Nat → Flags) : Nat → Nat → Flags
  | 0, i => if i < bound && act i then f i else 0
  | h + 1, i => if bound ≤ i then 0 else flagTree bound act f h i ||| flagTree bound act f h (i + 2 ^ h)

/-- The conditions of the active elements of an instruction of VL elements (R137, R218). -/
def flagElems (vl bound : Nat) (act : Nat → Bool) (f : Nat → Flags) : Flags := flagTree bound act f (Nat.log2 vl) 0

/-- The active indices in increasing order. -/
def activeList (bound : Nat) (act : Nat → Bool) : List Nat := (List.range bound).filter act

/-- A source element converted to the operation tag, with the conditions of the conversion (R146). -/
def convertElem (src op : Kind) (rm : Rounding) (d x : Nat) : Out :=
  match src, op with
  | .int s w, .int _ w' => ⟨wrapTo w' (if s then toSigned w x else x), 0⟩
  | .int s w, .flt f => f.roundInt rm d (if s then toSigned w x else x) 0 false
  | .flt f, .flt f' => if f = f' then ⟨x, 0⟩ else f'.convert f rm d (f.decode x)
  | _, _ => ⟨x, 0⟩

/-- A vector source: its group as a number, and its own kind. -/
structure Source where
  bits : Nat
  kind : Kind
  deriving DecidableEq, Repr

/-- The source named by a field, spanning `vgrp` registers, under the tag of its first register (R145, R148). -/
def State.source (s : State) (r : Reg) : Source :=
  { bits := s.me.group r.toNat s.me.vgrp, kind := s.myCore.kind (s.me.tag r.toNat) }

/-- Element i of a source under an operation tag; `same` when the tags are equal, which converts nothing. -/
def Source.elem (v : Source) (same : Bool) (op : Kind) (rm : Rounding) (d i : Nat) : Out :=
  if same then ⟨elemOf v.kind.width v.bits i, 0⟩ else convertElem v.kind op rm d (elemOf v.kind.width v.bits i)

/-- The group of `vgrp` registers that a field names. -/
def State.grp (s : State) (r : Reg) : Group := ⟨r.toNat, s.me.vgrp⟩

/-- The issue checks of R147: an operation tag that the instruction accepts, then the classes of every format it uses. -/
def State.tagTrap (s : State) (i : Instr) (op : Option Nat) (accept : Kind → Bool) (used : List Nat) : Option Trap :=
  match op with
  | none => some { cause := .illegal, info := encodeWord i }
  | some t =>
    if accept (s.myCore.kind t) then s.classTrap ((used ++ [t]).flatMap tagClasses)
    else some { cause := .illegal, info := encodeWord i }

/-- Trap, or go on. -/
def State.orTrap (s : State) (t : Option Trap) (k : State → Res) : Res :=
  match t with
  | some t => s.trapped t
  | none => k s

/-- Complete a vector instruction that accesses no memory: `vstart` is 0 after it (R152; log 24). -/
def State.finishVector (s : State) (st : Strand) (fl : Flags) : State := s.finish { st with vstart := 0 } fl

/-- The operands that an element function gets: the signedness and width of the operation tag, and the elements as
W-bit patterns. -/
structure Elems where
  signed : Bool
  w      : Nat
  a      : Nat
  b      : Nat
  d      : Nat
  deriving DecidableEq, Repr

/-- elem(a, i): signed for a signed operation tag (R161). -/
def Elems.sa (e : Elems) : Int := if e.signed then toSigned e.w e.a else e.a
/-- elem(b, i). -/
def Elems.sb (e : Elems) : Int := if e.signed then toSigned e.w e.b else e.b

/-- The number of active elements below i. -/
def countActive (bound : Nat) (act : Nat → Bool) (i : Nat) : Nat := (activeList (Nat.min bound i) act).length

/-- The common frame of the element-by-element integer instructions with sources a and b (R161): checks of R57, first use,
operation tag, then each active element of d from those of a, b and the old d, and d takes the operation tag. -/
def State.mapVector (s : State) (i : Instr) (accept : Kind → Bool) (d a b m : Reg) (f : Elems → Nat) : Res :=
  s.orTrap (s.gate i 2 [s.grp d] [s.grp a, s.grp b] [s.grp d, s.grp a, s.grp b] (m ≠ 31)) fun s =>
  let st := s.me
  let ta := st.tag a.toNat
  let tb := st.tag b.toNat
  let op := opTag [ta, tb]
  s.orTrap (s.tagTrap i op accept [ta, tb]) fun s =>
  let t := op.getD 0
  let k := s.myCore.kind t
  let g := st.governs m
  let vl := st.vl k.width
  let bound := st.bound vl g
  let va := s.source a
  let vb := s.source b
  let old := st.group d.toNat st.vgrp
  let ea (i : Nat) : Out := va.elem (ta = t) k .rne 0 i
  let eb (i : Nat) : Out := vb.elem (tb = t) k .rne 0 i
  let out := mergeElems k.width vl bound old g.lets fun i =>
    f ⟨k.signed, k.width, (ea i).bits, (eb i).bits, elemOf k.width old i⟩
  .next (s.finishVector (st.setGroup d.toNat st.vgrp out t (touches k.width bound g.lets))
    (flagElems vl bound g.lets fun i => (ea i).fl ||| (eb i).fl))

/-- The same with the one source a. -/
def State.mapVector1 (s : State) (i : Instr) (accept : Kind → Bool) (d a m : Reg) (f : Elems → Nat) : Res :=
  s.orTrap (s.gate i 2 [s.grp d] [s.grp a] [s.grp d, s.grp a] (m ≠ 31)) fun s =>
  let st := s.me
  let t := st.tag a.toNat
  s.orTrap (s.tagTrap i (some t) accept [t]) fun s =>
  let k := s.myCore.kind t
  let g := st.governs m
  let vl := st.vl k.width
  let src := st.group a.toNat st.vgrp
  let old := st.group d.toNat st.vgrp
  let bound := st.bound vl g
  let out := mergeElems k.width vl bound old g.lets fun i =>
    k.clip (f ⟨k.signed, k.width, elemOf k.width src i, 0, elemOf k.width old i⟩)
  .next (s.finishVector (st.setGroup d.toNat st.vgrp out t (touches k.width bound g.lets)) 0)

end Sys2Proof.Machine
end

