-- ==== Sys2Proof/Machine/Fetch.lean ====
section
/-! DEFINITION. Fetching: the word or attribute pair at a strand's PC, the RISC-V instruction at the control hart's pc,
and the fates of a failing fetch. -/

namespace Sys2Proof.Machine

/-- What a fetch gives: an instruction and the state that holds its translation, a word that is no instruction, or the
step that ends in a trap. -/
inductive Fetched where
  | instr (i : Instr) (s : State)
  | illegal (w : IWord) (s : State)
  | stop (r : Res)

/-- Phase one of a fetch of n bytes by the current core. -/
def State.fetchPhase (s : State) (machine : Bool) (va : Word) (n : Nat) : Phase :=
  s.phaseOne s.curCore .fetch machine 1 [{ idx := 0, addr := va.toNat, len := n }]

/-- The fate of a failing fetch of the current strand: PC is that of the instruction, INFO the fetched address (R54, R185,
R317; log 22); the access violation where the fault record has no place (log 72). -/
def State.fetchTrap (s : State) (va : Word) (ph : Phase) : Res :=
  match ph with
  | .missing _ pages =>
    match s.reportFault s.curCore s.curStrand Access.fetch.kind s.me.pc [0] pages with
    | .error _ => s.trapped { cause := .access, info := va.toNat }
    | .ok (s, _) => s.trapped { cause := .xlate, info := va.toNat }
  | _ => s.trapped { cause := .access, info := va.toNat }

/-- The number that the fetched bytes form. -/
def State.fetchedNat (s : State) (es : List (Elem × List Piece)) : Nat := leNat (s.readPieces (es.flatMap Prod.snd))

/-- What the decoder makes of a word and the word after it: an instruction, or the word that is none (R57). Of a pair, that
is the operation word where it alone is no instruction, else the attribute word: the model's choice (log 60). -/
def strandInstr (w : IWord) (second : Option IWord) : Except IWord Instr :=
  match decodeStrand w second with
  | .ok i => .ok i
  | .error _ =>
    if isAttribute w then
      match second with
      | some w2 =>
        if 0x28 ≤ w2.toNat / 2 ^ 26 && w2.toNat / 2 ^ 26 ≤ 0x2D && (decodeWord w2).toOption.isNone
        then .error w2 else .error w
      | none => .error w
    else .error w

/-- A fetch ends because the job does: the device that it needs no longer answers (R352). -/
def State.fetchLost (s : State) : Fetched := .stop (.next (s.endJob s.myJob .uncorrectable false 0))

/-- The walks of an agent's n-th fetch, of `len` bytes (R185, R339). -/
def State.fetchWalk (s : State) (agent n : Nat) (va : Word) (len : Nat) (k : State → Fetched) : Fetched :=
  match s.walksOf s.curCore (fetchAgent agent n) (runsOf va.toNat len) with
  | .ready t => k t
  | .waits t => .stop (.next t)
  | .lost => s.fetchLost

/-- The bytes of a fetch, its n-th of an agent; where another device holds them, they are asked for and the agent waits; what
it asked for at another address is forgotten (R339). -/
def State.fetchBytes (s : State) (agent n : Nat) (es : List (Elem × List Piece)) (k : State → Nat → Fetched) : Fetched :=
  let src := s.senderOf (fetchAgent agent n)
  match (s.flight src).filter fun f => f.elems = es with
  | some f => if f.landed then let t := s.land f; k t (t.fetchedNat es) else .stop (.next s)
  | none =>
    match es.flatMap fun e => asksOf e loadsAll with
    | [] => k s (s.fetchedNat es)
    | qs =>
      if qs.any fun q => s.cutOff q.device then s.fetchLost
      else .stop (.next (s.takeOff src none ⟨0, 0, 0, 0⟩ es qs))

/-- The fetched instruction, or the word that is none. -/
def Fetched.of (s : State) (r : Except IWord Instr) : Fetched :=
  match r with
  | .ok i => .instr i s
  | .error w => .illegal w s

/-- The current strand may fetch the word after an attribute word: not past the last word of its block (R55). -/
def Strand.mayPair (st : Strand) : Bool :=
  match st.st, st.blk with
  | .block, some b => b.holds (st.pc + 4) 0
  | _, _ => true

/-- Fetch and decode at the current strand's PC (R53 to R57, R185). A PC that is no multiple of 4 fetches the four bytes
there: the model's choice (log 62). Memory is read at every fetch: the spec states no coherence of the strand instruction
cache (R20), and that no strand fetches an old word after a store to its code is the model's choice (log 64). -/
def State.strandFetch (s : State) : Fetched :=
  s.fetchWalk s.curStrand 0 s.me.pc 4 fun s =>
  match s.fetchPhase false s.me.pc 4 with
  | .ok es pages =>
    (s.fillTlb s.curCore pages).fetchBytes s.curStrand 0 es fun s n =>
    let w : IWord := BitVec.ofNat 32 n
    if isAttribute w && s.me.mayPair then
      s.fetchWalk s.curStrand 1 (s.me.pc + 4) 4 fun s =>
      match s.fetchPhase false (s.me.pc + 4) 4 with
      | .ok es2 pages2 =>
        (s.fillTlb s.curCore pages2).fetchBytes s.curStrand 1 es2 fun s n =>
          .of s (strandInstr w (some (BitVec.ofNat 32 n)))
      | ph => .stop (s.fetchTrap (s.me.pc + 4) ph)
    else .of s (strandInstr w none)
  | ph => .stop (s.fetchTrap s.me.pc ph)

/-- The fate of a failing fetch of the control hart (R90). -/
def State.hartFetchTrap (s : State) (va : Word) (ph : Phase) : Res :=
  match ph with
  | .missing _ pages => (s.forgetPages s.curCore pages).hartTrapped 12 va
  | _ => s.hartTrapped 1 va

/-- Fetch and decode at the control hart's pc: two bytes, and two more unless they are a compressed instruction (R90). -/
def State.hartFetch (s : State) : Fetched :=
  let h := s.hart
  s.fetchWalk hartAgent 0 h.pc 2 fun s =>
  match s.fetchPhase (h.mode = .m) h.pc 2 with
  | .ok es pages =>
    (s.fillTlb s.curCore pages).fetchBytes hartAgent 0 es fun s lo =>
    if lo % 4 = 3 then
      s.fetchWalk hartAgent 1 (h.pc + 2) 2 fun s =>
      match s.fetchPhase (h.mode = .m) (h.pc + 2) 2 with
      | .ok es2 pages2 =>
        (s.fillTlb s.curCore pages2).fetchBytes hartAgent 1 es2 fun s hi =>
          .instr (decodeHart (BitVec.ofNat 32 (lo + 65536 * hi))) s
      | ph => .stop (s.hartFetchTrap (h.pc + 2) ph)
    else .instr (decodeHart (BitVec.ofNat 32 lo)) s
  | ph => .stop (s.hartFetchTrap h.pc ph)

/-- The agent that an empty agenda leaves free (log 4). -/
def freeTurnOf (n : Nat) : Turn :=
  if n % 32 < Config.strands then .strand (n / 32 % Config.cores) (n % 32) else .hart (n / 32 % Config.cores)

/-- Who moves next, and the state of that step (log 4). -/
def State.nextTurn (s : State) : Turn × State :=
  match s.agenda with
  | t :: rest => (t, { s with agenda := rest, tick := s.tick + 1, attr := none, cut := none })
  | [] => (freeTurnOf (Config.freeTurn s.tick), { s with tick := s.tick + 1, attr := none, cut := none })

/-- A shoot-down has stopped an instruction of agent k of a core, and is not acknowledged: the instruction starts again after that
(R196). -/
def Core.shotStops (c : Core) (k : Nat) : Bool := c.shoots.head?.any fun h => h.stopped.contains k

/-- A strand of the core executes instructions: its core holds a job, whose earlier run waits for nothing, the strand is in BLOCK or
SELF, and no shoot-down holds it (R196, R298). -/
def State.strandRuns (s : State) (p k : Nat) : Bool :=
  (s.core p).place.isSome && !(s.core p).resuming && !(s.core p).shotStops k && ((s.core p).strand k).runs

/-- The control hart of the core executes instructions: its core holds a job, whose earlier run waits for nothing, it has not
executed EXIT and is not halted, and no shoot-down holds it (R196, R298). -/
def State.hartRuns (s : State) (p : Nat) : Bool :=
  (s.core p).place.isSome && !(s.core p).resuming && !(s.core p).shotStops hartAgent && (s.core p).exit.isNone && !(s.core p).halted

end Sys2Proof.Machine
end

