-- ==== Sys2Proof/Machine/Scalar.lean ====
section
/-! DEFINITION. Strand scalar instructions: register-register, bit fields, immediates, branches and jumps, loads and
stores (R112 to R121). -/

namespace Sys2Proof.Machine

/-- A scalar instruction that writes x[d] and nothing else (R112). -/
def State.scalar (s : State) (d : Reg) (w : Word) : Res :=
  s.scalarGate 0 fun s => s.complete (s.me.setX d w)

/-- 1 or 0. -/
def boolWord (b : Bool) : Word := if b then 1 else 0

/-- The number of zero bits above the highest set bit; 64 for 0 (R113). -/
def clzWord (a : Word) : Nat := if a = 0 then 64 else 63 - Nat.log2 a.toNat

/-- The number of zero bits below the lowest set bit; 64 for 0 (R113). -/
def ctzWord (a : Word) : Nat := ((List.range 64).find? (fun i => a.getLsbD i)).getD 64

/-- The number of set bits among the low n bits of a number. -/
def popCount (n x : Nat) : Nat := (List.range n).countP fun i => x.testBit i

/-- POS of a bit-field control word (R114). -/
def fieldPos (b : Word) : Nat := b.toNat % 64

/-- LEN of a bit-field control word (R114). -/
def fieldLen (b : Word) : Nat := Nat.min (b.toNat / 256 % 128) 64

/-- Zero-extended bit field (R114). -/
def bfxWord (a b : Word) : Word := BitVec.ofNat 64 (a.toNat / 2 ^ fieldPos b % 2 ^ fieldLen b)

/-- Bit-field insert into `old` (R114). -/
def bfiWord (old a b : Word) : Word :=
  let m := BitVec.ofNat 64 ((2 ^ fieldLen b - 1) * 2 ^ fieldPos b)
  (old &&& ~~~ m) ||| ((a <<< fieldPos b) &&& m)

/-- `add`: wrap(64, A + B) (R113). -/
def execAdd (d a b : Reg) (s : State) : Res := s.scalar d ((s.me.getX a) + (s.me.getX b))

/-- `sub`: A − B (R113). -/
def execSub (d a b : Reg) (s : State) : Res := s.scalar d ((s.me.getX a) - (s.me.getX b))

/-- `and`: A AND B (R113). -/
def execAnd (d a b : Reg) (s : State) : Res := s.scalar d ((s.me.getX a) &&& (s.me.getX b))

/-- `or`: A OR B (R113). -/
def execOr (d a b : Reg) (s : State) : Res := s.scalar d ((s.me.getX a) ||| (s.me.getX b))

/-- `xor`: A XOR B (R113). -/
def execXor (d a b : Reg) (s : State) : Res := s.scalar d ((s.me.getX a) ^^^ (s.me.getX b))

/-- `andn`: A AND NOT B (R113). -/
def execAndn (d a b : Reg) (s : State) : Res := s.scalar d ((s.me.getX a) &&& ~~~ (s.me.getX b))

/-- `sll`: A × 2^(uB mod 64) (R113). -/
def execSll (d a b : Reg) (s : State) : Res := s.scalar d ((s.me.getX a) <<< ((s.me.getX b).toNat % 64))

/-- `srl`: ⌊uA / 2^(uB mod 64)⌋ (R113). -/
def execSrl (d a b : Reg) (s : State) : Res := s.scalar d ((s.me.getX a) >>> ((s.me.getX b).toNat % 64))

/-- `sra`: ⌊sA / 2^(uB mod 64)⌋ (R113). -/
def execSra (d a b : Reg) (s : State) : Res := s.scalar d ((s.me.getX a).sshiftRight ((s.me.getX b).toNat % 64))

/-- `slt`: sA < sB (R113). -/
def execSlt (d a b : Reg) (s : State) : Res := s.scalar d (boolWord ((s.me.getX a).slt (s.me.getX b)))

/-- `sltu`: uA < uB (R113). -/
def execSltu (d a b : Reg) (s : State) : Res := s.scalar d (boolWord ((s.me.getX a).ult (s.me.getX b)))

/-- `min`: lesser of sA and sB (R113). -/
def execMin (d a b : Reg) (s : State) : Res := s.scalar d (if (s.me.getX a).slt (s.me.getX b) then (s.me.getX a) else (s.me.getX b))

/-- `max`: greater of sA and sB (R113). -/
def execMax (d a b : Reg) (s : State) : Res := s.scalar d (if (s.me.getX a).slt (s.me.getX b) then (s.me.getX b) else (s.me.getX a))

/-- `minu`: lesser of uA and uB (R113). -/
def execMinu (d a b : Reg) (s : State) : Res := s.scalar d (if (s.me.getX a).ult (s.me.getX b) then (s.me.getX a) else (s.me.getX b))

/-- `maxu`: greater of uA and uB (R113). -/
def execMaxu (d a b : Reg) (s : State) : Res := s.scalar d (if (s.me.getX a).ult (s.me.getX b) then (s.me.getX b) else (s.me.getX a))

/-- `clz`: leading zeros (R113). -/
def execClz (d a : Reg) (s : State) : Res := s.scalar d (BitVec.ofNat 64 (clzWord (s.me.getX a)))

/-- `ctz`: trailing zeros (R113). -/
def execCtz (d a : Reg) (s : State) : Res := s.scalar d (BitVec.ofNat 64 (ctzWord (s.me.getX a)))

/-- `popc`: set bits (R113). -/
def execPopc (d a : Reg) (s : State) : Res := s.scalar d (BitVec.ofNat 64 (popCount 64 (s.me.getX a).toNat))

/-- `mul`: the low 64 bits of A × B (R115). -/
def execMul (d a b : Reg) (s : State) : Res := s.scalar d (s.me.getX a * s.me.getX b)

/-- `bfx` (R114). -/
def execBfx (d a b : Reg) (s : State) : Res := s.scalar d (bfxWord (s.me.getX a) (s.me.getX b))

/-- `bfi`: x[d] is a third source (R114). -/
def execBfi (d a b : Reg) (s : State) : Res := s.scalar d (bfiWord (s.me.getX d) (s.me.getX a) (s.me.getX b))

/-- `fsh`: the pair A above B shifted right; shift 0 gives B (R114). -/
def execFsh (d a b : Reg) (h : BitVec 6) (s : State) : Res :=
  s.scalar d (((s.me.getX a ++ s.me.getX b) >>> h.toNat).setWidth 64)

/-- `slli` (R113). -/
def execSlli (d a : Reg) (h : BitVec 6) (s : State) : Res := s.scalar d (s.me.getX a <<< h.toNat)

/-- `srli` (R113). -/
def execSrli (d a : Reg) (h : BitVec 6) (s : State) : Res := s.scalar d (s.me.getX a >>> h.toNat)

/-- `srai` (R113). -/
def execSrai (d a : Reg) (h : BitVec 6) (s : State) : Res := s.scalar d ((s.me.getX a).sshiftRight h.toNat)

/-- `addi`: `add` with the sign-extended immediate in place of B (R116). -/
def execAddi (d a : Reg) (i : BitVec 16) (s : State) : Res :=
  s.scalar d ((s.me.getX a) + (i.signExtend 64))

/-- `andi`: `and` with the sign-extended immediate in place of B (R116). -/
def execAndi (d a : Reg) (i : BitVec 16) (s : State) : Res :=
  s.scalar d ((s.me.getX a) &&& (i.signExtend 64))

/-- `ori`: `or` with the sign-extended immediate in place of B (R116). -/
def execOri (d a : Reg) (i : BitVec 16) (s : State) : Res :=
  s.scalar d ((s.me.getX a) ||| (i.signExtend 64))

/-- `xori`: `xor` with the sign-extended immediate in place of B (R116). -/
def execXori (d a : Reg) (i : BitVec 16) (s : State) : Res :=
  s.scalar d ((s.me.getX a) ^^^ (i.signExtend 64))

/-- `slti`: `slt` with the sign-extended immediate in place of B (R116). -/
def execSlti (d a : Reg) (i : BitVec 16) (s : State) : Res :=
  s.scalar d (boolWord ((s.me.getX a).slt (i.signExtend 64)))

/-- `sltiu`: `sltu` with the sign-extended immediate in place of B (R116). -/
def execSltiu (d a : Reg) (i : BitVec 16) (s : State) : Res :=
  s.scalar d (boolWord ((s.me.getX a).ult (i.signExtend 64)))

/-- `lui`: J20 × 4,096 (R117). -/
def execLui (d : Reg) (i : BitVec 20) (s : State) : Res := s.scalar d (i.signExtend 64 <<< 12)

/-- `lpc`: the address of the `lpc` + J20 × 4 (R117). -/
def execLpc (d : Reg) (o : BitVec 20) (s : State) : Res := s.scalar d (s.me.pc + (o.signExtend 64 <<< 2))

/-- A branch: taken, it jumps by its word offset under R97 (R118). -/
def State.branch (s : State) (i : Instr) (taken : Bool) (o : BitVec 16) : Res :=
  s.scalarGate 0 fun s =>
    if taken then s.jump (encodeWord i) s.me (s.me.pc + (o.signExtend 64 <<< 2)) else s.complete s.me

/-- `beq` (R118). -/
def execBeq (a b : Reg) (o : BitVec 16) (s : State) : Res :=
  s.branch (.beq a b o) ((s.me.getX a) == (s.me.getX b)) o

/-- `bne` (R118). -/
def execBne (a b : Reg) (o : BitVec 16) (s : State) : Res :=
  s.branch (.bne a b o) ((s.me.getX a) != (s.me.getX b)) o

/-- `blt` (R118). -/
def execBlt (a b : Reg) (o : BitVec 16) (s : State) : Res :=
  s.branch (.blt a b o) ((s.me.getX a).slt (s.me.getX b)) o

/-- `bge` (R118). -/
def execBge (a b : Reg) (o : BitVec 16) (s : State) : Res :=
  s.branch (.bge a b o) (!(s.me.getX a).slt (s.me.getX b)) o

/-- `bltu` (R118). -/
def execBltu (a b : Reg) (o : BitVec 16) (s : State) : Res :=
  s.branch (.bltu a b o) ((s.me.getX a).ult (s.me.getX b)) o

/-- `bgeu` (R118). -/
def execBgeu (a b : Reg) (o : BitVec 16) (s : State) : Res :=
  s.branch (.bgeu a b o) (!(s.me.getX a).ult (s.me.getX b)) o

/-- `jal`: x[d] := address + 4, next word at address + 4 × offset (R97, R118). -/
def execJal (d : Reg) (o : BitVec 21) (s : State) : Res :=
  s.scalarGate 0 fun s =>
    s.jump (encodeWord (.jal d o)) (s.me.setX d (s.me.pc + 4)) (s.me.pc + (o.signExtend 64 <<< 2))

/-- `jalr`: the target A + B, tested for alignment before the bounds of a block; sources are read before x[d] is written
(R97, R118). -/
def execJalr (d a b : Reg) (s : State) : Res :=
  s.scalarGate 0 fun s =>
    let t := s.me.getX a + s.me.getX b
    if t.toNat % 4 ≠ 0 then s.trapped { cause := .misalign, info := t.toNat }
    else s.jump (encodeWord (.jalr d a b)) (s.me.setX d (s.me.pc + 4)) t

/-- A scalar load of n bytes from A + B (R119 to R121). A load to `x0` still performs. -/
def State.scalarLoad (s : State) (i : Instr) (n : Nat) (signed : Bool) (d a b : Reg) (sc : Scope) (ordered : Bool) : Res :=
  s.scalarGate 0 fun s =>
    let o : Order := { scope := sc, acq := ordered, rel := false }
    let e : Elem := { idx := 0, addr := (s.me.getX a + s.me.getX b).toNat, len := n }
    s.access i .load o n [e] fun s es =>
      let ps := es.flatMap Prod.snd
      let v := leNat (s.strandLoad ps)
      let w : Word := if signed then BitVec.ofInt 64 (toSigned (8 * n) v) else BitVec.ofNat 64 v
      let s := s.epochAcq o ps
      s.complete (s.me.setX d w)

/-- A scalar store of the low n bytes of x[d] at A + B (R119 to R121). -/
def State.scalarStore (s : State) (i : Instr) (n : Nat) (d a b : Reg) (sc : Scope) (ordered : Bool) : Res :=
  s.scalarGate 0 fun s =>
    let o : Order := { scope := sc, acq := false, rel := ordered }
    let e : Elem := { idx := 0, addr := (s.me.getX a + s.me.getX b).toNat, len := n }
    s.access i .store o n [e] fun s es =>
      let s := s.strandStore o (es.flatMap Prod.snd) (leBytes n (s.me.getX d).toNat)
      .next (s.epochRel o).retire

/-- `lb` (R119). -/
def execLb (d a b : Reg) (sc : Scope) (ordered : Bool) (s : State) : Res :=
  s.scalarLoad (.lb d a b sc ordered) 1 true d a b sc ordered

/-- `lh` (R119). -/
def execLh (d a b : Reg) (sc : Scope) (ordered : Bool) (s : State) : Res :=
  s.scalarLoad (.lh d a b sc ordered) 2 true d a b sc ordered

/-- `lw` (R119). -/
def execLw (d a b : Reg) (sc : Scope) (ordered : Bool) (s : State) : Res :=
  s.scalarLoad (.lw d a b sc ordered) 4 true d a b sc ordered

/-- `ld` (R119). -/
def execLd (d a b : Reg) (sc : Scope) (ordered : Bool) (s : State) : Res :=
  s.scalarLoad (.ld d a b sc ordered) 8 true d a b sc ordered

/-- `lbu` (R119). -/
def execLbu (d a b : Reg) (sc : Scope) (ordered : Bool) (s : State) : Res :=
  s.scalarLoad (.lbu d a b sc ordered) 1 false d a b sc ordered

/-- `lhu` (R119). -/
def execLhu (d a b : Reg) (sc : Scope) (ordered : Bool) (s : State) : Res :=
  s.scalarLoad (.lhu d a b sc ordered) 2 false d a b sc ordered

/-- `lwu` (R119). -/
def execLwu (d a b : Reg) (sc : Scope) (ordered : Bool) (s : State) : Res :=
  s.scalarLoad (.lwu d a b sc ordered) 4 false d a b sc ordered

/-- `sb` (R119). -/
def execSb (d a b : Reg) (sc : Scope) (ordered : Bool) (s : State) : Res :=
  s.scalarStore (.sb d a b sc ordered) 1 d a b sc ordered

/-- `sh` (R119). -/
def execSh (d a b : Reg) (sc : Scope) (ordered : Bool) (s : State) : Res :=
  s.scalarStore (.sh d a b sc ordered) 2 d a b sc ordered

/-- `sw` (R119). -/
def execSw (d a b : Reg) (sc : Scope) (ordered : Bool) (s : State) : Res :=
  s.scalarStore (.sw d a b sc ordered) 4 d a b sc ordered

/-- `sd` (R119). -/
def execSd (d a b : Reg) (sc : Scope) (ordered : Bool) (s : State) : Res :=
  s.scalarStore (.sd d a b sc ordered) 8 d a b sc ordered

end Sys2Proof.Machine
end

