-- ==== Sys2Proof/Machine/VectorConfig.lean ====
section
/-! DEFINITION. Vector configuration, strips, comparison, mask logic, mask scans and `mfromidx` (R153 to R159). -/

namespace Sys2Proof.Machine

/-- Group multiplier of a G field: 1, 2, 4 or 8 (R153). -/
def groupOf (g : BitVec 2) : Nat := 2 ^ g.toNat

/-- Complete an instruction of these chapters with a new value of the strand: `vstart` is 0 after it (R152; log 24). -/
def State.completeZero (s : State) (st : Strand) : Res := s.complete { st with vstart := 0 }

/-- Set the tags of a run of registers. -/
def Strand.tagRun (st : Strand) (first t : Nat) : Nat → Strand
  | 0 => st
  | n + 1 => (st.setTag first t).tagRun (first + 1) t n

/-- `vcfg`: `vgrp` and the tag of every register; the word names a format (R57, R153). -/
def execVcfg (g : BitVec 2) (t : BitVec 7) (s : State) : Res :=
  s.orTrap (s.classTrap (1 :: tagClasses t.toNat)) fun s =>
    s.completeZero ({ s.me with vgrp := groupOf g }.tagRun 0 t.toNat 32)

/-- `vgrp` (R153). -/
def execVgrp (g : BitVec 2) (s : State) : Res :=
  s.orTrap (s.classTrap [1]) fun s => s.completeZero { s.me with vgrp := groupOf g }

/-- `vtag`: the tag of every register of group d; no data changes (R153). -/
def execVtag (d : Reg) (t : BitVec 7) (s : State) : Res :=
  if groupsIllegal [s.grp d] [] then s.trapped { cause := .illegal, info := encodeWord (.vtag d t) }
  else s.orTrap (s.classTrap (1 :: tagClasses t.toNat)) fun s =>
    s.orTrap (s.me.absentTrap [s.grp d] false) fun s =>
      s.completeZero (s.me.tagRun d.toNat t.toNat s.me.vgrp)

/-- The strip instructions: the count, at least 0 and at most VL for the width, goes to `sbound` and x[d]; the interval
closes (R154, R155). -/
def State.strip (s : State) (d : Reg) (w : BitVec 3) (cnt : Int) : Res :=
  s.orTrap (s.classTrap [1]) fun s =>
    let st := s.me
    let n := Nat.min (st.vl (2 ^ w.toNat)) cnt.toNat
    s.completeZero ({ st with sbound := BitVec.ofNat 32 n, interval := st.interval + 1 }.setX d (BitVec.ofNat 64 n))

/-- `strip.lt` (R154). -/
def execStripLt (d a b : Reg) (w : BitVec 3) (s : State) : Res :=
  s.strip d w ((s.me.getX b).toInt - (s.me.getX a).toInt)

/-- `strip.le` (R154). -/
def execStripLe (d a b : Reg) (w : BitVec 3) (s : State) : Res :=
  s.strip d w ((s.me.getX b).toInt - (s.me.getX a).toInt + 1)

/-- `strip.ltu` (R154). -/
def execStripLtu (d a b : Reg) (w : BitVec 3) (s : State) : Res :=
  s.strip d w ((s.me.getX b).toNat - (s.me.getX a).toNat : Int)

/-- `strip.leu` (R154). -/
def execStripLeu (d a b : Reg) (w : BitVec 3) (s : State) : Res :=
  s.strip d w ((s.me.getX b).toNat - (s.me.getX a).toNat + 1 : Int)

/-- `strip.n` (R154). -/
def execStripN (d a : Reg) (w : BitVec 3) (s : State) : Res := s.strip d w (s.me.getX a).toNat

/-- A mask whose bits below the bound, where `act` holds, are those of `f`; every other bit is 0. -/
def maskOf (bound : Nat) (act f : Nat → Bool) : MReg :=
  BitVec.ofNat 2048 (mergeElems 1 Config.mlen (Nat.min bound Config.mlen) 0 act fun i => if f i then 1 else 0)

/-- Tags that a comparison accepts: integers and floats, and bits for eq and ne (R156). -/
def compares (eqOnly : Bool) (k : Kind) : Bool :=
  match k with
  | .int _ _ => true
  | .flt _ => true
  | .bit => eqOnly
  | _ => false

/-- Order of two elements under a tag: none when one is a NaN; and the conditions, where `quiet` says that a quiet NaN
raises nothing (R156). -/
def compareElems (k : Kind) (quiet : Bool) (x y : Nat) : Option Int × Flags :=
  match k with
  | .flt f =>
    let a := f.decode x
    let b := f.decode y
    if a.isNaN || b.isNaN then (none, if !quiet || a.isSNaN || b.isSNaN then fNV else 0)
    else (some (a.compare b), 0)
  | .int true w => (some (toSigned w x - toSigned w y), 0)
  | _ => (some ((x : Int) - y), 0)

/-- `vcmp`: bits of m[d] for the active elements under the operation tag, 0 elsewhere (R156). Sources of mixed tags are
converted under `.rne` (R146; log 25). -/
def State.vcmp (s : State) (i : Instr) (eqOnly : Bool) (d a b m : Reg) (holds : Option Int → Bool) : Res :=
  s.orTrap (s.gate i 1 [] [s.grp a, s.grp b] [s.grp a, s.grp b] true) fun s =>
  let st := s.me
  let ta := st.tag a.toNat
  let tb := st.tag b.toNat
  let op := opTag [ta, tb]
  s.orTrap (s.tagTrap i op (compares eqOnly) [ta, tb]) fun s =>
  let t := op.getD 0
  let k := s.myCore.kind t
  let g := st.governs m
  let bound := Nat.min (st.bound (st.vl k.width) g) Config.mlen
  let va := s.source a
  let vb := s.source b
  let ea (i : Nat) : Out := va.elem (ta = t) k .rne 0 i
  let eb (i : Nat) : Out := vb.elem (tb = t) k .rne 0 i
  let cmp (i : Nat) : Option Int × Flags := compareElems k eqOnly (ea i).bits (eb i).bits
  .next (s.finishVector (st.setM d.toNat (maskOf bound g.lets fun i => holds (cmp i).1))
    (flagElems Config.mlen bound g.lets fun i => (ea i).fl ||| (eb i).fl ||| (cmp i).2))

/-- `vcmp.eq` (R156). -/
def execVcmpEq (d a b m : Reg) (chainA chainB : Bool) (s : State) : Res :=
  s.vcmp (.vcmpEq d a b m chainA chainB) true d a b m fun c => c == some 0

/-- `vcmp.ne`: true for a NaN (R156). -/
def execVcmpNe (d a b m : Reg) (chainA chainB : Bool) (s : State) : Res :=
  s.vcmp (.vcmpNe d a b m chainA chainB) true d a b m fun c => c != some 0

/-- `vcmp.lt` (R156). -/
def execVcmpLt (d a b m : Reg) (chainA chainB : Bool) (s : State) : Res :=
  s.vcmp (.vcmpLt d a b m chainA chainB) false d a b m fun c => c.any (· < 0)

/-- `vcmp.le` (R156). -/
def execVcmpLe (d a b m : Reg) (chainA chainB : Bool) (s : State) : Res :=
  s.vcmp (.vcmpLe d a b m chainA chainB) false d a b m fun c => c.any (· ≤ 0)

/-- `vcmp.gt` (R156). -/
def execVcmpGt (d a b m : Reg) (chainA chainB : Bool) (s : State) : Res :=
  s.vcmp (.vcmpGt d a b m chainA chainB) false d a b m fun c => c.any (0 < ·)

/-- `vcmp.ge` (R156). -/
def execVcmpGe (d a b m : Reg) (chainA chainB : Bool) (s : State) : Res :=
  s.vcmp (.vcmpGe d a b m chainA chainB) false d a b m fun c => c.any (0 ≤ ·)

/-- A mask-logic instruction: its class and the first use of a mask register, then m[d] (R157, R322). -/
def State.maskLogic (s : State) (d : Reg) (w : MReg) : Res :=
  s.orTrap (s.classTrap [1]) fun s =>
    s.orTrap (s.me.absentTrap [] true) fun s => s.completeZero (s.me.setM d.toNat w)

/-- A mask source. -/
def State.mask (s : State) (r : Reg) : MReg := s.me.getM r.toNat

/-- `mand` (R157). -/
def execMand (d a b : Reg) (s : State) : Res := s.maskLogic d (s.mask a &&& s.mask b)

/-- `mor` (R157). -/
def execMor (d a b : Reg) (s : State) : Res := s.maskLogic d (s.mask a ||| s.mask b)

/-- `mxor` (R157). -/
def execMxor (d a b : Reg) (s : State) : Res := s.maskLogic d (s.mask a ^^^ s.mask b)

/-- `mandn` (R157). -/
def execMandn (d a b : Reg) (s : State) : Res := s.maskLogic d (s.mask a &&& ~~~ (s.mask b))

/-- `mnot` (R157). -/
def execMnot (d a : Reg) (s : State) : Res := s.maskLogic d (~~~ (s.mask a))

/-- `mmov` (R157). -/
def execMmov (d a : Reg) (s : State) : Res := s.maskLogic d (s.mask a)

/-- `mset` (R157). -/
def execMset (d : Reg) (s : State) : Res := s.maskLogic d (~~~ 0)

/-- `mclr` (R157). -/
def execMclr (d : Reg) (s : State) : Res := s.maskLogic d 0

/-- A shift amount, MLEN or more counting as MLEN. -/
def maskShift (w : Word) : Nat := Nat.min w.toNat Config.mlen

/-- `mshl`: towards higher indices (R157). -/
def execMshl (d a b : Reg) (s : State) : Res := s.maskLogic d (s.mask a <<< maskShift (s.me.getX b))

/-- `mshr`: towards lower indices (R157). -/
def execMshr (d a b : Reg) (s : State) : Res := s.maskLogic d (s.mask a >>> maskShift (s.me.getX b))

/-- `mbrk`: the bits below the lowest set bit, all when there is none (R157). -/
def execMbrk (d a : Reg) (s : State) : Res := s.maskLogic d ((s.mask a - 1) &&& ~~~ (s.mask a))

/-- A mask scan over the bits below min(`sbound`, MLEN) (R158). -/
def State.maskScan (s : State) (d a : Reg) (f : Nat → Word) : Res :=
  s.orTrap (s.classTrap [1]) fun s =>
    s.orTrap (s.me.absentTrap [] true) fun s =>
      let bits := (s.mask a).toNat % 2 ^ Nat.min s.me.sbound.toNat Config.mlen
      s.completeZero (s.me.setX d (f bits))

/-- `mcnt` (R158). -/
def execMcnt (d a : Reg) (s : State) : Res :=
  s.maskScan d a fun bits => BitVec.ofNat 64 (popCount Config.mlen bits)

/-- The lowest set bit of a number, searched from `i` for n places. -/
def lowestFrom (bits : Nat) : Nat → Nat → Option Nat
  | 0, _ => none
  | n + 1, i => if bits.testBit i then some i else lowestFrom bits n (i + 1)

/-- `mfirst` (R158). -/
def execMfirst (d a : Reg) (s : State) : Res :=
  s.maskScan d a fun bits =>
    if bits = 0 then ~~~ 0 else BitVec.ofNat 64 ((lowestFrom bits Config.mlen 0).getD 0)

/-- `mlast` (R158). -/
def execMlast (d a : Reg) (s : State) : Res :=
  s.maskScan d a fun bits => if bits = 0 then ~~~ 0 else BitVec.ofNat 64 (Nat.log2 bits)

/-- `mfromidx`: the set of indices that the active elements of a hold (R159). -/
def execMfromidx (d a m : Reg) (chainA : Bool) (s : State) : Res :=
  s.orTrap (s.gate (.mfromidx d a m chainA) 1 [] [s.grp a] [s.grp a] true) fun s =>
  let st := s.me
  let t := st.tag a.toNat
  s.orTrap (s.tagTrap (.mfromidx d a m chainA) (some t) Kind.isInt [t]) fun s =>
  let k := s.myCore.kind t
  let g := st.governs m
  let v := s.source a
  let bits := (activeList (st.bound (st.vl k.width) g) g.lets).foldl (fun (acc : Nat) i =>
    let x := elemOf k.width v.bits i
    let j : Int := if k.signed then toSigned k.width x else x
    if 0 ≤ j && j < Config.mlen then acc ||| 2 ^ j.toNat else acc) 0
  .next (s.finishVector (st.setM d.toNat (BitVec.ofNat 2048 bits)) 0)

end Sys2Proof.Machine
end

