-- ==== Sys2Proof/Machine/VectorInteger.lean ====
section
/-! DEFINITION. Vector integer, logic and bit-field instructions, moves and reductions (R161 to R170). -/

namespace Sys2Proof.Machine

/-- sat(x) under the operation tag (R164). -/
def Elems.sat (e : Elems) (x : Int) : Nat :=
  let lo : Int := if e.signed then -(2 ^ (e.w - 1)) else 0
  let hi : Int := if e.signed then 2 ^ (e.w - 1) - 1 else 2 ^ e.w - 1
  wrapTo e.w (if x < lo then lo else if hi < x then hi else x)

/-- Shift amount: uelem(b, i) mod W (R167). -/
def Elems.shift (e : Elems) : Nat := e.b % e.w

/-- POS and LEN of the control element b (R168). -/
def Elems.pos (e : Elems) : Nat := e.b % e.w
/-- LEN of R168. -/
def Elems.len (e : Elems) : Nat := Nat.min (e.b / e.w % (2 * e.w)) e.w

/-- round_int of x × 2^e (R166). -/
def roundedInt (rm : Rounding) (x e : Int) : Int := (integralRound rm 0 (x < 0) x.natAbs e).1

/-- The frame of `mapVector` for the instructions that read d as their third source (R163). -/
def State.mapVector3 (s : State) (i : Instr) (d a b m : Reg) (f : Elems → Nat) : Res :=
  s.orTrap (s.gate i 2 [s.grp d] [s.grp a, s.grp b, s.grp d] [s.grp d, s.grp a, s.grp b] (m ≠ 31)) fun s =>
  let st := s.me
  let ta := st.tag a.toNat
  let tb := st.tag b.toNat
  let td := st.tag d.toNat
  let op := opTag [ta, tb, td]
  s.orTrap (s.tagTrap i op Kind.isInt [ta, tb, td]) fun s =>
  let t := op.getD 0
  let k := s.myCore.kind t
  let g := st.governs m
  let vl := st.vl k.width
  let bound := st.bound vl g
  let va := s.source a
  let vb := s.source b
  let vd := s.source d
  let out := mergeElems k.width vl bound vd.bits g.lets fun i =>
    f ⟨k.signed, k.width, (va.elem (ta = t) k .rne 0 i).bits, (vb.elem (tb = t) k .rne 0 i).bits,
      (vd.elem (td = t) k .rne 0 i).bits⟩
  .next (s.finishVector (st.setGroup d.toNat st.vgrp out t (touches k.width bound g.lets)) 0)

/-- `vadd` (R164). -/
def execVadd (d a b m : Reg) (chainA chainB : Bool) (s : State) : Res :=
  s.mapVector (.vadd d a b m chainA chainB) Kind.isInt d a b m fun e => wrapTo e.w (e.sa + e.sb)

/-- `vsub` (R164). -/
def execVsub (d a b m : Reg) (chainA chainB : Bool) (s : State) : Res :=
  s.mapVector (.vsub d a b m chainA chainB) Kind.isInt d a b m fun e => wrapTo e.w (e.sa - e.sb)

/-- `vmin` (R164). -/
def execVmin (d a b m : Reg) (chainA chainB : Bool) (s : State) : Res :=
  s.mapVector (.vmin d a b m chainA chainB) Kind.isInt d a b m fun e => if toSigned e.w e.a ≤ toSigned e.w e.b then e.a else e.b

/-- `vmax` (R164). -/
def execVmax (d a b m : Reg) (chainA chainB : Bool) (s : State) : Res :=
  s.mapVector (.vmax d a b m chainA chainB) Kind.isInt d a b m fun e => if toSigned e.w e.a ≤ toSigned e.w e.b then e.b else e.a

/-- `vminu` (R164). -/
def execVminu (d a b m : Reg) (chainA chainB : Bool) (s : State) : Res :=
  s.mapVector (.vminu d a b m chainA chainB) Kind.isInt d a b m fun e => Nat.min e.a e.b

/-- `vmaxu` (R164). -/
def execVmaxu (d a b m : Reg) (chainA chainB : Bool) (s : State) : Res :=
  s.mapVector (.vmaxu d a b m chainA chainB) Kind.isInt d a b m fun e => Nat.max e.a e.b

/-- `vsadd` (R164). -/
def execVsadd (d a b m : Reg) (chainA chainB : Bool) (s : State) : Res :=
  s.mapVector (.vsadd d a b m chainA chainB) Kind.isInt d a b m fun e => e.sat (e.sa + e.sb)

/-- `vssub` (R164). -/
def execVssub (d a b m : Reg) (chainA chainB : Bool) (s : State) : Res :=
  s.mapVector (.vssub d a b m chainA chainB) Kind.isInt d a b m fun e => e.sat (e.sa - e.sb)

/-- The carry instructions: k is the carry register, read whole and then written (R165). -/
def State.carry (s : State) (i : Instr) (d a b k : Reg) (f : Nat → Nat → Nat → Int) (out : Nat → Int → Bool) : Res :=
  s.orTrap (s.gate i 2 [s.grp d] [s.grp a, s.grp b] [s.grp d, s.grp a, s.grp b] true) fun s =>
  let st := s.me
  let ta := st.tag a.toNat
  let tb := st.tag b.toNat
  let op := opTag [ta, tb]
  s.orTrap (s.tagTrap i op Kind.isInt [ta, tb]) fun s =>
  let t := op.getD 0
  let w := (s.myCore.kind t).width
  let vl := st.vl w
  let n := Nat.min (Nat.min vl st.sbound.toNat) Config.mlen
  let va := s.source a
  let vb := s.source b
  let cin := s.mask k
  let sum (i : Nat) : Int :=
    f (va.elem (ta = t) (s.myCore.kind t) .rne 0 i).bits (vb.elem (tb = t) (s.myCore.kind t) .rne 0 i).bits
      (if cin.getLsbD i then 1 else 0)
  let data := mergeElems w vl n (st.group d.toNat st.vgrp) (fun _ => true) fun i => wrapTo w (sum i)
  .next (s.finishVector
    ((st.setGroup d.toNat st.vgrp data t (touches w n fun _ => true)).setM k.toNat
      (maskOf n (fun _ => true) fun i => out w (sum i))) 0)

/-- `vadc` (R165). -/
def execVadc (d a b k : Reg) (chainA chainB : Bool) (s : State) : Res :=
  s.carry (.vadc d a b k chainA chainB) d a b k (fun x y c => x + y + c) fun w x => decide ((2 ^ w : Nat) ≤ x)

/-- `vsbc` (R165). -/
def execVsbc (d a b k : Reg) (chainA chainB : Bool) (s : State) : Res :=
  s.carry (.vsbc d a b k chainA chainB) d a b k (fun x y c => (x : Int) - y - c) fun _ x => decide (x < 0)

/-- `vabs` (R164). -/
def execVabs (d a m : Reg) (chainA : Bool) (s : State) : Res :=
  s.mapVector1 (.vabs d a m chainA) Kind.isInt d a m fun e => wrapTo e.w e.sa.natAbs

/-- `vneg` (R164). -/
def execVneg (d a m : Reg) (chainA : Bool) (s : State) : Res :=
  s.mapVector1 (.vneg d a m chainA) Kind.isInt d a m fun e => wrapTo e.w (-e.sa)

/-- `vand` (R167). -/
def execVand (d a b m : Reg) (chainA chainB : Bool) (s : State) : Res :=
  s.mapVector (.vand d a b m chainA chainB) Kind.isLogic d a b m fun e => e.a &&& e.b

/-- `vor` (R167). -/
def execVor (d a b m : Reg) (chainA chainB : Bool) (s : State) : Res :=
  s.mapVector (.vor d a b m chainA chainB) Kind.isLogic d a b m fun e => e.a ||| e.b

/-- `vxor` (R167). -/
def execVxor (d a b m : Reg) (chainA chainB : Bool) (s : State) : Res :=
  s.mapVector (.vxor d a b m chainA chainB) Kind.isLogic d a b m fun e => e.a ^^^ e.b

/-- `vandn` (R167). -/
def execVandn (d a b m : Reg) (chainA chainB : Bool) (s : State) : Res :=
  s.mapVector (.vandn d a b m chainA chainB) Kind.isLogic d a b m fun e => e.a &&& (2 ^ e.w - 1 - e.b)

/-- `vnot` (R167). -/
def execVnot (d a m : Reg) (chainA : Bool) (s : State) : Res :=
  s.mapVector1 (.vnot d a m chainA) Kind.isLogic d a m fun e => 2 ^ e.w - 1 - e.a

/-- `vshl` (R167). -/
def execVshl (d a b m : Reg) (chainA chainB : Bool) (s : State) : Res :=
  s.mapVector (.vshl d a b m chainA chainB) Kind.isInt d a b m fun e => e.a <<< e.shift

/-- `vshr` (R167). -/
def execVshr (d a b m : Reg) (chainA chainB : Bool) (s : State) : Res :=
  s.mapVector (.vshr d a b m chainA chainB) Kind.isInt d a b m fun e => e.a >>> e.shift

/-- `vsra` (R167). -/
def execVsra (d a b m : Reg) (chainA chainB : Bool) (s : State) : Res :=
  s.mapVector (.vsra d a b m chainA chainB) Kind.isInt d a b m fun e => wrapTo e.w (toSigned e.w e.a / (2 ^ e.shift : Nat))

/-- `vrot` (R167). -/
def execVrot (d a b m : Reg) (chainA chainB : Bool) (s : State) : Res :=
  s.mapVector (.vrot d a b m chainA chainB) Kind.isInt d a b m fun e => (e.a <<< e.shift) ||| (e.a >>> (e.w - e.shift))

/-- `vfsh` (R167). -/
def execVfsh (d a b m : Reg) (chainA chainB : Bool) (s : State) : Res :=
  s.mapVector3 (.vfsh d a b m chainA chainB) d a b m fun e => (e.a <<< e.w + e.d) >>> e.shift

/-- `vmulh` under RM (R166). -/
def execVmulh (d a b m : Reg) (chainA chainB : Bool) (rm : Rounding) (s : State) : Res :=
  s.mapVector (.vmulh d a b m chainA chainB rm) Kind.isInt d a b m fun e => wrapTo e.w (roundedInt rm (e.sa * e.sb) (-e.w))

/-- `vavg` under RM (R166). -/
def execVavg (d a b m : Reg) (chainA chainB : Bool) (rm : Rounding) (s : State) : Res :=
  s.mapVector (.vavg d a b m chainA chainB rm) Kind.isInt d a b m fun e => wrapTo e.w (roundedInt rm (e.sa + e.sb) (-1))

/-- `vmul` (R166). -/
def execVmul (d a b m : Reg) (chainA chainB : Bool) (s : State) : Res :=
  s.mapVector (.vmul d a b m chainA chainB) Kind.isInt d a b m fun e => e.a * e.b

/-- `vpopc` (R168). -/
def execVpopc (d a m : Reg) (chainA : Bool) (s : State) : Res :=
  s.mapVector1 (.vpopc d a m chainA) Kind.isInt d a m fun e => popCount e.w e.a

/-- `vclz` (R168). -/
def execVclz (d a m : Reg) (chainA : Bool) (s : State) : Res :=
  s.mapVector1 (.vclz d a m chainA) Kind.isInt d a m fun e => if e.a = 0 then e.w else e.w - 1 - Nat.log2 e.a

/-- `vbfx` (R168). -/
def execVbfx (d a b m : Reg) (chainA chainB : Bool) (s : State) : Res :=
  s.mapVector (.vbfx d a b m chainA chainB) Kind.isInt d a b m fun e => (e.a >>> e.pos) % 2 ^ e.len

/-- `vbfi` (R168). -/
def execVbfi (d a b m : Reg) (chainA chainB : Bool) (s : State) : Res :=
  s.mapVector3 (.vbfi d a b m chainA chainB) d a b m fun e => 
    let m := (2 ^ e.len - 1) <<< e.pos % 2 ^ e.w
    (e.d - (e.d &&& m)) + (e.a <<< e.pos &&& m)

/-- `vsel`: the mask bit selects a or b, element by element, and every element below the bound is written (R169). The conversion
of R146 raises flags for the selected element alone: the model's choice (log 68). -/
def execVsel (d a b m : Reg) (chainA chainB : Bool) (s : State) : Res :=
  let i : Instr := .vsel d a b m chainA chainB
  s.orTrap (s.gate i 2 [s.grp d] [s.grp a, s.grp b] [s.grp d, s.grp a, s.grp b] (m ≠ 31)) fun s =>
  let st := s.me
  let ta := st.tag a.toNat
  let tb := st.tag b.toNat
  let op := opTag [ta, tb]
  s.orTrap (s.tagTrap i op Kind.isTag [ta, tb]) fun s =>
  let t := op.getD 0
  let k := s.myCore.kind t
  let g := st.governs m
  let vl := st.vl k.width
  let bound := Nat.min vl st.sbound.toNat
  let va := s.source a
  let vb := s.source b
  let el (i : Nat) : Out := if g.lets i then va.elem (ta = t) k .rne 0 i else vb.elem (tb = t) k .rne 0 i
  let out := mergeElems k.width vl bound (st.group d.toNat st.vgrp) (fun _ => true) fun i => k.clip (el i).bits
  .next (s.finishVector (st.setGroup d.toNat st.vgrp out t (touches k.width bound fun _ => true))
    (flagElems vl bound (fun _ => true) fun i => (el i).fl))

/-- Fill the active elements of d under d's own tag (R169). -/
def State.fillVector (s : State) (i : Instr) (accept : Kind → Bool) (d m : Reg) (f : Nat → (Nat → Bool) → Nat → Nat → Nat) :
    Res :=
  s.orTrap (s.gate i 2 [s.grp d] [] [s.grp d] (m ≠ 31)) fun s =>
  let st := s.me
  let t := st.tag d.toNat
  s.orTrap (s.tagTrap i (some t) accept []) fun s =>
  let k := s.myCore.kind t
  let w := k.width
  let g := st.governs m
  let vl := st.vl w
  let bound := st.bound vl g
  let out := mergeElems w vl bound (st.group d.toNat st.vgrp) g.lets fun i => k.clip (f bound g.lets w i)
  .next (s.finishVector (st.setGroup d.toNat st.vgrp out t (touches w bound g.lets)) 0)

/-- `vdup`: the low W bits of x[a] (R169). -/
def execVdup (d a m : Reg) (s : State) : Res :=
  s.fillVector (.vdup d a m) Kind.isTag d m fun _ _ _ _ => (s.me.getX a).toNat

/-- `viota`: the number of active elements below (R169). -/
def execViota (d m : Reg) (s : State) : Res :=
  s.fillVector (.viota d m) Kind.isInt d m fun bound act _ i => if m = 31 then i else countActive bound act i

/-- `vmov`: the W-bit patterns under a's tag (R169). -/
def execVmov (d a m : Reg) (chainA : Bool) (s : State) : Res :=
  s.mapVector1 (.vmov d a m chainA) Kind.isTag d a m fun e => e.a

/-- The reductions: element 0 of d from the seed, element 0 of b, and the active elements of a (R170). -/
def State.reduce (s : State) (i : Instr) (d a b m : Reg) (f : Bool → Nat → Nat → Nat → Nat) : Res :=
  s.orTrap (s.gate i 2 [s.grp d] [s.grp a, s.grp b] [s.grp d, s.grp a, s.grp b] (m ≠ 31)) fun s =>
  let st := s.me
  let ta := st.tag a.toNat
  let tb := st.tag b.toNat
  let op := opTag [ta, tb]
  s.orTrap (s.tagTrap i op Kind.isInt [ta, tb]) fun s =>
  let t := op.getD 0
  let k := s.myCore.kind t
  let g := st.governs m
  let vl := st.vl k.width
  let va := s.source a
  let vb := s.source b
  let acc := (activeList (st.bound vl g) g.lets).foldl
    (fun acc i => f k.signed k.width acc (va.elem (ta = t) k .rne 0 i).bits) (vb.elem (tb = t) k .rne 0 0).bits
  let out := mergeElems k.width vl 1 (st.group d.toNat st.vgrp) (fun _ => true) fun _ => acc
  .next (s.finishVector (st.setGroup d.toNat st.vgrp out t (fun j => j = 0)) 0)

/-- The lesser of two elements under the tag. -/
def lesser (signed : Bool) (w x y : Nat) : Nat :=
  if signed then (if toSigned w x ≤ toSigned w y then x else y) else Nat.min x y

/-- The greater of two elements under the tag. -/
def greater (signed : Bool) (w x y : Nat) : Nat :=
  if signed then (if toSigned w x ≤ toSigned w y then y else x) else Nat.max x y

/-- `vredsum` (R170). -/
def execVredsum (d a b m : Reg) (chainA chainB : Bool) (s : State) : Res :=
  s.reduce (.vredsum d a b m chainA chainB) d a b m (fun _ w x y => (x + y) % 2 ^ w)

/-- `vredmin` (R170). -/
def execVredmin (d a b m : Reg) (chainA chainB : Bool) (s : State) : Res :=
  s.reduce (.vredmin d a b m chainA chainB) d a b m (lesser)

/-- `vredmax` (R170). -/
def execVredmax (d a b m : Reg) (chainA chainB : Bool) (s : State) : Res :=
  s.reduce (.vredmax d a b m chainA chainB) d a b m (greater)

/-- `vredand` (R170). -/
def execVredand (d a b m : Reg) (chainA chainB : Bool) (s : State) : Res :=
  s.reduce (.vredand d a b m chainA chainB) d a b m (fun _ _ x y => x &&& y)

/-- `vredor` (R170). -/
def execVredor (d a b m : Reg) (chainA chainB : Bool) (s : State) : Res :=
  s.reduce (.vredor d a b m chainA chainB) d a b m (fun _ _ x y => x ||| y)

/-- `vredxor` (R170). -/
def execVredxor (d a b m : Reg) (chainA chainB : Bool) (s : State) : Res :=
  s.reduce (.vredxor d a b m chainA chainB) d a b m (fun _ _ x y => x ^^^ y)

end Sys2Proof.Machine
end

