-- ==== Sys2Proof/Machine/CrossLane.lean ====
section
/-! DEFINITION. Cross-lane instructions: slides, gathers, compression, expansion, interleaving, reversal, top-k,
sorted intersection and conflict detection (R172 to R181). -/

namespace Sys2Proof.Machine

/-- The low w bits of `vfill` (R151). -/
def Strand.fill (st : Strand) (w : Nat) : Nat := st.vfill.toNat % 2 ^ w

/-- A move of one source: position i takes the element of a at the index given for VL, n = min(VL, `sbound`) and i, or
`vfill`. Positions are the active ones, or every one below n when `all` (R173, R175). Bits above a narrower format are
written as zero (R123; log 51). -/
def State.moveVector (s : State) (i : Instr) (d a m : Reg) (all : Bool)
    (pick : Governs → Nat → Nat → Nat → Option Nat) : Res :=
  s.orTrap (s.gate i 3 [s.grp d] [s.grp a] [s.grp d, s.grp a] (m ≠ 31)) fun s =>
  let st := s.me
  let t := st.tag a.toNat
  s.orTrap (s.tagTrap i (some t) Kind.isPlain [t]) fun s =>
  let k := s.myCore.kind t
  let w := k.width
  let g := st.governs m
  let vl := st.vl w
  let n := Nat.min vl st.sbound.toNat
  let src := st.group a.toNat st.vgrp
  let act (i : Nat) : Bool := all || g.lets i
  let bound := if all then n else st.bound vl g
  let out := mergeElems w vl bound (st.group d.toNat st.vgrp) act fun i =>
    k.clip (match pick g vl n i with
      | some j => elemOf w src j
      | none => st.fill w)
  .next (s.finishVector (st.setGroup d.toNat st.vgrp out t (touches w bound act)) 0)

/-- `vslup`: element i − s of a, `vfill` below s (R176). -/
def execVslup (d a b m : Reg) (chainA : Bool) (s : State) : Res :=
  s.moveVector (.vslup d a b m chainA) d a m false fun _ _ _ i =>
    let k := (s.me.getX b).toNat
    if i < k then none else some (i - k)

/-- `vsldn`: element i + s of a, `vfill` from n on (R176). -/
def execVsldn (d a b m : Reg) (chainA : Bool) (s : State) : Res :=
  s.moveVector (.vsldn d a b m chainA) d a m false fun _ _ n i =>
    let k := (s.me.getX b).toNat
    if n ≤ i + k then none else some (i + k)

/-- `vrev`: element n − 1 − i of a (R176). -/
def execVrev (d a m : Reg) (chainA : Bool) (s : State) : Res :=
  s.moveVector (.vrev d a m chainA) d a m false fun _ _ n i => some (n - 1 - i)

/-- `vexpd`: the element of a whose index is the number of active positions below (R178). -/
def execVexpd (d a m : Reg) (chainA : Bool) (s : State) : Res :=
  s.moveVector (.vexpd d a m chainA) d a m false fun g _ n i =>
    some (if g.masked then countActive n g.lets i else i)

/-- Element j of a list of indices. -/
def nthIndex (l : List Nat) (j : Nat) : Option Nat := l[j]?

/-- `vcomp`: the active elements of a packed from position 0 on, `vfill` behind them up to n (R178). -/
def execVcomp (d a m : Reg) (chainA : Bool) (s : State) : Res :=
  s.moveVector (.vcomp d a m chainA) d a m true fun g _ n i =>
    if g.masked then nthIndex (activeList (Nat.min n Config.mlen) g.lets) i else some i

/-- The interleaving moves: position i takes an element of a (false) or b (true) under the operation tag; an index at or
above n reads `vfill` in its place (R151, R176; log 26). -/
def State.zipVector (s : State) (i : Instr) (d a b m : Reg) (pick : Nat → Nat → Bool × Nat) : Res :=
  s.orTrap (s.gate i 3 [s.grp d] [s.grp a, s.grp b] [s.grp d, s.grp a, s.grp b] (m ≠ 31)) fun s =>
  let st := s.me
  let ta := st.tag a.toNat
  let tb := st.tag b.toNat
  let op := opTag [ta, tb]
  s.orTrap (s.tagTrap i op Kind.isPlain [ta, tb]) fun s =>
  let t := op.getD 0
  let k := s.myCore.kind t
  let g := st.governs m
  let vl := st.vl k.width
  let bound := st.bound vl g
  let n := Nat.min vl st.sbound.toNat
  let va := s.source a
  let vb := s.source b
  let el (i : Nat) : Out :=
    let p := pick vl i
    let v := if p.1 then vb else va
    let same : Bool := (if p.1 then tb else ta) = t
    if p.2 < n then v.elem same k .rne 0 p.2
    else if same then ⟨st.fill v.kind.width, 0⟩
    else convertElem v.kind k .rne 0 (st.fill v.kind.width)
  let out := mergeElems k.width vl bound (st.group d.toNat st.vgrp) g.lets fun i => k.clip (el i).bits
  .next (s.finishVector (st.setGroup d.toNat st.vgrp out t (touches k.width bound g.lets))
    (flagElems vl bound g.lets fun i => (el i).fl))

/-- `vzip`: the low halves of a and b in turn (R176). -/
def execVzip (d a b m : Reg) (chainA chainB : Bool) (s : State) : Res :=
  s.zipVector (.vzip d a b m chainA chainB) d a b m fun _ i => (i % 2 = 1, i / 2)

/-- `vunzip`: the even elements of the pair a, b (R176). -/
def execVunzip (d a b m : Reg) (chainA chainB : Bool) (s : State) : Res :=
  s.zipVector (.vunzip d a b m chainA chainB) d a b m fun vl i =>
    if i < vl / 2 then (false, 2 * i) else (true, 2 * i - vl)

/-- The span of an index group (R177, R187, R212). -/
def indexSpan (vgrp wi w : Nat) : Nat := Nat.max 1 (vgrp * wi / w)

/-- An index group that its instruction refuses at issue: its first register, its size, or a partial overlap with the
destination (R177, R187). -/
def indexIllegal (g : Group) (dst : List Group) : Bool :=
  g.first % g.span ≠ 0 || 8 < g.span || dst.any g.partly

/-- Element i of an index group, signed or unsigned by its tag. -/
def indexElem (k : Kind) (bits i : Nat) : Int :=
  if k.signed then toSigned k.width (elemOf k.width bits i) else elemOf k.width bits i

/-- `vgath`: element k of a for the index k, `vfill` for one outside 0 to n − 1 (R177). -/
def execVgath (d a b m : Reg) (chainA chainB : Bool) (s : State) : Res :=
  let i : Instr := .vgath d a b m chainA chainB
  let st := s.me
  let t := st.tag a.toNat
  let tb := st.tag b.toNat
  let w := (s.myCore.kind t).width
  let kb := s.myCore.kind tb
  let gb : Group := ⟨b.toNat, indexSpan st.vgrp kb.width w⟩
  s.orTrap (s.gate i 3 [s.grp d] [s.grp a] [s.grp d, s.grp a, gb] (m ≠ 31)) fun s =>
  if !kb.isInt || !(s.myCore.kind t).isPlain || indexIllegal gb [s.grp d]
  then s.trapped { cause := .illegal, info := encodeWord i }
  else s.orTrap (s.classTrap ([t, tb].flatMap tagClasses)) fun s =>
  let g := st.governs m
  let vl := st.vl w
  let bound := st.bound vl g
  let n := Nat.min vl st.sbound.toNat
  let src := st.group a.toNat st.vgrp
  let idx := st.group b.toNat gb.span
  let out := mergeElems w vl bound (st.group d.toNat st.vgrp) g.lets fun i =>
    let k := indexElem kb idx i
    (s.myCore.kind t).clip (if 0 ≤ k && k < n then elemOf w src k.toNat else st.fill w)
  .next (s.finishVector (st.setGroup d.toNat st.vgrp out t (touches w bound g.lets)) 0)

/-- Key x ranks above key y (R179). -/
def keyAbove (k : Kind) (x y : Nat) : Bool :=
  match k with
  | .flt f =>
    let a := f.decode x
    let b := f.decode y
    !a.isNaN && (b.isNaN || 0 < a.compareSigned b)
  | .int true w => toSigned w y < toSigned w x
  | _ => y < x

/-- Insert an index before the keys that do not rank above its own. -/
def insertKey (k : Kind) (key : Nat → Nat) (i : Nat) : List Nat → List Nat
  | [] => [i]
  | j :: l => if keyAbove k (key j) (key i) then j :: insertKey k key i l else i :: j :: l

/-- The active indices ranked by key, equal keys by lower index (R179). -/
def rankKeys (k : Kind) (key : Nat → Nat) (idx : List Nat) : List Nat := idx.foldr (insertKey k key) []

/-- `vtopk`: the indices of the largest keys as n32 elements of one register (R179). -/
def execVtopk (d a b m : Reg) (chainA : Bool) (s : State) : Res :=
  let i : Instr := .vtopk d a b m chainA
  s.orTrap (s.gate i 3 [⟨d.toNat, 1⟩] [s.grp a] [⟨d.toNat, 1⟩, s.grp a] (m ≠ 31)) fun s =>
  let st := s.me
  let t := st.tag a.toNat
  s.orTrap (s.tagTrap i (some t) (fun k => k.isInt || k.isFloat) [t, 6]) fun s =>
  let k := s.myCore.kind t
  let g := st.governs m
  let src := st.group a.toNat st.vgrp
  let keys := rankKeys k (elemOf k.width src) (activeList (st.bound (st.vl k.width) g) g.lets)
  let kk := Nat.min (st.getX b).toNat 512
  let out := mergeElems 32 512 kk (st.getV d.toNat).toNat (fun _ => true) fun r => (nthIndex keys r).getD 0xFFFFFFFF
  .next (s.finishVector (st.setGroup d.toNat 1 out 6 fun _ => 0 < kk) 0)

/-- `visect`: the active elements of a whose values appear in b below n (R180). -/
def execVisect (d a b m : Reg) (chainA chainB : Bool) (s : State) : Res :=
  let i : Instr := .visect d a b m chainA chainB
  s.orTrap (s.gate i 3 [] [s.grp a, s.grp b] [s.grp a, s.grp b] true) fun s =>
  let st := s.me
  let ta := st.tag a.toNat
  let tb := st.tag b.toNat
  let op := opTag [ta, tb]
  s.orTrap (s.tagTrap i op Kind.isInt [ta, tb]) fun s =>
  let t := op.getD 0
  let k := s.myCore.kind t
  let g := st.governs m
  let vl := st.vl k.width
  let va := s.source a
  let vb := s.source b
  let bs := (List.range (Nat.min vl st.sbound.toNat)).map fun j => (vb.elem (tb = t) k .rne 0 j).bits
  .next (s.finishVector (st.setM d.toNat (maskOf (st.bound vl g) g.lets fun i =>
    bs.contains (va.elem (ta = t) k .rne 0 i).bits)) 0)

/-- `vconf`: the first active occurrence of each value of a (R181). -/
def execVconf (d a m : Reg) (chainA : Bool) (s : State) : Res :=
  let i : Instr := .vconf d a m chainA
  s.orTrap (s.gate i 3 [] [s.grp a] [s.grp a] true) fun s =>
  let st := s.me
  let t := st.tag a.toNat
  s.orTrap (s.tagTrap i (some t) Kind.isInt [t]) fun s =>
  let w := (s.myCore.kind t).width
  let g := st.governs m
  let src := st.group a.toNat st.vgrp
  let bound := st.bound (st.vl w) g
  .next (s.finishVector (st.setM d.toNat (maskOf bound g.lets fun i =>
    !((List.range i).any fun j => g.lets j && elemOf w src j = elemOf w src i))) 0)

end Sys2Proof.Machine
end

