-- ==== Sys2Proof/Machine/VectorMemory.lean ====
section
/-! DEFINITION. Vector memory instructions, attribute pairs, `fence` and `convoy`: phase one and phase two with their
stops, loads, stores, segments, atomics, scatter-adds, wide cells and remote reduces (R187 to R203, R288, R289). -/

namespace Sys2Proof.Machine

/-- Elements of width w, from index i over 2^h of them, replaced by the listed values, which rise by index. -/
def mergeList (w old : Nat) : Nat → Nat → List (Nat × Nat) → Nat
  | 0, i, l => match l with
    | [] => elemOf w old i
    | e :: _ => e.2 % 2 ^ w
  | h + 1, i, l =>
    if l = [] then (old >>> (w * i)) % 2 ^ (w * 2 ^ (h + 1))
    else
      let lo := l.filter fun e => e.1 < i + 2 ^ h
      let hi := l.filter fun e => i + 2 ^ h ≤ e.1
      mergeList w old h i lo + (mergeList w old h (i + 2 ^ h) hi) <<< (w * 2 ^ h)

/-- Write listed elements of a group and its tag. -/
def Strand.writeElems (st : Strand) (first span w t : Nat) (vals : List (Nat × Nat)) : Strand :=
  let old := st.group first span
  st.setGroup first span (mergeList w old (Nat.log2 (Config.vmax * span / w)) 0 vals) t fun j =>
    vals.any fun e => e.1 / (Config.vmax / w) = j

/-- The active elements that a run examines: of a load or store those at or above `vstart`, of an atomic those outside
`vdone` where it is valid (R197; log 28). -/
def Strand.examined (st : Strand) (atomic : Bool) (vl : Nat) (g : Governs) : List Nat :=
  activeList (st.bound vl g) fun i =>
    g.lets i && (if atomic && st.vdValid then !st.vdone.getLsbD i else st.vstart.toNat ≤ i)

/-- The least of some indices. -/
def leastOf (l : List Nat) : Nat := l.foldl Nat.min (l.headD 0)

/-- The set of some indices below 16,384, the bits that EMASK and `vdone` have (R191, R195; log 52). -/
def indexSet (l : List Nat) : VReg := BitVec.ofNat 16384 (l.foldl (fun acc i => acc ||| 2 ^ i) 0)

/-- Units performed in order from a state: the state, and the destination elements, the last first. -/
def performUnits {α : Type} (f : State → α → State × List (Nat × Nat)) (units : List (List Nat × α)) (s : State) :
    State × List (Nat × Nat) :=
  units.foldl (fun (acc : State × List (Nat × Nat)) u => let x := f acc.1 u.2; (x.1, x.2.reverse ++ acc.2)) (s, [])

/-- How many units have left when a stop strikes after `cut` of them. A unit with an index that `vdone` has no bit for
leaves together with all the rest (R191, R195; log 52). -/
def State.leftUnits {α : Type} (s : State) (units : List (List Nat × α)) : Nat :=
  match s.cut with
  | none => units.length
  | some n => if (units.take n).any (fun u => u.1.any fun i => Config.vmax ≤ i) then units.length else n

/-- Phase two: the units perform in order, each giving destination elements; a stop after `cut` units commits what has
performed and leaves `vstart` and, for an atomic, `vdone` (R195), and of a load or store some further elements may have
performed, which the rerun performs again (R304, log 28), and the strand is at no instruction boundary; else the instruction completes, `vstart` 0 and `vdone` empty
(R197). At a stop the tags stay, so that the rerun reads its sources as the first run did (R197, log 28). -/
def State.perform {α : Type} (s : State) (atomic : Bool) (units : List (List Nat × α))
    (f : State → α → State × List (Nat × Nat)) (commit : Strand → List (Nat × Nat) → Strand) (done : State → State) :
    Res :=
  let n := s.leftUnits units
  let r := performUnits f (units.take n) s
  let st := commit r.1.me r.2.reverse
  match (units.drop n).flatMap Prod.fst with
  | [] => .next (done (r.1.setMe { st with vstart := 0, vdone := 0, vdValid := false })).retire
  | rest =>
    let st := { st with vstart := BitVec.ofNat 32 (leastOf rest), tags := s.me.tags, waiting := none, partWay := true }
    if atomic then
      .next (r.1.setMe { st with
        vdone := (if st.vdValid then st.vdone else 0) ||| indexSet ((units.take n).flatMap Prod.fst), vdValid := true })
    else
      .next (performUnits f ((units.drop n).take (Config.ranAhead s.tick)) (r.1.setMe st)).1

/-- The last issue checks: what is illegal by the instruction's own rules, then the classes of its formats (R147, R187). -/
def State.memIssue (s : State) (i : Instr) (illegal : Bool) (tags : List Nat) (k : State → Res) : Res :=
  if illegal then s.trapped { cause := .illegal, info := encodeWord i }
  else s.orTrap (s.classTrap (tags.flatMap tagClasses)) k

/-- The width at which a unit-stride instruction moves a tag: bytes below 8 bits (R187). -/
def moveWidth (k : Kind) : Nat := Nat.max 8 k.width

/-- base + offset, wrap(64) (R188). -/
def addrAt (base : Word) (off : Int) : Nat := wrapTo 64 (base.toNat + off)

/-- One element of a load: its value, as an acquire notes what it reads (R198, R287). -/
def loadUnit (o : Order) (s : State) (u : Elem × List Piece) : State × List (Nat × Nat) :=
  (s.epochAcq o u.2, [(u.1.idx, leNat (s.strandLoad u.2))])

/-- A loaded or stored element as it is written: one of 8 bits or more is an element of the tag, a smaller tag moves bytes
(R123, R187; log 51). -/
def moveClip (k : Kind) (x : Nat) : Nat := if k.width < 8 then x else k.clip x

/-- One unit for each element. -/
def oneEach {α : Type} (es : List (Elem × α)) : List (List Nat × (Elem × α)) := es.map fun e => ([e.1.idx], e)

/-- The load of some elements into a group (R190, R195, R198): of those that `pick` takes; `fix` notes which were loaded. -/
def State.loadElems (s : State) (i : Instr) (d : Reg) (w t : Nat) (es : List Elem)
    (fix : List Elem → Strand → Strand := fun _ st => st) (pick : State → List Elem → List Elem := fun _ es => es) : Res :=
  s.access i .load s.order (w / 8) es (pick := pick) fun s es =>
    s.perform false (oneEach es) (loadUnit s.order)
      (fun st vals => fix (es.map Prod.fst)
        (st.writeElems d.toNat st.vgrp w t (vals.map fun e => (e.1, moveClip (s.myCore.kind t) e.2)))) id

/-- `vld`: unit stride under d's tag (R187, R198). -/
def execVld (d a m : Reg) (s : State) : Res :=
  let i : Instr := .vld d a m
  s.orTrap (s.gate i 4 [s.grp d] [] [s.grp d] (m ≠ 31)) fun s =>
  let st := s.me
  let t := st.tag d.toNat
  s.memIssue i false [t] fun s =>
  let w := moveWidth (s.myCore.kind t)
  let es := (st.examined false (st.vl w) (st.governs m)).map fun i =>
    (⟨i, addrAt (st.getX a) (i * (w / 8) : Nat), w / 8⟩ : Elem)
  s.loadElems i d w t es

/-- An element fails check 2 or 3 of phase one. -/
def State.elemFails (s : State) (e : Elem) : Bool :=
  match s.phaseOne s.curCore .load false 1 [e] with
  | .ok _ _ => false
  | _ => true

/-- The trim that a `vldff` keeps when it runs again after a stop, which `vstart` shows: the `vffi` that the stop committed
(R193, R195, R197; log 28). -/
def Strand.trimmed (st : Strand) : Option (BitVec 32) := if st.vstart = 0 then none else some st.vffi

/-- The elements that a `vldff` accesses: those below the first failing one, or all where that is the lowest active one or an
element is misaligned (R193). -/
def State.untrimmed (s : State) (align : Nat) (lowest : Option Nat) (es : List Elem) : List Elem :=
  if es.any fun e => e.addr % align ≠ 0 then es
  else match es.find? s.elemFails with
    | none => es
    | some f => if lowest = some f.idx then es else es.filter fun e => e.idx < f.idx

/-- `vldff`: as `vld`, trimmed at the first failing element unless that is the lowest active one. A run after a stop keeps
the trim of the run before it (R193, R197). -/
def execVldff (d a m : Reg) (s : State) : Res :=
  let i : Instr := .vldff d a m
  s.orTrap (s.gate i 4 [s.grp d] [] [s.grp d] (m ≠ 31)) fun s =>
  let st := s.me
  let t := st.tag d.toNat
  s.memIssue i false [t] fun s =>
  let w := moveWidth (s.myCore.kind t)
  let g := st.governs m
  let lowest := (activeList (st.bound (st.vl w) g) g.lets).head?
  let es := ((st.examined false (st.vl w) g).filter fun i => (st.trimmed.map fun f => decide (i < f.toNat)).getD true).map fun i =>
    (⟨i, addrAt (st.getX a) (i * (w / 8) : Nat), w / 8⟩ : Elem)
  let whole := st.trimmed.getD (BitVec.ofNat 32 (Nat.min (st.vl w) st.sbound.toNat))
  let first (loaded : List Elem) : BitVec 32 :=
    match es.find? fun e => !loaded.contains e with
    | none => whole
    | some f => BitVec.ofNat 32 f.idx
  s.loadElems i d w t es (fun loaded st => { st with vffi := first loaded }) fun s es => s.untrimmed (w / 8) lowest es

/-- `vpf`: a request that writes no state and that the model drops whole (R203). -/
def execVpf (a m : Reg) (s : State) : Res :=
  s.orTrap (s.gate (.vpf a m) 4 [] [] [] (m ≠ 31)) fun s => s.complete s.me

/-- `vlds`: signed scalar stride (R187, R188). -/
def execVlds (d a b m : Reg) (s : State) : Res :=
  let i : Instr := .vlds d a b m
  s.orTrap (s.gate i 4 [s.grp d] [] [s.grp d] (m ≠ 31)) fun s =>
  let st := s.me
  let t := st.tag d.toNat
  let w := (s.myCore.kind t).width
  s.memIssue i (w < 8) [t] fun s =>
  let es := (st.examined false (st.vl w) (st.governs m)).map fun i =>
    (⟨i, addrAt (st.getX a) (i * (st.getX b).toInt), w / 8⟩ : Elem)
  s.loadElems i d w t es

/-- The index group of an instruction whose data have width w. -/
def State.indexGroup (s : State) (r : Reg) (w : Nat) : Group :=
  ⟨r.toNat, indexSpan s.me.vgrp (s.myCore.kind (s.me.tag r.toNat)).width w⟩

/-- Element i of an index group (R188). -/
def State.indexOf (s : State) (g : Group) (i : Nat) : Int :=
  indexElem (s.myCore.kind (s.me.tag g.first)) (s.me.group g.first g.span) i

/-- What the index group of a memory instruction must be: an integer tag, and a legal group (R187). -/
def State.indexBad (s : State) (g : Group) (dst : List Group) : Bool :=
  !(s.myCore.kind (s.me.tag g.first)).isInt || indexIllegal g dst

/-- `vldx`: base plus index times element size (R187, R188). -/
def execVldx (d a b m : Reg) (chainB : Bool) (s : State) : Res :=
  let i : Instr := .vldx d a b m chainB
  let st := s.me
  let t := st.tag d.toNat
  let w := (s.myCore.kind t).width
  let gb := s.indexGroup b w
  s.orTrap (s.gate i 4 [s.grp d] [] [s.grp d, gb] (m ≠ 31)) fun s =>
  s.memIssue i (w < 8 || s.indexBad gb [s.grp d]) [st.tag b.toNat, t] fun s =>
  let es := (st.examined false (st.vl w) (st.governs m)).map fun i =>
    (⟨i, addrAt (st.getX a) (s.indexOf gb i * (w / 8 : Nat)), w / 8⟩ : Elem)
  s.loadElems i d w t es

/-- Of elements at one address the highest prevails; the others do not perform (R198). -/
def prevailing {α : Type} : List (Elem × α) → List (Elem × α)
  | [] => []
  | e :: l => if l.any (fun x => x.1.addr = e.1.addr) then prevailing l else e :: prevailing l

/-- The store of some elements of a group (R190, R195, R198). -/
def State.storeElems (s : State) (i : Instr) (b : Reg) (w : Nat) (unit : Bool) (es : List Elem) : Res :=
  let k := s.myCore.kind (s.me.tag b.toNat)
  s.access i .store s.order (w / 8) es fun s es =>
    let data := s.me.group b.toNat s.me.vgrp
    s.perform false (oneEach (if unit then es else prevailing es))
      (fun t u => (t.strandStore s.order u.2 (leBytes (w / 8) (moveClip k (elemOf w data u.1.idx))), []))
      (fun st _ => st) (fun t => t.epochRel s.order)

/-- `vst` (R187, R198). -/
def execVst (d b m : Reg) (chainB : Bool) (s : State) : Res :=
  let i : Instr := .vst d b m chainB
  s.orTrap (s.gate i 4 [] [s.grp b] [s.grp b] (m ≠ 31)) fun s =>
  let st := s.me
  let t := st.tag b.toNat
  s.memIssue i false [t] fun s =>
  let w := moveWidth (s.myCore.kind t)
  let es := (st.examined false (st.vl w) (st.governs m)).map fun i =>
    (⟨i, addrAt (st.getX d) (i * (w / 8) : Nat), w / 8⟩ : Elem)
  s.storeElems i b w true es

/-- `vsts` (R187, R188). -/
def execVsts (d a b m : Reg) (chainB : Bool) (s : State) : Res :=
  let i : Instr := .vsts d a b m chainB
  s.orTrap (s.gate i 4 [] [s.grp b] [s.grp b] (m ≠ 31)) fun s =>
  let st := s.me
  let t := st.tag b.toNat
  let w := (s.myCore.kind t).width
  s.memIssue i (w < 8) [t] fun s =>
  let es := (st.examined false (st.vl w) (st.governs m)).map fun i =>
    (⟨i, addrAt (st.getX d) (i * (st.getX a).toInt), w / 8⟩ : Elem)
  s.storeElems i b w false es

/-- `vstx` (R187, R188). -/
def execVstx (d a b m : Reg) (chainA chainB : Bool) (s : State) : Res :=
  let i : Instr := .vstx d a b m chainA chainB
  let st := s.me
  let t := st.tag b.toNat
  let w := (s.myCore.kind t).width
  let ga := s.indexGroup a w
  s.orTrap (s.gate i 4 [] [s.grp b] [s.grp b, ga] (m ≠ 31)) fun s =>
  s.memIssue i (w < 8 || s.indexBad ga []) [st.tag a.toNat, t] fun s =>
  let es := (st.examined false (st.vl w) (st.governs m)).map fun i =>
    (⟨i, addrAt (st.getX d) (s.indexOf ga i * (w / 8 : Nat)), w / 8⟩ : Elem)
  s.storeElems i b w false es

/-- Bits of a block-scaled element, 0 for another kind. -/
def Kind.blockBits (k : Kind) : Nat :=
  match k with
  | .bs n => n
  | _ => 0

/-- The scale group that follows a block-scaled group (R194). -/
def State.scaleGroup (s : State) (r : Reg) : Group := ⟨r.toNat + s.me.vgrp, s.me.vgrp⟩

/-- A block-scaled pair that is refused at issue: another tag, or a scale group beyond `v31` (R187, R194). -/
def State.segmentBad (s : State) (r : Reg) : Bool :=
  (s.myCore.kind (s.me.tag r.toNat)).blockBits = 0 || 32 < r.toNat + 2 * s.me.vgrp

/-- `vldseg`: segments of 4n bytes of elements and a scale word, whose bits [15:10] are ignored (R133, R194). -/
def execVldseg (d a m : Reg) (s : State) : Res :=
  let i : Instr := .vldseg d a m
  let st := s.me
  s.orTrap (s.gate i 4 [s.grp d] [] [s.grp d, s.scaleGroup d] (m ≠ 31)) fun s =>
  let t := st.tag d.toNat
  s.memIssue i (s.segmentBad d) [t, 5] fun s =>
  let n := (s.myCore.kind t).blockBits
  let es := (st.examined false (st.vl n / 32) (st.governs m)).map fun j =>
    (⟨j, addrAt (st.getX a) (j * (4 * n + 2) : Nat), 4 * n + 2⟩ : Elem)
  s.access i .load s.order 1 es fun s es =>
    s.perform false (oneEach es) (loadUnit s.order)
      (fun st vals =>
        let data := vals.map fun e => (e.1, e.2 % 2 ^ (32 * n))
        let scales := vals.map fun e => (e.1, e.2 / 2 ^ (32 * n) % 1024)
        (st.writeElems d.toNat st.vgrp (32 * n) t data).writeElems (d.toNat + st.vgrp) st.vgrp 16 5 scales) id

/-- `vstseg` (R133, R194). -/
def execVstseg (d b m : Reg) (chainB : Bool) (s : State) : Res :=
  let i : Instr := .vstseg d b m chainB
  let st := s.me
  s.orTrap (s.gate i 4 [] [s.grp b] [s.grp b, s.scaleGroup b] (m ≠ 31)) fun s =>
  let t := st.tag b.toNat
  s.memIssue i (s.segmentBad b) [t, 5] fun s =>
  let n := (s.myCore.kind t).blockBits
  let es := (st.examined false (st.vl n / 32) (st.governs m)).map fun j =>
    (⟨j, addrAt (st.getX d) (j * (4 * n + 2) : Nat), 4 * n + 2⟩ : Elem)
  s.access i .store s.order 1 es fun s es =>
    let data := s.me.group b.toNat s.me.vgrp
    let scales := s.me.group (b.toNat + s.me.vgrp) s.me.vgrp
    s.perform false (oneEach es)
      (fun t u =>
        let j := u.1.idx
        let v := elemOf (32 * n) data j + (elemOf 16 scales j % 1024) <<< (32 * n)
        (t.strandStore s.order u.2 (leBytes (4 * n + 2) v), []))
      (fun st _ => st) (fun t => t.epochRel s.order)

/-- The address group of an atomic whose data have width w: `vgrp` × 64/W registers (R187). -/
def State.addressGroup (s : State) (r : Reg) (w : Nat) : Group := ⟨r.toNat, indexSpan s.me.vgrp 64 w⟩

/-- What the address group must be: i64 or n64, and a legal group (R187). -/
def State.addressBad (s : State) (g : Group) (dst : List Group) : Bool :=
  match s.myCore.kind (s.me.tag g.first) with
  | .int _ 64 => indexIllegal g dst
  | _ => true

/-- One element of an atomic: the old value, and what `f` makes of it, or nothing (R199, R200). -/
def atomicUnit (o : Order) (w : Nat) (f : Nat → Nat → Option Nat) (s : State) (u : Elem × List Piece) :
    State × List (Nat × Nat) :=
  let old := leNat (s.strandLoad u.2)
  let t := s.epochAcq o u.2
  match f u.1.idx old with
  | none => (t, [(u.1.idx, old)])
  | some new => (t.strandRmw o u.2 (leBytes (w / 8) new), [(u.1.idx, old)])

/-- The atomics with old values in d (R123, R187, R195, R199, R200); where d must carry b's tag, ALT makes no difference
between two tags of one format (R131). `f` gives the new value from the operand, the old d and the
old value, which it reads without the bits beyond a narrow format; `ask` is the same for another device, from the operand and
the old d (R339). -/
def State.atomic (s : State) (i : Instr) (accept : Kind → Bool) (same : Bool) (d a b m : Reg)
    (ask : Kind → Nat → Nat → RemoteOp) (f : Bool → Nat → Nat → Nat → Nat → Option Nat) : Res :=
  let st := s.me
  let t := st.tag b.toNat
  let k := s.myCore.kind t
  let w := k.width
  let ga := s.addressGroup a w
  s.orTrap (s.gate i 4 [s.grp d] [s.grp b] [s.grp d, s.grp b, ga] (m ≠ 31)) fun s =>
  s.memIssue i (!accept k || w < 8 || (same && tagCode (st.tag d.toNat) ≠ tagCode t) || s.addressBad ga [s.grp d])
    [st.tag a.toNat, t] fun s =>
  let addrs := st.group a.toNat ga.span
  let data := st.group b.toNat st.vgrp
  let old := st.group d.toNat st.vgrp
  let es := (st.examined true (st.vl w) (st.governs m)).map fun i => (⟨i, elemOf 64 addrs i, w / 8⟩ : Elem)
  s.access i .rmw s.order (w / 8) es
    (op := fun e => some (ask k (k.clip (elemOf w data e.idx)) (k.clip (elemOf w old e.idx)))) fun s es =>
    s.perform true (oneEach es)
      (atomicUnit s.order w fun i x => (f k.signed w (elemOf w data i) (k.clip (elemOf w old i)) (k.clip x)).map k.clip)
      (fun st vals => st.writeElems d.toNat st.vgrp w t (vals.map fun e => (e.1, k.clip e.2))) (fun t => t.epochRel s.order)

/-- `vamo.add` (R199). -/
def execVamoAdd (d a b m : Reg) (chainA chainB : Bool) (s : State) : Res :=
  s.atomic (.vamoAdd d a b m chainA chainB) Kind.isInt false d a b m (fun _ v _ => .amo .add v) fun _ w v _ x => some ((x + v) % 2 ^ w)

/-- `vamo.min`, by the tag's sign (R199). -/
def execVamoMin (d a b m : Reg) (chainA chainB : Bool) (s : State) : Res :=
  s.atomic (.vamoMin d a b m chainA chainB) Kind.isInt false d a b m (fun k v _ => .amo (if k.signed then .min else .minu) v) fun sg w v _ x =>
    some (lesser sg w x v)

/-- `vamo.max`, by the tag's sign (R199). -/
def execVamoMax (d a b m : Reg) (chainA chainB : Bool) (s : State) : Res :=
  s.atomic (.vamoMax d a b m chainA chainB) Kind.isInt false d a b m (fun k v _ => .amo (if k.signed then .max else .maxu) v) fun sg w v _ x =>
    some (greater sg w x v)

/-- `vamo.and` (R199). -/
def execVamoAnd (d a b m : Reg) (chainA chainB : Bool) (s : State) : Res :=
  s.atomic (.vamoAnd d a b m chainA chainB) Kind.isInt false d a b m (fun _ v _ => .amo .and v) fun _ _ v _ x => some (x &&& v)

/-- `vamo.or` (R199). -/
def execVamoOr (d a b m : Reg) (chainA chainB : Bool) (s : State) : Res :=
  s.atomic (.vamoOr d a b m chainA chainB) Kind.isInt false d a b m (fun _ v _ => .amo .or v) fun _ _ v _ x => some (x ||| v)

/-- `vamo.xor` (R199). -/
def execVamoXor (d a b m : Reg) (chainA chainB : Bool) (s : State) : Res :=
  s.atomic (.vamoXor d a b m chainA chainB) Kind.isInt false d a b m (fun _ v _ => .amo .xor v) fun _ _ v _ x => some (x ^^^ v)

/-- `vamo.swap`: every tag of 8 bits or more (R187, R199). -/
def execVamoSwap (d a b m : Reg) (chainA chainB : Bool) (s : State) : Res :=
  s.atomic (.vamoSwap d a b m chainA chainB) Kind.isTag false d a b m (fun _ v _ => .amo .swap v) fun _ _ v _ _ => some v

/-- `vcas`: patterns compare without the bits beyond a narrow format (R123), and d carries b's tag (R187, R200). -/
def execVcas (d a b m : Reg) (chainA chainB : Bool) (s : State) : Res :=
  s.atomic (.vcas d a b m chainA chainB) Kind.isTag true d a b m (fun k v c => .cas k.bits c v) fun _ _ v c x =>
    if x = c then some v else none

/-- The elements gathered by address, each address at its first element (R201). -/
def byAddress (es : List (Elem × List Piece)) : List (List Nat × List (Elem × List Piece)) :=
  (dedup (es.map fun e => e.1.addr)).map fun a =>
    let l := es.filter fun e => e.1.addr = a
    (l.map fun e => e.1.idx, l)

/-- `vsca`: for each distinct address one atomic addition of the sum of its elements (R201). -/
def execVsca (d a b m : Reg) (chainA chainB : Bool) (s : State) : Res :=
  let i : Instr := .vsca d a b m chainA chainB
  let st := s.me
  let t := st.tag b.toNat
  let k := s.myCore.kind t
  let w := k.width
  let ga := s.indexGroup a w
  s.orTrap (s.gate i 4 [] [s.grp b] [s.grp b, ga] (m ≠ 31)) fun s =>
  s.memIssue i (!k.isInt || s.indexBad ga []) [st.tag a.toNat, t] fun s =>
  let data := st.group b.toNat st.vgrp
  let es := (st.examined true (st.vl w) (st.governs m)).map fun i =>
    (⟨i, addrAt (st.getX d) (s.indexOf ga i * (w / 8 : Nat)), w / 8⟩ : Elem)
  let shared (e : Elem) : List Elem := es.filter fun x => x.addr = e.addr
  let ask (e : Elem) : Option RemoteOp :=
    if (shared e).head? = some e then some (.amo .add ((shared e).map fun x => elemOf w data x.idx).sum) else none
  s.access i .rmw s.order (w / 8) es (op := ask) fun s es =>
    s.perform true (byAddress es)
      (fun t l =>
        let ps := (l.head?.map Prod.snd).getD []
        let sum := (l.map fun e => elemOf w data e.1.idx).sum
        (t.strandRmw s.order ps (leBytes (w / 8) ((leNat (t.strandLoad ps) + sum) % 2 ^ w)), []))
      (fun st _ => st) (fun t => t.epochRel s.order)

/-- Formats whose values are exact multiples of 2^−149: f32, f16, bf16 and fx5 to fx7, with ALT (R138, R187). -/
def cellTag (t : Nat) : Bool :=
  let c := tagCode t
  c = 0x08 || c = 0x09 || c = 0x0A || c = 0x25 || c = 0x26 || c = 0x27

/-- An element as units of 2^−149; none for a NaN or an infinity (R138). -/
def cellUnits (k : Kind) (x : Nat) : Option Int :=
  match k with
  | .flt f => match f.decode x with
    | .zero _ => some 0
    | .num n m e => some ((if n then -1 else 1) * (m * 2 ^ (e + 149).toNat : Nat))
    | _ => none
  | _ => none

/-- The NaN code of a wide cell (R138). -/
def cellNaN : Nat := 2 ^ 383

/-- Exact addition into a wide cell (R138). -/
def cellAdd (old : Nat) (u : Option Int) : Nat :=
  match u with
  | none => cellNaN
  | some x =>
    if old = cellNaN then cellNaN
    else
      let c := toSigned 384 old + x
      if 2 ^ 383 ≤ c.natAbs then cellNaN else wrapTo 384 c

/-- One element of `vfacc`: an exact addition into the cell of 48 bytes at its address. A cell that lies on several devices is read
from all of them and written as one unit (R138, R201; log 53). -/
def cellUnit (o : Order) (k : Kind) (add : Elem → Nat) (s : State) (u : Elem × List Piece) : State × List (Nat × Nat) :=
  if acrossPieces u.2 then
    let ps := u.2.map fun q => { q with data := none }
    (s.unitRmw o ps (leBytes 48 (cellAdd (leNat (s.strandLoad ps)) (cellUnits k (add u.1)))), [])
  else (s.strandRmw o u.2 (leBytes 48 (cellAdd (leNat (s.strandLoad u.2)) (cellUnits k (add u.1)))), [])

/-- `vfacc`: each element is added exactly into the cell at its address (R138, R201). -/
def execVfacc (d a b m : Reg) (chainA chainB : Bool) (s : State) : Res :=
  let i : Instr := .vfacc d a b m chainA chainB
  let st := s.me
  let t := st.tag b.toNat
  let k := s.myCore.kind t
  let w := k.width
  let ga := s.indexGroup a w
  s.orTrap (s.gate i 4 [] [s.grp b] [s.grp b, ga] (m ≠ 31)) fun s =>
  s.memIssue i (!cellTag t || s.indexBad ga []) [st.tag a.toNat, t] fun s =>
  let data := st.group b.toNat st.vgrp
  let es := (st.examined true (st.vl w) (st.governs m)).map fun i =>
    (⟨i, addrAt (st.getX d) (s.indexOf ga i * 48), 48⟩ : Elem)
  s.access i .rmw s.order 16 es (op := fun e => some (.cell (cellUnits k (elemOf w data e.idx)))) fun s es =>
    s.perform true (oneEach es) (cellUnit s.order k fun e => elemOf w data e.idx) (fun st _ => st) (fun t => t.epochRel s.order)

/-- Element k of a block-scaled block with scale word e, as an integer and an exponent; none for a NaN block, and the
zero block is 0 (R132). -/
def blockValue (n x e : Nat) : Option (Int × Int) :=
  if e = 1023 then none
  else if e = 0 then some (0, 0)
  else some (if n = 1 then (if x = 0 then 1 else -1) else toSigned n x, (e : Int) - 511)

/-- An element of a reduce: what the NMR adds (R202). -/
def reduceAdd (k : Kind) (bytes x e addr next : Nat) : ReduceAdd :=
  let cell (u : Option Int) : ReduceAdd := .cell (BitVec.ofNat 64 addr) (BitVec.ofNat 64 next) u
  match k with
  | .int _ _ => .int (BitVec.ofNat 64 addr) bytes x
  | .bs n => cell ((blockValue n x e).map fun v => roundedInt .rne v.1 (v.2 + 149))
  | k => cell (cellUnits k x)

/-- The elements gathered by the 4 KiB unit of the target (R202). A wide cell on two units goes into the packet of its first
byte: the model's choice (log 59). -/
def byPage (es : List (Elem × List Piece)) : List (List Nat × List (Elem × List Piece)) :=
  (dedup (es.map fun e => e.1.addr / 4096)).map fun a =>
    let l := es.filter fun e => e.1.addr / 4096 = a
    (l.map fun e => e.1.idx, l)

/-- `vrred`: one packet for each 4 KiB unit, to the near-memory reduce unit of the local stack or to the target device
(R202, R339, R348). A target number that is the device's own is the local device; one that fabric traffic cannot reach
raises the access violation at the lowest element (log 29). -/
def execVrred (d a b m : Reg) (chainB : Bool) (s : State) : Res :=
  let i : Instr := .vrred d a b m chainB
  let st := s.me
  let t := st.tag b.toNat
  let k := s.myCore.kind t
  let block := k.blockBits ≠ 0
  s.orTrap (s.gate i 4 [] [s.grp b] (s.grp b :: if block then [s.scaleGroup b] else []) (m ≠ 31)) fun s =>
  s.memIssue i ((block && s.segmentBad b) || (!block && !k.isInt && !cellTag t)) (t :: if block then [5] else []) fun s =>
  let w := k.width
  let data := st.group b.toNat st.vgrp
  let scales := st.group (b.toNat + st.vgrp) st.vgrp
  let bytes := if k.isInt then w / 8 else 48
  let es := (st.examined true (st.vl w) (st.governs m)).map fun i =>
    (⟨i, addrAt (st.getX d) (i * bytes : Nat), bytes⟩ : Elem)
  let target := (st.getX a).toNat
  let value (i : Nat) (addr next : Nat) : ReduceAdd :=
    reduceAdd k bytes (elemOf w data i) (elemOf 16 scales (i / 32) % 1024) addr next
  let packet (s : State) (dev : Nat) (adds : List ReduceAdd) (page : Nat) : ReducePacket :=
    { adds := adds, page := BitVec.ofNat 64 page, device := dev, job := s.myJob, core := s.myTeam,
      strand := s.curStrand, release := s.order.rel, sync := s.relEpoch s.order }
  if target = 0 || (target = s.devid.toNat) then
    s.access i .reduce s.order (if k.isInt then bytes else 16) es fun s es =>
      s.perform true (byPage es)
        (fun t l =>
          let adds := l.map fun e =>
            let at_ (n : Nat) : Nat := ((e.2[n]?).map Piece.addr).getD 0
            value e.1.idx (at_ 0) (at_ 1)
          let page := ((l.head?.bind fun e => e.2.head?).map Piece.addr).getD 0 / 4096 * 4096
          let r : Reduce := {
            sent := packet t 0 adds page
            adds := adds
            page := page
            interval := t.me.interval
            no := t.askId
            vpages := dedup (l.flatMap fun e => e.2.map Piece.page)
            slot := none }
          ({ t.takeNumber with nmrQ := t.nmrQ ++ [r] }, []))
        (fun st _ => st) (fun t => t.epochRel s.order)
  else if s.order.rel && !s.settled s.order.scope || s.storeHeld then s.waitsIssued i
  else match es.find? (fun e => e.addr % (if k.isInt then bytes else 16) ≠ 0) with
    | some e => s.trapped { cause := .misalign, info := e.addr, elem := e.idx }
    | none =>
      match s.reaches target, es with
      | false, e :: _ => s.trapped { cause := .access, info := e.addr, elem := e.idx }
      | _, _ =>
        match s.perform true (byPage (es.map fun e => (e, ([] : List Piece))))
          (fun t l =>
            let adds := l.map fun e => value e.1.idx e.1.addr ((e.1.addr / 4096 + 1) * 4096)
            let page := (l.head?.map fun e => e.1.addr / 4096 * 4096).getD 0
            let pkt := packet t t.devid.toNat adds page
            ({ t.queueFlit target (.reduce target pkt) with remoteQ := t.remoteQ ++ [(target, pkt)] }, []))
          (fun st _ => st) (fun t => t.epochRel s.order) with
        | .next t => .next t.settlePorts
        | r => r

/-- An order that an instruction accepts behind an attribute word (R55): loads 0 and 1, stores 0 and 2, atomics all. -/
def ordAccepted (load atomic : Bool) (od : Ordering) : Bool :=
  match od with
  | .rlx => true
  | .acq => load || atomic
  | .rel => !load
  | .acqRel => atomic

/-- A pair: the vector memory word under the attribute word's scope and order; any other pair is the illegal-instruction
trap at the attribute word (R53 to R55). -/
def execMemoryAttributeWord (sc : Scope) (od : Ordering) (next : Instr) (s : State) : Res :=
  let t := { s with attr := some (sc, od) }
  let bad : Res := s.trapped { cause := .illegal, info := encodeWord (.memoryAttributeWord sc od next) }
  let load (r : Res) : Res := if ordAccepted true false od then r else bad
  let store (r : Res) : Res := if ordAccepted false false od then r else bad
  match next with
  | .vld d a m => load (execVld d a m t)
  | .vldff d a m => load (execVldff d a m t)
  | .vpf a m => load (execVpf a m t)
  | .vlds d a b m => load (execVlds d a b m t)
  | .vldx d a b m cb => load (execVldx d a b m cb t)
  | .vldseg d a m => load (execVldseg d a m t)
  | .vst d b m cb => store (execVst d b m cb t)
  | .vsts d a b m cb => store (execVsts d a b m cb t)
  | .vstx d a b m ca cb => store (execVstx d a b m ca cb t)
  | .vstseg d b m cb => store (execVstseg d b m cb t)
  | .vsca d a b m ca cb => store (execVsca d a b m ca cb t)
  | .vfacc d a b m ca cb => store (execVfacc d a b m ca cb t)
  | .vrred d a b m cb => store (execVrred d a b m cb t)
  | .vamoAdd d a b m ca cb => execVamoAdd d a b m ca cb t
  | .vamoMin d a b m ca cb => execVamoMin d a b m ca cb t
  | .vamoMax d a b m ca cb => execVamoMax d a b m ca cb t
  | .vamoAnd d a b m ca cb => execVamoAnd d a b m ca cb t
  | .vamoOr d a b m ca cb => execVamoOr d a b m ca cb t
  | .vamoXor d a b m ca cb => execVamoXor d a b m ca cb t
  | .vamoSwap d a b m ca cb => execVamoSwap d a b m ca cb t
  | .vcas d a b m ca cb => execVcas d a b m ca cb t
  | _ => bad

/-- `fence`: waits until every earlier access has performed for the scope; in deterministic mode one of device scope or
wider takes the epochs met and adds 1, and one of die scope is a release with the count as it stands (R287, R288, R295). -/
def execFence (sc : Scope) (s : State) : Res :=
  s.scalarGate 4 fun s =>
    if !s.settled sc then s.waits (.fence sc)
    else if s.myCore.det && wideScope sc then
      let e := Nat.max s.myCore.epoch s.me.seen + 1
      let s := s.setMyCore { s.myCore with epoch := e }
      s.complete { s.me with fep := e }
    else if s.myCore.det && sc = .die then s.complete { s.me with fepDie := s.myCore.epoch }
    else s.complete s.me

/-- `convoy`: in deterministic mode waits until every earlier instruction of the strand has completed in full (R289). -/
def execConvoy (s : State) : Res :=
  s.scalarGate 4 fun s =>
    if s.myCore.det && (!s.settled .core || s.myCore.mq.any fun e => e.strand = s.curStrand) then s.waits .convoy
    else s.complete s.me

end Sys2Proof.Machine
end

