-- ==== Sys2Proof/Machine/VectorFloat.lean ====
section
/-! DEFINITION. Vector floating point: arithmetic, conversion, special functions, reductions, block-scaled conversion and
wide-cell readout (R209 to R216). -/

namespace Sys2Proof.Machine

/-- The format of a float kind; f32 for another kind, which no float instruction accepts. -/
def Kind.fmt (k : Kind) : Fmt :=
  match k with
  | .flt f => f
  | _ => Fmt.f32

/-- The frame of the element-by-element float instructions (R209): sources in field order, the operation tag from them,
each element converted under RM, and the draw of `.rsd` from d and the index. -/
def State.mapFloat (s : State) (i : Instr) (d m : Reg) (srcs : List Reg) (rm : Rounding)
    (f : Fmt → Nat → List Nat → Out) : Res :=
  s.orTrap (s.gate i 5 [s.grp d] (srcs.map s.grp) (s.grp d :: srcs.map s.grp) (m ≠ 31)) fun s =>
  let st := s.me
  let tags := srcs.map fun r => st.tag r.toNat
  let op := opTag tags
  s.orTrap (s.tagTrap i op Kind.isFloat tags) fun s =>
  let t := op.getD 0
  let k := s.myCore.kind t
  let g := st.governs m
  let vl := st.vl k.width
  let bound := st.bound vl g
  let vs := srcs.map fun r => (s.source r, decide (st.tag r.toNat = t))
  let el (i : Nat) : Out :=
    let dr := st.rsdDraw rm d.toNat i
    let xs := vs.map fun v => v.1.elem v.2 k rm dr i
    let o := f k.fmt dr (xs.map Out.bits)
    ⟨o.bits % 2 ^ k.fmt.total, xs.foldl (fun fl x => fl ||| x.fl) o.fl⟩
  let out := mergeElems k.width vl bound (st.group d.toNat st.vgrp) g.lets fun i => (el i).bits
  .next (s.finishVector (st.setGroup d.toNat st.vgrp out t (touches k.width bound g.lets))
    (flagElems vl bound g.lets fun i => (el i).fl))

/-- An operation on one value. -/
def onOne (f : Val → Out) (fm : Fmt) (xs : List Nat) : Out :=
  match xs with
  | [x] => f (fm.decode x)
  | _ => fm.invalid

/-- An operation on two values. -/
def onTwo (f : Val → Val → Out) (fm : Fmt) (xs : List Nat) : Out :=
  match xs with
  | [x, y] => f (fm.decode x) (fm.decode y)
  | _ => fm.invalid

/-- `fadd` (R211). -/
def execFadd (d a b m : Reg) (chainA chainB : Bool) (rm : Rounding) (s : State) : Res :=
  s.mapFloat (.fadd d a b m chainA chainB rm) d m [a, b] rm fun f dr => onTwo (f.add rm dr) f

/-- `fsub` (R211). -/
def execFsub (d a b m : Reg) (chainA chainB : Bool) (rm : Rounding) (s : State) : Res :=
  s.mapFloat (.fsub d a b m chainA chainB rm) d m [a, b] rm fun f dr => onTwo (fun x y => f.add rm dr x y.negate) f

/-- `fmul` (R211). -/
def execFmul (d a b m : Reg) (chainA chainB : Bool) (rm : Rounding) (s : State) : Res :=
  s.mapFloat (.fmul d a b m chainA chainB rm) d m [a, b] rm fun f dr => onTwo (f.mul rm dr) f

/-- `fma`: the sources are a, b and d (R210, R211). -/
def execFma (d a b m : Reg) (chainA chainB : Bool) (rm : Rounding) (s : State) : Res :=
  s.mapFloat (.fma d a b m chainA chainB rm) d m [a, b, d] rm fun f dr xs =>
    match xs with
    | [x, y, z] => f.fma rm dr (f.decode x) (f.decode y) (f.decode z)
    | _ => f.invalid

/-- `fdiv` (R211). -/
def execFdiv (d a b m : Reg) (chainA chainB : Bool) (rm : Rounding) (s : State) : Res :=
  s.mapFloat (.fdiv d a b m chainA chainB rm) d m [a, b] rm fun f dr => onTwo (f.div rm dr) f

/-- `fsqrt` (R211). -/
def execFsqrt (d a m : Reg) (chainA : Bool) (rm : Rounding) (s : State) : Res :=
  s.mapFloat (.fsqrt d a m chainA rm) d m [a] rm fun f dr => onOne (f.sqrt rm dr) f

/-- `fround` (R166, R211). -/
def execFround (d a m : Reg) (chainA : Bool) (rm : Rounding) (s : State) : Res :=
  s.mapFloat (.fround d a m chainA rm) d m [a] rm fun f dr => onOne (f.integral rm dr) f

/-- `fmin` (R136, R211). -/
def execFmin (d a b m : Reg) (chainA chainB : Bool) (s : State) : Res :=
  s.mapFloat (.fmin d a b m chainA chainB) d m [a, b] .rne fun f _ xs =>
    match xs with
    | [x, y] => f.pick false x y
    | _ => f.invalid

/-- `fmax` (R136, R211). -/
def execFmax (d a b m : Reg) (chainA chainB : Bool) (s : State) : Res :=
  s.mapFloat (.fmax d a b m chainA chainB) d m [a, b] .rne fun f _ xs =>
    match xs with
    | [x, y] => f.pick true x y
    | _ => f.invalid

/-- `fabs` (R211). -/
def execFabs (d a m : Reg) (chainA : Bool) (s : State) : Res :=
  s.mapFloat (.fabs d a m chainA) d m [a] .rne fun f _ xs => ⟨xs.headD 0 % 2 ^ (f.ew + f.mw), 0⟩

/-- `fneg` (R211). -/
def execFneg (d a m : Reg) (chainA : Bool) (s : State) : Res :=
  s.mapFloat (.fneg d a m chainA) d m [a] .rne fun f _ xs => ⟨xs.headD 0 ^^^ 2 ^ (f.ew + f.mw), 0⟩

/-- `fscale`: A × 2^n, n from the index group under its own tag (R212). -/
def execFscale (d a b m : Reg) (chainA chainB : Bool) (rm : Rounding) (s : State) : Res :=
  let i : Instr := .fscale d a b m chainA chainB rm
  let st := s.me
  let t := st.tag a.toNat
  let k := s.myCore.kind t
  let gb := s.indexGroup b k.width
  s.orTrap (s.gate i 5 [s.grp d] [s.grp a] [s.grp d, s.grp a, gb] (m ≠ 31)) fun s =>
  s.memIssue i (!k.isFloat || s.indexBad gb [s.grp d]) [t, st.tag b.toNat] fun s =>
  let g := st.governs m
  let vl := st.vl k.width
  let bound := st.bound vl g
  let src := st.group a.toNat st.vgrp
  let el (i : Nat) : Out :=
    let o := k.fmt.scale rm (st.rsdDraw rm d.toNat i) (k.fmt.decode (elemOf k.width src i)) (s.indexOf gb i)
    ⟨o.bits % 2 ^ k.fmt.total, o.fl⟩
  let out := mergeElems k.width vl bound (st.group d.toNat st.vgrp) g.lets fun i => (el i).bits
  .next (s.finishVector (st.setGroup d.toNat st.vgrp out t (touches k.width bound g.lets))
    (flagElems vl bound g.lets fun i => (el i).fl))

/-- Clamp an integer to the range of w bits of a signedness. -/
def clampTo (signed : Bool) (w : Nat) (x : Int) : Int :=
  let lo : Int := if signed then -(2 ^ (w - 1)) else 0
  let hi : Int := if signed then 2 ^ (w - 1) - 1 else 2 ^ w - 1
  if x < lo then lo else if hi < x then hi else x

/-- A float value to an integer (R213). -/
def toInteger (signed : Bool) (w : Nat) (rm : Rounding) (d : Nat) (v : Val) : Out :=
  let give (x : Int) (inexact : Bool) : Out :=
    let y := clampTo signed w x
    ⟨wrapTo w y, if y ≠ x then fNV else if inexact then fNX else 0⟩
  match v with
  | .zero _ => ⟨0, 0⟩
  | .nan _ _ _ => ⟨0, fNV⟩
  | .inf n => ⟨wrapTo w (clampTo signed w (if n then -(2 ^ 70) else 2 ^ 70)), fNV⟩
  | .num n m e =>
    if 80 ≤ e then ⟨wrapTo w (clampTo signed w (if n then -(2 ^ 70) else 2 ^ 70)), fNV⟩
    else
      let r := integralRound rm d n m e
      give r.1 r.2

/-- Conversion of one element (R213). -/
def convertTo (src dst : Kind) (rm : Rounding) (d x : Nat) : Out :=
  match src, dst with
  | .int sg w, .int sg' w' => ⟨wrapTo w' (clampTo sg' w' (if sg then toSigned w x else x)), 0⟩
  | .flt f, .int sg w => toInteger sg w rm d (f.decode x)
  | .flt f, .flt f' => f'.convert f rm d (f.decode x)
  | .int sg w, .flt f => f.roundInt rm d (if sg then toSigned w x else x) 0 false
  | _, _ => ⟨x, 0⟩

/-- `fcvt`: from a's tag to d's tag; VL under the wider one, and the narrower side's group is smaller (R213). -/
def execFcvt (d a m : Reg) (chainA : Bool) (rm : Rounding) (s : State) : Res :=
  let i : Instr := .fcvt d a m chainA rm
  let st := s.me
  let ka := s.myCore.kind (st.tag a.toNat)
  let kd := s.myCore.kind (st.tag d.toNat)
  let wide := Nat.max ka.width kd.width
  let ga : Group := ⟨a.toNat, indexSpan st.vgrp ka.width wide⟩
  let gd : Group := ⟨d.toNat, indexSpan st.vgrp kd.width wide⟩
  let known (g : Group) : List Group := if g.span = st.vgrp then [g] else []
  s.orTrap (s.gate i 5 (known gd) (known ga) [gd, ga] (m ≠ 31)) fun s =>
  s.memIssue i (!(ka.isInt || ka.isFloat) || !(kd.isInt || kd.isFloat) || groupsIllegal [gd] [ga])
    [st.tag a.toNat, st.tag d.toNat] fun s =>
  let g := st.governs m
  let bound := st.bound (st.vl wide) g
  let src := st.group a.toNat ga.span
  let el (i : Nat) : Out := convertTo ka kd rm (st.rsdDraw rm d.toNat i) (elemOf ka.width src i)
  let n := Config.vmax * gd.span / kd.width
  let out := mergeElems kd.width n bound (st.group d.toNat gd.span) g.lets fun i => (el i).bits
  .next (s.finishVector (st.setGroup d.toNat gd.span out (st.tag d.toNat) (touches kd.width bound g.lets))
    (flagElems n bound g.lets fun i => (el i).fl))

/-- Formats of the special functions: f32 and the 16-bit ones (R214). -/
def specialTag (t : Nat) : Bool := cellTag t

/-- `fspec` (R214). -/
def State.special (s : State) (i : Instr) (d a m : Reg) (rm : Rounding) (f : Special) : Res :=
  s.orTrap (s.gate i 5 [s.grp d] [s.grp a] [s.grp d, s.grp a] (m ≠ 31)) fun s =>
  let st := s.me
  let t := st.tag a.toNat
  s.memIssue i (!specialTag t) [t] fun s =>
  let k := s.myCore.kind t
  let g := st.governs m
  let vl := st.vl k.width
  let bound := st.bound vl g
  let src := st.group a.toNat st.vgrp
  let el (i : Nat) : Out := f.eval k.fmt rm (st.rsdDraw rm d.toNat i) (elemOf k.width src i)
  let out := mergeElems k.width vl bound (st.group d.toNat st.vgrp) g.lets fun i => (el i).bits
  .next (s.finishVector (st.setGroup d.toNat st.vgrp out t (touches k.width bound g.lets))
    (flagElems vl bound g.lets fun i => (el i).fl))

/-- `fspec.exp2` (R214). -/
def execFspecExp2 (d a m : Reg) (chainA : Bool) (rm : Rounding) (s : State) : Res :=
  s.special (.fspecExp2 d a m chainA rm) d a m rm .exp2

/-- `fspec.log2` (R214). -/
def execFspecLog2 (d a m : Reg) (chainA : Bool) (rm : Rounding) (s : State) : Res :=
  s.special (.fspecLog2 d a m chainA rm) d a m rm .log2

/-- `fspec.rcp` (R214). -/
def execFspecRcp (d a m : Reg) (chainA : Bool) (rm : Rounding) (s : State) : Res :=
  s.special (.fspecRcp d a m chainA rm) d a m rm .rcp

/-- `fspec.rsqrt` (R214). -/
def execFspecRsqrt (d a m : Reg) (chainA : Bool) (rm : Rounding) (s : State) : Res :=
  s.special (.fspecRsqrt d a m chainA rm) d a m rm .rsqrt

/-- `fspec.tanh` (R214). -/
def execFspecTanh (d a m : Reg) (chainA : Bool) (rm : Rounding) (s : State) : Res :=
  s.special (.fspecTanh d a m chainA rm) d a m rm .tanh

/-- `fspec.sigmoid` (R214). -/
def execFspecSigmoid (d a m : Reg) (chainA : Bool) (rm : Rounding) (s : State) : Res :=
  s.special (.fspecSigmoid d a m chainA rm) d a m rm .sigmoid

/-- A node of the reduction tree over indices k × 2^h on: none when no active element lies under it, else the value and
the conditions (R140). `comb` combines two values with a draw index. -/
def treeNode (bound : Nat) (act : Nat → Bool) (leaf : Nat → Nat) (comb : Nat → Nat → Nat → Out) :
    Nat → Nat → Option Out
  | 0, k => if k < bound && act k then some ⟨leaf k, 0⟩ else none
  | h + 1, k =>
    if bound ≤ k * 2 ^ (h + 1) then none
    else
      match treeNode bound act leaf comb h (2 * k), treeNode bound act leaf comb h (2 * k + 1) with
      | none, u => u
      | l, none => l
      | some l, some u =>
        let o := comb ((h + 1) * 2 ^ 18 + k) l.bits u.bits
        some ⟨o.bits, l.fl ||| u.fl ||| o.fl⟩

/-- The float reductions: the tree of a's active elements, then the seed, the first W bits of d, under a's tag (R140,
R210). Without an active element the seed stays bit for bit (R137), also where the format is narrower than its container (R123):
the model's choice (log 69). The last combination has the seed as its first operand and the tree's root as its second, as R140 writes
them, so that of two NaNs the seed's is delivered: the model's choice (log 69). -/
def State.floatReduce (s : State) (i : Instr) (d a m : Reg) (comb : Strand → Fmt → Nat → Nat → Nat → Out) : Res :=
  s.orTrap (s.gate i 5 [s.grp d] [s.grp a] [s.grp d, s.grp a] (m ≠ 31)) fun s =>
  let st := s.me
  let t := st.tag a.toNat
  s.memIssue i (!(s.myCore.kind t).isFloat) [t] fun s =>
  let k := s.myCore.kind t
  let g := st.governs m
  let vl := st.vl k.width
  let src := st.group a.toNat st.vgrp
  let old := st.group d.toNat st.vgrp
  let seed := elemOf k.width old 0
  let c := comb st k.fmt
  let o : Out := match treeNode (st.bound vl g) g.lets (elemOf k.width src) c (Nat.log2 vl) 0 with
    | none => ⟨seed, 0⟩
    | some r => let x := c 0xFFFFFF seed r.bits; ⟨x.bits % 2 ^ k.fmt.total, r.fl ||| x.fl⟩
  let out := mergeElems k.width vl 1 old (fun _ => true) fun _ => o.bits
  .next (s.finishVector (st.setGroup d.toNat st.vgrp out t fun j => j = 0) o.fl)

/-- `fredsum` (R140, R210). -/
def execFredsum (d a : Reg) (rm : Rounding) (m : Reg) (chainA : Bool) (s : State) : Res :=
  s.floatReduce (.fredsum d a rm m chainA) d a m fun st f idx x y =>
    f.add rm (st.rsdDraw rm d.toNat idx) (f.decode x) (f.decode y)

/-- `fredmax` (R136, R140). -/
def execFredmax (d a m : Reg) (chainA : Bool) (s : State) : Res :=
  s.floatReduce (.fredmax d a m chainA) d a m fun _ f _ x y => f.pick true x y

/-- `fcell`: wide cells of the bytes of group a, rounded to d's format (R138, R216). -/
def execFcell (d a : Reg) (rm : Rounding) (m : Reg) (chainA : Bool) (s : State) : Res :=
  let i : Instr := .fcell d a rm m chainA
  s.orTrap (s.gate i 5 [s.grp d] [s.grp a] [s.grp d, s.grp a] (m ≠ 31)) fun s =>
  let st := s.me
  let t := st.tag d.toNat
  s.memIssue i (!(s.myCore.kind t).isFloat) [t] fun s =>
  let k := s.myCore.kind t
  let g := st.governs m
  let vl := st.vl k.width
  let bound := Nat.min (st.bound vl g) (Config.vmax * st.vgrp / 384)
  let src := st.group a.toNat st.vgrp
  let el (i : Nat) : Out :=
    let c := elemOf 384 src i
    if c = cellNaN then k.fmt.canonical
    else k.fmt.roundInt rm (st.rsdDraw rm d.toNat i) (toSigned 384 c) (-149) false
  let out := mergeElems k.width vl bound (st.group d.toNat st.vgrp) g.lets fun i => (el i).bits
  .next (s.finishVector (st.setGroup d.toNat st.vgrp out t (touches k.width bound g.lets))
    (flagElems vl bound g.lets fun i => (el i).fl))

/-- A packed block: its scale word, its elements as bits, and its conditions (R215). -/
structure Packed where
  scale : Nat
  bits  : Nat
  fl    : Flags
  deriving DecidableEq, Repr

/-- Elements put side by side, the first lowest. -/
def joinElems (w : Nat) (l : List Nat) : Nat := l.foldr (fun x acc => x % 2 ^ w + acc <<< w) 0

/-- One element of a block of n bits under scale 2^sc: its code, and the conditions (R215). -/
def packElem (n : Nat) (rm : Rounding) (d : Nat) (top : Bool) (sc : Int) (v : Val) : Nat × Flags :=
  match v with
  | .num neg m e =>
    if n = 1 then (if neg then 1 else 0, if Val.compare (.num false m e) (.num false 1 sc) = 0 then 0 else fNX)
    else
      let r := integralRound rm d neg m (e - sc)
      let q := clampTo true n r.1
      (wrapTo n q, (if r.2 then fNX else 0) ||| if q ≠ r.1 then (if top then fNX ||| fOF else fNX) else 0)
  | v => if n = 1 then (if v.neg then 1 else 0, fNX) else (0, 0)

/-- Pack the 32 values of a block (R215). -/
def packBlock (n : Nat) (rm : Rounding) (d : Nat) (vs : List Val) : Packed :=
  let nums := vs.filterMap fun v =>
    match v with
    | .num _ m e => some (m, e)
    | _ => none
  if vs.any (fun v => match v with | .nan _ _ _ => true | .inf _ => true | _ => false) then ⟨1023, 0, fNV⟩
  else match nums with
    | [] => ⟨0, 0, 0⟩
    | (_, e0) :: _ =>
      let lo := nums.foldl (fun (acc : Int) x => if x.2 < acc then x.2 else acc) e0
      let mags := nums.map fun x => x.1 * 2 ^ (x.2 - lo).toNat
      let e : Int :=
        if n = 1 then (Nat.log2 mags.sum : Int) + lo - 5 + 511
        else (Nat.log2 (mags.foldl Nat.max 0) : Int) + lo + 513 - n
      let scale : Nat := if e < 1 then 1 else if 1022 < e then 1022 else e.toNat
      let es := vs.map (packElem n rm d (scale = 1022) ((scale : Int) - 511))
      let fl := es.foldl (fun fl x => fl ||| x.2) (if 1022 < e then fOF else 0)
      ⟨scale, joinElems n (es.map Prod.fst), fl ||| if e < 1 && fl &&& fNX ≠ 0 then fUF else 0⟩

/-- The block-scaled side of `vblk` and `vunblk`: the element group and the scale register behind it (R215). -/
def State.blockSide (s : State) (r : Reg) (w : Nat) : Group × Group :=
  let g : Group := ⟨r.toNat, indexSpan s.me.vgrp (s.myCore.kind (s.me.tag r.toNat)).width w⟩
  (g, ⟨r.toNat + g.span, 1⟩)

/-- What is refused at issue of the two sides: the tags, the element group's first register, the scale register's number
and overlaps with the float group (R215). -/
def State.blockBad (s : State) (bs fl : Reg) : Bool :=
  let k := s.myCore.kind (s.me.tag fl.toNat)
  let g := s.blockSide bs k.width
  (s.myCore.kind (s.me.tag bs.toNat)).blockBits = 0 || !k.isFloat || bs.toNat % g.1.span ≠ 0 || 31 < g.2.first
    || g.1.partly (s.grp fl) || g.2.partly (s.grp fl)

/-- `vblk`: each active block of 32 floats becomes elements and a scale word (R215). -/
def execVblk (d a : Reg) (rm : Rounding) (m : Reg) (chainA : Bool) (s : State) : Res :=
  let i : Instr := .vblk d a rm m chainA
  let st := s.me
  let ta := st.tag a.toNat
  let td := st.tag d.toNat
  let k := s.myCore.kind ta
  let side := s.blockSide d k.width
  s.orTrap (s.gate i 5 [] [s.grp a] [side.1, side.2, s.grp a] (m ≠ 31)) fun s =>
  s.memIssue i (s.blockBad d a) [ta, td, 5] fun s =>
  let n := (s.myCore.kind td).blockBits
  let g := st.governs m
  let blocks := activeList (st.bound (st.vl k.width / 32) g) g.lets
  let src := st.group a.toNat st.vgrp
  let packed := blocks.map fun j =>
    (j, packBlock n rm (st.rsdDraw rm d.toNat (32 * j))
      ((List.range 32).map fun i => k.fmt.decode (elemOf k.width src (32 * j + i))))
  let st' := (st.writeElems d.toNat side.1.span (32 * n) td (packed.map fun p => (p.1, p.2.bits))).writeElems
    side.2.first 1 16 5 (packed.map fun p => (p.1, p.2.scale))
  .next (s.finishVector st' (packed.foldl (fun fl p => fl ||| p.2.fl) 0))

/-- `vunblk`: each element of an active block is v × 2^(E−511), rounded to d's format (R132, R215). -/
def execVunblk (d a : Reg) (rm : Rounding) (m : Reg) (chainA : Bool) (s : State) : Res :=
  let i : Instr := .vunblk d a rm m chainA
  let st := s.me
  let ta := st.tag a.toNat
  let td := st.tag d.toNat
  let k := s.myCore.kind td
  let side := s.blockSide a k.width
  s.orTrap (s.gate i 5 [s.grp d] [] [s.grp d, side.1, side.2] (m ≠ 31)) fun s =>
  s.memIssue i (s.blockBad a d) [ta, td, 5] fun s =>
  let n := (s.myCore.kind ta).blockBits
  let g := st.governs m
  let vl := st.vl k.width
  let bound := 32 * st.bound (vl / 32) g
  let act (i : Nat) : Bool := g.lets (i / 32)
  let src := st.group a.toNat side.1.span
  let scales := st.group side.2.first 1
  let el (i : Nat) : Out :=
    match blockValue n (elemOf n src i) (elemOf 16 scales (i / 32) % 1024) with
    | none => k.fmt.canonical
    | some v => k.fmt.roundInt rm (st.rsdDraw rm d.toNat i) v.1 v.2 false
  let out := mergeElems k.width vl bound (st.group d.toNat st.vgrp) act fun i => (el i).bits
  .next (s.finishVector (st.setGroup d.toNat st.vgrp out td (touches k.width bound act))
    (flagElems vl bound act fun i => (el i).fl))

end Sys2Proof.Machine
end

