-- ==== Sys2Proof/Machine/Matrix.lean ====
section
/-! DEFINITION. The bit-plane matrix engine: operand formats and groups, exact products into accumulator tiles, clause
zeros, tile management, rows and images, and the matrix queue (R86, R134, R220 to R241). A product takes its effect on
the tile at the step of its instruction; its queue entry stays until it completes (log 30). -/

namespace Sys2Proof.Machine

/-- ROWS, COLS and K of `mext` (R220). -/
def Strand.rows (st : Strand) : Nat := st.mext.toNat % 64
/-- COLS. -/
def Strand.cols (st : Strand) : Nat := st.mext.toNat / 2 ^ 8 % 64
/-- K. -/
def Strand.kext (st : Strand) : Nat := st.mext.toNat / 2 ^ 16 % 2 ^ 12

/-- What a format code of `mfmt` selects (R221). -/
inductive MatFmt where
  | int (signed : Bool) (w : Nat)
  | bs (n : Nat)
  | entry (e : Nat) (f : Fmt)
  | invalid
  deriving DecidableEq, Repr

/-- A code is valid (R221). -/
def matCodeOk (c : Nat) : Bool := if c / 64 = 2 then c % 64 ≤ 3 else c % 64 ≤ 15

/-- The format of a code on a core (R221). -/
def Core.matFmt (c : Core) (code : Nat) : MatFmt :=
  if !matCodeOk code then .invalid
  else match code / 64 with
    | 0 => .int true (code % 64 + 1)
    | 1 => .int false (code % 64 + 1)
    | 2 => .bs (2 ^ (code % 64))
    | _ => .entry (code % 64) (Fmt.ofEntry (c.fmt (code % 64)))

/-- Container width (R221). -/
def MatFmt.width (f : MatFmt) : Nat :=
  match f with
  | .int _ w => if w = 1 then 1 else if w = 2 then 2 else if w ≤ 4 then 4 else if w ≤ 8 then 8 else 16
  | .bs n => n
  | .entry _ f => f.w
  | .invalid => 8

/-- Use-mask class (R221). -/
def MatFmt.cls (f : MatFmt) : Nat :=
  match f with
  | .int _ w => if w = 1 then 20 else if w ≤ 8 then 16 else 17
  | .bs n => 25 + Nat.log2 n
  | .entry e _ => 32 + e
  | .invalid => 16

/-- The format-table entry that a format captures (R228). -/
def MatFmt.captured (f : MatFmt) : List Nat :=
  match f with
  | .entry e _ => [e]
  | _ => []

/-- The smallest power of two of registers that holds some bits (R222). -/
def spanFor (bits : Nat) : Nat :=
  2 ^ (((List.range 12).find? fun i => bits ≤ Config.vmax * 2 ^ i).getD 12)

/-- An operand: its register, its format, its K stride, and the spans of its element and scale groups (R222). -/
structure Operand where
  reg    : Nat
  fmt    : MatFmt
  kx     : Nat
  span   : Nat
  scales : Nat
  deriving DecidableEq, Repr

/-- The operand of a register and a format (R222). -/
def operandOf (r : Reg) (f : MatFmt) (kx : Nat) : Operand where
  reg := r.toNat
  fmt := f
  kx := kx
  span := spanFor (32 * kx * f.width)
  scales := match f with
    | .bs _ => spanFor (kx * 16)
    | _ => 0

/-- The operand's groups are refused at issue (R222). -/
def Operand.bad (o : Operand) : Bool :=
  8 < o.span || 8 < o.scales || o.reg % o.span ≠ 0 || 32 < o.reg + o.span + o.scales

/-- The groups that an operand names (R322). -/
def Operand.groups (o : Operand) : List Group := [⟨o.reg, o.span⟩, ⟨o.reg + o.span, o.scales⟩]

/-- A block of 32 K-positions of one row or column: integers and an exponent, a NaN block, and whether slicing rounded
(R134, R223). -/
structure Slice where
  vals    : List Int
  e       : Int
  nan     : Bool
  inexact : Bool
  deriving DecidableEq, Repr

/-- A block of zeros. -/
def zeroSlice (nan : Bool) : Slice := ⟨List.replicate 32 0, 0, nan, false⟩

/-- Exponent e_i and significand M_i of a finite nonzero value as R134 writes it. -/
def sliceExp (f : Fmt) (v : Val) : Option Int :=
  match v with
  | .num _ _ e => some (e + f.mw)
  | _ => none

/-- Block slicing of 32 floats (R134). -/
def sliceFloats (f : Fmt) (vs : List Val) : Slice :=
  if vs.any (fun v => match v with | .nan _ _ _ => true | .inf _ => true | _ => false) then zeroSlice true
  else match vs.filterMap (sliceExp f) with
    | [] => zeroSlice false
    | e0 :: es =>
      let eb := es.foldl (fun (acc : Int) e => if acc < e then e else acc) e0
      let q := vs.map fun v =>
        match v with
        | .num n m e => integralRound .rne 0 n m (e + f.mw - eb + 8 * f.slices - (f.mw + 1))
        | _ => (0, false)
      ⟨q.map Prod.fst, eb - 8 * f.slices + 1, false, q.any Prod.snd⟩

/-- The block of an operand from its 32 stored elements and its scale word (R132, R223). -/
def MatFmt.slice (f : MatFmt) (els : List Nat) (scale : Nat) : Slice :=
  match f with
  | .int sg w => ⟨els.map fun x => if sg then toSigned w (x % 2 ^ w) else ((x % 2 ^ w : Nat) : Int), 0, false, false⟩
  | .bs n =>
    if scale = 1023 then zeroSlice true
    else if scale = 0 then zeroSlice false
    else ⟨els.map fun x => if n = 1 then (if x = 0 then 1 else -1) else toSigned n x, (scale : Int) - 511, false, false⟩
  | .entry _ fm => sliceFloats fm (els.map fm.decode)
  | .invalid => zeroSlice false

/-- The blocks of row or column j; elements from `live` on count as zero (R222, R234). -/
def Strand.slices (st : Strand) (o : Operand) (live j : Nat) : List Slice :=
  let w := o.fmt.width
  let bits := (st.group o.reg o.span) >>> (w * (j * o.kx)) % 2 ^ (w * o.kx)
  let scales := st.group (o.reg + o.span) o.scales
  (List.range (o.kx / 32)).map fun b =>
    let blk := bits >>> (w * (32 * b)) % 2 ^ (w * 32)
    o.fmt.slice ((List.range 32).map fun t => if 32 * b + t < live then elemOf w blk t else 0)
      (elemOf 16 scales (j * (o.kx / 32) + b) % 1024)

/-- One element as an integer times a power of two. -/
abbrev Term := Int × Int

/-- The elements of some blocks in K order. -/
def termsOf (bs : List Slice) : List Term := bs.flatMap fun b => b.vals.map fun v => (v, b.e)

/-- Exact sum of terms: an integer and its exponent (R225). -/
def sumTerms (l : List Term) : Term :=
  match l.filter fun t => t.1 ≠ 0 with
  | [] => (0, 0)
  | t :: ts =>
    let lo := ts.foldl (fun (acc : Int) x => if x.2 < acc then x.2 else acc) t.2
    ((t :: ts).foldl (fun (acc : Int) x => acc + x.1 * (2 ^ (x.2 - lo).toNat : Nat)) 0, lo)

/-- The sum of products of a row of A and a column of B (R225). -/
def dotTerms (a b : List Term) : Term := sumTerms (List.zipWith (fun x y => (x.1 * y.1, x.2 + y.2)) a b)

/-- The NaN code of a tile element (R224). -/
def tileNaN : BitVec 256 := BitVec.ofNat 256 (2 ^ 255)

/-- A tile element's integer (R224). -/
def tileInt (c : BitVec 256) : Int := toSigned 256 c.toNat

/-- A tile whose element 32m + n is given by a function, which also says what flags it sets. -/
def Tile.build (t : Tile) (f : Nat → BitVec 256 × Bool × Bool × Bool) : Tile :=
  let es := (List.range 1024).map fun i => (i, f i)
  { t with
    c := (es.filter fun e => e.2.1 ≠ 0).map fun e => (e.1, e.2.1)
    inx := t.inx || es.any fun e => e.2.2.1
    ovf := t.ovf || es.any fun e => e.2.2.2.1
    nan := t.nan || es.any fun e => e.2.2.2.2 }

/-- An integer saturated to the finite range of a tile: the code, INX, OVF and NAN (R225, R237). -/
def tileCode (y : Int) (inexact : Bool) : BitVec 256 × Bool × Bool × Bool :=
  let hi : Int := 2 ^ 255 - 1
  if hi < y then (BitVec.ofInt 256 hi, inexact, true, false)
  else if y < -hi then (BitVec.ofInt 256 (-hi), inexact, true, false)
  else (BitVec.ofInt 256 y, inexact, false, false)

/-- round_ne of x × 2^sh, with whether it differs. -/
def roundShift (x sh : Int) : Int × Bool := integralRound .rne 0 (x < 0) x.natAbs sh

/-- The update of one element by a sum and a NaN (R225). -/
def tileUpdate (anchor : Int) (c : BitVec 256) (sum : Term) (nan : Bool) : BitVec 256 × Bool × Bool × Bool :=
  if nan || c = tileNaN then (tileNaN, false, false, true)
  else
    let sh := sum.2 - anchor
    if 0 ≤ sh then tileCode (tileInt c + sum.1 * (2 ^ sh.toNat : Nat)) false
    else
      let r := roundShift (tileInt c * (2 ^ (-sh).toNat : Nat) + sum.1) sh
      tileCode r.1 r.2

/-- Planes of an operand of a format (R226). -/
def MatFmt.planes (f : MatFmt) : Nat :=
  match f with
  | .int _ w => w
  | .bs n => n
  | .entry _ fm => 8 * fm.slices
  | .invalid => 0

/-- What plane b adds to an element v: its bit of a number in two's complement, of one without a sign, or of a magnitude beside its
sign; the one plane of a bs1 element is the element (R132, R226). -/
def MatFmt.plane (f : MatFmt) (b : Nat) (v : Int) : Int :=
  let signed (w : Nat) : Int := if (wrapTo w v).testBit b then (if b + 1 = w then -(2 ^ b) else 2 ^ b) else 0
  match f with
  | .int true w => signed w
  | .bs n => if n = 1 then v else signed n
  | _ => if v.natAbs.testBit b then v.sign * 2 ^ b else 0

/-- The sum of products of a row of A and a column of B over the plane pairs from `lo` up to `hi`, the pairs counted plane by plane
of A (R225, R226; log 30). -/
def pairSum (fa fb : MatFmt) (lo hi : Nat) (a b : List Term) : Term :=
  sumTerms ((List.range (hi - lo)).map fun i =>
    dotTerms (a.map fun x => (fa.plane ((lo + i) / fb.planes) x.1, x.2)) (b.map fun x => (fb.plane ((lo + i) % fb.planes) x.1, x.2)))

/-- The terms of the active rows of A and columns of B with whether a NaN block is used, and whether slicing rounded (R222 to R225,
R233, R234). Which blocks of B count as used and as sliced is the model's choice (log 55). -/
def Strand.factors (st : Strand) (a b : Operand) (live : Nat) (ks : List Nat) :
    List (List Term × Bool) × List (List Term × Bool) × Bool :=
  let rows := (List.range st.rows).map fun m => st.slices a live m
  let cols := (List.range st.cols).map fun n => st.slices b b.kx n
  let used (bs : List Slice) : Bool := ks.any fun k => ((bs[k / 32]?).map Slice.nan).getD false
  (rows.map fun bs => (termsOf bs, bs.any Slice.nan),
    cols.map fun bs =>
      let ts := (termsOf bs).toArray
      (ks.map fun k => (ts[k]?).getD (0, 0), used bs),
    rows.any (fun bs => bs.any Slice.inexact) || cols.any fun bs => bs.any Slice.inexact)

/-- What the active rows and columns give at each element of a tile. -/
def overElements {α : Type} (rows cols : List (List Term × Bool)) (other : Nat → α) (f : Nat → List Term × Bool → List Term × Bool → α)
    (i : Nat) : α :=
  match rows[i / 32]?, cols[i % 32]? with
  | some r, some c => f i r c
  | _, _ => other i

/-- The product of operands A and B into a tile: for each pair of compressed position and K-position, the active rows and
columns; `total` is the sum at an element (R225, R233, R234). -/
def Strand.product (st : Strand) (t : Tile) (a b : Operand) (live : Nat) (ks : List Nat)
    (total : Nat → List Term → List Term → Term := fun _ => dotTerms) : Tile :=
  let x := st.factors a b live ks
  let t := { t with inx := t.inx || x.2.2 }
  t.build (overElements x.1 x.2.1 (fun i => (t.get (i / 32) (i % 32), false, false, false)) fun i r c =>
    tileUpdate t.anchor (t.get (i / 32) (i % 32)) (total i r.1 c.1) (r.2 || c.2))

/-- Put a tile in place. -/
def State.setTile (s : State) (d : Reg) (t : Tile) : State := s.setMyCore (s.myCore.setTile d.toNat t)

/-- The tile that a field names. -/
def State.tile (s : State) (d : Reg) : Tile := s.myCore.tile d.toNat

/-- The tiles that an instruction reads, and those that it writes, of the matrix instructions that wait once they have issued: tile
readers for their tile, and `msave` and `mload` for memory (R229, R241). -/
def tileUse (i : Instr) : List Nat × List Nat :=
  match i with
  | .mload d _ => ([], [d.toNat])
  | .msave _ a => ([a.toNat], [])
  | .mrnd _ a _ _ _ => ([a.toNat], [])
  | .mrow _ a _ => ([a.toNat], [])
  | .mstat _ a => ([a.toNat], [])
  | _ => ([], [])

/-- `msave` and `mload`, which hold their place in the matrix queue while they wait for memory (R229). -/
def inQueue (i : Instr) : Bool :=
  match i with
  | .mload _ _ => true
  | .msave _ _ => true
  | _ => false

/-- The instructions of the core's other strands that have issued and wait. -/
def State.issuedElsewhere (s : State) : List Instr :=
  (List.range Config.strands).filterMap fun k =>
    if k = s.curStrand then none else (s.myCore.strand k).issuedWait.map Prod.fst

/-- Another strand's matrix instruction that has issued and waits comes before one that reads and writes some tiles: instructions
of different strands meet at a tile in the order of their issue (R86, R229). -/
def State.tilesAhead (s : State) (reads writes : List Nat) : Bool :=
  s.issuedElsewhere.any fun i =>
    let u := tileUse i
    writes.any (fun t => u.1.contains t || u.2.contains t) || reads.any u.2.contains

/-- The matrix queue holds 16 entries, those of `msave` and `mload` that wait for memory among them (R86, R229). -/
def State.mqFull (s : State) : Bool := 16 ≤ s.myCore.mq.length + (s.issuedElsewhere.filter inQueue).length

/-- The format-table entries that `mfmt` names, which every matrix instruction captures (R221, R228). -/
def Strand.namedEntries (st : Strand) (c : Core) : List Nat :=
  (c.matFmt (st.mfmt.toNat % 256)).captured ++ (c.matFmt (st.mfmt.toNat / 256 % 256)).captured

/-- An instruction enters the matrix queue with what it has captured (R86, R228, R229). -/
def State.enqueueMatrix (s : State) (reads writes : List Nat) (groups : List Group := []) (op : MatrixOp := .none) : State :=
  s.setMyCore { s.myCore with mq := s.myCore.mq ++ [{
    strand := s.curStrand
    op := op
    before := (writes.head?.map s.myCore.tile).getD Tile.reset
    formats := s.me.namedEntries s.myCore
    values := (s.me.namedEntries s.myCore).map s.myCore.fmt
    mext := s.me.mext
    mfmt := s.me.mfmt
    operands := groups.map fun g => s.me.group g.first g.span
    reads := reads
    writes := writes
    started := false
    pairs := 0
    sums := [] }] }

/-- The format-table entries that a strand's matrix instruction has captured which has issued and waits: those that `mfmt` names, and
of `mrnd` its destination tag's (R130, R228, R230). -/
def Strand.waitCaptures (st : Strand) (c : Core) : List Nat :=
  match st.issuedWait with
  | none => []
  | some (i, _) =>
    match i with
    | .mrnd d _ _ _ _ =>
      let k := tagCode (st.tag d.toNat)
      st.namedEntries c ++ if 0x20 ≤ k && k < 0x30 then [k - 0x20] else []
    | i => if tileUse i = ([], []) then [] else st.namedEntries c

/-- A matrix instruction that has captured a format-table entry has not completed (R230). -/
def Core.entryInUse (c : Core) (e : Nat) : Bool :=
  c.mq.any (fun q => q.formats.contains e) || (List.range Config.strands).any fun k => ((c.strand k).waitCaptures c).contains e

/-- A writer of a tile is still in the matrix queue, or waits for memory there, so that a reader of the tile waits (R86, R229). -/
def State.tileBusy (s : State) (t : Reg) : Bool :=
  (s.myCore.mq.any fun e => e.writes.contains t.toNat) || s.tilesAhead [t.toNat] []

/-- The current strand's instruction has issued and waits. -/
def State.hasIssued (s : State) (i : Instr) : Bool := s.me.issuedWait.any fun e => e.1 = i

/-- The common frame of the queued instructions: refused at issue, classes, then room in the queue, and its turn at the tiles that it
reads and writes; one that has issued has both (R228, R229). -/
def State.matrixIssue (s : State) (i : Instr) (illegal : Bool) (classes reads writes : List Nat) (k : State → Res) : Res :=
  if illegal then s.trapped { cause := .illegal, info := encodeWord i }
  else s.orTrap (s.classTrap classes) fun s =>
    if !s.hasIssued i && (s.mqFull || s.tilesAhead reads writes) then s.waits i else k s

/-- The set bits of a K-mask below K. -/
def maskPositions (m : MReg) (k : Nat) : List Nat := (List.range k).filter fun i => m.getLsbD i

/-- The operands of a product: A, under a K-mask compressed to the positions set in it, and B (R222, R233, R234). -/
def Strand.matOperands (st : Strand) (c : Core) (a b : Reg) (kmask : Option MReg) : Operand × Operand :=
  let k := match kmask with
    | none => st.kext
    | some m => 32 * (((maskPositions m st.kext).length + 31) / 32)
  (operandOf a (c.matFmt (st.mfmt.toNat % 256)) k, operandOf b (c.matFmt (st.mfmt.toNat / 256 % 256)) st.kext)

/-- The K-positions of a product: all, or those set in its K-mask (R233, R234). -/
def Strand.productKs (st : Strand) (kmask : Option MReg) : List Nat :=
  (kmask.map fun m => maskPositions m st.kext).getD (List.range st.kext)

/-- A tile after a product (R225, R233, R234); a K-mask without a set position keeps every element. -/
def Strand.productTile (st : Strand) (c : Core) (a b : Reg) (kmask : Option MReg) (t : Tile)
    (total : Nat → List Term → List Term → Term := fun _ => dotTerms) : Tile :=
  let o := st.matOperands c a b kmask
  let ks := st.productKs kmask
  if ks = [] then t else st.product t o.1 o.2 ks.length ks total

/-- The frame of a product: its checks, and its entry in the queue (R222, R228, R229, R233, R234). -/
def State.matProduct (s : State) (i : Instr) (d a b : Reg) (kmask : Option MReg) : Res :=
  let st := s.me
  let o := st.matOperands s.myCore a b kmask
  s.orTrap (s.gate i 6 [] [] (o.1.groups ++ o.2.groups) kmask.isSome) fun s =>
  let k := ((kmask.map fun m => (maskPositions m st.kext).length)).getD st.kext
  s.matrixIssue i (512 < k || o.1.bad || o.2.bad) [o.1.fmt.cls, o.2.fmt.cls] [] [d.toNat] fun s =>
  let t := st.productTile s.myCore a b kmask (s.tile d)
  .next ((s.enqueueMatrix [] [d.toNat] (o.1.groups ++ o.2.groups) (.product a b kmask)).setTile d t).retire

/-- `mopa` (R233). -/
def execMopa (d a b : Reg) (chainA chainB : Bool) (s : State) : Res :=
  s.matProduct (.mopa d a b chainA chainB) d a b none

/-- `mopas`: A is compressed to the positions set in the K-mask; without a set position the tile keeps every element, while
every check and the queue stay (R222, R228, R229, R234; log 55). -/
def execMopas (d a b k : Reg) (chainA chainB : Bool) (s : State) : Res :=
  s.matProduct (.mopas d a b k chainA chainB) d a b (some (s.me.getM k.toNat))

/-- `mclz`: bit 32m + n of d says whether row m of A and column n of B share no position; an empty row gives the bit of
the form (R235). -/
def State.clauseZero (s : State) (i : Instr) (d a b : Reg) (empty : Bool) : Res :=
  let st := s.me
  let k := st.kext
  let one : MatFmt := .int false 1
  let oa := operandOf a one k
  let ob := operandOf b one k
  let gd : Group := ⟨d.toNat, 1⟩
  s.orTrap (s.gate i 6 [] [] (gd :: oa.groups ++ ob.groups) false) fun s =>
  s.matrixIssue i (512 < k || oa.bad || ob.bad || (oa.groups ++ ob.groups).any gd.partly) [20] [] [] fun s =>
  let va := st.group oa.reg oa.span
  let vb := st.group ob.reg ob.span
  let bit (j : Nat) : Nat :=
    let x := elemOf k va (j / 32)
    if x = 0 then (if empty then 1 else 0) else if x &&& elemOf k vb (j % 32) = 0 then 1 else 0
  let out := mergeElems 1 16384 1024 (st.getV d.toNat).toNat (fun j => j / 32 < st.rows && j % 32 < st.cols) bit
  .next ((s.enqueueMatrix [] [] (oa.groups ++ ob.groups)).setMe
    { st.setGroup d.toNat 1 out 0x0C fun _ => true with vstart := 0 }).retire

/-- `mclz.e0` (R235). -/
def execMclzE0 (d a b : Reg) (chainA chainB : Bool) (s : State) : Res :=
  s.clauseZero (.mclzE0 d a b chainA chainB) d a b false

/-- `mclz.e1` (R235). -/
def execMclzE1 (d a b : Reg) (chainA chainB : Bool) (s : State) : Res :=
  s.clauseZero (.mclzE1 d a b chainA chainB) d a b true

/-- One element of a tile row under a tag (R239). -/
def roundTile (k : Kind) (rm : Rounding) (dr : Nat) (anchor : Int) (c : BitVec 256) : Out :=
  match k with
  | .int sg w =>
    if c = tileNaN then ⟨0, fNV⟩
    else if c = 0 then ⟨0, 0⟩ else toInteger sg w rm dr (.num (tileInt c < 0) (tileInt c).natAbs anchor)
  | .flt f =>
    if c = tileNaN then f.canonical else f.roundInt rm dr (tileInt c) anchor false
  | _ => ⟨0, 0⟩

/-- `mrnd`: row x[b] of the tile into elements 0 to 31 of d, under d's tag (R239). -/
def execMrnd (d a b m : Reg) (rm : Rounding) (s : State) : Res :=
  let i : Instr := .mrnd d a b m rm
  s.orTrap (s.gate i 6 [s.grp d] [] [s.grp d] (m ≠ 31)) fun s =>
  let st := s.me
  let t := st.tag d.toNat
  let k := s.myCore.kind t
  let r := (st.getX b).toNat
  s.memIssue i (31 < r || !(k.isInt || k.isFloat)) [t] fun s =>
  if s.tileBusy a then s.waitsIssued i else
  let g := st.governs m
  let vl := st.vl k.width
  let bound := Nat.min 32 (st.bound vl g)
  let tile := s.tile a
  let el (n : Nat) : Out := roundTile k rm (st.rsdDraw rm d.toNat n) tile.anchor (tile.get r n)
  let out := mergeElems k.width vl bound (st.group d.toNat st.vgrp) g.lets fun n => (el n).bits
  .next (s.finishVector (st.setGroup d.toNat st.vgrp out t (touches k.width bound g.lets))
    (flagElems vl bound g.lets fun n => (el n).fl))

/-- `mext` of rows, columns and K (R220). -/
def mextWord (rows cols k : Nat) : Word := BitVec.ofNat 64 (rows + cols * 2 ^ 8 + k * 2 ^ 16)

/-- Extents inside their ranges (R220). -/
def extentsOk (rows cols k : Nat) : Bool :=
  1 ≤ rows && rows ≤ 32 && 1 ≤ cols && cols ≤ 32 && k % 32 = 0 && 32 ≤ k && k ≤ 2048

/-- `mshape` (R236). -/
def execMshape (a b : Reg) (s : State) : Res :=
  s.scalarGate 6 fun s =>
    let x := (s.me.getX a).toNat
    let k := (s.me.getX b).toNat
    let rows := x % 64
    let cols := x / 2 ^ 8 % 64
    if x = rows + cols * 2 ^ 8 && extentsOk rows cols k then s.complete { s.me with mext := mextWord rows cols k }
    else s.trapped { cause := .illegal, info := encodeWord (.mshape a b) }

/-- A tile with a new anchor, every element rescaled (R237). -/
def Tile.rescale (t : Tile) (x : Int) : Tile :=
  let t' := t.build fun i =>
    let c := t.get (i / 32) (i % 32)
    if c = tileNaN then (c, false, false, false)
    else let r := roundShift (tileInt c) (t.anchor - x); tileCode r.1 r.2
  { t' with anchor := x }

/-- A tile with zero elements and clear flags, the anchor kept (R238). -/
def Tile.clear (t : Tile) : Tile := { Tile.reset with anchor := t.anchor }

/-- A tile with row r from the bytes of a register (R240). -/
def Tile.withRow (t : Tile) (r : Nat) (v : VReg) : Tile :=
  t.build fun j =>
    (if j / 32 = r then BitVec.ofNat 256 (elemOf 256 v.toNat (j % 32)) else t.get (j / 32) (j % 32), false, false, false)

/-- `manch`: a new anchor, every element rescaled (R237). -/
def execManch (d a : Reg) (s : State) : Res :=
  s.scalarGate 6 fun s =>
    let x := (s.me.getX a).toInt
    s.matrixIssue (.manch d a) (x < -2048 || 2047 < x) [] [] [d.toNat] fun s =>
    .next ((s.enqueueMatrix [] [d.toNat] [] (.anchor x)).setTile d ((s.tile d).rescale x)).retire

/-- `mzero`: zero elements and clear flags, the anchor kept (R238). -/
def execMzero (d : Reg) (s : State) : Res :=
  s.scalarGate 6 fun s =>
    s.matrixIssue (.mzero d) false [] [] [d.toNat] fun s =>
    .next ((s.enqueueMatrix [] [d.toNat] [] .zero).setTile d (s.tile d).clear).retire

/-- The word of `mstat` (R238). -/
def Tile.status (t : Tile) : Word :=
  BitVec.ofInt 64 (t.anchor * 2 ^ 16) ||| BitVec.ofNat 64
    ((if t.inx then 1 else 0) + (if t.ovf then 2 else 0) + (if t.nan then 4 else 0))

/-- `mstat` (R238). -/
def execMstat (d a : Reg) (s : State) : Res :=
  s.scalarGate 6 fun s =>
    if s.tileBusy a then s.waitsIssued (.mstat d a) else s.complete (s.me.setX d (s.tile a).status)

/-- `mrow`: row x[b] into the first 1,024 bytes of one register, tag n64 (R240). -/
def execMrow (d a b : Reg) (s : State) : Res :=
  let i : Instr := .mrow d a b
  let gd : Group := ⟨d.toNat, 1⟩
  s.orTrap (s.gate i 6 [gd] [] [gd] false) fun s =>
  let st := s.me
  let r := (st.getX b).toNat
  s.memIssue i (31 < r) [7] fun s =>
  if s.tileBusy a then s.waitsIssued i else
  let tile := s.tile a
  let out := mergeElems 256 64 32 (st.getV d.toNat).toNat (fun _ => true) fun n => (tile.get r n).toNat
  s.completeZero (st.setGroup d.toNat 1 out 7 fun _ => true)

/-- `mwrow`: row x[b] of the tile from the same bytes of register a (R240). -/
def execMwrow (d a b : Reg) (chainA : Bool) (s : State) : Res :=
  let i : Instr := .mwrow d a b chainA
  s.orTrap (s.gate i 6 [] [s.grp a] [s.grp a] false) fun s =>
  let st := s.me
  let r := (st.getX b).toNat
  s.matrixIssue i (31 < r) [] [] [d.toNat] fun s =>
  let v := st.getV a.toNat
  .next ((s.enqueueMatrix [] [d.toNat] [] (.row r v)).setTile d ((s.tile d).withRow r v)).retire

/-- Units of a tile image (R241). -/
def imageUnits : Nat := 513

/-- The bytes of a tile image (R241). -/
def Tile.image (t : Tile) : List Byte :=
  leBytes 2 (wrapTo 16 t.anchor)
    ++ leBytes 1 ((if t.inx then 1 else 0) + (if t.ovf then 2 else 0) + (if t.nan then 4 else 0)) ++ leBytes 61 0
    ++ (List.range 1024).flatMap fun i => leBytes 32 (t.get (i / 32) (i % 32)).toNat

/-- The tile of an image read as one number; none where its reserved bytes or its ANCHOR are bad (R241). Bits [7:3] of FLAGS, which
the layout gives as zero, refuse the image too where they are not: the model's choice (log 75). -/
def Tile.ofImage (v : Nat) : Option Tile :=
  let anchor := toSigned 16 (v % 2 ^ 16)
  let flags := v / 2 ^ 16 % 2 ^ 8
  if 7 < flags || v / 2 ^ 24 % 2 ^ 488 ≠ 0 || anchor < -2048 || 2047 < anchor then none
  else
    let t : Tile := { Tile.reset with
      anchor := anchor
      inx := flags.testBit 0
      ovf := flags.testBit 1
      nan := flags.testBit 2 }
    some (t.build fun i => (BitVec.ofNat 256 (elemOf 256 (v / 2 ^ 512) i), false, false, false))

/-- The 64-byte units of an image at a base (R190, R241). -/
def imageElems (base : Word) : List Elem :=
  (List.range imageUnits).map fun u => ⟨u, addrAt base (64 * u : Nat), 64⟩

/-- `msave`: every unit is translated before any performs; a stop reruns the whole instruction, `vstart` 0 (R241). -/
def execMsave (d a : Reg) (s : State) : Res :=
  s.scalarGate 6 fun s =>
    s.matrixIssue (.msave d a) false [] [a.toNat] [] fun s =>
    let img := (s.tile a).image
    let o := Order.of .core .rlx
    s.access (.msave d a) .store o 64 (imageElems (s.me.getX d)) fun s es =>
      let n := s.cut.getD imageUnits
      let t := (es.take n).foldl (fun t u => t.strandStore o u.2 ((img.drop (64 * u.1.idx)).take 64)) s
      if n < imageUnits then .next (t.setMe { t.me with vstart := 0, waiting := none, partWay := true })
      else .next (t.enqueueMatrix [a.toNat] []).retire

/-- `mload`: the tile is written only after every unit has arrived; a bad image is the illegal-instruction trap (R241). -/
def execMload (d a : Reg) (s : State) : Res :=
  s.scalarGate 6 fun s =>
    s.matrixIssue (.mload d a) false [] [] [d.toNat] fun s =>
    let o := Order.of .core .rlx
    s.access (.mload d a) .load o 64 (imageElems (s.me.getX a)) fun s es =>
      if s.cut.getD imageUnits < imageUnits then .next (s.setMe { s.me with vstart := 0, waiting := none, partWay := true })
      else
        let bytes := es.flatMap fun u => s.strandLoad u.2
        let s := s.epochAcq o (es.flatMap Prod.snd)
        match Tile.ofImage (leNat bytes) with
        | none => s.trapped { cause := .illegal, info := encodeWord (.mload d a) }
        | some t => .next ((s.enqueueMatrix [] [d.toNat] [] (.image t)).setTile d t).retire

/-- The tile scoreboard lets an entry start beside an older one that has not completed: they share no tile that either
writes, or both are products, the second adding onto the sums of the first (R86, R227, R229). -/
def MatrixEntry.startsBeside (e old : MatrixEntry) : Bool :=
  (e.operands ≠ [] && old.operands ≠ [])
    || (e.reads ++ e.writes).all (fun t => !old.writes.contains t) && e.writes.all fun t => !old.reads.contains t

/-- MATRIX_START: the oldest entry that has not started starts, where the entries before it let it (R86, R229). -/
def startMatrix (before : List MatrixEntry) : List MatrixEntry → List MatrixEntry
  | [] => []
  | e :: l =>
    if e.started then e :: startMatrix (e :: before) l
    else if before.all e.startsBeside then { e with started := true } :: l else e :: l

/-- `matrixStart`: nothing happens when every entry has started, or while the core is halted (R231; log 7). -/
def execMatrixStart (p : Nat) (s : State) : Res :=
  let c := s.core p
  if c.halted then .next s else .next (s.setCore p { c with mq := startMatrix [] c.mq })

/-- `matrixComplete`: the oldest entry, when it has started, completes as one event, unless the core is halted (R227,
R231). -/
def execMatrixComplete (p : Nat) (s : State) : Res :=
  match (s.core p).mq with
  | e :: l => if e.started && !(s.core p).halted then .next (s.setCore p { s.core p with mq := l }) else .next s
  | [] => .next s

/-- A tile as a context holds it: as it was before the oldest queued entry that writes it (R231). -/
def Core.savedTile (c : Core) (t : Nat) : Tile :=
  match c.mq.find? fun e => e.writes.contains t with
  | some e => e.before
  | none => c.tile t

/-- The strand and the core that an entry's product reads: the values that it captured (R228). -/
def MatrixEntry.view (e : MatrixEntry) : Strand × Core :=
  let c : Core := { Core.reset with fmts := e.formats.zip e.values }
  let st : Strand := { Strand.reset with mext := e.mext, mfmt := e.mfmt }
  match e.op with
  | .product a b kmask =>
    let o := st.matOperands c a b kmask
    (((o.1.groups ++ o.2.groups).zip e.operands).foldl (fun st g => st.setGroup g.1.first g.1.span g.2 0 fun _ => true) st, c)
  | _ => (st, c)

/-- The plane pairs of an entry: those of its product (R226). -/
def MatrixEntry.planePairs (e : MatrixEntry) : Nat :=
  match e.op with
  | .product a b kmask =>
    let o := e.view.1.matOperands e.view.2 a b kmask
    o.1.fmt.planes * o.2.fmt.planes
  | _ => 0

/-- The exact sums of an entry's product over its first n plane pairs, by element (R231). -/
def MatrixEntry.sumsOf (e : MatrixEntry) (n : Nat) : List (Int × Int) :=
  match e.op with
  | .product a b kmask =>
    let o := e.view.1.matOperands e.view.2 a b kmask
    let ks := e.view.1.productKs kmask
    let x := e.view.1.factors o.1 o.2 ks.length ks
    (List.range 1024).map (overElements x.1 x.2.1 (fun _ => (0, 0)) fun _ r c => pairSum o.1.fmt o.2.fmt 0 n r.1 c.1)
  | _ => []

/-- A halt stops the running entries at a plane-pair boundary, some pairs completed, with the exact sums over them (R231; log
30). -/
def Core.stopMatrix (c : Core) (tick : Nat) : Core :=
  { c with mq := c.mq.map fun e =>
      if e.started then
        let n := Nat.max e.pairs (Nat.min e.planePairs (Config.pairsDone tick))
        { e with pairs := n, sums := e.sumsOf n }
      else e }

/-- The sum at element i of an entry that goes on from its next plane pair: its partial sum and the remaining pairs (R231). -/
def MatrixEntry.restOf (e : MatrixEntry) (fa fb : MatFmt) (i : Nat) (a b : List Term) : Term :=
  sumTerms [e.sums[i]?.getD (0, 0), pairSum fa fb e.pairs (fa.planes * fb.planes) a b]

/-- What an entry makes of its tile, from what it captured; one that was stopped goes on from its next plane pair (R228, R231). -/
def MatrixEntry.run (e : MatrixEntry) (t : Tile) : Tile :=
  match e.op with
  | .none => t
  | .product a b kmask =>
    let o := e.view.1.matOperands e.view.2 a b kmask
    e.view.1.productTile e.view.2 a b kmask t (if e.sums = [] then fun _ => dotTerms else e.restOf o.1.fmt o.2.fmt)
  | .anchor x => t.rescale x
  | .zero => t.clear
  | .row r v => t.withRow r v
  | .image w => w

/-- A core whose tiles are those of a context: its queue follows in order (R231). -/
def Core.replayQueue (c : Core) : Core :=
  c.mq.foldl (fun (c : Core) e =>
    let d := e.writes.headD 0
    { (if e.writes = [] then c else c.setTile d (e.run (c.tile d))) with mq := c.mq ++ [{ e with before := c.tile d }] })
    { c with mq := [] }

end Sys2Proof.Machine
end

