-- ==== Sys2Proof/Machine/Clause.lean ====
section
/-! DEFINITION. Clause learning: automata as plane groups, the draws of the generator and of the table, probabilities,
draws and feedback (R243 to R257). -/

namespace Sys2Proof.Machine

/-- w of `cwidth` (R245). -/
def Strand.automatonBits (st : Strand) : Nat := st.cwidth.toNat % 16

/-- Q of `cspec` (R245). -/
def Strand.decayQ (st : Strand) : Nat := st.cspec.toNat % 2 ^ 17

/-- BOOST of `cspec` (R245). -/
def Strand.boost (st : Strand) : Bool := st.cspec.getLsbD 24

/-- DELTA of `cspec` (R245). -/
def Strand.delta (st : Strand) : Bool := st.cspec.getLsbD 25

/-- LITS of `cgeom` (R245). -/
def Strand.lits (st : Strand) : Nat := st.cgeom.toNat % 2 ^ 24

/-- KIND of `cgeom` (R245). -/
def Strand.drawKind (st : Strand) : Nat := st.cgeom.toNat / 2 ^ 60 % 8

/-- c1 of element i (R248). -/
def Strand.counter (st : Strand) (kind i : Nat) : Word :=
  BitVec.ofNat 64 (kind * 2 ^ 60 + st.cgeom.toNat / 2 ^ 48 % 2 ^ 12 * 2 ^ 48
    + (st.cgeom.toNat / 2 ^ 24 % 2 ^ 24 + i / st.lits) % 2 ^ 24 * 2 ^ 24 + i % st.lits)

/-- MODE of `dmode`: table mode (R245). -/
def Strand.tableMode (st : Strand) : Bool := st.dmode.getLsbD 0

/-- LEN of `dmode` (R245). -/
def Strand.tableLen (st : Strand) : Nat := st.dmode.toNat / 2 ^ 16 % 2 ^ 22

/-- The address of the n-th entry that an instruction reads (R249). -/
def Strand.tableAt (st : Strand) (n : Nat) : Nat := st.dtab.toNat + 2 * ((st.dpos.toNat + n) % st.tableLen)

/-- The table is empty, at an odd address, or not within the core's usable scratchpad bytes (R249). -/
def State.tableBad (s : State) : Bool :=
  s.me.tableLen = 0 || s.me.dtab.getLsbD 0 || s.me.dtab.toNat < windowBase
    || windowBase + s.myCore.spadUsable < s.me.dtab.toNat + 2 * s.me.tableLen

/-- Draw n of an instruction, which is that of element i (R248, R249). -/
def State.drawOf (s : State) (kind i n : Nat) : Nat :=
  if s.me.tableMode then
    leNat (s.strandLoad [{ space := .spad s.curCore, addr := s.me.tableAt n - windowBase, len := 2 }])
  else draw s.me.dseed (s.me.getX 30) (s.me.counter kind i)

/-- An instruction that takes n draws: in table mode the table must lie in the scratchpad, and its reads wait on arriving
copies as loads do (R249). INFO of a bad table's access violation is its BASE: the model's choice (log 63). -/
def State.takesDraws (s : State) (i : Instr) (n : Nat) (k : State → Res) : Res :=
  if !s.me.tableMode then k s
  else if s.tableBad then s.trapped { cause := .access, info := s.me.dtab.toNat }
  else
    let es : List Elem := (List.range n).map fun j => { idx := j, addr := s.me.tableAt j, len := 2 }
    if s.interlocked false es then s.waitsIssued i
    else
      k (s.epochAcq (Order.of .core .rlx)
        (es.map fun e => { space := .spad s.curCore, addr := e.addr - windowBase, len := 2 }))

/-- `dpos` after n draws (R249). -/
def Strand.advanceTable (st : Strand) (n : Nat) : Strand :=
  if st.tableMode then { st with dpos := BitVec.ofNat 64 ((st.dpos.toNat + n) % st.tableLen) } else st

/-- The same for an instruction that takes draws, or takes none. -/
def Strand.tookDraws (st : Strand) (draws : Bool) (n : Nat) : Strand := if draws then st.advanceTable n else st

/-- The tag b1. -/
def tagB1 : Nat := 0x0C

/-- sat(x) of an automaton (R254). -/
def satState (w : Nat) (x : Int) : Nat := if x < 0 then 0 else if (2 ^ w : Nat) ≤ x then 2 ^ w - 1 else x.toNat

/-- The w plane groups from register d (R243). -/
def Strand.planes (st : Strand) (d : Nat) : List Nat :=
  (List.range st.automatonBits).map fun b => st.group (d + b * st.vgrp) st.vgrp

/-- st(i) (R243). -/
def automaton (planes : List Nat) (i : Nat) : Nat :=
  planes.foldr (fun p acc => (if p.testBit i then 1 else 0) + 2 * acc) 0

/-- Bit i of a plane set to a value. -/
def planeBit (p i : Nat) (b : Bool) : Nat :=
  if b then p ||| 2 ^ i else if p.testBit i then p - 2 ^ i else p

/-- st(i) := x. -/
def setAutomaton : List Nat → Nat → Nat → List Nat
  | [], _, _ => []
  | p :: ps, i, x => planeBit p i (x % 2 = 1) :: setAutomaton ps i (x / 2)

/-- Write the planes from the b-th on and tag their registers b1 (R244). -/
def Strand.setPlanes (st : Strand) (d : Nat) (wrote : Nat → Bool) : Nat → List Nat → Strand
  | _, [] => st
  | b, p :: ps => (st.setGroup (d + b * st.vgrp) st.vgrp p tagB1 wrote).setPlanes d wrote (b + 1) ps

/-- The span of the planes from d (R244). -/
def State.planeSpan (s : State) (d : Reg) : Group := ⟨d.toNat, s.me.automatonBits * s.me.vgrp⟩

/-- The plane rules: the span ends within the registers and shares none with a source (R244). -/
def State.planesBad (s : State) (d : Reg) (src : List Group) : Bool :=
  let span := s.planeSpan d
  32 < span.first + span.span || src.any span.meets

/-- Every active element, with its place among them, steps its automaton (R254 to R257). -/
def stepAutomata (w : Nat) (active : List Nat) (step : Nat → Nat → Int) (planes : List Nat) : List Nat :=
  active.zipIdx.foldl (fun ps (i, n) =>
    let x := step i n
    if x = 0 then ps else setAutomaton ps i (satState w (automaton ps i + x))) planes

/-- Every active element, with its place among them, adds to its step count (R254, R255). -/
def stepCounts (w : Nat) (active : List Nat) (step : Nat → Nat → Int) (old : Nat) : Nat :=
  active.zipIdx.foldl (fun g (i, n) =>
    let e := elemOf w g i
    g - e <<< (w * i) + wrapTo w (e + step i n) <<< (w * i)) old

/-- An instruction in apply mode: checks of R57, first use, then `ok` for its source tags and the plane rules, the classes
of its tags, the draws; then every automaton that is active under `width` steps (R244, R251). That a tag's class is tested before
the draw table of R249 is the model's choice (log 71). -/
def State.applySteps (s : State) (i : Instr) (d : Reg) (src : List Reg) (m : Reg) (ok : Bool) (width : Nat) (draws : Bool)
    (step : State → Nat → Nat → Int) : Res :=
  let groups := src.map s.grp
  s.orTrap (s.gate i 7 [] (s.grp d :: groups) (s.planeSpan d :: groups) (m ≠ 31)) fun s =>
  if !ok || s.planesBad d groups then s.trapped { cause := .illegal, info := encodeWord i }
  else
    s.orTrap (s.classTrap ((src.map (fun r => s.me.tag r.toNat) ++ [tagB1]).flatMap tagClasses)) fun s =>
    let g := s.me.governs m
    let bound := s.me.bound (s.me.vl width) g
    let active := activeList bound g.lets
    let go (s : State) : Res :=
      let st := s.me
      let planes := stepAutomata st.automatonBits active (step s) (st.planes d.toNat)
      .next (s.finishVector
        ((st.setPlanes d.toNat (touches 1 bound g.lets) 0 planes).tookDraws draws active.length) 0)
    if draws then s.takesDraws i active.length go else go s

/-- An instruction in delta mode: d is a step-count group tagged i8, i16 or i32 (R254, R255). -/
def State.deltaSteps (s : State) (i : Instr) (d a b m : Reg) (draws : Bool) (step : State → Nat → Nat → Int) : Res :=
  s.orTrap (s.gate i 7 [s.grp d] [s.grp a, s.grp b] [s.grp d, s.grp a, s.grp b] (m ≠ 31)) fun s =>
  let t := s.me.tag d.toNat
  if s.me.tag a.toNat ≠ tagB1 || s.me.tag b.toNat ≠ tagB1 || 2 < t then
    s.trapped { cause := .illegal, info := encodeWord i }
  else
    s.orTrap (s.classTrap ([tagB1, t].flatMap tagClasses)) fun s =>
    let w := 8 * 2 ^ t
    let g := s.me.governs m
    let bound := s.me.bound (s.me.vl w) g
    let active := activeList bound g.lets
    let go (s : State) : Res :=
      let st := s.me
      let out := stepCounts w active (step s) (st.group d.toNat st.vgrp)
      .next (s.finishVector
        ((st.setGroup d.toNat st.vgrp out t (touches w bound g.lets)).tookDraws draws active.length) 0)
    if draws then s.takesDraws i active.length go else go s

/-- `cdraw`: a bit for each element whose draw falls below its probability; the others are 0 (R253). -/
def execCdraw (d a m : Reg) (chainA : Bool) (s : State) : Res :=
  let i : Instr := .cdraw d a m chainA
  s.orTrap (s.gate i 7 [] [s.grp a] [s.grp a] true) fun s =>
  if s.me.tag a.toNat ≠ 6 then s.trapped { cause := .illegal, info := encodeWord i }
  else
    s.orTrap (s.classTrap (tagClasses 6)) fun s =>
    let g := s.me.governs m
    let active := activeList (Nat.min (s.me.bound (s.me.vl 32) g) Config.mlen) g.lets
    s.takesDraws i active.length fun s =>
      let st := s.me
      let src := st.group a.toNat st.vgrp
      let bits := active.zipIdx.foldl (fun (acc : Nat) (e, n) =>
        if s.drawOf st.drawKind e n < Nat.min 65536 (elemOf 32 src e) then acc ||| 2 ^ e else acc) 0
      .next (s.finishVector ((st.setM d.toNat (BitVec.ofNat 2048 bits)).advanceTable active.length) 0)

/-- The probability of a vote v under threshold T (R252). -/
def probability (t : Nat) (pol : Bool) (v : Int) : Nat :=
  let c : Int := if v < -t then -t else if (t : Int) < v then t else v
  (65536 * (if pol then t + c else t - c) / (2 * t)).toNat

/-- `cprob` (R252). -/
def execCprob (d a b m : Reg) (chainA : Bool) (s : State) : Res :=
  let i : Instr := .cprob d a b m chainA
  s.orTrap (s.gate i 7 [s.grp d] [s.grp a] [s.grp d, s.grp a] (m ≠ 31)) fun s =>
  let x := (s.me.getX b).toNat
  let t := x % 2 ^ 32
  if s.me.tag a.toNat ≠ 2 || t = 0 || 2 ^ 31 ≤ t || x / 2 ^ 33 ≠ 0 then
    s.trapped { cause := .illegal, info := encodeWord i }
  else
    s.orTrap (s.classTrap (tagClasses 2 ++ tagClasses 6)) fun s =>
    let st := s.me
    let g := st.governs m
    let vl := st.vl 32
    let bound := st.bound vl g
    let src := st.group a.toNat st.vgrp
    let out := mergeElems 32 vl bound (st.group d.toNat st.vgrp) g.lets fun e =>
      probability t (x.testBit 32) (toSigned 32 (elemOf 32 src e))
    .next (s.finishVector (st.setGroup d.toNat st.vgrp out 6 (touches 32 bound g.lets)) 0)

/-- The step of Type I feedback at element i, its draw being the n-th (R254). -/
def State.typeOne (s : State) (a b : Reg) (i n : Nat) : Int :=
  let st := s.me
  if (st.group a.toNat st.vgrp).testBit i && (st.group b.toNat st.vgrp).testBit i then
    if st.boost || s.drawOf 0x8 i n < 65536 - st.decayQ then 1 else 0
  else if s.drawOf 0x9 i n < st.decayQ then -1 else 0

/-- `cfb1`: Type I feedback (R254). -/
def execCfb1 (d a b m : Reg) (chainA chainB : Bool) (s : State) : Res :=
  let i : Instr := .cfb1 d a b m chainA chainB
  if s.me.delta then s.deltaSteps i d a b m true fun s => s.typeOne a b
  else
    s.applySteps i d [a, b] m (s.me.tag a.toNat = tagB1 && s.me.tag b.toNat = tagB1) 1 true fun s => s.typeOne a b

/-- The step of Type II feedback at element i; in delta mode the include test is not made (R255). -/
def State.typeTwo (s : State) (d a b : Reg) (i : Nat) : Int :=
  let st := s.me
  let inc := !st.delta && (st.group (d.toNat + (st.automatonBits - 1) * st.vgrp) st.vgrp).testBit i
  if (st.group b.toNat st.vgrp).testBit i && !(st.group a.toNat st.vgrp).testBit i && !inc then 1 else 0

/-- `cfb2`: Type II feedback (R255). -/
def execCfb2 (d a b m : Reg) (chainA chainB : Bool) (s : State) : Res :=
  let i : Instr := .cfb2 d a b m chainA chainB
  if s.me.delta then s.deltaSteps i d a b m false fun s i _ => s.typeTwo d a b i
  else
    s.applySteps i d [a, b] m (s.me.tag a.toNat = tagB1 && s.me.tag b.toNat = tagB1) 1 false
      fun s i _ => s.typeTwo d a b i

/-- `cstep` (R256). -/
def execCstep (d a m : Reg) (chainA : Bool) (s : State) : Res :=
  s.applySteps (.cstep d a m chainA) d [a] m (s.me.tag a.toNat = tagB1) 1 false fun s i _ =>
    if (s.me.group a.toNat s.me.vgrp).testBit i then 1 else -1

/-- `cadd` (R257). -/
def execCadd (d a m : Reg) (chainA : Bool) (s : State) : Res :=
  let t := s.me.tag a.toNat
  let w := 8 * 2 ^ (t % 4)
  s.applySteps (.cadd d a m chainA) d [a] m (t < 4) w false fun s i _ =>
    toSigned w (elemOf w (s.me.group a.toNat s.me.vgrp) i)

end Sys2Proof.Machine
end

