-- ==== Sys2Proof/Machine/StrandControl.lean ====
section
/-! DEFINITION. Strand control: `stop` with the dealing of farms, `go`, `signal`, and the link channels (R79, R82, R102,
R104 to R108). -/

namespace Sys2Proof.Machine

/-- Position of strand k in a set, counted in increasing strand number. -/
def setPosition (set : BitVec 24) (k : Nat) : Nat := (List.range k).countP fun j => set.getLsbD j

/-- Number of strands of a set. -/
def setSize (set : BitVec 24) : Nat := setPosition set 24

/-- Strand k of a farm has stopped, or the farm has just started: it is dealt its next index and starts in SELF at the
entry, or it leaves the farm; the slot ends with its last strand (R82, R102). -/
def Core.deal (c : Core) (f k : Nat) : Core :=
  match c.farm f with
  | none => c
  | some fm =>
    let turn := Table.get 0 fm.dealt k
    let i := if c.det then setPosition fm.set k + turn * setSize fm.set else fm.next
    let st := c.strand k
    if i < fm.count then
      let st' := ({ st with st := .self, pc := fm.entry, blk := none, farm := some f }).setX 31 (BitVec.ofNat 64 i)
      (c.setStrand k st').setFarm f (some { fm with next := fm.next + 1, dealt := Table.set 0 fm.dealt k (turn + 1) })
    else
      let live := fm.live &&& ~~~ (BitVec.ofNat 24 (2 ^ k))
      let c := c.setStrand k (Strand.endBlock { st with farm := none })
      if live = 0 then { c.setFarm f none with farmEnd := c.farmEnd ||| BitVec.ofNat 4 (2 ^ f) }
      else c.setFarm f (some { fm with live := live })

/-- `stop`: a core-scope release, then the end of the block or self-run, or the farm's next index (R79, R102, R105,
R111). The PC of a strand that becomes IDLE stays at the `stop`: R100 gives an IDLE strand no next word to perform, and this is
the model's choice (log 67). -/
def execStop (s : State) : Res :=
  s.scalarGate 0 fun s =>
    if !s.settled .core then s.waits .stop
    else
      let st := { s.me with wd := 0, waiting := none, partWay := false }
      match st.st, st.farm with
      | .self, some f => .next (s.setMyCore ((s.myCore.setStrand s.curStrand st).deal f s.curStrand))
      | _, _ => .next (s.setMe st.endBlock)

/-- `go`: SELF at x[a]; in BLOCK the rest of the block counts as ended (R106). -/
def execGo (a : Reg) (s : State) : Res :=
  s.scalarGate 0 fun s =>
    let t := s.me.getX a
    if t.toNat % 4 ≠ 0 then s.trapped { cause := .misalign, info := t.toNat }
    else .next (s.setMe { s.me with st := .self, blk := none, pc := t, wd := 0, waiting := none, partWay := false })

/-- `signal`: latches x[a] and sets the SIG bit, waiting while the bit is set; a core-scope release (R107). -/
def execSignal (a : Reg) (s : State) : Res :=
  s.scalarGate 0 fun s =>
    if s.me.sigPend || !s.settled .core then s.waits (.signal a)
    else s.complete { s.me with sig := s.me.getX a, sigPend := true }

/-- Strand k of a core waits to post to a channel. -/
def Core.waitsPost (c : Core) (ch : BitVec 3) (k : Nat) : Bool :=
  match (c.strand k).waiting with
  | some w => match w.instr with
    | .vpost _ ch' => ch' = ch
    | _ => false
  | none => false

/-- When strand k began to wait to take from a channel. -/
def Core.takeSince (c : Core) (ch : BitVec 3) (k : Nat) : Option Nat :=
  match (c.strand k).waiting with
  | some w => match w.instr with
    | .vtake _ ch' => if ch' = ch then some w.since else none
    | _ => none
  | none => none

/-- Another strand comes first to post: a waiting one of lower number that has nothing else to wait for (R108). -/
def State.postBehind (s : State) (ch : BitVec 3) : Bool :=
  (List.range s.curStrand).any fun j => s.myCore.waitsPost ch j && (s.at_ s.curCore j).settled .core

/-- Another strand comes first to take: one that has waited longer, or as long with a lower number (R108). -/
def Core.takeBehind (c : Core) (ch : BitVec 3) (k now : Nat) : Bool :=
  let mine := (c.takeSince ch k).getD now
  (List.range Config.strands).any fun j =>
    match c.takeSince ch j with
    | some t => t < mine || (t = mine && j < k)
    | none => false

/-- `vpost`: waits while the channel is full, then fills it with v[b] and its tag; a core-scope release (R108). -/
def execVpost (b : Reg) (c : BitVec 3) (s : State) : Res :=
  s.orTrap (s.gate (.vpost b c) 0 [] [⟨b.toNat, 1⟩] [⟨b.toNat, 1⟩] false) fun s =>
    if (s.myCore.chan c.toNat).isSome || s.postBehind c || !s.settled .core
    then s.waits (.vpost b c)
    else
      let st := s.me
      let chan : Channel := { bytes := st.getV b.toNat, tag := BitVec.ofNat 8 (st.tag b.toNat) }
      (s.setMyCore (s.myCore.setChan c.toNat (some chan))).complete st

/-- `vtake`: waits while the channel is empty, then writes v[d] with its bytes and tag and empties it (R108). -/
def execVtake (d : Reg) (c : BitVec 3) (s : State) : Res :=
  s.orTrap (s.gate (.vtake d c) 0 [⟨d.toNat, 1⟩] [] [⟨d.toNat, 1⟩] false) fun s =>
    match s.myCore.chan c.toNat with
    | none => s.waits (.vtake d c)
    | some chan =>
      if s.myCore.takeBehind c s.curStrand s.tick then s.waits (.vtake d c)
      else
        let st := (s.me.setV d.toNat chan.bytes).setTag d.toNat chan.tag.toNat
        (s.setMyCore (s.myCore.setChan c.toNat none)).complete st

end Sys2Proof.Machine
end

