-- ==== Sys2Proof/Machine/Engines.lean ====
section
/-! DEFINITION. The copy engine, barriers and queues (R266 to R281): copy commands with their phase one and their units,
the events of the engine, barrier updates and queue operations. -/

namespace Sys2Proof.Machine

/-! ## Barriers -/

/-- A barrier object (R275). -/
structure Barrier where
  pending : Int
  phase   : Bool
  expect  : Nat
  arrived : Nat
  deriving DecidableEq, Repr

/-- The barrier that 16 bytes hold, where it is valid (R275). -/
def Barrier.ofNat (n : Nat) : Option Barrier :=
  let b : Barrier := {
    pending := toSigned 56 (n % 2 ^ 56)
    phase := n.testBit 63
    expect := n / 2 ^ 64 % 2 ^ 16
    arrived := n / 2 ^ 80 % 2 ^ 16 }
  if b.expect ≠ 0 && b.arrived ≤ b.expect && n / 2 ^ 56 % 2 ^ 7 = 0 && n / 2 ^ 96 = 0 then some b else none

/-- The 16 bytes of a barrier. -/
def Barrier.bytes (b : Barrier) : List Byte :=
  leBytes 16 (wrapTo 56 b.pending + (if b.phase then 2 ^ 63 else 0) + b.expect * 2 ^ 64 + b.arrived * 2 ^ 80)

/-- An update completes the phase when every arrival and every byte is in (R275). -/
def Barrier.settle (b : Barrier) : Barrier :=
  if b.arrived = b.expect && b.pending = 0 then { b with phase := !b.phase, arrived := 0 } else b

/-- Arrivals and bytes added, or none where the update is refused (R276). -/
def Barrier.add (b : Barrier) (arrivals : Nat) (bytes : Int) : Option Barrier :=
  let p := b.pending + bytes
  if (arrivals ≠ 0 && b.arrived = b.expect) || p < -2 ^ 55 || 2 ^ 55 ≤ p then none
  else some { b with pending := p, arrived := b.arrived + arrivals }.settle

/-- A drain of n bytes; the count it leaves below -2^55 is a free value (R275, log 31). -/
def Barrier.drain (b : Barrier) (n tick : Nat) : Barrier :=
  let p := b.pending - n
  { b with pending := if p < -2 ^ 55 then toSigned 56 (Config.pendingBelow tick).toNat else p }.settle

/-- The place of a barrier or queue object of n bytes: aligned, and in a scratchpad of the local or the team windows
(R276, R279). -/
def State.scratchObject (s : State) (va : Word) (align n : Nat) : Except Trap Piece :=
  if va.toNat % align ≠ 0 then .error { cause := .misalign, info := va.toNat }
  else if !inWindows va.toNat then .error { cause := .access, info := va.toNat }
  else match s.window s.curCore va.toNat n with
    | .at_ (.spad p) a => .ok { space := .spad p, addr := a, len := n }
    | _ => .error { cause := .access, info := va.toNat }

/-- The number that an object's bytes form. -/
def State.objectNat (s : State) (q : Piece) : Nat := leNat (s.peek q.space q.addr q.len)

/-- The element of an access to n bytes at an address. -/
def oneElem (va : Word) (n : Nat) : List Elem := [{ idx := 0, addr := va.toNat, len := n }]

/-- What a barrier or queue instruction waits for: a release for every earlier access, any of them for its strand's held
stores, one that writes for what holds a store back, one that reads for an acquiring command, and the interlock for its own
bytes (R272, R273, R277, R286, R300; log 19). -/
def State.objectWaits (s : State) (o : Order) (writes : Bool) (es : List Elem) : Bool :=
  (o.rel && !s.settled o.scope) || s.me.storeQ ≠ [] || (writes && s.holdsStores) || s.interlocked writes es

/-- The frame of a barrier instruction: the class ENGINE, the object, the waits; then `k` with its bytes (R276). -/
def State.barrierOp (s : State) (i : Instr) (a : Reg) (sc : Scope) (od : Ordering) (writes : Bool)
    (k : State → Order → Piece → Option Barrier → Res) : Res :=
  s.scalarGate 8 fun s =>
  let va := s.me.getX a
  match s.scratchObject va 16 16 with
  | .error t => s.trapped t
  | .ok q =>
    if s.objectWaits (Order.of sc od) writes (oneElem va 16) then s.waits i
    else k s (Order.of sc od) q (Barrier.ofNat (s.objectNat q))

/-- Complete a barrier or queue instruction with its result, after its reads and its release (R277, R295). A refused one that
releases counts like one that has its effect: the model's choice (log 41). -/
def State.objectDone (s : State) (o : Order) (reads : List Piece) (d : Reg) (w : Word) : Res :=
  let s := (if reads = [] then s else s.epochAcq o reads).epochRel o
  s.complete (s.me.setX d w)

/-- The write of a barrier update: one atomic update, with the epoch of its release (R275, R295). -/
def State.putBarrier (s : State) (o : Order) (q : Piece) (b : Barrier) : State :=
  s.rmwStore s.myJob (s.relEpoch o) q.space q.addr b.bytes

/-- `bini` (R276). The check of v comes before those of the address: the model's choice (log 66). -/
def execBini (a b : Reg) (sc : Scope) (od : Ordering) (s : State) : Res :=
  s.scalarGate 8 fun s =>
  let v := (s.me.getX b).toNat
  if v = 0 || 65535 < v then s.trapped { cause := .illegal, info := encodeWord (.bini a b sc od) }
  else s.barrierOp (.bini a b sc od) a sc od true fun s o q _ =>
    let fresh : Barrier := { pending := 0, phase := false, expect := v, arrived := 0 }
    (s.freshStore s.myJob (s.relEpoch o) q.space q.addr fresh.bytes).objectDone o [] 0 0

/-- An update that returns the phase before it, or all ones where it is refused (R276). -/
def State.barrierUpdate (s : State) (i : Instr) (d a b : Reg) (sc : Scope) (od : Ordering) (arrivals : Nat) : Res :=
  s.barrierOp i a sc od true fun s o q bar =>
    match bar.bind fun v => (v.add arrivals (s.me.getX b).toInt).map fun v' => (v, v') with
    | none => s.objectDone o [q] d (~~~ 0)
    | some (v, v') => ((s.epochAcq o [q]).putBarrier o q v').objectDone o [] d (if v.phase then 1 else 0)

/-- `barr` (R276). -/
def execBarr (d a b : Reg) (sc : Scope) (od : Ordering) (s : State) : Res :=
  s.barrierUpdate (.barr d a b sc od) d a b sc od 1

/-- `bexp` (R276). -/
def execBexp (d a b : Reg) (sc : Scope) (od : Ordering) (s : State) : Res :=
  s.barrierUpdate (.bexp d a b sc od) d a b sc od 0

/-- `bwait`: waits until the phase differs from the token (R276). -/
def execBwait (d a b : Reg) (sc : Scope) (od : Ordering) (s : State) : Res :=
  s.barrierOp (.bwait d a b sc od) a sc od false fun s o q bar =>
    match bar with
    | none => s.objectDone o [] d (~~~ 0)
    | some v =>
      if v.phase = (s.me.getX b).getLsbD 0 then s.waits (.bwait d a b sc od) else s.objectDone o [q] d 0

/-- `btest` (R276). -/
def execBtest (d a b : Reg) (sc : Scope) (od : Ordering) (s : State) : Res :=
  s.barrierOp (.btest d a b sc od) a sc od false fun s o q bar =>
    match bar with
    | none => s.objectDone o [] d (~~~ 0)
    | some v => if v.phase = (s.me.getX b).getLsbD 0 then s.objectDone o [] d 0 else s.objectDone o [q] d 1

/-! ## Queues -/

/-- A queue header (R278). -/
structure QueueHeader where
  head  : Nat
  tail  : Nat
  cap   : Nat
  esize : Nat
  deriving DecidableEq, Repr

/-- Allowed CAP values: powers of two from 1 to 65,536 (R278). -/
def capOk (n : Nat) : Bool := (List.range 17).any fun e => n = 2 ^ e

/-- Allowed ESIZE values (R278). -/
def esizeOk (n : Nat) : Bool := n = 8 || n = 16 || n = 32 || n = 64

/-- The header that 64 bytes hold. -/
def QueueHeader.ofNat (n : Nat) : QueueHeader where
  head := n % 2 ^ 32
  tail := n / 2 ^ 32 % 2 ^ 32
  cap := n / 2 ^ 64 % 2 ^ 32
  esize := n / 2 ^ 96 % 2 ^ 16

/-- Number of elements in the queue. -/
def QueueHeader.used (h : QueueHeader) : Nat := (h.tail + 2 ^ 32 - h.head) % 2 ^ 32

/-- A queue of a core's scratchpad is valid (R278). -/
def State.queueValid (s : State) (q : Piece) (n : Nat) : Bool :=
  let h := QueueHeader.ofNat n
  let usable := match q.space with
    | .spad p => (s.core p).spadUsable
    | _ => 0
  capOk h.cap && esizeOk h.esize && n / 2 ^ 112 = 0 && h.used ≤ h.cap && q.addr + 64 + h.esize * h.cap ≤ usable

/-- `qini` (R279). The check of v comes before those of the address: the model's choice (log 66). -/
def execQini (a b : Reg) (sc : Scope) (od : Ordering) (s : State) : Res :=
  s.scalarGate 8 fun s =>
  let v := (s.me.getX b).toNat
  let cap := v % 2 ^ 32
  let esize := v / 2 ^ 32 % 2 ^ 8
  if !capOk cap || !esizeOk esize || v / 2 ^ 40 ≠ 0 then
    s.trapped { cause := .illegal, info := encodeWord (.qini a b sc od) }
  else
    match s.scratchObject (s.me.getX a) 64 (64 + esize * cap) with
    | .error t => s.trapped t
    | .ok q =>
      let o := Order.of sc od
      if s.objectWaits o true (oneElem (s.me.getX a) 64) then s.waits (.qini a b sc od)
      else
        (s.freshStore s.myJob (s.relEpoch o) q.space q.addr
          (leBytes 64 (cap * 2 ^ 64 + esize * 2 ^ 96))).objectDone o [] 0 0

/-- The place of the element bytes of `qenq` and `qdeq`: a multiple of 8 in the local scratchpad or SDM (R279). -/
def State.localElement (s : State) (va : Word) (n : Nat) : Except Trap Piece :=
  if va.toNat % 8 ≠ 0 then .error { cause := .misalign, info := va.toNat }
  else if va.toNat < windowBase || teamBase ≤ va.toNat then .error { cause := .access, info := va.toNat }
  else match s.windowAt s.curCore (va.toNat - windowBase) n with
    | .at_ sp a => .ok { space := sp, addr := a, len := n }
    | _ => .error { cause := .access, info := va.toNat }

/-- The slot of the queue at an address that `qenq` writes or `qdeq` reads (R278). -/
def QueueHeader.slotElem (h : QueueHeader) (va : Word) (dequeue : Bool) : List Elem :=
  oneElem (va + BitVec.ofNat 64 (64 + h.esize * ((if dequeue then h.head else h.tail) % h.cap))) h.esize

/-- The frame of `qenq` and `qdeq`: the two places, the waits, validity and the queue's state, and the interlock for the
slot; then `k` with the header, its place and the element's place (R273, R279). The traps of x[a] come before those of x[b], and
of x[b] an invalid queue's ESIZE is tested where it is an allowed value and else 8 bytes: the model's choice (log 66). -/
def State.queueOp (s : State) (i : Instr) (d a b : Reg) (sc : Scope) (od : Ordering) (dequeue : Bool)
    (k : State → Order → QueueHeader → Piece → Piece → Res) : Res :=
  s.scalarGate 8 fun s =>
  let o := Order.of sc od
  match s.scratchObject (s.me.getX a) 64 64 with
  | .error t => s.trapped t
  | .ok q =>
    let n := s.objectNat q
    let h := QueueHeader.ofNat n
    match s.localElement (s.me.getX b) (if esizeOk h.esize then h.esize else 8) with
    | .error t => s.trapped t
    | .ok e =>
      if s.objectWaits o true (oneElem (s.me.getX a) 64) || s.interlocked dequeue (oneElem (s.me.getX b) e.len)
      then s.waits i
      else if !s.queueValid q n then s.objectDone o (if dequeue then [] else [q]) d 2
      else if h.used = (if dequeue then 0 else h.cap) then s.objectDone o (if dequeue then [] else [q]) d 1
      else if s.interlocked (!dequeue) (h.slotElem (s.me.getX a) dequeue) then s.waits i
      else k s o h q e

/-- The place of slot j (R278). -/
def QueueHeader.slot (h : QueueHeader) (q : Piece) (j : Nat) : Piece :=
  { space := q.space, addr := q.addr + 64 + h.esize * (j % h.cap), len := h.esize }

/-- The write of HEAD and TAIL. -/
def State.putCounts (s : State) (o : Order) (q : Piece) (head tail : Nat) : State :=
  s.rmwStore s.myJob (s.relEpoch o) q.space q.addr (leBytes 8 (head % 2 ^ 32 + tail % 2 ^ 32 * 2 ^ 32))

/-- `qenq`; its acquire is of the header that it reads (R279, R287, R295). -/
def execQenq (d a b : Reg) (sc : Scope) (od : Ordering) (s : State) : Res :=
  s.queueOp (.qenq d a b sc od) d a b sc od false fun s o h q e =>
    let slot := h.slot q h.tail
    let s := s.epochAcq o [q]
    let t := s.freshStore s.myJob (s.relEpoch o) slot.space slot.addr (s.strandLoad [e])
    (t.putCounts o q h.head (h.tail + 1)).objectDone o [] d 0

/-- `qdeq`; its acquire is of the header and the slot that it reads (R279, R287, R295). -/
def execQdeq (d a b : Reg) (sc : Scope) (od : Ordering) (s : State) : Res :=
  s.queueOp (.qdeq d a b sc od) d a b sc od true fun s o h q e =>
    let slot := h.slot q h.head
    let t := (s.epochAcq o [q, slot]).strandStore (Order.of .core .rlx) [e] (s.peek slot.space slot.addr slot.len)
    (t.putCounts o q (h.head + 1) h.tail).objectDone o [] d 0

/-! ## Copy commands -/

/-- The four forms of a copy command (R269). -/
inductive CopyForm where
  | linear | strided | gather | pages
  deriving DecidableEq, Repr

/-- A copy command as its control word and its descriptor give it (R267, R268). -/
structure CopySpec where
  rows    : Nat
  rowLen  : Nat
  sstride : Int
  dstride : Int
  list    : Word
  doff    : Nat
  boff    : Nat
  bt      : Nat
  brem    : Bool
  bar     : Bool
  bad     : Bool
  deriving DecidableEq, Repr

/-- First address of the local SDM window (R184). -/
def sdmBase : Nat := windowBase + 0x400000

/-- The reading of a control word x and, except for `xcp`, of the 32 descriptor bytes; `bad` is check 1 of R270. -/
def CopySpec.read (form : CopyForm) (x desc : Nat) : CopySpec :=
  let linear := form = .linear
  let rows := if linear then 1 else desc % 2 ^ 32
  let rowLen := if linear then x % 2 ^ 32 else desc / 2 ^ 32 % 2 ^ 32
  let list := if linear then 0 else desc / 2 ^ 192
  let bt := x / 2 ^ 54 % 2 ^ 8
  { rows := rows
    rowLen := rowLen
    sstride := if linear then 0 else toSigned 64 (desc / 2 ^ 64 % 2 ^ 64)
    dstride := if linear then 0 else toSigned 64 (desc / 2 ^ 128 % 2 ^ 64)
    list := BitVec.ofNat 64 list
    doff := if linear then 0 else x % 2 ^ 18
    boff := x / 2 ^ 32 % 2 ^ 22
    bt := bt
    brem := x.testBit 62
    bar := x.testBit 63
    bad := (!x.testBit 62 && bt ≠ 0) ||
      (!linear && (x / 2 ^ 18 % 2 ^ 14 ≠ 0 || 65536 < rows || 2 ^ 24 < rowLen || (form = .strided && list ≠ 0))) }

/-- The command names a list of indices. -/
def CopyForm.listed (f : CopyForm) : Bool :=
  match f with
  | .gather | .pages => true
  | _ => false

/-- The address of the barrier that a command drains. -/
def CopySpec.barrierAt (c : CopySpec) : Nat :=
  if c.brem then teamBase + c.bt * 0x800000 + c.boff else windowBase + c.boff

/-- Checks 1 to 3 of R270. A list of no rows is not tested for its window: the model's choice (log 66). Where several places of check
2, or several of check 3, fail together, INFO holds the first of them in the order in which the check's row names them; BT comes
before the barrier's place: the model's choice (log 39). -/
def State.copyTrap (s : State) (i : Instr) (form : CopyForm) (c : CopySpec) (src : Word) : Option Trap :=
  let mis (a : Nat) : Option Trap := some { cause := .misalign, info := a }
  let acc (a : Nat) : Option Trap := some { cause := .access, info := a }
  let size := ((s.myCore.place).map Place.size).getD 0
  if c.bad then some { cause := .illegal, info := encodeWord i }
  else if c.doff % 32 ≠ 0 then mis (sdmBase + c.doff)
  else if c.bar && c.boff % 16 ≠ 0 then mis c.barrierAt
  else if form.listed && c.list.toNat % 4 ≠ 0 then mis c.list.toNat
  else if form = .pages && src.toNat % 8 ≠ 0 then mis src.toNat
  else if Config.sdmBytes < c.doff + 32 then acc (sdmBase + c.doff)
  else if form.listed && c.rows ≠ 0 && (c.list.toNat < windowBase || teamBase ≤ c.list.toNat
      || s.windowAt s.curCore (c.list.toNat - windowBase) (4 * c.rows) = .forbidden) then acc c.list.toNat
  else if c.brem && size ≤ c.bt then acc c.barrierAt
  else if c.bar && s.window s.curCore c.barrierAt 16 = .forbidden then acc c.barrierAt
  else none

/-- One row as phase one forms it: its index, the pointer it reads, its source unless that pointer cannot be read, and
its destination (R269). -/
structure RowPlan where
  row : Nat
  ptr : Option Nat
  src : Option Nat
  dst : Nat
  deriving DecidableEq, Repr

/-- An address from an integer, modulo 2^64. -/
def wrapAddr (x : Int) : Nat := wrapTo 64 x

/-- The indices of a list (R269). -/
def listIndices : List Byte → Nat → List Nat
  | _, 0 => []
  | bs, n + 1 => leNat (bs.take 4) :: listIndices (bs.drop 4) n

/-- The bytes of the list of indices. -/
def State.listBytes (s : State) (c : CopySpec) : List Byte :=
  match s.windowAt s.curCore (c.list.toNat - windowBase) (4 * c.rows) with
  | .at_ sp a => s.strandLoad [{ space := sp, addr := a, len := 4 * c.rows }]
  | _ => []

/-- The rows of a command whose source base is src and destination base dst, from the bytes of its list and the pointers by row that
have been read (R269). -/
def copyRows (form : CopyForm) (c : CopySpec) (list : List Byte) (ptrs : List (Nat × Nat)) (src dst : Word) : List RowPlan :=
  let idx := if form.listed then listIndices list c.rows else List.replicate c.rows 0
  idx.zipIdx.map fun (j, r) =>
    let dest := wrapAddr (dst.toNat + r * c.dstride)
    match form with
    | .linear => { row := r, ptr := none, src := some src.toNat, dst := dest }
    | .strided => { row := r, ptr := none, src := some (wrapAddr (src.toNat + r * c.sstride)), dst := dest }
    | .gather => { row := r, ptr := none, src := some (wrapAddr (src.toNat + j * c.sstride)), dst := dest }
    | .pages =>
      { row := r
        ptr := some (wrapAddr (src.toNat + 8 * j))
        src := (ptrs.find? fun e => e.1 = r).map fun e => wrapAddr ((e.2 : Int) + c.sstride)
        dst := dest }

/-- What a row reads. -/
def RowPlan.reads (r : RowPlan) (len : Nat) : List Elem :=
  (match r.ptr with
    | some p => [{ idx := r.row, addr := p, len := 8 }]
    | none => [])
  ++ (match r.src with
    | some a => [{ idx := r.row, addr := a, len := len }]
    | none => [])

/-- What a row writes. -/
def RowPlan.writes (r : RowPlan) (len : Nat) : List Elem := [{ idx := r.row, addr := r.dst, len := len }]

/-- The outcome of checks 4 and 5 of R270. -/
inductive CopyPhase where
  | missing (rows pages : List Nat) (written : Bool)
  | forbidden (row addr : Nat)
  | ok (pages : List (Nat × Nat))
  deriving DecidableEq, Repr

/-- The elements of one access with a run of a given fate, and the pages of that fate. -/
def State.failures (s : State) (p : Nat) (acc : Access) (es : List Elem) (f : Fate) : List Elem × List Nat :=
  let fates := s.pageFates p acc false (es.flatMap fun e => runsOf e.addr e.len)
  (es.filter fun e => (runsOf e.addr e.len).any fun r => s.runFate p acc fates r = f,
    (fates.filter (fun g => g.2 = f)).map (·.1))

/-- The address of the first run of an element that is forbidden. -/
def State.forbiddenAt (s : State) (p : Nat) (acc : Access) (e : Elem) : Nat :=
  let runs := runsOf e.addr e.len
  let fates := s.pageFates p acc false runs
  ((runs.find? fun r => s.runFate p acc fates r = .forbidden).map (·.1)).getD e.addr

/-- Physical pages of the pages that some bytes reach (R302). -/
def State.physicalPages (s : State) (p : Nat) (es : List Elem) : List (Nat × Nat) :=
  let runs := (es.flatMap fun e => runsOf e.addr e.len).filter fun r => !inWindows r.1
  (dedup (runs.map (fun r => r.1 / 4096))).filterMap fun pg =>
    match s.leafOf p (pg * 4096) with
    | .leaf pte => some (pg, pte.toNat / 1024 % 2 ^ 44)
    | _ => none

/-- Checks 4 and 5 of R270 by core p over what the rows read and write. -/
def State.copyPhase (s : State) (p : Nat) (reads writes : List Elem) : CopyPhase :=
  let missR := s.failures p .load reads .missing
  let missW := s.failures p .store writes .missing
  if missR.1 ≠ [] || missW.1 ≠ [] then
    .missing (sortNat (dedup ((missR.1 ++ missW.1).map Elem.idx))) (sortNat (dedup (missR.2 ++ missW.2))) (missW.1 ≠ [])
  else
    let bad := (s.failures p .load reads .forbidden).1.map (fun e => (e, Access.load))
      ++ (s.failures p .store writes .forbidden).1.map (fun e => (e, Access.store))
    match sortNat (bad.map fun e => e.1.idx) with
    | [] => .ok (s.physicalPages p (reads ++ writes))
    | r :: _ =>
      match bad.find? (fun e => e.1.idx = r) with
      | some (e, acc) => .forbidden r (s.forbiddenAt p acc e)
      | none => .forbidden r 0

/-- The span of some bytes: lowest address and one past the highest, a team address of the own core as a local one
(R273). -/
def State.spanOf (s : State) (es : List Elem) : Nat × Nat :=
  es.foldl (fun acc e =>
    let x := s.spanOfElem e
    (if acc.2 = 0 then x.1 else Nat.min acc.1 x.1, Nat.max acc.2 x.2)) (0, 0)

/-- Check 6 of R270: the destination span against those of the source, the list and the pointers. It compares a team-window
address of the core's own number as its local-window address, which R273 states for the interlock alone: the model's choice
(log 39). -/
def State.copyOverlaps (s : State) (form : CopyForm) (c : CopySpec) (plan : List RowPlan) : Bool :=
  let dst := s.spanOf (plan.flatMap fun r => r.writes c.rowLen)
  let src := s.spanOf (plan.filterMap fun r => r.src.map fun a => { idx := r.row, addr := a, len := c.rowLen })
  let ptr := s.spanOf (plan.filterMap fun r => r.ptr.map fun a => { idx := r.row, addr := a, len := 8 })
  let list := if form.listed then s.spanOf [{ idx := 0, addr := c.list.toNat, len := 4 * c.rows }] else (0, 0)
  spansMeet dst src || spansMeet dst ptr || spansMeet dst list

/-- Whether an instruction is a copy command. -/
def isCopy (i : Instr) : Bool :=
  match i with
  | .xcp .. => true
  | .xcp2 .. => true
  | .xgat .. => true
  | .xpg .. => true
  | _ => false

/-- A strand's copy command has issued and waits in its phase one: it holds an interlock entry (R271). -/
def Strand.holdsEntry (st : Strand) : Bool := st.issuedWait.any fun e => isCopy e.1

/-- No interlock entry is free for the current strand: 16 are held, or promised to strands that have waited longer
(R271). -/
def State.entriesTaken (s : State) : Bool :=
  let mine := match s.me.waiting with
    | some w => w.since
    | none => s.tick
  let others := (List.range Config.strands).countP fun k =>
    k ≠ s.curStrand && ((s.myCore.strand k).holdsEntry || match (s.myCore.strand k).waiting with
      | some w => isCopy w.instr && w.since < mine
      | none => false)
  16 ≤ s.myCore.copies.length + others

/-- A command that has passed every check completes for its strand and takes its interlock entry (R270 to R273). -/
def State.enqueueCopy (s : State) (c : CopySpec) (plan : List RowPlan) (pages : List (Nat × Nat)) (sc : Scope)
    (od : Ordering) : Res :=
  let o := Order.of sc od
  let src := s.spanOf (plan.flatMap fun r => r.reads c.rowLen)
  let dst := s.spanOf (plan.flatMap fun r => r.writes c.rowLen)
  let copy : Copy := {
    strand := s.curStrand
    no := s.askId
    pc := s.me.pc
    blk := s.me.blk
    interval := s.me.interval
    scope := sc
    order := od
    rows := plan.map fun r =>
      { src := BitVec.ofNat 64 (r.src.getD 0), dst := BitVec.ofNat 64 r.dst, len := c.rowLen }
    row := 0
    offset := 0
    barrier := if c.bar then some (if c.brem then c.bt else s.myTeam, c.boff) else none
    key := s.storeKey
    sync := s.relEpoch o
    pages := pages
    srcLo := src.1
    srcHi := src.2
    dstLo := dst.1
    dstHi := dst.2
    unit := none
    suspended := false
    awaiting := [] }
  let s := (s.takeNumber.setMyCore { s.myCore with copies := s.myCore.copies ++ [copy] }).epochRel o
  s.complete s.me

/-- Checks 4 to 6 of R270, then the entry. INFO of check 6 is the destination of the first row: the model's choice (log 39). A
fault record without a place is an access violation (log 72). -/
def State.copyPhaseOne (s : State) (form : CopyForm) (c : CopySpec) (plan : List RowPlan) (sc : Scope) (od : Ordering) :
    Res :=
  let reads := plan.flatMap fun r => r.reads c.rowLen
  let writes := plan.flatMap fun r => r.writes c.rowLen
  match s.copyPhase s.curCore reads writes with
  | .missing rows pages written =>
    match s.reportFault s.curCore s.curStrand (if written then 1 else 0) s.me.pc rows pages with
    | .error a => s.trapped { cause := .access, info := a, elem := (rows.head?).getD 0 }
    | .ok (s, a) => s.trapped { cause := .xlate, info := a, elem := (rows.head?).getD 0 }
  | .forbidden row addr => s.trapped { cause := .access, info := addr, elem := row }
  | .ok pages =>
    if s.copyOverlaps form c plan then
      s.trapped { cause := .access, info := ((plan.head?).map RowPlan.dst).getD 0 }
    else (s.fillTlb s.curCore (pages.map (·.1))).enqueueCopy c plan pages sc od

/-- A copy command has issued and waits, with what it has read (R268, R272). -/
def State.waitsCopy (s : State) (i : Instr) (r : CopyRead) : Res := s.waitsWith i (some (s.issueNow (some r)))

/-- What the current strand's copy command has read since it issued (R268). -/
def State.copyRead (s : State) (i : Instr) : Option CopyRead :=
  s.me.issuedWait.bind fun e => if e.1 = i then e.2.copy else none

/-- The pointers of the rows that are not read yet. -/
def unreadPointers (plan : List RowPlan) : List Elem :=
  plan.filterMap fun r => if r.src.isNone then r.ptr.map fun p => { idx := r.row, addr := p, len := 8 } else none

/-- Those of some pointers whose pages let them be read, with their places. -/
def State.readable (s : State) (ptrs : List Elem) : List (Elem × List Piece) :=
  ptrs.flatMap fun e => match s.phaseOne s.curCore .load false 8 [e] with
    | .ok es _ => es
    | _ => []

/-- Pointers that have been read. -/
def State.withPointers (s : State) (r : CopyRead) (es : List (Elem × List Piece)) : CopyRead :=
  { r with ptrs := r.ptrs ++ es.map fun e => (e.1.idx, leNat (s.strandLoad e.2)) }

/-- The pointers of a command that can be read and are not yet: the strand's own reduces of their bytes come first, and those that
other devices hold are asked for (R121, R269, R339). -/
def State.copyPointers (s : State) (i : Instr) (r : CopyRead) (ptrs : List Elem) (k : State → CopyRead → Res) : Res :=
  s.aloft s.mySender (·.waitsCopy i r) (fun s es => k s (s.withPointers r es)) fun s =>
    match s.readable ptrs with
    | [] => k s r
    | es =>
      if s.reducesMeet (es.flatMap Prod.snd) || s.heldUnplaced || es.any (fun e => s.unitOpen s.mySender e.2)
      then s.waitsCopy i r
      else s.acrossDevices s.mySender (some i) ⟨0, 0, 0, 0⟩ es loadsAll (·.waitsCopy i r) fun s es => k s (s.withPointers r es)

/-- What the rows read and write. -/
def rowElems (c : CopySpec) (plan : List RowPlan) : List Elem := plan.flatMap fun r => r.reads c.rowLen ++ r.writes c.rowLen

/-- A copy command that has issued: the list, the interlock for its rows, its walks, the pointers, and checks 4 to 6. What it has
read it keeps while it waits, so that later writes to those bytes do not reach it; rows whose sources its pointers give are walked
for and held against the interlock when these are read (R268 to R273, R339). -/
def State.copyIssued (s : State) (i : Instr) (form : CopyForm) (d a : Reg) (sc : Scope) (od : Ordering) (c : CopySpec)
    (r : CopyRead) : Res :=
  let src := s.me.getX a
  let dst := s.me.getX d
  let waitsFor (s : State) (plan : List RowPlan) : Bool :=
    s.interlocked false (plan.flatMap fun r => r.reads c.rowLen) || s.interlocked true (plan.flatMap fun r => r.writes c.rowLen)
  if form.listed && r.list.isNone && s.interlocked false [{ idx := 0, addr := c.list.toNat, len := 4 * c.rows }]
  then s.waitsCopy i r
  else
    let r := if form.listed then { r with list := some (r.list.getD (s.listBytes c)) } else r
    let planOf (r : CopyRead) : List RowPlan := copyRows form c (r.list.getD []) r.ptrs src dst
    let plan := planOf r
    let goOn (s : State) : Res :=
      s.copyPointers i r (unreadPointers plan) fun s r' =>
        if r' = r then s.copyPhaseOne form c plan sc od
        else
          let plan := planOf r'
          if waitsFor s plan then s.waitsCopy i r'
          else
            s.walked s.curStrand (some i) 1 (rowElems c plan) (·.waitsCopy i r') fun s =>
            if s.readable (unreadPointers plan) = [] then s.copyPhaseOne form c plan sc od else s.waitsCopy i r'
    if waitsFor s plan then s.waitsCopy i r
    else if (s.flight s.mySender).isSome then goOn s
    else s.walked s.curStrand (some i) 1 (rowElems c plan) (·.waitsCopy i r) goOn

/-- A copy command: the class ENGINE, the interlock for its descriptor, checks 1 to 3 and the free entry; then it has issued, and
what it has read by then stays as it is (R267 to R273). What it reads at issue it reads as its strand's loads, and the strand's
held stores do not keep it (R121, R272). -/
def State.copyCommand (s : State) (i : Instr) (form : CopyForm) (d a b : Reg) (sc : Scope) (od : Ordering) : Res :=
  s.scalarGate 8 fun s =>
  let x := (s.me.getX b).toNat
  let doff := x % 2 ^ 18
  match s.copyRead i with
  | some r => s.copyIssued i form d a sc od (CopySpec.read form x r.desc) r
  | none =>
    if form ≠ .linear && s.interlocked false [{ idx := 0, addr := sdmBase + doff, len := 32 }] then s.waits i
    else
      let desc := if form = .linear then 0 else leNat (s.strandLoad [{ space := .sdm s.curCore, addr := doff, len := 32 }])
      let c := CopySpec.read form x desc
      match s.copyTrap i form c (s.me.getX a) with
      | some t => s.trapped t
      | none =>
        if c.rows = 0 || c.rowLen = 0 then (s.epochRel (Order.of sc od)).complete s.me
        else if s.entriesTaken then s.waits i
        else s.copyIssued i form d a sc od c { desc := desc, list := none, ptrs := [] }

/-- `xcp` (R269). -/
def execXcp (d a b : Reg) (sc : Scope) (od : Ordering) (s : State) : Res :=
  s.copyCommand (.xcp d a b sc od) .linear d a b sc od

/-- `xcp2` (R269). -/
def execXcp2 (d a b : Reg) (sc : Scope) (od : Ordering) (s : State) : Res :=
  s.copyCommand (.xcp2 d a b sc od) .strided d a b sc od

/-- `xgat` (R269). -/
def execXgat (d a b : Reg) (sc : Scope) (od : Ordering) (s : State) : Res :=
  s.copyCommand (.xgat d a b sc od) .gather d a b sc od

/-- `xpg` (R269). -/
def execXpg (d a b : Reg) (sc : Scope) (od : Ordering) (s : State) : Res :=
  s.copyCommand (.xpg d a b sc od) .pages d a b sc od

/-! ## The engine's events -/

/-- Where a run of a command's bytes lies, by the translations that its phase one took (R302). -/
def State.copyPlace (s : State) (p : Nat) (c : Copy) (r : Run) : Fate :=
  if canonical r.1 && inWindows r.1 then s.window p r.1 r.2
  else match c.pages.find? (fun e => e.1 = r.1 / 4096) with
    | some (_, ppn) =>
      match s.physical (ppn * 4096 + r.1 % 4096) with
      | some (sp, a) => .at_ sp a
      | none => .forbidden
    | none => .forbidden

/-- The pieces of some bytes of a command. -/
def State.copyPieces (s : State) (p : Nat) (c : Copy) (va len : Nat) : List Piece :=
  (runsOf va len).filterMap fun r =>
    match s.copyPlace p c r with
    | .at_ sp a => some { space := sp, addr := a, len := r.2, page := r.1 / 4096 }
    | _ => none

/-- The command goes on after a unit of n bytes. -/
def Copy.advance (c : Copy) (len n : Nat) : Copy :=
  if c.offset + n < len then { c with offset := c.offset + n } else { c with row := c.row + 1, offset := 0 }

/-- What a drain of a command of core p carries: it publishes the unit at the command's scope, and at device scope or wider it
adds 1 to the epoch count (R277, R295). -/
def State.drainRelease (s : State) (p : Nat) (c : Copy) : Release :=
  if !(s.core p).det then ⟨0, 0, c.sync.core, 0⟩
  else
    { wide := if wideScope c.scope then (s.core p).epoch + 1 else c.sync.wide
      die := if c.scope = .die then (s.core p).epoch else c.sync.die
      core := c.sync.core }

/-- A drain of n bytes of a command's barrier (R275, R277, R295). -/
def State.drainBarrier (s : State) (p : Nat) (c : Copy) (n : Nat) : State :=
  match c.barrier, (s.core p).place with
  | some (t, off), some pl =>
    match pl.cores[t]? with
    | none => s
    | some q =>
      match Barrier.ofNat (leNat (s.peek (.spad q) off 16)) with
      | none => s
      | some b =>
        let t := s.rmwStore pl.job (s.drainRelease p c) (.spad q) off (b.drain n s.tick).bytes
        if (t.core p).det && wideScope c.scope then t.setCore p { t.core p with epoch := (t.core p).epoch + 1 } else t
  | _, _ => s

/-- Replace the first command of a core. -/
def State.setFirstCopy (s : State) (p : Nat) (cs : List Copy) : State := s.setCore p { s.core p with copies := cs }

/-- The sender of a command's accesses: the strand that issued it, on core p; what the engine reads it asks for itself. -/
def State.copySender (s : State) (p agent : Nat) : Sender := (s.at_ p s.curStrand).senderOf agent

/-- The engine meets what the bytes it reads carry, as the issuing strand's load does (R272, R295). -/
def State.copyMeets (s : State) (p : Nat) (c : Copy) (ps : List Piece) : State :=
  ({ s with curCore := p, curStrand := c.strand }).epochAcq (Order.of c.scope c.order) ps

/-- The command's writes count at another device's memory once they are acknowledged there (R290). -/
def Copy.far (c : Copy) : Bool := c.scope = .fab || c.scope = .sys

/-- The command releases (R272). -/
def Copy.releases (c : Copy) : Bool := c.order = .rel || c.order = .acqRel

/-- Earlier accesses of its strand come before a command of core p: older stores that the store queue holds and older reduces,
and before the first write of a release all that its scope covers: at the scope of other devices every write of the strand to
them, those of older stores and older commands among them, is acknowledged (R121, R272, R286, R290, R300, R301). -/
def State.copyBehind (s : State) (p : Nat) (c : Copy) : Bool :=
  let t := s.at_ p c.strand
  t.me.storeQ.any (fun h => h.no < c.no) || t.myReduces.any (fun r => r.no < c.no) || t.myUnsent
    || (c.releases && c.far && c.row = 0 && c.offset = 0
      && (t.myRemoteReduces || t.postsOut t.curStrand))

/-- The engine of core p may go on: the core runs a job, and neither a halt nor the job's earlier run holds it (R280, R298). -/
def State.engineRuns (s : State) (p : Nat) : Bool := !(s.core p).halted && !(s.core p).resuming

/-- Drop a command; its strand takes an access violation at its next instruction boundary (R281). -/
def Core.abandon (c : Core) (n : Nat) (addr : Word) (row : Nat) : Core :=
  match c.copies[n]? with
  | none => c
  | some cp =>
    let st := c.strand cp.strand
    let lost : Abandoned := { pc := cp.pc, blk := cp.blk, addr := addr, row := row }
    Core.setStrand { c with copies := c.copies.eraseIdx n } cp.strand { st with abandoned := st.abandoned ++ [lost] }

/-- The first address of some bytes of a command that has no place any more, its route being gone (R281, R352). -/
def State.copyLost (s : State) (p : Nat) (c : Copy) (va len : Nat) : Option Nat :=
  ((runsOf va len).find? fun r => s.copyPlace p c r = .forbidden || s.copyPlace p c r = .missing).map (·.1)

/-- A unit of n bytes is written and published: the barrier is drained and the command goes on (R275, R277). -/
def State.unitDone (s : State) (p : Nat) (c : Copy) (rest : List Copy) (len n : Nat) : State :=
  (s.drainBarrier p c n).setFirstCopy p ({ c with unit := none }.advance len n :: rest)

/-- Writes of a unit to other devices are not acknowledged (R277, R290). -/
def State.unitOut (s : State) (u : Nat × Nat × Nat) : Bool := s.postedQ.any fun e => u.2.1 ≤ e.no && e.no < u.2.2

/-- The write of a unit of n bytes at `dest`, whose source bytes lie at some pieces. At a scope of other devices it is done once
they have acknowledged it (R271, R277, R290). -/
def State.writeUnit (s : State) (p : Nat) (c : Copy) (rest : List Copy) (len dest n : Nat) (src : List Piece) : State :=
  let bytes := s.readPieces src
  let t := s.copyMeets p c src
  let u := storePieces (t.copySender p c.strand) c.key c.sync (t.copyPieces p c dest n) bytes t
  if c.far && u.askId ≠ t.askId then u.setFirstCopy p ({ c with unit := some (n, t.askId, u.askId) } :: rest)
  else u.unitDone p c rest len n

/-- `COPY_UNIT_WRITE`: the oldest command of core p writes its next 64-byte aligned destination unit, or the part of it
that its row covers, and drains its barrier; one whose bytes have no place any more is abandoned (R271, R275, R277, R281, R352). -/
def execCopyUnitWrite (p : Nat) (s : State) : Res :=
  match (s.core p).copies with
  | [] => .next s
  | c :: rest =>
    match c.rows[c.row]? with
    | none => .next s
    | some r =>
      if !s.engineRuns p then .next s
      else match c.unit with
      | some (n, lo, hi) =>
        if s.unitOut (n, lo, hi) then .next s else .next (s.unitDone p c rest r.len n)
      | none =>
        if c.suspended || s.copyBehind p c then .next s
        else
          let dest := (r.dst.toNat + c.offset) % 2 ^ 64
          let from_ := (r.src.toNat + c.offset) % 2 ^ 64
          let n := Nat.min (r.len - c.offset) (64 - dest % 64)
          let asker := s.copySender p engineAgent
          let e : Elem := ⟨c.row, dest, n⟩
          let s := { s with flights := s.flights.filter fun f => f.source ≠ asker || f.elems.map Prod.fst = [e] }
          match (s.copyLost p c from_ n).orElse fun _ => s.copyLost p c dest n with
          | some a => .next (s.setCore p ((s.core p).abandon 0 (BitVec.ofNat 64 a) c.row))
          | none =>
            if (s.copyPieces p c dest n).any fun q => q.device.any s.cutOff then
              .next (s.endJob asker.job .uncorrectable false 0)
            else if s.unitWaits asker true (s.copyPieces p c dest n) || s.unitOpen asker (s.copyPieces p c from_ n) then .next s
            else
              let unit (s : State) (es : List (Elem × List Piece)) : Res :=
                .next (s.writeUnit p c rest r.len dest n (es.flatMap Prod.snd))
              s.aloft asker .next unit fun s =>
                s.acrossDevices asker none ⟨0, 0, 0, 0⟩ [(e, s.copyPieces p c from_ n)] loadsAll .next unit

/-- `COPY_COMPLETE`: the oldest command has written its last unit and frees its interlock entry (R271). -/
def execCopyComplete (p : Nat) (s : State) : Res :=
  match (s.core p).copies with
  | [] => .next s
  | c :: rest => if c.rows.length ≤ c.row && s.engineRuns p then .next (s.setFirstCopy p rest) else .next s

/-- The bytes that a command has not written yet. -/
def Copy.remaining (c : Copy) : List (Nat × CopyRow) :=
  (c.rows.zipIdx.drop c.row).map fun (r, i) =>
    let o := if i = c.row then c.offset else 0
    let row : CopyRow := { src := r.src + BitVec.ofNat 64 o, dst := r.dst + BitVec.ofNat 64 o, len := r.len - o }
    (i, row)

/-- The first row of what a command has left that reaches a page (R281). -/
def Copy.rowAt (c : Copy) (page : Nat) : Nat :=
  ((c.remaining.find? fun (_, r) =>
    (runsOf r.src.toNat r.len ++ runsOf r.dst.toNat r.len).any fun run => run.1 / 4096 = page).map Prod.fst).getD c.row

/-- `COPY_RETRANSLATE`: the engine translates again what a suspended command has left, and resumes it, waits for the
host on the missing pages that its record lists (R191), or abandons it (R280, R281). It takes the rows as they were formed at
issue and reads neither the list nor the pointer table again: the model's choice (log 74). -/
def execCopyRetranslate (p : Nat) (s : State) : Res :=
  match (s.core p).copies with
  | [] => .next s
  | c :: rest =>
    if !c.suspended || c.awaiting ≠ [] || c.unit.isSome || !s.engineRuns p then .next s
    else
      let left := c.remaining
      let reads : List Elem := left.map fun (i, r) => { idx := i, addr := r.src.toNat, len := r.len }
      let writes : List Elem := left.map fun (i, r) => { idx := i, addr := r.dst.toNat, len := r.len }
      match s.walksOf p engineAgent ((reads ++ writes).flatMap fun e => runsOf e.addr e.len) with
      | .waits t => .next t
      | .lost => .next (s.endJob (s.copySender p engineAgent).job .uncorrectable false 0)
      | .ready s =>
      match s.copyPhase p reads writes with
      | .ok pages => .next (s.setFirstCopy p ({ c with pages := pages, suspended := false } :: rest))
      | .forbidden row addr => .next (s.setCore p ((s.core p).abandon 0 (BitVec.ofNat 64 addr) row))
      | .missing rows pages written =>
        match s.reportFault p c.strand (if written then 1 else 0) c.pc rows pages true with
        | .error a => .next (s.setCore p ((s.core p).abandon 0 (BitVec.ofNat 64 a) ((rows.head?).getD 0)))
        | .ok (t, _) =>
          .next (t.setFirstCopy p
            ({ c with awaiting := (pages.take 248).map fun pg => BitVec.ofNat 64 (pg * 4096) } :: rest))

/-- `BWAIT_RETURN`: a waiting `bwait` of strand k returns once the phase has changed (R276). -/
def execBwaitReturn (p k : Nat) (s : State) : Res :=
  let t := { s with curCore := p, curStrand := k }
  match t.me.waiting with
  | some w => match w.instr with
    | .bwait d a b sc od => if t.strandRuns p k then execBwait d a b sc od t else .next s
    | _ => .next s
  | none => .next s

end Sys2Proof.Machine
end

