-- ==== Sys2Proof/Machine/System.lean ====
section
/-! DEFINITION. The system instructions and the strand control registers they read and write: access rules, traps,
strand images with their lazy restore, timers and capabilities (R319 to R331). -/

namespace Sys2Proof.Machine

/-! ## Strand control registers -/

/-- The eight tag bytes from register `first` on (R142). -/
def Strand.tagBytes (st : Strand) (first : Nat) : Word :=
  BitVec.ofNat 64 ((List.range 8).foldr (fun j acc => st.tag (first + j) + 256 * acc) 0)

/-- Register n as the core holds it, outside deterministic mode; 0 for an unassigned number (R142, R319). -/
def State.rawControl (s : State) (p k n : Nat) : Word :=
  let c := s.core p
  let st := c.strand k
  match n with
  | 0 => st.sbound.setWidth 64
  | 1 => BitVec.ofNat 64 st.vgrp
  | 2 => BitVec.ofNat 64 Config.vmax
  | 3 => BitVec.ofNat 64 (s.alc p)
  | 4 => BitVec.ofNat 64 (16 * c.prick.length)
  | 5 => st.vstart.setWidth 64
  | 6 => st.vffi.setWidth 64
  | 7 => st.vfill
  | 8 => st.tagBytes 0
  | 9 => st.tagBytes 8
  | 10 => st.tagBytes 16
  | 11 => st.tagBytes 24
  | 12 => if st.vdValid then 1 else 0
  | 13 => st.fstat
  | 14 => 0x2002020
  | 15 => st.mext
  | 16 => st.mfmt
  | 17 => st.cwidth
  | 18 => st.cspec
  | 19 => st.cgeom
  | 20 => st.dseed
  | 21 => st.dmode
  | 22 => st.dtab
  | 23 => st.dpos
  | 24 => st.detf
  | 25 => st.vabs
  | 26 => st.vimg
  | 27 => st.vrq
  | 28 => st.tpc
  | n => if 32 ≤ n && n < 48 then c.fmt (n - 32) else 0

/-- A register number is assigned (R319). -/
def controlAssigned (n : Nat) : Bool := n ≤ 28 || (32 ≤ n && n < 48)

/-- Set a flag of `detf`, and DET_READ of the job (R70, R319). -/
def State.setDetf (s : State) (bit : Nat) : State :=
  (s.setMe { s.me with detf := s.me.detf ||| BitVec.ofNat 64 (2 ^ bit) }).markDetRead

/-- A write of the tag bytes of eight registers: bit 7 of a byte is reserved and ignored, and a byte that then is no tag leaves
its register (R10, R142). -/
def Strand.writeTags (st : Strand) (first : Nat) (w : Word) : Strand :=
  (List.range 8).foldl (fun st j =>
    let t := w.toNat / 2 ^ (8 * j) % 2 ^ 7
    if tagOk t then st.setTag (first + j) t else st) st

/-- A write of `mext`: an extent outside its range leaves it as a whole (R220). -/
def Strand.writeMext (st : Strand) (w : Word) : Strand :=
  let rows := w.toNat % 2 ^ 6
  let cols := w.toNat / 2 ^ 8 % 2 ^ 6
  let k := w.toNat / 2 ^ 16 % 2 ^ 12
  if extentsOk rows cols k then { st with mext := mextWord rows cols k } else st

/-- A write of `mfmt`: an invalid code leaves its field (R221). -/
def Strand.writeMfmt (st : Strand) (w : Word) : Strand :=
  let pick (lo : Nat) : Nat :=
    let c := w.toNat / 2 ^ lo % 2 ^ 8
    if matCodeOk c then c else st.mfmt.toNat / 2 ^ lo % 2 ^ 8
  { st with mfmt := BitVec.ofNat 64 (pick 0 + pick 8 * 2 ^ 8) }

/-- A write of register n by `ksput`, of a strand's image, and, where R319 lets it, by `scrw`: each register's own access
rule (R9, R10, R142, R217, R220, R221, R245, R319). -/
def Strand.writeControl (st : Strand) (n : Nat) (w : Word) : Strand :=
  match n with
  | 0 => { st with sbound := w.setWidth 32 }
  | 1 =>
    let g := w.toNat % 16
    if g = 1 || g = 2 || g = 4 || g = 8 then { st with vgrp := g } else st
  | 5 => { st with vstart := w.setWidth 32 }
  | 6 => { st with vffi := w.setWidth 32 }
  | 7 => { st with vfill := w }
  | 8 => st.writeTags 0 w
  | 9 => st.writeTags 8 w
  | 10 => st.writeTags 16 w
  | 11 => st.writeTags 24 w
  | 13 => { st with fstat := (st.fstat &&& w &&& 0x1F) ||| (w &&& 0x1F00) }
  | 15 => st.writeMext w
  | 16 => st.writeMfmt w
  | 17 => if 2 ≤ w.toNat % 16 && w.toNat % 16 ≤ 8 then { st with cwidth := w &&& 0xF } else st
  | 18 =>
    let q := if w &&& 0x1FFFF ≤ 0x10000 then w &&& 0x1FFFF else st.cspec &&& 0x1FFFF
    { st with cspec := q ||| (w &&& 0x3000000) }
  | 19 => if w &&& 0xFFFFFF = 0 then st else { st with cgeom := w &&& 0x7FFFFFFFFFFFFFFF }
  | 20 => { st with dseed := w }
  | 21 =>
    let len := if w.toNat / 2 ^ 16 % 2 ^ 22 ≤ 2 ^ 21 then w &&& 0x3FFFFF0000 else st.dmode &&& 0x3FFFFF0000
    { st with dmode := len ||| (w &&& 1) }
  | 22 => { st with dtab := w }
  | 23 => { st with dpos := w &&& 0xFFFFFFFF }
  | 24 => { st with detf := st.detf &&& w }
  | 25 => { st with vabs := w &&& 0x1FFFFFFFF }
  | 26 => if w &&& 0x3F = 0 then { st with vimg := w } else st
  | 27 => { st with vrq := w &&& 0x1FFFFFFFF }
  | 28 => { st with tpc := w }
  | _ => st

/-- `scrr`: `alc` and `lmod` read 0 in deterministic mode and set their flags (R87, R142, R319). -/
def execScrr (d : Reg) (n : BitVec 6) (s : State) : Res :=
  s.scalarGate 9 fun s =>
    if s.myCore.det && (n = 3 || n = 4) then
      let s := s.setDetf (if n = 3 then 2 else 3)
      s.complete (s.me.setX d 0)
    else s.complete (s.me.setX d (s.rawControl s.curCore s.curStrand n.toNat))

/-- A register that `scrw` may not name: `sbound`, the tags and the format entries (R130, R142). -/
def scrwIllegal (n : Nat) : Bool := n = 0 || (8 ≤ n && n ≤ 11) || 32 ≤ n

/-- `scrw` (R319, R321). -/
def execScrw (a : Reg) (n : BitVec 6) (s : State) : Res :=
  s.scalarGate 9 fun s =>
    if scrwIllegal n.toNat then s.trapped { cause := .illegal, info := encodeWord (.scrw a n) }
    else s.complete (s.me.writeControl n.toNat (s.me.getX a))

/-! ## Traps by instruction -/

/-- `trap n`: SOFTWARE; the resume point is the next instruction (R315, R321). -/
def execTrap (n : BitVec 6) (s : State) : Res :=
  s.scalarGate 9 fun s =>
    .next (s.trapAt s.curCore s.curStrand { cause := .software, code := n.toNat } (s.me.pc + 4))

/-- `brk n`: BREAK at the instruction itself (R315, R321). -/
def execBrk (n : BitVec 6) (s : State) : Res :=
  s.scalarGate 9 fun s => s.trapped { cause := .brk, code := n.toNat }

/-- `tret`: to `tpc` in SELF; in BLOCK illegal (R321). -/
def execTret (s : State) : Res :=
  s.scalarGate 9 fun s =>
    if s.me.st = .block then s.trapped { cause := .illegal, info := encodeWord .tret }
    else .next (s.setMe s.me.trapReturn)

/-- A strand fetches a word that is no instruction (checks 1 to 4 of R57). -/
def execIllegalInstruction (w : BitVec 32) (s : State) : Res := s.trapped { cause := .illegal, info := w.toNat }

/-! ## Strand images -/

/-- MAGIC of an image (R324). -/
def imageMagic : Nat := 0x31535650

/-- Bit of the part set: STATE (R323). -/
def partState : Nat := 33

/-- Bit of the part set: LAZY (R323). -/
def partLazy : Nat := 34

/-- Offset of `vn` in an image (R324). -/
def imageV (n : Nat) : Nat := 0x140 + Config.vmax / 2 + n * (Config.vmax / 8)

/-- Offset of the mask registers in an image (R324). -/
def imageM : Nat := 0x140 + Config.vmax / 8

/-- Control registers that STATE writes into an image (R319). -/
def stateSaved (n : Nat) : Bool := n ≤ 23 || n = 28

/-- Control registers that STATE loads through their own write rules (R319, R323). -/
def stateLoaded (n : Nat) : Bool := stateSaved n && !(2 ≤ n && n ≤ 4) && n ≠ 12 && n ≠ 14

/-- The 256-byte control block of the registers that `keep` takes; the others and unassigned numbers are zero, and so are `alc`
and `lmod` in deterministic mode (R324). `vsave` keeps the registers of STATE, a saved context every one (R319, R328). -/
def State.controlBlock (s : State) (keep : Nat → Bool := stateSaved) : List Byte :=
  (List.range 32).flatMap fun n =>
    leBytes 8 (if keep n && !(s.myCore.det && (n = 3 || n = 4))
      then (s.rawControl s.curCore s.curStrand n).toNat else 0)

/-- The parts actually written by a `vsave`: STATE, and the named parts that are not absent (R323). -/
def Strand.savedParts (st : Strand) (parts : Nat) : Nat :=
  parts % 2 ^ 34 - (parts % 2 ^ 33 &&& st.vabs.toNat)

/-- The header of an image (R324). -/
def State.imageHeader (s : State) (saved : Nat) : List Byte :=
  leBytes 4 imageMagic ++ leBytes 4 Config.vmax ++ leBytes 8 saved
    ++ leBytes 1 (if s.myCore.det then 0 else (s.rawControl s.curCore s.curStrand 4).toNat) ++ leBytes 47 0

/-- What a `vsave` writes, or a save of the context with every control register: offsets and bytes (R323, R324, R328). -/
def State.savePieces (s : State) (parts : Nat) (keep : Nat → Bool := stateSaved) : List (Nat × List Byte) :=
  let st := s.me
  let saved := st.savedParts parts
  [(0, s.imageHeader saved)]
    ++ (if saved.testBit partState then [(0x40, s.controlBlock keep), (0x140, leBytes (Config.vmax / 8) st.vdone.toNat)] else [])
    ++ (if saved.testBit 32 then
        [(imageM, (List.range 24).flatMap fun k => leBytes (Config.mlen / 8) (st.getM k).toNat)] else [])
    ++ ((List.range 32).filter saved.testBit).map fun n => (imageV n, leBytes (Config.vmax / 8) (st.getV n).toNat)

/-- What a `vrest` reads: offsets and lengths (R323, R324). -/
def restoreRanges (parts : Nat) : List (Nat × Nat) :=
  [(0, 0x40)]
    ++ (if parts.testBit partState then [(0x40, 0x100), (0x140, Config.vmax / 8)] else [])
    ++ (if !parts.testBit partLazy then
        (if parts.testBit 32 then [(imageM, 24 * (Config.mlen / 8))] else [])
          ++ ((List.range 32).filter parts.testBit).map fun n => (imageV n, Config.vmax / 8)
      else [])

/-- The 64-byte units of some parts of an image; a unit's index is its place in the image (R190, R323). -/
def rangeElems (base : Word) (ranges : List (Nat × Nat)) : List Elem :=
  ranges.flatMap fun (o, n) =>
    (List.range (n / 64)).map fun u => { idx := o / 64 + u, addr := addrAt base (o + 64 * u : Nat), len := 64 }

/-- The bytes read, part by part. -/
def partBytes : List (Nat × Nat) → List Byte → List (Nat × Nat)
  | [], _ => []
  | (o, n) :: rest, bs => (o, leNat (bs.take n)) :: partBytes rest (bs.drop n)

/-- The number read from the part at an offset. -/
def partAt (ps : List (Nat × Nat)) (o : Nat) : Nat := ((ps.find? (fun p => p.1 = o)).map (·.2)).getD 0

/-- The operands of `vsave` and `vrest`: the base and the part set (R323). -/
def Strand.imageOperands (st : Strand) (a b : Reg) (whenZero : Nat) : Word × Nat :=
  (if a = 0 then st.vimg else st.getX a, if b = 0 then whenZero else (st.getX b).toNat)

/-- Bad operands (R323). The rule gives no order of its two traps: where the base is misaligned and a part bit is bad as well, the
model takes misalignment (DESIGN CHOICE, log 78). -/
def imageTrap (i : Instr) (base : Word) (parts : Nat) (save : Bool) : Option Trap :=
  if base.toNat % 64 ≠ 0 then some { cause := .misalign, info := base.toNat }
  else if parts / 2 ^ 35 ≠ 0 || (save && parts.testBit partLazy) then some { cause := .illegal, info := encodeWord i }
  else none

/-- `vsave` (R323). -/
def execVsave (a b : Reg) (s : State) : Res :=
  let i : Instr := .vsave a b
  s.scalarGate 9 fun s =>
  let (base, parts) := s.me.imageOperands a b (s.me.dirty.toNat + 2 ^ partState)
  s.orTrap (imageTrap i base parts true) fun s =>
  let pieces := s.savePieces parts
  let o := Order.of .core .rlx
  s.access i .store o 1 (rangeElems base (pieces.map fun p => (p.1, p.2.length))) fun s es =>
    let bytes := pieces.flatMap Prod.snd
    let n := s.cut.getD es.length
    let t := ((es.take n).foldl (fun (acc : State × List Byte) u =>
      (acc.1.strandStore o u.2 (acc.2.take 64), acc.2.drop 64)) (s, bytes)).1
    if n < es.length then .next (t.setMe { t.me with waiting := none, partWay := true }) else t.complete t.me

/-- What `vrest` leaves in the strand: the control registers and `vdone`, the named parts or, lazily, their marks (R323). -/
def Strand.restored (st : Strand) (base : Word) (parts : Nat) (clearRequest : Bool) (ps : List (Nat × Nat)) : Strand :=
  let low := parts % 2 ^ 33
  let st := if parts.testBit partState then
      let block := partAt ps 0x40
      let word (n : Nat) : Word := BitVec.ofNat 64 (block / 2 ^ (64 * n))
      let st := ((List.range 29).filter stateLoaded).foldl (fun st n => st.writeControl n (word n)) st
      { st with vdValid := (word 12).getLsbD 0, vdone := BitVec.ofNat 16384 (partAt ps 0x140) }
    else st
  let st := if parts.testBit partLazy then { st with vabs := st.vabs ||| BitVec.ofNat 64 low, vimg := base }
    else
      let st := if low.testBit 32 then
          (List.range 24).foldl (fun st k => st.setM k (BitVec.ofNat 2048 (partAt ps imageM / 2 ^ (Config.mlen * k)))) st
        else st
      let st := ((List.range 32).filter low.testBit).foldl
        (fun st n => st.setV n (BitVec.ofNat 16384 (partAt ps (imageV n)))) st
      { st with vabs := st.vabs &&& ~~~ (BitVec.ofNat 64 low) }
  { st with
    dirty := st.dirty &&& ~~~ (BitVec.ofNat 33 low)
    vrq := if clearRequest then 0 else st.vrq }

/-- The header's MAGIC, VMAX and reserved bytes are right (R323). -/
def headerOk (h : Nat) : Bool := h % 2 ^ 32 = imageMagic && h / 2 ^ 32 % 2 ^ 32 = Config.vmax && h / 2 ^ 136 = 0

/-- A `vrest`, by the instruction or implicit: `k` completes it with the strand's new value (R323, R331). -/
def State.restoreImage (s : State) (a b : Reg) (k : State → Strand → Res) : Res :=
  let i : Instr := .vrest a b
  let (base, parts) := s.me.imageOperands a b s.me.vrq.toNat
  s.orTrap (imageTrap i base parts false) fun s =>
  let ranges := restoreRanges parts
  s.access i .load (Order.of .core .rlx) 1 (rangeElems base ranges) fun s es =>
    if s.cut.getD es.length < es.length then .next (s.setMe { s.me with waiting := none, partWay := true })
    else
      let ps := partBytes ranges (es.flatMap fun u => s.strandLoad u.2)
      if headerOk (partAt ps 0) then
        let s := s.epochAcq (Order.of .core .rlx) (es.flatMap Prod.snd)
        k s (s.me.restored base parts (a = 0 && b = 0) ps)
      else s.trapped { cause := .illegal, info := encodeWord i }

/-- `vrest` (R323). -/
def execVrest (a b : Reg) (s : State) : Res :=
  s.scalarGate 9 fun s => s.restoreImage a b fun s st => s.complete st

/-- The implicit `vrest x0, x0` of a resumed strand, before the instruction at its PC. A trap of it, and its fault record,
give the instruction at `tpc` as PC and keep `vrq` (R317, R330, R331). It makes no class check of its own (R57), since no word of
the class SYSTEM issues: the model's choice (log 81). -/
def State.implicitRestore (s : State) : Res :=
  let next := s.me.pc
  let r := (s.setMe { s.me with pc := s.me.tpc }).restoreImage 0 0 fun s st =>
    .next (s.setMe (Strand.goOn { st with restore := false, waiting := none } next))
  match r with
  | .next t => .next (if t.me.restore then t.setMe { t.me with pc := next } else t)
  | r => r

/-- `vdirty` (R321). -/
def execVdirty (d a : Reg) (s : State) : Res :=
  s.scalarGate 9 fun s =>
    let x := s.me.getX a
    if x.toNat / 2 ^ 33 ≠ 0 then s.trapped { cause := .illegal, info := encodeWord (.vdirty d a) }
    else s.complete ({ s.me with dirty := s.me.dirty &&& ~~~ (x.setWidth 33) }.setX d (s.me.dirty.setWidth 64))

/-! ## Time and capabilities -/

/-- The timer, after the unknown time since it was last looked at (R321, log 6). -/
def State.readTime (s : State) : State × Word :=
  let t := { s with now := s.now + Config.elapsed s.tick }
  (t, BitVec.ofNat 64 t.now)

/-- The cycle count of the current core, after the unknown time since it was last looked at (R321, log 6). -/
def State.readCycles (s : State) : State × Word :=
  let n := s.myCore.cyc + Config.elapsed s.tick
  (s.setMyCore { s.myCore with cyc := n }, BitVec.ofNat 64 n)

/-- `rdtime` (R321). -/
def execRdtime (d : Reg) (s : State) : Res :=
  s.scalarGate 9 fun s =>
    if s.myCore.det then (s.setDetf 0).complete ((s.setDetf 0).me.setX d 0)
    else s.readTime.1.complete (s.readTime.1.me.setX d s.readTime.2)

/-- `rdcyc` (R321). -/
def execRdcyc (d : Reg) (s : State) : Res :=
  s.scalarGate 9 fun s =>
    if s.myCore.det then (s.setDetf 1).complete ((s.setDetf 1).me.setX d 0)
    else s.readCycles.1.complete (s.readCycles.1.me.setX d s.readCycles.2)

/-- `cap`: the capability mask or the usable scratchpad bytes; in deterministic mode the job's (R321). -/
def execCap (d a : Reg) (s : State) : Res :=
  s.scalarGate 9 fun s =>
    let x := s.me.getX a
    if x ≠ 0 && x ≠ 1 then s.trapped { cause := .illegal, info := encodeWord (.cap d a) }
    else if s.myCore.det then
      let v := if x = 0 then s.myCore.useMask else BitVec.ofNat 64 ((s.myCore.place.map Place.spad).getD 0)
      (s.setDetf 4).complete ((s.setDetf 4).me.setX d v)
    else s.complete (s.me.setX d (if x = 0 then s.myCore.capMask else BitVec.ofNat 64 s.myCore.spadUsable))

end Sys2Proof.Machine
end

