-- ==== Sys2Proof/Machine/HartExt.lean ====
section
/-! DEFINITION. The control hart's extensions: broadcasts, starts, joins, reading and writing strands, farms, resuming
and configuring (R94 to R103). -/

namespace Sys2Proof.Machine

/-- A strand-set operand names a strand at or above STRANDS, or sets a bit outside the set and the given fields (R94). -/
def State.setBad (s : State) (x fields : Word) : Bool := (x &&& ~~~ fields).toNat / 2 ^ s.myCore.strandCount ≠ 0

/-- The strand set of an operand (R94). -/
def strandSet (x : Word) : BitVec 24 := x.setWidth 24

/-- The strands of a set for which a condition holds, as bits (R94). -/
def Core.setWhere (c : Core) (set : BitVec 24) (f : Strand → Bool) : Nat :=
  (List.range 24).foldl (fun acc k => if set.getLsbD k && f (c.strand k) then acc + 2 ^ k else acc) 0

/-- Change every strand of a set. -/
def Core.mapSet (c : Core) (set : Nat) (f : Strand → Strand) : Core :=
  (List.range 24).foldl (fun c k => if set.testBit k then c.setStrand k (f (c.strand k)) else c) c

/-- The strand rests: IDLE with an empty buffer and in no farm (R98, R99). -/
def Strand.atRest (st : Strand) : Bool := st.st = .idle && st.buf = [] && st.farm = none

/-- Both broadcasts after their checks: `k` says what happens when a target buffer is full (R96). -/
def State.broadcast (s : State) (i : Instr) (b a d : Reg) (k : State → Nat → Res) : Res :=
  s.extension i fun s =>
    let x := s.hart.getX a
    let addr := s.hart.getX b
    if s.setBad x 0xF000000 || addr.toNat % 4 ≠ 0 then s.commandFault (encodeWord i)
    else
      let set := strandSet x
      let full := s.myCore.setWhere set fun st => 4 ≤ st.buf.length
      if full ≠ 0 then k s full
      else
        let blk : Block := { addr := addr, words := x.toNat / 2 ^ 24 % 16 + 1 }
        (s.setMyCore (s.myCore.mapSet set.toNat fun st => { st with buf := st.buf ++ [blk] })).hartResult d 0

/-- `kbcast` (R96). -/
def execKbcast (b a d : Reg) (s : State) : Res :=
  s.broadcast (.kbcast b a d) b a d fun s full => s.hartResult d (BitVec.ofNat 64 full)

/-- `kbcastw` (R96). -/
def execKbcastw (b a d : Reg) (s : State) : Res :=
  s.broadcast (.kbcastw b a d) b a d fun s _ => s.hartWaits (.kbcastw b a d)

/-- `kgo` (R98). -/
def execKgo (b a d : Reg) (s : State) : Res :=
  s.extension (.kgo b a d) fun s =>
    let x := s.hart.getX a
    let addr := s.hart.getX b
    if s.setBad x 0 || addr.toNat % 4 ≠ 0 then s.commandFault (encodeWord (.kgo b a d))
    else
      let set := strandSet x
      let ready := s.myCore.setWhere set Strand.atRest
      let c := s.myCore.mapSet ready fun st =>
        { st with
            st := .self, pc := addr, blk := none, pcWritten := false, wd := 0, waiting := none, partWay := false,
            restore := false }
      (s.setMyCore c).hartResult d (BitVec.ofNat 64 (set.toNat - ready))

/-- `kjoin` has nothing to wait for at strand k: it is at rest, or TRAPPED with every earlier access performed, since a trap
is a core-scope release (R99, R111, R287; log 37). -/
def State.joinable (s : State) (k : Nat) : Bool :=
  let st := s.myCore.strand k
  st.atRest || (st.st = .trapped && (s.at_ s.curCore k).settled .core)

/-- `kjoin` (R99, R111). -/
def execKjoin (a d : Reg) (s : State) : Res :=
  s.extension (.kjoin a d) fun s =>
    let x := s.hart.getX a
    if s.setBad x 0 then s.commandFault (encodeWord (.kjoin a d))
    else
      let set := strandSet x
      if (List.range 24).any (fun k => set.getLsbD k && !s.joinable k) then s.hartWaits (.kjoin a d)
      else s.hartResult d (BitVec.ofNat 64 (s.myCore.setWhere set fun st => st.st = .trapped))

/-- Consume the SIG and FARM bits of an event value (R99). -/
def Core.consume (c : Core) (v : Word) : Core :=
  { (c.mapSet (v.toNat % 2 ^ 24) fun st => { st with sigPend := false }) with
    farmEnd := c.farmEnd &&& ~~~ ((v >>> 48).setWidth 4) }

/-- `kwait` (R99). -/
def execKwait (a d : Reg) (s : State) : Res :=
  s.extension (.kwait a d) fun s =>
    let x := s.hart.getX a
    if x.toNat / 2 ^ 52 ≠ 0 then s.commandFault (encodeWord (.kwait a d))
    else
      let v := s.myCore.kpend &&& x
      if v = 0 && x ≠ 0 then s.hartWaits (.kwait a d)
      else (s.setMyCore (s.myCore.consume v)).hartResult d v

/-- The state word (R100). -/
def Strand.stateWord (st : Strand) : Word :=
  let code := match st.st with
    | .idle => 0 | .block => 1 | .self => 2 | .trapped => 3 | .held => 4
  BitVec.ofNat 64 (code + st.buf.length * 8
    + match st.farm with
      | some f => 64 + f * 128
      | none => 0)

/-- The strand that `ksget` or `ksput` names, when it may be read and written (R100). -/
def State.namedStrand (s : State) (x : Word) : Option Nat :=
  let k := x.toNat
  if 24 ≤ k || s.myCore.strandCount ≤ k then none
  else
    let st := (s.myCore.strand k).st
    if st = .idle || st = .trapped then some k else none

/-- What `ksget` reads by its selector, and the state after: `alc` and `lmod` follow R87; none is a strand-command fault
(R100). -/
def State.strandItem (s : State) (k sel : Nat) : Option (State × Word) :=
  let st := s.myCore.strand k
  if sel < 32 then some (s, st.getX (BitVec.ofNat 5 sel))
  else match sel with
    | 32 => some (s, st.pc)
    | 33 => some (s, st.stateWord)
    | 34 => some (s, st.sig)
    | 35 => some (s, st.rec0)
    | 36 => some (s, st.rec1)
    | 37 => some (s, st.rec2)
    | 38 => some (s, st.rec3)
    | 39 => some (s, st.rec4)
    | _ =>
      if sel < 64 || !controlAssigned (sel - 64) then none
      else if s.myCore.det && (sel = 67 || sel = 68) then
        some ({ s with curStrand := k }.setDetf (sel - 65), 0)
      else some (s, s.rawControl s.curCore k (sel - 64))

/-- `ksget` (R100). -/
def execKsget (sel : BitVec 7) (a d : Reg) (s : State) : Res :=
  s.extension (.ksget sel a d) fun s =>
    match s.namedStrand (s.hart.getX a) with
    | none => s.commandFault (encodeWord (.ksget sel a d))
    | some k =>
      match s.strandItem k sel.toNat with
      | none => s.commandFault (encodeWord (.ksget sel a d))
      | some (t, v) => t.hartResult d v

/-- The strand after `ksput` of an item; none is a strand-command fault (R100, R101). -/
def Strand.putItem (st : Strand) (sel : Nat) (v : Word) : Option Strand :=
  if sel < 32 then some (st.setX (BitVec.ofNat 5 sel) v)
  else if sel = 32 then some { st with pc := v, pcWritten := decide (st.st = .trapped) }
  else if sel < 40 then some st
  else if sel < 64 || 93 ≤ sel then none
  else some (st.writeControl (sel - 64) v)

/-- `ksput` (R100). -/
def execKsput (sel : BitVec 7) (b a : Reg) (s : State) : Res :=
  s.extension (.ksput sel b a) fun s =>
    match s.namedStrand (s.hart.getX a) with
    | none => s.commandFault (encodeWord (.ksput sel b a))
    | some k =>
      match (s.myCore.strand k).putItem sel.toNat (s.hart.getX b) with
      | none => s.commandFault (encodeWord (.ksput sel b a))
      | some st => (s.setMyCore (s.myCore.setStrand k st)).hartResult 0 0

/-- The lowest free farm slot (R102). -/
def Core.freeFarm (c : Core) : Option Nat := (List.range 4).find? fun f => (c.farm f).isNone

/-- `kfarm` (R102). -/
def execKfarm (b a d : Reg) (s : State) : Res :=
  s.extension (.kfarm b a d) fun s =>
    let x := s.hart.getX a
    let addr := s.hart.getX b
    let set := strandSet x
    let n := x.toNat / 2 ^ 32
    if s.setBad x 0xFFFFFFFF00000000 || addr.toNat % 4 ≠ 0 || (set = 0 && 0 < n) then
      s.commandFault (encodeWord (.kfarm b a d))
    else match s.myCore.freeFarm with
      | none => s.hartResult d 5
      | some f =>
        if s.myCore.setWhere set (fun st => !st.atRest) ≠ 0 then s.hartResult d 4
        else
          let c := s.myCore
          let c :=
            if n = 0 then { c with farmEnd := c.farmEnd ||| BitVec.ofNat 4 (2 ^ f) }
            else
              let farm : Farm := { set := set, entry := addr, count := n, next := 0, live := set, dealt := [] }
              (List.range 24).foldl (fun c k => if set.getLsbD k then c.deal f k else c) (c.setFarm f (some farm))
          (s.setMyCore c).hartResult d (BitVec.ofNat 64 f)

/-- A strand resumes; one with a nonzero `vrq` restores first, before its block can count as ended (R101, R331). -/
def Strand.kresume (st : Strand) : Strand :=
  if st.vrq = 0 then st.resume
  else if st.pcWritten then { st with st := .self, blk := none, pcWritten := false, wd := 0, partWay := false, restore := true }
  else { st with st := st.fromSt, wd := 0, restore := true }

/-- `kresume` (R101). -/
def execKresume (a d : Reg) (s : State) : Res :=
  s.extension (.kresume a d) fun s =>
    let x := s.hart.getX a
    if s.setBad x 0 then s.commandFault (encodeWord (.kresume a d))
    else
      let set := s.myCore.setWhere (strandSet x) fun st => st.st = .trapped
      (s.setMyCore (s.myCore.mapSet set Strand.kresume)).hartResult d (BitVec.ofNat 64 set)

/-- The frame of `kcfg`: M-mode only (R103). -/
def State.kcfg (s : State) (i : Instr) (k : State → Res) : Res :=
  s.extension i fun s => if s.hart.mode = .m then k s else s.hartIllegal (encodeWord i)

/-- A strand at EXIT: an IDLE one stays as it is; any other is stopped and its state discarded, only the stores already in
the core's store queue staying, behind the copy commands of their intervals (R70, R272; log 37). -/
def Strand.atExit (st : Strand) : Strand :=
  if st.st = .idle then st else { Strand.reset with storeQ := st.storeQ, interval := st.interval }

/-- `kcfg` EXIT: the core executes no more, and its strands are stopped. The farms and queued matrix instructions of stopped
strands go with them, and no stop is pending (R70, R103, R318). -/
def execKcfgExit (a : Reg) (s : State) : Res :=
  s.kcfg (.kcfgExit a) fun s =>
    let c := s.myCore
    let stopped := c.mapSet (2 ^ 24 - 1) Strand.atExit
    let s := s.setMyCore { stopped with
      exit := some ((s.hart.getX a).setWidth 32)
      kpre := 0
      mq := c.mq.filter fun e => (c.strand e.strand).st = .idle
      farms := [] }
    .next (s.setHart { s.hart with instret := s.hart.instret + 1, waiting := none })

/-- A watchdog limit as WDOG takes it (R103). -/
def wdogLimit (x : Nat) : Nat := if x = 0 then 0 else if x < 1024 then 1024 else if 2 ^ 40 < x then 2 ^ 40 else x

/-- `kcfg` WDOG (R103). -/
def execKcfgWdog (a d : Reg) (s : State) : Res :=
  s.kcfg (.kcfgWdog a d) fun s =>
    (s.setMyCore { s.myCore with wdLimit := wdogLimit (s.hart.getX a).toNat }).hartResult d
      (BitVec.ofNat 64 s.myCore.wdLimit)

/-- `kcfg` FMTW: waits while a matrix instruction that has captured the entry is queued, or has issued and waits (R103, R230). -/
def execKcfgFmtw (b a d : Reg) (s : State) : Res :=
  s.kcfg (.kcfgFmtw b a d) fun s =>
    let e := (s.hart.getX a).toNat
    if e < 9 || 15 < e || !entryValid (s.hart.getX b) then s.commandFault (encodeWord (.kcfgFmtw b a d))
    else if s.myCore.entryInUse e then s.hartWaits (.kcfgFmtw b a d)
    else
      let old := s.myCore.fmt e
      (s.setMyCore { s.myCore with fmts := Table.set 0x009A0E34 s.myCore.fmts e (entryHeld (s.hart.getX b)) }).hartResult d old

/-- The channels that are full, as bits. -/
def Core.fullChannels (c : Core) : Nat :=
  (List.range 8).foldl (fun acc n => if (c.chan n).isSome then acc + 2 ^ n else acc) 0

/-- `kcfg` LCLR (R103). -/
def execKcfgLclr (a d : Reg) (s : State) : Res :=
  s.kcfg (.kcfgLclr a d) fun s =>
    let x := (s.hart.getX a).toNat
    if x / 2 ^ 8 ≠ 0 then s.commandFault (encodeWord (.kcfgLclr a d))
    else
      let c := (List.range 8).foldl (fun c n => if x.testBit n then c.setChan n none else c) s.myCore
      (s.setMyCore c).hartResult d (BitVec.ofNat 64 s.myCore.fullChannels)

end Sys2Proof.Machine
end

