-- ==== Sys2Proof/Machine/Hart.lean ====
section
/-! DEFINITION. The control hart's RISC-V instructions: base, M, A, Zicsr, Zifencei, Zba and Zbb, with their CSRs (R90 to
R93, R318; RISC-V where the spec leaves to it what they do, log 12). -/

namespace Sys2Proof.Machine

/-! ## Arithmetic -/

/-- Signed division, rounding to zero; by zero it is -1 (M extension). -/
def rvDiv (a b : Int) : Int := if b = 0 then -1 else a.tdiv b

/-- Signed remainder; by zero it is the dividend (M extension). -/
def rvRem (a b : Int) : Int := if b = 0 then a else a.tmod b

/-- Rotation to the left. -/
def rotateLeft {w : Nat} (a : BitVec w) (n : Nat) : BitVec w := (a <<< (n % w)) ||| (a >>> (w - n % w))

/-- The low 32 bits, zero-extended. -/
def uw (a : Word) : Word := a &&& 0xFFFFFFFF

/-- A truth value as a register. -/
def bool1 (b : Bool) : Word := if b then 1 else 0

/-- Register operations on 64 bits. -/
def aluOp (op : AluOp) (a b : Word) : Word :=
  let sh := b.toNat % 64
  match op with
  | .add => a + b
  | .sub => a - b
  | .sll => a <<< sh
  | .slt => bool1 (a.toInt < b.toInt)
  | .sltu => bool1 (a.toNat < b.toNat)
  | .xor => a ^^^ b
  | .srl => a >>> sh
  | .sra => a.sshiftRight sh
  | .or => a ||| b
  | .and => a &&& b
  | .andn => a &&& ~~~ b
  | .orn => a ||| ~~~ b
  | .xnor => ~~~ (a ^^^ b)
  | .max => if a.toInt < b.toInt then b else a
  | .maxu => if a.toNat < b.toNat then b else a
  | .min => if a.toInt < b.toInt then a else b
  | .minu => if a.toNat < b.toNat then a else b
  | .rol => rotateLeft a sh
  | .ror => rotateLeft a (64 - sh)
  | .sh1add => b + (a <<< 1)
  | .sh2add => b + (a <<< 2)
  | .sh3add => b + (a <<< 3)
  | .adduw => b + uw a
  | .sh1adduw => b + (uw a <<< 1)
  | .sh2adduw => b + (uw a <<< 2)
  | .sh3adduw => b + (uw a <<< 3)
  | .slliuw => uw a <<< sh
  | .mul => a * b
  | .mulh => BitVec.ofInt 64 (a.toInt * b.toInt / 2 ^ 64)
  | .mulhsu => BitVec.ofInt 64 (a.toInt * b.toNat / 2 ^ 64)
  | .mulhu => BitVec.ofNat 64 (a.toNat * b.toNat / 2 ^ 64)
  | .div => BitVec.ofInt 64 (rvDiv a.toInt b.toInt)
  | .divu => if b = 0 then ~~~ 0 else BitVec.ofNat 64 (a.toNat / b.toNat)
  | .rem => BitVec.ofInt 64 (rvRem a.toInt b.toInt)
  | .remu => if b = 0 then a else BitVec.ofNat 64 (a.toNat % b.toNat)

/-- Register operations on the low 32 bits. -/
def aluWOp (op : AluWOp) (x y : Word) : Word :=
  let a : BitVec 32 := x.setWidth 32
  let b : BitVec 32 := y.setWidth 32
  let sh := y.toNat % 32
  let r : BitVec 32 := match op with
    | .addw => a + b
    | .subw => a - b
    | .sllw => a <<< sh
    | .srlw => a >>> sh
    | .sraw => a.sshiftRight sh
    | .rolw => rotateLeft a sh
    | .rorw => rotateLeft a (32 - sh)
    | .mulw => a * b
    | .divw => BitVec.ofInt 32 (rvDiv a.toInt b.toInt)
    | .divuw => if b = 0 then ~~~ 0 else BitVec.ofNat 32 (a.toNat / b.toNat)
    | .remw => BitVec.ofInt 32 (rvRem a.toInt b.toInt)
    | .remuw => if b = 0 then a else BitVec.ofNat 32 (a.toNat % b.toNat)
  r.signExtend 64

/-- Leading zeros of the low w bits. -/
def leadingZeros (w x : Nat) : Nat := if x % 2 ^ w = 0 then w else w - 1 - Nat.log2 (x % 2 ^ w)

/-- Trailing zeros of the low w bits. -/
def trailingZeros (w x : Nat) : Nat := ((List.range w).find? x.testBit).getD w

/-- One-operand operations of Zbb. -/
def unaryOp (op : UnaryOp) (a : Word) : Word :=
  let n := a.toNat
  match op with
  | .clz => BitVec.ofNat 64 (leadingZeros 64 n)
  | .ctz => BitVec.ofNat 64 (trailingZeros 64 n)
  | .cpop => BitVec.ofNat 64 (popCount 64 n)
  | .clzw => BitVec.ofNat 64 (leadingZeros 32 n)
  | .ctzw => BitVec.ofNat 64 (trailingZeros 32 n)
  | .cpopw => BitVec.ofNat 64 (popCount 32 (n % 2 ^ 32))
  | .sextb => (a.setWidth 8).signExtend 64
  | .sexth => (a.setWidth 16).signExtend 64
  | .zexth => a &&& 0xFFFF
  | .orcb => BitVec.ofNat 64 (leNat ((leBytes 8 n).map fun b => if b = 0 then 0 else 0xFF))
  | .rev8 => BitVec.ofNat 64 (leNat (leBytes 8 n).reverse)

/-- Branch conditions. -/
def branchTaken (op : BranchOp) (a b : Word) : Bool :=
  match op with
  | .eq => a = b
  | .ne => a ≠ b
  | .lt => a.toInt < b.toInt
  | .ge => b.toInt ≤ a.toInt
  | .ltu => a.toNat < b.toNat
  | .geu => b.toNat ≤ a.toNat

/-- The new value of a read-modify-write on w bits. -/
def amoOp (op : AmoOp) (w : Nat) (old v : Nat) : Nat :=
  match op with
  | .swap => v
  | .add => (old + v) % 2 ^ w
  | .xor => old ^^^ v
  | .and => old &&& v
  | .or => old ||| v
  | .min => if toSigned w old ≤ toSigned w v then old else v
  | .max => if toSigned w old ≤ toSigned w v then v else old
  | .minu => Nat.min old v
  | .maxu => Nat.max old v

/-! ## Control and status registers -/

/-- Request the stop of the strands that bits of v name; a strand that executes nothing has its bit cleared (R318). -/
def Core.requestStops (c : Core) (v : Word) : Core :=
  (List.range c.strandCount).foldl (fun c k =>
    let bit : BitVec 24 := BitVec.ofNat 24 (2 ^ k)
    if v.getLsbD k then
      if (c.strand k).st = .block || (c.strand k).st = .self then { c with kpre := c.kpre ||| bit }
      else { c with kpre := c.kpre &&& ~~~ bit }
    else c) c

/-- A counter read: gated by `mcounteren` in U-mode, 0 with DET_READ in deterministic mode (R90). -/
def State.readCounter (s : State) (csr : Nat) (k : State → State × Word) : Option (State × Word) :=
  if s.hart.mode = .u && !s.hart.mcounteren.getLsbD (csr % 32) then none
  else if s.myCore.det then some (s.markDetRead, 0)
  else some (k s)

/-- The value of a CSR and the state after reading it; none where it is absent or not readable (R90, R92, R318). -/
def State.readCsr (s : State) (csr : Nat) : Option (State × Word) :=
  let h := s.hart
  let c := s.myCore
  let word (n : Nat) : Option (State × Word) := some (s, BitVec.ofNat 64 n)
  match csr with
  | 0x300 => some (s, h.mstatus)
  | 0x301 => word 0x8000000000101105
  | 0x304 => some (s, h.mie)
  | 0x305 => some (s, h.mtvec)
  | 0x306 => some (s, h.mcounteren)
  | 0x340 => some (s, h.mscratch)
  | 0x341 => some (s, h.mepc)
  | 0x342 => some (s, h.mcause)
  | 0x343 => some (s, h.mtval)
  | 0x344 => word (if c.kpend &&& c.kie = 0 then 0 else 0x10000)
  | 0x180 => word (9 * 2 ^ 60 + (c.place.map fun pl => pl.ptRoot.toNat % 2 ^ 60).getD 0)
  | 0xC00 => s.readCounter csr State.readCycles
  | 0xB00 => s.readCounter csr State.readCycles
  | 0xC01 => s.readCounter csr State.readTime
  | 0xC02 => s.readCounter csr fun s => (s, h.instret)
  | 0xB02 => s.readCounter csr fun s => (s, h.instret)
  | 0xF11 => word 0
  | 0xF12 => word 0
  | 0xF13 => word 0
  | 0xF14 => word s.myTeam
  | 0xF15 => word 0
  | 0xCC0 => word s.myTeam
  | 0xCC1 => word ((c.place.map Place.size).getD 0)
  | 0xCC2 => word c.strandCount
  | 0xCC3 => if c.det then some (s.markDetRead, 0) else word s.curCore
  | 0xFC0 => some (s, c.kpend)
  | 0x7C0 => some (s, c.kie)
  | 0x7C1 => word c.kpre.toNat
  | 0x7C2 => some (s, c.kdisc)
  | n => if 0xCD0 ≤ n && n < 0xCE8 then some (s, (c.strand (n - 0xCD0)).sig) else none

/-- The writable fields of `mstatus`: MIE, MPIE, MPP as M or U, MPRV and TW (log 12). -/
def writeMstatus (old w : Word) : Word :=
  let keep := old &&& ~~~ 0x221888
  let mpp := if w.toNat / 2 ^ 11 % 4 = 3 then 0x1800 else 0
  keep ||| (w &&& 0x220088) ||| mpp

/-- The write of a CSR; none where it is absent or not writable, `satp` among them (R90, R92, R318). -/
def State.writeCsr (s : State) (csr : Nat) (w : Word) : Option State :=
  let h := s.hart
  let c := s.myCore
  match csr with
  | 0x300 => some (s.setHart { h with mstatus := writeMstatus h.mstatus w })
  | 0x301 => some s
  | 0x304 => some (s.setHart { h with mie := w &&& 0x10000 })
  | 0x305 => some (s.setHart { h with mtvec := w &&& ~~~ 2 })
  | 0x306 => some (s.setHart { h with mcounteren := w &&& 7 })
  | 0x340 => some (s.setHart { h with mscratch := w })
  | 0x341 => some (s.setHart { h with mepc := w &&& ~~~ 1 })
  | 0x342 => some (s.setHart { h with mcause := w })
  | 0x343 => some (s.setHart { h with mtval := w })
  | 0x344 => some s
  | 0xB00 => some s
  | 0xB02 => some s
  | 0x7C0 => some (s.setMyCore { c with kie := w &&& 0xFFFFFFFFFFFFF })
  | 0x7C1 => some (s.setMyCore (c.requestStops w))
  | 0x7C2 => some (s.setMyCore { c with kdisc := c.kdisc &&& ~~~ w })
  | _ => none

/-- The mode may name the CSR (RISC-V privileged architecture, log 12). -/
def Hart.mayName (h : Hart) (csr : Nat) : Bool := h.mode = .m || csr / 2 ^ 8 % 4 = 0

/-- A Zicsr instruction; a failing access is the illegal-instruction exception of its word (R90, R92). -/
def State.csrInstr (s : State) (word : Nat) (op : CsrOp) (rd : Reg) (csr : Nat) (src : CsrSrc) : Res :=
  let v : Word := match src with
    | .reg r => s.hart.getX r
    | .imm z => z.setWidth 64
  let named := match src with
    | .reg r => decide (r ≠ 0)
    | .imm z => decide (z ≠ 0)
  let writes := op = .rw || named
  let reads := op ≠ .rw || rd ≠ 0
  if !s.hart.mayName csr || (writes && 0xC00 ≤ csr) then s.hartIllegal word
  else
    match if reads then s.readCsr csr else some (s, 0) with
    | none => s.hartIllegal word
    | some (t, old) =>
      let new := match op with
        | .rw => v
        | .rs => old ||| v
        | .rc => old &&& ~~~ v
      match if writes then t.writeCsr csr new else some t with
      | none => s.hartIllegal word
      | some t => t.hartDone (t.hart.setX rd old) (t.hart.pc + 4)

/-! ## Memory -/

/-- The value of some bytes in a register. -/
def extended (bytes : Nat) (unsigned : Bool) (v : Nat) : Word :=
  if unsigned then BitVec.ofNat 64 v else BitVec.ofInt 64 (toSigned (8 * bytes) v)

/-- What an A-extension instruction reads is met: an acquire acts at system scope and takes the epoch (R292, R295). -/
def State.hartAcq (s : State) (aq : Bool) (ps : List Piece) : State :=
  if aq && s.myCore.det then s.setMyCore { s.myCore with epoch := Nat.max s.myCore.epoch (s.syncOf s.myJob ps) }
  else s.hartMeets ps

/-- A release of the control hart acts at system scope and adds 1 to the epoch count (R292, R295). -/
def State.hartRaise (s : State) (rl : Bool) : State :=
  if rl && s.myCore.det then s.setMyCore { s.myCore with epoch := s.myCore.epoch + 1 } else s

/-- The write of a read-modify-write of the control hart, and its release. -/
def State.hartRmw (s : State) (rl : Bool) (ps : List Piece) (bs : List Byte) : State :=
  State.hartRaise (ps.foldl (fun (acc : State × Nat) q =>
    (acc.1.rmwStore acc.1.myJob (acc.1.hartRel rl) q.space q.addr ((bs.drop acc.2).take q.len), acc.2 + q.len)) (s, 0)).1 rl

/-- The reservation is one of core p of this device. -/
def Resv.mine (r : Resv) (p : Nat) : Bool := r.device = 0 && r.core = p

/-- A new reservation of the current core on some bytes (log 12). -/
def State.reserve (s : State) (ps : List Piece) : State :=
  let mine : List Resv := ps.map fun q => { core := s.curCore, space := q.space, addr := q.addr, size := q.len }
  { s with resvs := mine ++ s.resvs.filter fun r => !r.mine s.curCore }

/-- The current core holds a reservation on some bytes. -/
def State.reserved (s : State) (ps : List Piece) : Bool :=
  ps.all fun q => s.resvs.any fun r =>
    r.mine s.curCore && r.space = q.space && r.addr ≤ q.addr && q.addr + q.len ≤ r.addr + r.size

/-- Bytes of an A-extension access. -/
def amoBytes (double : Bool) : Nat := if double then 8 else 4

/-- An A-extension instruction with a release waits until the control hart's writes to other devices are acknowledged. -/
def State.hartRelease (s : State) (i : Instr) (rl : Bool) (k : Res) : Res :=
  if rl && !s.hartSettled then s.hartWaits i else k

/-- `lr`, whose reservation a device that holds the bytes keeps too; a release bit counts as a release of system scope, which adds 1 to the epoch count (R90, R295, log 12). -/
def State.hartLr (s : State) (i : Instr) (double aq rl : Bool) (rd rs1 : Reg) : Res :=
  s.hartRelease i rl <|
  s.hartAccess i .load (fun _ => some .lr) rl (s.hart.getX rs1) (amoBytes double) fun s ps =>
    let v := extended (amoBytes double) false (leNat (s.readPieces ps))
    let t := ((s.reserve ps).hartAcq aq ps).hartRaise rl
    t.hartDone (t.hart.setX rd v) (t.hart.pc + 4)

/-- `sc`: 0 for a store that performed, 1 for one that did not, which orders nothing. Where another device holds the bytes, that
device performs it while it holds the reservation (R90, R284, log 12). -/
def State.hartSc (s : State) (i : Instr) (double aq rl : Bool) (rd rs1 rs2 : Reg) : Res :=
  let n := amoBytes double
  let v := (s.hart.getX rs2).toNat % 2 ^ (8 * n)
  s.hartRelease i rl <|
  s.hartAccess i .rmw (fun ps => if s.reserved ps then some (.sc v) else none) rl (s.hart.getX rs1) n fun s ps =>
    let held : Bool := match ps.head?.bind Piece.data with
      | some bs => leNat bs = 1
      | none => s.reserved ps
    let t := if held then (s.hartAcq aq ps).hartRmw rl ps (leBytes n v) else s
    let t := { t with resvs := t.resvs.filter fun r => !r.mine s.curCore }
    t.hartDone (t.hart.setX rd (if held then 0 else 1)) (t.hart.pc + 4)

/-- An `amo` instruction (R90). -/
def State.hartAmo (s : State) (i : Instr) (op : AmoOp) (double aq rl : Bool) (rd rs1 rs2 : Reg) : Res :=
  let n := amoBytes double
  let v := (s.hart.getX rs2).toNat % 2 ^ (8 * n)
  s.hartRelease i rl <|
  s.hartAccess i .rmw (fun _ => some (.amo op v)) rl (s.hart.getX rs1) n fun s ps =>
    let old := leNat (s.readPieces ps)
    let t := (s.hartAcq aq ps).hartRmw rl ps (leBytes n (amoOp op (8 * n) old v))
    t.hartDone (t.hart.setX rd (extended n false old)) (t.hart.pc + 4)

/-! ## The instruction -/

/-- The bits of a CSR word, for the exception of a failing one. -/
def csrWord (op : CsrOp) (rd : Reg) (csr : BitVec 12) (src : CsrSrc) : Nat :=
  let base := match op with
    | .rw => 1 | .rs => 2 | .rc => 3
  let (f3, field) := match src with
    | .reg r => (base, r.toNat)
    | .imm z => (base + 4, z.toNat)
  0x73 + rd.toNat * 2 ^ 7 + f3 * 2 ^ 12 + field * 2 ^ 15 + csr.toNat * 2 ^ 20

/-- One RISC-V instruction of the control hart (R90). -/
def execControlHartInstruction (i : Rv) (compressed : Bool) (s : State) : Res :=
  let h := s.hart
  let next := h.pc + (if compressed then 2 else 4)
  let self : Instr := .controlHartInstruction i compressed
  let result (rd : Reg) (w : Word) : Res := s.hartDone (h.setX rd w) next
  match i with
  | .lui rd imm => result rd ((imm ++ (0 : BitVec 12)).signExtend 64)
  | .auipc rd imm => result rd (h.pc + (imm ++ (0 : BitVec 12)).signExtend 64)
  | .jal rd imm => s.hartDone (h.setX rd next) (h.pc + imm.signExtend 64)
  | .jalr rd rs1 imm => s.hartDone (h.setX rd next) ((h.getX rs1 + imm.signExtend 64) &&& ~~~ 1)
  | .branch op rs1 rs2 imm =>
    s.hartDone h (if branchTaken op (h.getX rs1) (h.getX rs2) then h.pc + imm.signExtend 64 else next)
  | .load bytes unsigned rd rs1 imm =>
    s.hartAccess self .load (fun _ => some .load) false (h.getX rs1 + imm.signExtend 64) bytes fun s ps =>
      let v := extended bytes unsigned (leNat (s.readPieces ps))
      let t := s.hartMeets ps
      t.hartDone (t.hart.setX rd v) next
  | .store bytes rs1 rs2 imm =>
    s.hartAccess self .store (fun _ => none) false (h.getX rs1 + imm.signExtend 64) bytes fun s ps =>
      let t := s.hartStore ps (leBytes bytes (h.getX rs2).toNat)
      t.hartDone t.hart next
  | .aluImm op rd rs1 imm => result rd (aluOp op (h.getX rs1) (imm.signExtend 64))
  | .alu op rd rs1 rs2 => result rd (aluOp op (h.getX rs1) (h.getX rs2))
  | .aluWImm op rd rs1 imm => result rd (aluWOp op (h.getX rs1) (imm.signExtend 64))
  | .aluW op rd rs1 rs2 => result rd (aluWOp op (h.getX rs1) (h.getX rs2))
  | .unary op rd rs1 => result rd (unaryOp op (h.getX rs1))
  | .fence => if s.hartSettled then let t := s.hartFence; t.hartDone t.hart next else s.hartWaits self
  | .fenceI => s.hartDone h next
  | .ecall => s.hartTrapped (if h.mode = .m then 11 else 8) 0
  | .ebreak => s.hartTrapped 3 h.pc
  | .mret =>
    if h.mode = .m then .next (s.setHart { h.trapReturn with instret := h.instret + 1 }) else s.hartIllegal 0x30200073
  | .wfi => if h.mode = .u && h.mstatus.getLsbD 21 then s.hartIllegal 0x10500073 else s.hartDone h next
  | .csr op rd csr src => s.csrInstr (csrWord op rd csr src) op rd csr.toNat src
  | .lr double aq rl rd rs1 => s.hartLr self double aq rl rd rs1
  | .sc double aq rl rd rs1 rs2 => s.hartSc self double aq rl rd rs1 rs2
  | .amo op double aq rl rd rs1 rs2 => s.hartAmo self op double aq rl rd rs1 rs2
  | .illegal w => s.hartIllegal w.toNat

end Sys2Proof.Machine
end

