-- ==== Sys2Proof/Machine/StrandEvents.lean ====
section
/-! DEFINITION. Events of the core: interrupts and stops, watchdogs, waits that end, and the accesses that perform late
(R79, R84, R93, R96, R99, R107, R108, R110, R272, R318, R325). An event whose condition does not hold changes nothing
(log 7). -/

namespace Sys2Proof.Machine

/-- `STRAND_EVENT_INTERRUPT`: the control hart of core p takes interrupt 16 when one is pending and enabled; an
instruction that waits, for other devices too, is abandoned and starts afresh after `mret` (R90, R93, R96, R99). -/
def execStrandEventInterrupt (p : Nat) (s : State) : Res :=
  let t := s.at_ p s.curStrand
  if t.hartRuns p && t.myCore.interruptDue && t.hartStops then
    .next ((t.dropFlight p hartAgent).setHart (t.hart.enterTrap true 16 0))
  else .next s

/-- `KPRE_WRITE`: an M-mode write of `kpre` (R318). -/
def execKpreWrite (p : Nat) (v : BitVec 64) (s : State) : Res :=
  if s.hartRuns p && (s.core p).hart.mode = .m then .next (s.setCore p ((s.core p).requestStops v)) else .next s

/-- A memory instruction that a stop can strike part-way (R195); others are never the stopped instruction (R152). -/
def State.memoryInstr (s : State) (i : Instr) : Option Res :=
  match i with
  | .vld d a m => some (execVld d a m s)
  | .vst d b m cb => some (execVst d b m cb s)
  | .vldff d a m => some (execVldff d a m s)
  | .vlds d a b m => some (execVlds d a b m s)
  | .vsts d a b m cb => some (execVsts d a b m cb s)
  | .vldx d a b m cb => some (execVldx d a b m cb s)
  | .vstx d a b m ca cb => some (execVstx d a b m ca cb s)
  | .vldseg d a m => some (execVldseg d a m s)
  | .vstseg d b m cb => some (execVstseg d b m cb s)
  | .vamoAdd d a b m ca cb => some (execVamoAdd d a b m ca cb s)
  | .vamoMin d a b m ca cb => some (execVamoMin d a b m ca cb s)
  | .vamoMax d a b m ca cb => some (execVamoMax d a b m ca cb s)
  | .vamoAnd d a b m ca cb => some (execVamoAnd d a b m ca cb s)
  | .vamoOr d a b m ca cb => some (execVamoOr d a b m ca cb s)
  | .vamoXor d a b m ca cb => some (execVamoXor d a b m ca cb s)
  | .vamoSwap d a b m ca cb => some (execVamoSwap d a b m ca cb s)
  | .vcas d a b m ca cb => some (execVcas d a b m ca cb s)
  | .vsca d a b m ca cb => some (execVsca d a b m ca cb s)
  | .vfacc d a b m ca cb => some (execVfacc d a b m ca cb s)
  | .vrred d a b m cb => some (execVrred d a b m cb s)
  | .memoryAttributeWord sc od next => some (execMemoryAttributeWord sc od next s)
  | .msave d a => some (execMsave d a s)
  | .mload d a => some (execMload d a s)
  | .vsave a b => some (execVsave a b s)
  | .vrest a b => some (execVrest a b s)
  | _ => none

/-- What a block has left from an address on. -/
def Block.rest (b : Block) (pc : Word) : Block where
  addr := pc
  words := b.words - (pc - b.addr).toNat / 4

/-- A strand in BLOCK goes back to the block that a command stood in, or to the command's word alone where it stood in none; what it
has left of another block waits in its buffer, before the blocks there. A strand in SELF stays in SELF (R79, R315; log 33). -/
def Strand.backTo (st : Strand) (a : Abandoned) : Strand :=
  if st.st ≠ .block || a.blk.isSome && a.blk = st.blk then st
  else
    { st with
      blk := some (a.blk.getD { addr := a.pc, words := 1 })
      buf := (st.blk.map fun b => b.rest st.pc).toList ++ st.buf }

/-- The strand takes the access violation of the oldest copy command that its engine abandoned: the record, `tpc` and PC
hold the command's PC, INFO and ELEM the failing address and row; FROM is the state of the strand before the trap (R79, R281,
R315, R317; log 33). -/
def State.abandonedTrap (s : State) : State :=
  match s.me.abandoned with
  | [] => s
  | a :: rest =>
    let s := s.setMe (s.me.backTo a)
    let t := s.trapAt s.curCore s.curStrand { cause := .access, info := a.addr.toNat, elem := a.row } a.pc
    t.setMe { t.me with abandoned := rest }

/-- The trap of an abandoned copy command is due: the strand is at an instruction boundary, with no instruction stopped part-way
(R281; log 33). -/
def Strand.trapDue (st : Strand) : Bool := st.abandoned ≠ [] && !st.partWay

/-- Strand k of core p is at a boundary where nothing else comes first: no synchronous trap is pending, and it waits for no other
device that it may have changed (R316, R326, R339). -/
def State.stopsHere (s : State) (p k : Nat) : Bool :=
  !((s.core p).strand k).trapDue && ((s.at_ p k).flight (s.at_ p k).mySender).all fun f => !f.changes

/-- Strand k of core p reaches its next resumable boundary, its memory instruction in phase two having performed the given
number of elements (R195, R326). An instruction that waits for other devices runs on as it issued (R130). The strand may have
trapped on the way. -/
def State.toBoundary (s : State) (p k elems : Nat) : Res :=
  let t := { s.at_ p k with cut := some elems, attr := none }
  if elems = 0 || !t.strandRuns p k || t.me.restore || !t.stopsHere p k then .next s
  else
    let run (i : Instr) (u : State) : Res := (u.memoryInstr i).getD (.next s)
    match t.underway with
    | some (i, u) => if (t.memoryInstr i).isNone then .next s else t.asIssued u (run i)
    | none => match t.strandFetch with
      | .instr i u => run i u
      | _ => .next s

/-- What comes after a boundary has been reached. -/
def Res.andThen (r : Res) (k : State → Res) : Res :=
  match r with
  | .next s => k s
  | r => r

/-- `PREEMPT_STOP`: a strand whose `kpre` bit is set stops at its next boundary and takes PREEMPT; a trap on the way there,
or one that is pending, comes first (R316, R318). An access to another device that only reads is given up and runs again (R339;
log 53). -/
def execPreemptStop (p k elems : Nat) (s : State) : Res :=
  if !(s.core p).kpre.getLsbD k then .next s
  else
    (s.toBoundary p k elems).andThen fun t =>
      if t.strandRuns p k && t.stopsHere p k then .next (t.trapAt p k { cause := .preempt } ((t.core p).strand k).pc)
      else .next t

/-- The cycles that pass count for the watchdog of strand k of core p (R325): it executes, and does not wait for memory, another
device, an acknowledgement, a copy command or a queue entry, nor for what its job's earlier run left open, nor for the
acknowledgement of a shoot-down that has stopped it. -/
def State.countsWatchdog (s : State) (p k : Nat) : Bool :=
  let t := s.at_ p k
  let st := t.me
  st.runs && !(s.core p).resuming && !(s.core p).shotStops k && !s.flights.any ((s.core p).fliesFor k) && match st.waiting with
  | none => true
  | some w => match w.instr with
    | .signal _ => st.sigPend
    | .vpost _ c => (t.myCore.chan c.toNat).isSome || t.postBehind c
    | .vtake _ _ => true
    | .bwait _ a _ sc od => !t.objectWaits (Order.of sc od) false (oneElem (st.getX a) 16)
    | .convoy => t.settled .core
    | .mrnd .. => true
    | .mrow .. => true
    | .mstat .. => true
    | _ => false

/-- The cycle count of a core advances: from the first instruction of its core program to the halt of each placement
(R321). -/
def Core.countsCycles (c : Core) : Bool :=
  c.place.isSome && !c.halted && (c.hart.instret ≠ 0 || c.hart.waiting.isSome)

/-- Cycles and nanoseconds pass with nobody's turn: the timer, the cycle counts of cores that execute and the watchdog
counts advance (R321, R325; log 6). -/
def State.pass (s : State) (cycles ns : Nat) : State :=
  { s with
    now := s.now + ns
    cores := s.cores.map fun (p, c) =>
      if c.place.isSome then
        (p, { c with
          cyc := if c.countsCycles then c.cyc + cycles else c.cyc
          strands := c.strands.map fun (k, st) =>
            (k, if s.countsWatchdog p k then { st with wd := st.wd + cycles } else st) })
      else (p, c) }

/-- `WATCHDOG_EXPIRY`: the count of strand k has passed the limit: LINK at a `vpost` or `vtake`, else WATCHDOG (R325). -/
def execWatchdogExpiry (p k : Nat) (s : State) : Res :=
  let c := s.core p
  let st := c.strand k
  if s.strandRuns p k && s.countsWatchdog p k && s.stopsHere p k && c.wdLimit ≠ 0 && c.wdLimit < st.wd then
    let cause : Cause := match st.waiting with
      | some w => match w.instr with
        | .vpost _ _ => .link
        | .vtake _ _ => .link
        | _ => .watchdog
      | none => .watchdog
    .next (s.trapAt p k { cause := cause, count := st.wd } st.pc)
  else .next s

/-- `BLOCK_START`: the block at the head of an idle strand's buffer starts (R79). -/
def execBlockStart (p k : Nat) (s : State) : Res :=
  let c := s.core p
  if s.hartRuns p && (c.strand k).st = .idle && (c.strand k).buf ≠ [] then
    .next (s.setCore p (c.setStrand k (c.strand k).endBlock))
  else .next s

/-- `ISSUE_STARVATION_PROMOTION`: the strand issues before every other agent (R84, log 21). -/
def execIssueStarvationPromotion (p k : Nat) (s : State) : Res :=
  if s.strandRuns p k then .next { s with agenda := .strand p k :: s.agenda } else .next s

/-- The oldest held store: the pieces of its element or segment, and the rest of the queue (R194, R284). -/
def oldestHeld : List Held → List Held × List Held
  | [] => ([], [])
  | h :: l => if h.more then let r := oldestHeld l; (h :: r.1, r.2) else ([h], l)

/-- A shoot-down names a page (R344). -/
def Shoot.names (h : Shoot) (page : Nat) : Bool :=
  h.pages = 0 || (h.base.toNat / 4096 ≤ page && page < h.base.toNat / 4096 + h.pages)

/-- A held store that was translated by a named page is to be translated again (R302). -/
def Shoot.marks (h : Shoot) (w : Held) : Held :=
  match w.space with
  | .spad _ | .sdm _ => w
  | _ => if h.names w.page then { w with stale := true } else w

/-- A held store of the current strand is held back: by an older copy command of an earlier interval or an older acquiring one,
or by an older reduce of an earlier interval (R272, R291, R301). -/
def State.heldBack (s : State) (h : Held) : Bool :=
  s.myCopies.any (fun c => c.no < h.no && (c.interval < h.interval || c.acquires))
    || s.myReduces.any (fun r => r.no < h.no && r.interval < h.interval) || s.myUnsent

/-- The pieces of held stores at their places. -/
def State.heldPieces (s : State) (p : Nat) (hs : List Held) : List Piece :=
  hs.filterMap fun h => match s.heldFate p h with
    | .at_ sp a => some { space := sp, addr := a, len := h.bytes.length, page := h.page }
    | _ => none

/-- Held stores of strand k of core p are dropped, `rest` staying behind them, and the strand takes the access violation of an
address (R281; log 56). -/
def State.loseHeld (s : State) (p k : Nat) (h : Held) (rest : List Held) (a : Nat) : State :=
  let st := (s.core p).strand k
  let lost : Abandoned := { pc := h.pc, blk := h.blk, addr := BitVec.ofNat 64 a, row := 0 }
  s.setCore p ((s.core p).setStrand k { st with storeQ := rest, abandoned := st.abandoned ++ [lost] })

/-- Held stores of strand k of core p perform together, `rest` staying behind them. A page that is missing now is reported as an
engine's is and awaited; one that forbids them, or a fault record without a place, drops them. A unit on several devices comes
first (R194, R281; log 56, log 72). -/
def State.performHeld (s : State) (p k : Nat) (h : Held) (hs rest : List Held) : Res :=
  let put (s : State) (q : List Held) : State := s.setCore p ((s.core p).setStrand k { (s.core p).strand k with storeQ := q })
  match (h :: hs).find? fun h => s.heldFate p h = .missing with
  | some m =>
    match s.reportFault p k Access.store.kind h.pc [0] [m.page] true with
    | .error a => .next (s.loseHeld p k h rest a)
    | .ok (t, _) => .next (put t ((h :: hs).map (fun g => { g with awaiting := g.page = m.page }) ++ rest))
  | none =>
    match (h :: hs).find? fun h => s.heldFate p h = .forbidden with
    | some m => .next (s.loseHeld p k h rest m.va)
    | none =>
      let ps := s.heldPieces p (h :: hs)
      if ps.any fun q => q.device.any s.cutOff then .next (s.endJob h.source.job .uncorrectable false 0)
      else if s.unitWaits h.source true ps then .next s
      else .next (storePieces h.source h.key h.sync ps ((h :: hs).flatMap Held.bytes) (put s rest))

/-- `MEMORY_RESPONSE`: the oldest held store of strand k performs as a whole, once nothing holds it back; a translation that was
given up is made again (R122, R196, R272, R284, R301, R302; log 19). -/
def execMemoryResponse (p k : Nat) (s : State) : Res :=
  match oldestHeld ((s.core p).strand k).storeQ with
  | ([], _) => .next s
  | (h :: hs, rest) =>
    if (s.core p).resuming || (h :: hs).any Held.awaiting || (s.at_ p k).heldBack h then .next s
    else
      match s.walksOf p storeAgent (((h :: hs).filter Held.stale).map fun h => (h.va, h.bytes.length)) with
      | .waits t => .next t
      | .lost => .next (s.endJob h.source.job .uncorrectable false 0)
      | .ready t => t.performHeld p k h hs rest

/-- Run the waiting instruction of strand k again, when it is of the kind that the event names. -/
def State.rerun (s : State) (p k : Nat) (f : Instr → Option (State → Res)) : Res :=
  let t := s.at_ p k
  match t.me.waiting with
  | none => .next s
  | some w =>
    match f w.instr with
    | some g => if t.strandRuns p k then g t else .next s
    | none => .next s

/-- `SIGNAL_LATCH` (R107). -/
def execSignalLatch (p k : Nat) (s : State) : Res :=
  s.rerun p k fun i => match i with
    | .signal a => some (execSignal a)
    | _ => none

/-- `VPOST_COMPLETE` (R108). -/
def execVpostComplete (p k : Nat) (s : State) : Res :=
  s.rerun p k fun i => match i with
    | .vpost b c => some (execVpost b c)
    | _ => none

/-- `VTAKE_COMPLETE` (R108). -/
def execVtakeComplete (p k : Nat) (s : State) : Res :=
  s.rerun p k fun i => match i with
    | .vtake d c => some (execVtake d c)
    | _ => none

/-- Run the waiting instruction of the control hart of core p again, when it is of the kind that the event names. -/
def State.rerunHart (s : State) (p : Nat) (f : Instr → Option (State → Res)) : Res :=
  let t := s.at_ p s.curStrand
  match t.hart.waiting with
  | none => .next s
  | some w =>
    match f w.instr with
    | some g => if t.hartRuns p then g t else .next s
    | none => .next s

/-- `KJOIN_RETURN` (R99). -/
def execKjoinReturn (p : Nat) (s : State) : Res :=
  s.rerunHart p fun i => match i with
    | .kjoin a d => some (execKjoin a d)
    | _ => none

/-- `KWAIT_RETURN` (R99). -/
def execKwaitReturn (p : Nat) (s : State) : Res :=
  s.rerunHart p fun i => match i with
    | .kwait a d => some (execKwait a d)
    | _ => none

/-- `KBCASTW_DELIVER` (R96). -/
def execKbcastwDeliver (p : Nat) (s : State) : Res :=
  s.rerunHart p fun i => match i with
    | .kbcastw b a d => some (execKbcastw b a d)
    | _ => none

/-- `FMTW_APPLY` (R230). -/
def execFmtwApply (p : Nat) (s : State) : Res :=
  s.rerunHart p fun i => match i with
    | .kcfgFmtw b a d => some (execKcfgFmtw b a d)
    | _ => none

end Sys2Proof.Machine
end

