-- ==== Sys2Proof/Machine/Contexts.lean ====
section
/-! DEFINITION. Saved core contexts: where their parts lie, what a save writes, and what a restore takes back (R77, R78,
R231, R241, R324, R328, R329; log 11). -/

namespace Sys2Proof.Machine

/-! ## Ranges of memory -/

/-- Memory with bytes from a list of places. -/
def Mem.ofList (l : List (Nat × Byte)) : Mem := l.foldl (fun m e => m.write e.1 [e.2]) []

/-- A range of bytes replaced by those of another memory, numbered from 0 there. -/
def Mem.copyIn (m : Mem) (base size : Nat) (src : Mem) : Mem :=
  m.filter (fun e => e.1 < base) ++ (src.filter (fun e => e.1 < size)).map (fun e => (base + e.1, e.2))
    ++ m.filter (fun e => base + size ≤ e.1)

/-- A range of bytes as a memory numbered from 0. -/
def Mem.copyOut (m : Mem) (base size : Nat) : Mem :=
  (m.filter fun e => base ≤ e.1 && e.1 < base + size).map fun e => (e.1 - base, e.2)

/-- Ranges of bytes set to zero. -/
def Mem.zeroRanges (m : Mem) (rs : List (Nat × Nat)) : Mem :=
  m.filter fun e => !rs.any fun r => r.1 ≤ e.1 && e.1 < r.1 + r.2

/-- Offsets of the scratchpad and the SDM in a per-core context (R329). -/
def contextSpad : Nat := 0x400000
/-- Offset of the SDM in a per-core context (R329). -/
def contextSdm : Nat := 0x800000

/-- The number that a range of bytes forms, little-endian. -/
def Mem.number (m : Mem) (base size : Nat) : Nat :=
  (m.copyOut base size).foldl (fun n e => n + e.2.toNat * 2 ^ (8 * e.1)) 0

/-- A range of bytes replaced by those of another memory, as writes of an agent without a key; the ranges of `skip` in it are not
written. Another device is sent the units of 64 bytes that are to be written in whole or in part (R339). -/
def State.putImage (s : State) (src : Sender) (sp : Space) (base size : Nat) (m : Mem) (skip : List (Nat × Nat)) : State :=
  match sp with
  | .remote n =>
    let skipped (o : Nat) : Bool := skip.any fun r => r.1 ≤ o && o + 64 ≤ r.1 + r.2
    ((List.range (size / 64)).filter fun i => !skipped (64 * i)).foldl
      (fun t i => t.postWrite src none ⟨0, 0, 0, 0⟩ n (base + 64 * i) 0 [] (m.read (64 * i) 64)) s
  | sp =>
    let kept := skip.foldl (fun (m : Mem) r => m.copyIn r.1 r.2 ((s.memOf sp).copyOut (base + r.1) r.2)) m
    (State.setMem (s.dropCopies sp base size) sp ((s.memOf sp).copyIn base size kept)).unkey sp base size

/-! ## Names of cores -/

/-- A space with the number of a physical core replaced by f of it. -/
def Space.mapCore (f : Nat → Nat) (sp : Space) : Space :=
  match sp with
  | .spad p => .spad (f p)
  | .sdm p => .sdm (f p)
  | sp => sp

/-- The place in a list of a physical core: its logical number. -/
def logicalOf (cores : List Nat) (p : Nat) : Nat := cores.idxOf p

/-- The physical core of a logical number. -/
def physicalOf (cores : List Nat) (t : Nat) : Nat := cores[t]?.getD 0

/-- The held stores of a core's strands with their spaces renamed. -/
def Core.renameHeld (c : Core) (f : Nat → Nat) : Core :=
  { c with strands := c.strands.map fun (k, st) =>
      (k, { st with storeQ := st.storeQ.map fun h => { h with space := h.space.mapCore f } }) }

/-! ## The layout -/

/-- The base of logical core t's context (R65, R329). -/
def contextBase (r : JobRecord) (t : Nat) : Nat := r.ctxBase.toNat + t * Config.contextBytes

/-- An area whose inner layout the spec does not give: its offset and its bytes, a free function of the values it holds. -/
def contextArea (o size : Nat) (values : List Nat) : Nat × List Byte :=
  (o, (List.range size).map (Config.contextByte o values))

/-- The values of a core's header (R78, R329). -/
def State.headerValues (s : State) (p : Nat) : List Nat :=
  let c := s.core p
  [((c.place.map Place.job).getD 0).toNat, (c.place.map Place.team).getD 0, Config.vmax, (s.rawControl p 0 4).toNat, 1,
    if c.finished then 1 else 0, (c.exit.getD 0).toNat, c.kdisc.toNat]

/-- The values of the control hart's area (R329). -/
def Core.hartValues (c : Core) : List Nat :=
  let h := c.hart
  (List.range 32).map (fun n => (h.getX (BitVec.ofNat 5 n)).toNat)
    ++ [h.pc.toNat, if h.mode = .m then 3 else 0, h.mstatus.toNat, h.mie.toNat, h.mtvec.toNat, h.mscratch.toNat, h.mepc.toNat,
        h.mcause.toNat, h.mtval.toNat, h.mcounteren.toNat, h.instret.toNat, c.kie.toNat, c.kpend.toNat]
    ++ (List.range Config.strands).map (fun k => (c.strand k).sig.toNat) ++ [c.kpre.toNat, c.wdLimit]

/-- The values of a strand's record (R329). -/
def Strand.recordValues (st : Strand) : List Nat :=
  (List.range 32).map (fun n => (st.getX (BitVec.ofNat 5 n)).toNat) ++ [st.pc.toNat, st.stateWord.toNat]
    ++ (st.blk.toList ++ st.buf).flatMap (fun b => [b.addr.toNat, b.words])
    ++ [st.rec0.toNat, st.rec1.toNat, st.rec2.toNat, st.rec3.toNat, st.rec4.toNat, st.wd]

/-- The values of an interlock entry: its command with its barrier, its scope and its order, its row and its next unit (R280,
R329). -/
def Copy.recordValues (cp : Copy) : List Nat :=
  let order := match cp.order with
    | .rlx => 0 | .acq => 1 | .rel => 2 | .acqRel => 3
  let scope := match cp.scope with
    | .strand => 0 | .core => 1 | .die => 2 | .dev => 3 | .fab => 4 | .sys => 5
  let barrier := match cp.barrier with
    | none => [0]
    | some (t, o) => [1, t, o]
  [cp.strand, cp.no, cp.pc.toNat, cp.interval, scope, order, cp.row, cp.offset] ++ barrier
    ++ cp.rows.flatMap (fun r => [r.src.toNat, r.dst.toNat, r.len]) ++ [cp.srcLo, cp.srcHi, cp.dstLo, cp.dstHi]
    ++ ((cp.key.map fun k => [k.epoch, k.core]).getD []) ++ (cp.unit.map fun u => [u.1, u.2.1, u.2.2]).getD []

/-- The values of the area of farm slots, channel tags, format table, interlock entries and epoch count (R329). -/
def Core.tableValues (c : Core) : List Nat :=
  (List.range 4).flatMap (fun f =>
      match Table.get none c.farms f with
      | none => [0]
      | some w => [1, w.set.toNat, w.entry.toNat, w.count, w.next, w.live.toNat])
    ++ (List.range 8).map (fun n => ((Table.get none c.chans n).map fun ch => ch.tag.toNat + 256).getD 0)
    ++ (List.range 16).map (fun n => (c.fmt n).toNat)
    ++ c.copies.flatMap Copy.recordValues ++ [c.epoch]

/-- What an entry of the matrix queue does to its tile, as values (R231). -/
def MatrixOp.values (o : MatrixOp) : List Nat :=
  match o with
  | .none => [0]
  | .product a b Option.none => [1, a.toNat, b.toNat]
  | .product a b (Option.some m) => [2, a.toNat, b.toNat, m.toNat]
  | .anchor x => [3, wrapTo 64 x]
  | .zero => [4]
  | .row r v => [5, r, v.toNat]
  | .image t => [6, leNat t.image]

/-- The values of an entry of the matrix queue (R231, R329). -/
def MatrixEntry.recordValues (e : MatrixEntry) : List Nat :=
  [e.strand, e.mext.toNat, e.mfmt.toNat, e.pairs] ++ e.op.values ++ e.sums.flatMap (fun x => [wrapTo 512 x.1, wrapTo 64 x.2]) ++ e.formats ++ e.values.map BitVec.toNat ++ e.operands ++ e.reads ++ e.writes

/-- What a save writes besides scratchpad and SDM: the header, and of a core that has not finished also the control hart,
the strand records, the tables, the link channels, the tiles, the matrix queue and the strand images; by offset (R78, R241,
R324, R329). -/
def State.contextPieces (s : State) (p : Nat) : List (Nat × List Byte) :=
  let c := s.core p
  let rest :=
    [contextArea 0x1000 0x1000 c.hartValues]
      ++ (List.range Config.strands).map (fun k => contextArea (0x2000 + 512 * k) 512 (c.strand k).recordValues)
      ++ [contextArea 0x5000 0x1000 c.tableValues]
      ++ (List.range 8).map (fun n =>
          contextArea (0x20000 + 0x800 * n) 0x800 [((Table.get none c.chans n).map fun ch => ch.bytes.toNat).getD 0])
      ++ (List.range 8).map (fun t => (0x40000 + t * 0x8040, (c.savedTile t).image))
      ++ (List.range 16).map (fun n =>
          contextArea (0x100000 + 0x10000 * n) 0x10000 ((c.mq[n]?.map MatrixEntry.recordValues).getD []))
      ++ (List.range Config.strands).flatMap (fun k =>
          (({ s with curCore := p, curStrand := k }).savePieces (2 ^ 34 - 1) controlAssigned).map fun (e : Nat × List Byte) =>
            (0x200000 + k * 0x14000 + e.1, e.2))
  contextArea 0 0x1000 (s.headerValues p) :: if c.finished then [] else rest

/-! ## Saving -/

/-- Save one core's context at o of a space: scratchpad outside the discard regions, SDM, and the other parts (R78, R328,
R329, R338). -/
def State.saveCore (s : State) (src : Sender) (sp : Space) (o p : Nat) : State :=
  let c := s.core p
  let t := (s.putImage src sp (o + contextSpad) Config.spadBytes c.spad ((c.place.map Place.discards).getD [])).putImage src sp
    (o + contextSdm) Config.sdmBytes c.sdm []
  (s.contextPieces p).foldl (fun t e => t.agentWrite src sp (o + e.1) e.2) t

/-! ## Restoring -/

/-- A control register as the image of a saved context has it: the flags of `fstat` and `detf` and VALID of `vdstat` exactly, every
other one by its own write rule; those that the core fixes stay (R319, R324, R328). -/
def Strand.takeControl (st : Strand) (n : Nat) (w : Word) : Strand :=
  match n with
  | 2 | 3 | 4 | 14 => st
  | 12 => { st with vdValid := w.getLsbD 0 }
  | 13 => { st with fstat := w &&& 0x1F1F }
  | 24 => { st with detf := w &&& 0x1F }
  | n => st.writeControl n w

/-- A strand with the registers of its image at o: the control block, `vdone`, and the vector and mask registers that are not absent;
the dirty set is as it was saved (R321, R324, R328). -/
def Strand.takeImage (st : Strand) (m : Mem) (o : Nat) : Strand :=
  let saved := st.dirty
  let st := (List.range 29).foldl (fun st n => st.takeControl n (BitVec.ofNat 64 (m.number (o + 0x40 + 8 * n) 8))) st
  let here (n : Nat) : Bool := !st.vabs.getLsbD n
  let st := { st with vdone := BitVec.ofNat 16384 (m.number (o + 0x140) (Config.vmax / 8)) }
  let st := if here 32 then
      (List.range 24).foldl (fun st k =>
        st.setM k (BitVec.ofNat 2048 (m.number (o + imageM + k * (Config.mlen / 8)) (Config.mlen / 8)))) st
    else st
  let st := ((List.range 32).filter here).foldl
    (fun st n => st.setV n (BitVec.ofNat 16384 (m.number (o + imageV n) (Config.vmax / 8)))) st
  { st with dirty := saved }

/-- A saved core with what the spec lays out of its context at o: strand images, and tiles, which its matrix queue follows (R231,
R241, R328, R329). A tile area that is no image leaves the tile as it was saved (log 11). -/
def Core.takeContext (c : Core) (m : Mem) (o : Nat) : Core :=
  let c := (List.range Config.strands).foldl (fun (c : Core) k =>
    { c with strands := Table.set Strand.reset c.strands k ((c.strand k).takeImage m (o + 0x200000 + k * 0x14000)) }) c
  let base := c
  ((List.range 8).foldl (fun (c : Core) t =>
    c.setTile t ((Tile.ofImage (m.number (o + 0x40000 + t * 0x8040) 0x8040)).getD (base.savedTile t))) c).replayQueue

end Sys2Proof.Machine
end

