-- ==== Sys2Proof/Machine/Dispatcher.lean ====
section
/-! DEFINITION. The hardware job dispatcher: reading records, ordering and placing jobs, pre-empting, halting and saving
them, and finishing (R66 to R78, R298, R299, R326 to R329). -/

namespace Sys2Proof.Machine

/-- Entries of the job table, and of held undelivered completions (R68, R347). -/
def tableSize : Nat := 4096

/-- A class queue. -/
def State.queue (s : State) (c : Nat) : ClassQueue := Table.get ClassQueue.reset s.queues c

/-- Replace a class queue. -/
def State.setQueue (s : State) (c : Nat) (q : ClassQueue) : State :=
  { s with queues := Table.set ClassQueue.reset s.queues c q }

/-! ## Records -/

/-- Bits [hi, lo] of a record read as one number. -/
def recField (n byte bytes : Nat) : Nat := n / 2 ^ (8 * byte) % 2 ^ (8 * bytes)

/-- A record's fields (R65). -/
def JobRecord.ofNat (n : Nat) : JobRecord where
  id := BitVec.ofNat 64 (recField n 0 8)
  pkg := BitVec.ofNat 32 (recField n 8 4)
  kidx := recField n 0x0C 2
  useMask := BitVec.ofNat 64 (recField n 0x10 8)
  spad := recField n 0x18 4
  sdm := recField n 0x1C 4
  team := recField n 0x20 2
  strands := recField n 0x22 1
  cls := recField n 0x23 1 % 8
  det := (recField n 0x23 1).testBit 3
  args := BitVec.ofNat 64 (recField n 0x28 8)
  ctxBase := BitVec.ofNat 64 (recField n 0x30 8)
  done := BitVec.ofNat 64 (recField n 0x38 8)
  prereq := (List.range (recField n 0x23 1 / 16 % 8)).map fun i => BitVec.ofNat 64 (recField n (0x40 + 8 * i) 8)
  ptRoot := BitVec.ofNat 64 (recField n 0x60 8)

/-- Check 1 of R67, against the largest JOB_ID that has passed it (R65, R68). -/
def recordBad (n : Nat) (last : BitVec 64) : Bool :=
  let r := JobRecord.ofNat n
  let npre := recField n 0x23 1 / 16 % 8
  recField n 0x0E 2 ≠ 0 || recField n 0x24 4 ≠ 0 || recField n 0x68 24 ≠ 0 || 128 ≤ recField n 0x23 1
    || recField n 0x60 8 / 2 ^ 60 ≠ 0 || r.useMask &&& ~~~ allClasses ≠ 0
    || (List.range 4).any (fun i => npre ≤ i && recField n (0x40 + 8 * i) 8 ≠ 0)
    || r.id = 0 || r.id.toNat ≤ last.toNat
    || r.team = 0 || 192 < r.team || r.strands = 0 || 24 < r.strands || 4 < npre
    || r.ctxBase.toNat % 4096 ≠ 0 || r.done.toNat % 16 ≠ 0

/-- The package of a handle. -/
def State.package (s : State) (h : BitVec 32) : Option Package := s.pkgs.find? fun p => p.handle = h

/-- The kernel that a record names. -/
def State.kernel (s : State) (r : JobRecord) : Option KernelInfo := (s.package r.pkg).bind fun p => p.info.kernels[r.kidx]?

/-- A core covers a job (R64). -/
def Core.covers (c : Core) (r : JobRecord) : Bool :=
  r.useMask &&& ~~~ c.capMask = 0 && r.spad ≤ c.spadUsable && r.sdm ≤ Config.sdmBytes

/-- Some set of TEAM cores covers the job, the device counted as idle (R67, R77). -/
def State.eligible (s : State) (r : JobRecord) : Bool :=
  r.team ≤ (List.range Config.cores).countP fun p => (s.core p).covers r

/-- Check 3 of R67: a prerequisite at or above the job's own ID, or unknown (R68). -/
def State.prereqBad (s : State) (r : JobRecord) : Bool :=
  let mark := s.jobs.foldl (fun acc j => Nat.min acc j.record.id.toNat) r.id.toNat
  r.prereq.any fun p => r.id.toNat ≤ p.toNat || (mark ≤ p.toNat && (s.job p).isNone)

/-- A job as it enters the table. -/
def Job.fresh (r : JobRecord) (now : Nat) : Job where
  record := r
  state := .blocked
  eff := r.cls
  readyAt := now
  waitAt := now
  placedAt := now
  preempted := false
  fencedDuring := false
  detRead := false
  cores := []
  saved := []
  keys := []
  syncs := []
  ending := none

/-- A record that has been read: checks 1 to 4 of R67; a job that passes them waits or is ready (R68, R69). -/
def State.enrol (s : State) (n : Nat) : State :=
  let r := JobRecord.ofNat n
  if recordBad n s.lastJobId then s.undelivered (completionEntry r.id .badRecord 16 0)
  else
    let t := { s with lastJobId := r.id, jobs := s.jobs ++ [Job.fresh r s.now] }
    if (t.kernel r).isNone then t.endJob r.id .badKernel false 0
    else if t.prereqBad r then t.endJob r.id .badPrereq false 0
    else if !t.eligible r then t.endJob r.id .noEligibleCore false 0
    else (t.settleDependents (t.jobs.length + 1)).refreshHead

/-- `RECORD_READ`: the dispatcher reads the next record of class c; one that another device holds is asked for. A ring whose
record lies outside every range is not read (R66 to R69, R339, R341, R347, R358, R363; log 72). -/
def execRecordRead (c : Nat) (s : State) : Res :=
  let q := s.queue c
  if s.recovery || s.starting || s.power ≠ 0 || c ≥ 8 || !q.en || q.prod = q.cons || tableSize ≤ s.jobs.length || tableSize ≤ s.undel.held.length
  then .next s
  else
    let a := q.base.toNat + 128 * (q.cons.toNat % 2 ^ q.k)
    match s.physicalRange a 128 with
    | none => .next s
    | some (sp, o) =>
      match s.walkStep { s.dispatcherOf 0 with core := c } fun _ => rangeAsks sp o 128 with
      | .waits t => .next t
      | .lost => .next s
      | .ready t => .next ((t.setQueue c { q with cons := q.cons + 1 }).enrol (leNat (t.peek sp o 128)))

/-- `UNDELIVERED_ENTRY_WRITE` (R347). -/
def execUndeliveredEntryWrite (s : State) : Res := .next s.writeUndelivered

/-! ## Order and teams -/

/-- `JOB_AGING`: each 2 ms of waiting raises the effective class by one, to 7 (R72). -/
def execJobAging (job : BitVec 64) (s : State) : Res :=
  match s.job job with
  | none => .next s
  | some j =>
    if j.isWaiting && j.eff < Nat.min 7 (j.record.cls + (s.now - j.waitAt) / 2000000)
    then .next (s.mapJob job fun j => { j with eff := j.eff + 1 }).refreshHead
    else .next s

/-- A core is free (R74, R360). -/
def Core.isFree (c : Core) : Bool := c.place.isNone && !c.withheld

/-- One list comes before another of the same length. -/
def lexBefore (x y : List Nat) : Bool := ((x.zip y).find? fun p => p.1 ≠ p.2).any fun p => p.1 < p.2

/-- The team of n cores among some cores: on the fewest dies, and of those the first in lexicographic order (R74). -/
def chooseTeam (n : Nat) (cores : List Nat) : Option (List Nat) :=
  let sets := (List.range 16).filterMap fun d =>
    let within := cores.filter fun p => d.testBit (dieOf p)
    if n ≤ within.length then some (popCount 4 d, within.take n) else none
  let least := sets.foldl (fun acc e => Nat.min acc e.1) 4
  (sets.filter fun e => e.1 = least).foldl (fun best e =>
    match best with
    | none => some e.2
    | some b => if lexBefore e.2 b then some e.2 else some b) none

/-- The team for a job among the free cores and some more (R74, R76). -/
def State.teamFor (s : State) (r : JobRecord) (more : List Nat) : Option (List Nat) :=
  chooseTeam r.team ((List.range Config.cores).filter fun p =>
    ((s.core p).isFree || more.contains p) && !(s.core p).withheld && (s.core p).covers r)

/-- The job may be placed now: every job before it cannot, and the head blocks none (R73). -/
def State.mayPlace (s : State) (id : BitVec 64) : Bool :=
  match s.waitingJobs.span (fun j => j.record.id ≠ id) with
  | (before, j :: _) =>
    (before = [] || (!s.headBlocks && before.all fun b => (s.teamFor b.record []).isNone))
      && (s.teamFor j.record []).isSome
  | _ => false

/-! ## Starting and restoring -/

/-- Bytes of a core's scratchpad and SDM. -/
def Space.ofCore (sp : Space) (p : Nat) : Bool := sp = .spad p || sp = .sdm p

/-- Forget the keys and releases on the scratchpads and SDMs of some cores. -/
def State.forgetKeys (s : State) (ps : List Nat) : State :=
  { s with
    keys := s.keys.filter fun e => !ps.any e.1.1.ofCore
    syncs := s.syncs.filter fun e => !ps.any e.1.1.ofCore }

/-- The record of a placement on logical core t (R62, R65). -/
def Place.of (r : JobRecord) (t : Nat) (cores : List Nat) (discards : List (Nat × Nat)) : Place where
  job := r.id
  team := t
  size := r.team
  strands := r.strands
  useMask := r.useMask
  det := r.det
  spad := r.spad
  sdm := r.sdm
  ptRoot := r.ptRoot
  ctxBase := r.ctxBase
  cores := cores
  discards := discards

/-- A core at the start of a job: the plan's contents, and the control hart at the kernel's entry with ARGS (R37, R74,
R90). -/
def Core.start (c : Core) (r : JobRecord) (pl : Place) (info : PackageInfo) (entry : Word) : Core :=
  { c.vacate with
    place := some pl
    spad := Mem.ofList info.spad
    sdm := Mem.ofList info.sdm
    fmts := info.fmts.foldl (fun t e => if entryValid e.2 then Table.set 0x009A0E34 t e.1 (entryHeld e.2) else t) []
    hart := { Hart.reset with pc := entry }.setX 10 r.args }

/-- A strand after a halt: as it was, its wait begun afresh (R79, R110). -/
def Strand.unhold (st : Strand) : Strand :=
  if st.st = .held then { st with st := st.heldSt, waiting := none, wd := 0 } else { st with waiting := none }

/-- A strand saved TRAPPED with cause FENCED resumes when its new core offers the class (R328). -/
def Strand.unfence (st : Strand) (cap : Word) : Strand :=
  if st.st = .trapped && st.rec0.toNat % 2 ^ 8 = Cause.fenced.code && cap.getLsbD st.rec2.toNat then st.kresume else st

/-- The `kdisc` bits of the discard regions (R318). -/
def discardBits (n : Nat) : Word :=
  (List.range n).foldl (fun acc r => acc ||| BitVec.ofNat 64 (2 ^ Nat.min r 63)) 0

/-- A strand whose held stores are translated again (R302). -/
def Strand.retranslates (st : Strand) : Strand :=
  { st with storeQ := st.storeQ.map (Shoot.marks { asid := 0, base := 0, pages := 0 }) }

/-- A core that takes a saved context, which lies at o of a memory: scratchpad, SDM, tiles and strand images as the context
holds them, discard regions zero, the rest as it was saved; a finished core keeps only its memories and its exit code. Its
agents wait while the job's earlier run has not performed everything, `waits` (R77, R78, R298, R302, R328, R351; log 11). -/
def Core.restore (c saved : Core) (pl : Place) (m : Mem) (o : Nat) (waits : Bool) : Core :=
  let base := if saved.finished then { c.vacate with exit := saved.exit, finished := true, cyc := saved.cyc }
    else (saved.renameHeld (physicalOf pl.cores)).takeContext m o
  { base with
    capMask := c.capMask
    spadUsable := c.spadUsable
    usable := c.usable
    prick := c.prick
    gated := c.gated
    withheld := c.withheld
    margin := c.margin
    place := some pl
    spad := (m.copyOut (o + contextSpad) Config.spadBytes).zeroRanges pl.discards
    sdm := m.copyOut (o + contextSdm) Config.sdmBytes
    kdisc := saved.kdisc ||| discardBits pl.discards.length
    strands := base.strands.map fun (k, st) => (k, (st.unhold.unfence c.capMask).retranslates)
    copies := base.copies.map fun cp => { cp with suspended := true, awaiting := [] }
    hart := { base.hart with waiting := none }
    tlb := []
    haltReq := false
    halted := false
    resuming := waits
    shoots := [] }

/-- Where the contexts of a job's team lie, all in one range (R329, R339). -/
def State.contextPlace (s : State) (r : JobRecord) : Option (Space × Nat) :=
  s.physicalRange (contextBase r 0) (r.team * Config.contextBytes)

/-- A job's state in the job table once it is placed on a team. -/
def Job.placedOn (j : Job) (team : List Nat) (now : Nat) : Job :=
  { j with state := .placed, cores := team, placedAt := now, saved := [], keys := [], syncs := [] }

/-- The first start of a job on a team (R74). -/
def State.startOn (s : State) (j : Job) (team : List Nat) : State :=
  let r := j.record
  let info := ((s.package r.pkg).map Package.info).getD { kernels := [], spad := [], sdm := [], discards := [], fmts := [] }
  let entry := ((s.kernel r).map KernelInfo.entry).getD 0
  let t := team.zipIdx.foldl (fun s (p, t) =>
    s.setCore p ((s.core p).start r (Place.of r t team info.discards) info entry)) (s.forgetKeys team)
  (t.mapJob r.id fun j => j.placedOn team s.now).refreshHead

/-- The restore of a job's saved contexts, which lie at o of a space, on a team (R77, R298). -/
def State.restoreOn (s : State) (j : Job) (team : List Nat) (sp : Space) (o : Nat) : State :=
  let r := j.record
  let discards := ((s.package r.pkg).map fun k => k.info.discards).getD []
  let waits := s.outstanding r.id
  let t : State := team.zipIdx.foldl (fun (s : State) (p, t) =>
    s.setCore p ((s.core p).restore ((j.saved[t]?).getD Core.reset) (Place.of r t team discards) (s.memOf sp)
      (o + t * Config.contextBytes) waits)) (s.forgetKeys team)
  let home (e : Space × Nat) : Space × Nat := (e.1.mapCore (physicalOf team), e.2)
  let t : State := { t with
    keys := j.keys.map (fun e => (home e.1, e.2)) ++ t.keys
    syncs := j.syncs.map (fun e => (home e.1, e.2)) ++ t.syncs }
  (t.mapJob r.id fun j => j.placedOn team s.now).refreshHead

/-- `JOB_PLACE`: the dispatcher places a waiting job, in the power state in which cores run. Contexts that another device holds
are asked for first; contexts that have no place any more are lost with the job (R73, R74, R77, R78, R339, R363; log 72). -/
def execJobPlace (job : BitVec 64) (s : State) : Res :=
  if s.recovery || s.starting || s.power ≠ 0 || !s.mayPlace job then .next s
  else match s.job job with
    | none => .next s
    | some j =>
      match s.teamFor j.record [] with
      | none => .next s
      | some team =>
        if j.saved = [] then .next (s.startOn j team)
        else match s.contextPlace j.record with
          | none => .next (s.endJob job .uncorrectable false 0)
          | some (sp, o) =>
            match s.walkStep (s.dispatcherOf job) fun _ => rangeAsks sp o (j.record.team * Config.contextBytes) with
            | .waits t => .next t
            | .lost => .next (s.endJob job .uncorrectable false 0)
            | .ready t => .next (t.restoreOn j team sp o)

/-- `HEAD_WAIT_EXPIRY`: after 4 ms as head, no later job is placed before it (R73). -/
def execHeadWaitExpiry (s : State) : Res :=
  match s.waitingJobs with
  | [] => .next s
  | h :: _ =>
    if (s.teamFor h.record []).isNone && 4000000 ≤ s.now - s.headSince then .next { s with headBlocks := true }
    else .next s

/-! ## Pre-emption -/

/-- Request the halt of a placed job (R77). -/
def State.haltJob (s : State) (id : BitVec 64) : State :=
  let t := (s.coresOf id).foldl (fun s p => s.setCore p { s.core p with haltReq := true }) s
  t.mapJob id fun j => { j with state := .halting }

/-- Victims in order: lowest CLASS first, latest placement first (R76); of two placed at one time, the one placed first in
the job table: the model's choice (log 61). -/
def victimOrder (j : Job) : List Job → List Job
  | [] => [j]
  | k :: l =>
    if j.record.cls < k.record.cls || (j.record.cls = k.record.cls && k.placedAt ≤ j.placedAt) then j :: k :: l
    else k :: victimOrder j l

/-- Take victims until the head fits; none where it never does (R76). -/
def State.chooseVictims (s : State) (r : JobRecord) : List Job → List Nat → List (BitVec 64) → Option (List (BitVec 64))
  | js, freed, ids =>
    if (s.teamFor r freed).isSome then some ids
    else match js with
      | [] => none
      | j :: rest => s.chooseVictims r rest (freed ++ j.cores) (ids ++ [j.record.id])

/-- `PRIORITY_PREEMPT`: the halt of the victims that let the head be placed (R76). Cores of jobs that are halting already
count as free: the model's choice (log 61). -/
def execPriorityPreempt (s : State) : Res :=
  match s.waitingJobs with
  | [] => .next s
  | h :: _ =>
    if (s.teamFor h.record []).isSome then .next s
    else
      let halting := (s.jobs.filter fun j => j.state = .halting).flatMap Job.cores
      let running := (s.jobs.filter fun j =>
        j.state = .placed && j.record.cls < h.record.cls && 1000000 ≤ s.now - j.placedAt).foldr victimOrder []
      match s.chooseVictims h.record running halting [] with
      | none => .next s
      | some ids => .next (ids.foldl State.haltJob s)

/-- Every core of a job that has not finished is halted. -/
def State.allHalted (s : State) (j : Job) : Bool := j.cores.all fun p => (s.core p).halted || (s.core p).finished

/-- Strands of a core stop at their boundaries, those named having performed some elements (R195, R326). -/
def State.stopStrands (s : State) (p : Nat) : List (Nat × Nat) → Res
  | [] => .next s
  | (k, n) :: rest => (s.toBoundary p k n).andThen fun t => t.stopStrands p rest

/-- What core p has under way to other devices when it halts: what only reads is given up, and an atomic access stops after what
it has asked for, which finishes during the save (R195, R280, R305, R326). -/
def State.haltFlights (s : State) (p : Nat) : State :=
  { s with flights := (s.flights.filter fun f => !((s.core p).flies f && !f.changes)).map fun f =>
    if (s.core p).flies f && f.stopped.isNone && f.instr.isSome then f.stop else f }

/-- Strands of core p that a pending trap of an abandoned copy command meets at the halt take it (R281, R316). -/
def State.haltTraps (s : State) (p : Nat) : State :=
  (List.range Config.strands).foldl (fun t k =>
    if t.strandRuns p k && ((t.core p).strand k).trapDue && ((t.at_ p k).flight (t.at_ p k).mySender).isNone
    then (t.at_ p k).abandonedTrap else t) s

/-- Every strand is HELD, and the matrix instruction that runs stops after the plane pairs that it has completed (R79,
R231). -/
def Core.hold (c : Core) (tick : Nat) : Core :=
  (List.range Config.strands).foldl (fun c k =>
    let st := c.strand k
    c.setStrand k { st with st := .held, heldSt := st.st, waiting := none })
    { c.stopMatrix tick with halted := true, hart := { c.hart with waiting := none } }

/-- `HALT_BOUNDARY`: a core whose halt was requested reaches its boundary; a cancelled job then completes (R77, R326,
R345). -/
def execHaltBoundary (p : Nat) (stops : List (Nat × Nat)) (s : State) : Res :=
  let c := s.core p
  if !c.haltReq || c.halted then .next s
  else
    (s.stopStrands p stops).andThen fun t =>
      if (t.core p).place.isNone then .next t
      else
        let t := (t.haltFlights p).haltTraps p
        let t := t.setCore p ((t.core p).hold t.tick)
        match (t.core p).place.bind fun pl => t.job pl.job with
        | none => .next t
        | some j =>
          match j.ending with
          | some status => if t.allHalted j then .next (t.endJob j.record.id status false 0) else .next t
          | none => .next t

/-- Local reduces of a job are not applied yet. A save does not wait for acknowledgements of other devices, which the job
awaits after its resume (R298, R301, R351). -/
def State.reducesOut (s : State) (job : BitVec 64) : Bool := s.nmrQ.any fun r => r.sent.device = 0 && r.sent.job = job

/-- The answers that core p waits for at a halt: those of elements that have left (R195, R326; log 53). Acknowledgements, those of a
unit that its engine has written among them, travel with the context (R305, R351). -/
def State.finishWaits (s : State) (p : Nat) : Bool :=
  s.flights.any fun f => (s.core p).flies f && f.changes && !f.landed

/-- Strand k of a halted core p commits the elements that had left when it halted, and stays HELD; at an instruction boundary it
meets the trap of a copy command that its engine abandoned (R195, R281, R316, R326). -/
def State.finishStrand (s : State) (p k : Nat) : Res :=
  let t := s.at_ p k
  match t.flight t.mySender with
  | none => .next s
  | some f =>
    let awake := t.setMe { t.me with st := if t.me.st = .held then t.me.heldSt else t.me.st }
    (awake.asIssued f.issue fun u => (f.instr.bind u.memoryInstr).getD (.next u)).andThen fun u =>
      let u := if ((u.core p).strand k).trapDue then (u.at_ p k).abandonedTrap else u
      let st := (u.core p).strand k
      .next (u.setCore p ((u.core p).setStrand k { st with st := .held, heldSt := st.st, waiting := none }))

/-- The control hart of a halted core p completes the atomic instruction that another device has answered (R90, R326). -/
def State.finishHart (s : State) (p : Nat) : Res :=
  let t := s.at_ p s.curStrand
  match (t.flight t.hartSender).bind Flight.instr with
  | some (.controlHartInstruction i short) => execControlHartInstruction i short t
  | _ => .next s

/-- The engine of a halted core p drains the barrier for the unit that it has written, where the unit's acknowledgements are in; else
the drain follows them after the resume (R277, R280, R305, R351; log 53). -/
def State.finishUnit (s : State) (p : Nat) : State :=
  match (s.core p).copies with
  | [] => s
  | c :: rest =>
    match c.unit, c.rows[c.row]? with
    | some u, some r => if s.unitOut u then s else s.unitDone p c rest r.len u.1
    | _, _ => s

/-- What a halted core p has begun finishes during its save (R195, R280, R326). -/
def State.finishCore (s : State) (p : Nat) : Res :=
  ((List.range Config.strands).foldl (fun (r : Res) k => r.andThen fun t => t.finishStrand p k) (.next s)).andThen fun t =>
    (t.finishHart p).andThen fun t => .next (t.finishUnit p)

/-- The cores of a halted job finish what they have begun. -/
def State.finishCores (s : State) (ps : List Nat) : Res :=
  ps.foldl (fun (r : Res) p => r.andThen fun t => t.finishCore p) (.next s)

/-- The context of a halted job is saved at o of a space, and the job waits again; what its cores leave behind goes with it (R72,
R77, R78, R298, R328). -/
def State.saveJob (s : State) (j : Job) (sp : Space) (o : Nat) : State :=
  let id := j.record.id
  let t := j.cores.zipIdx.foldl (fun s (p, t) =>
    s.saveCore (s.dispatcherOf id) sp (o + t * Config.contextBytes) p) s
  let away (e : Space × Nat) : Space × Nat := (e.1.mapCore (logicalOf j.cores), e.2)
  let saved := j.cores.map fun p => (t.core p).renameHeld (logicalOf j.cores)
  let keys := (t.keys.filter fun e => j.cores.any e.1.1.ofCore).map fun e => (away e.1, e.2)
  let syncs := (t.syncs.filter fun e => j.cores.any e.1.1.ofCore).map fun e => (away e.1, e.2)
  let t := (t.forgetKeys j.cores).vacateCores j.cores
  let t := t.mapJob id fun j =>
    { j with
      state := .waiting
      eff := j.record.cls
      waitAt := t.now
      preempted := true
      cores := []
      saved := saved
      keys := keys
      syncs := syncs }
  if t.eligible j.record then t.refreshHead else t.endJob id .noEligibleCore false 0

/-- `CONTEXT_SAVE_DONE`: every core of the job is halted, has finished what it had begun and is saved, and its local reduces are
applied; the job waits again. A context that has no place ends the job (R72, R77, R78, R195, R298, R326, R339; log 72). -/
def execContextSaveDone (job : BitVec 64) (s : State) : Res :=
  match s.job job with
  | none => .next s
  | some j =>
    if j.state ≠ .halting || j.ending.isSome || !s.allHalted j || s.reducesOut job then .next s
    else
      match s.contextPlace j.record with
      | none => .next (s.endJob job .uncorrectable false 0)
      | some (sp, o) =>
        if j.cores.any s.finishWaits then .next s
        else (s.finishCores j.cores).andThen fun t =>
          .next (if (t.job job).any fun j => j.state = .halting then t.saveJob j sp o else t)

/-! ## Finishing -/

/-- What a core has not completed: copy commands, matrix instructions, held stores, reduces, and accesses to other devices
(R70, R230, R272, R299). -/
def State.coreBusy (s : State) (p : Nat) : Bool :=
  let c := s.core p
  let mine (job : BitVec 64) (core : Nat) : Bool := c.place.any fun pl => job = pl.job && core = pl.team
  c.copies ≠ [] || c.mq ≠ [] || c.strands.any (fun e => e.2.storeQ ≠ [])
    || s.nmrQ.any (fun r => r.sent.device = 0 && mine r.sent.job r.sent.core)
    || s.remoteQ.any (fun r => mine r.2.job r.2.core) || s.postedQ.any fun e => mine e.source.job e.source.core

/-- `CORE_FINISH`: a core that executed EXIT finishes once its commands and accesses have completed; the job completes with
its last core (R70). -/
def execCoreFinish (p : Nat) (s : State) : Res :=
  let c := s.core p
  match c.place, c.exit with
  | some pl, some _ =>
    if c.finished || c.halted || s.coreBusy p then .next s
    else
      let t := s.setCore p { c with finished := true }
      if pl.cores.all (fun q => (t.core q).finished) then
        let codes := pl.cores.map fun q => ((t.core q).exit.getD 0).toNat
        match codes.find? (· ≠ 0) with
        | some code => .next (t.endJob pl.job .jobFault false code)
        | none => .next (t.endJob pl.job .ok false 0)
      else .next t
  | _, _ => .next s

end Sys2Proof.Machine
end

