-- ==== Sys2Proof/Machine/RasOps.lean ====
section
/-! DEFINITION. The RAS log, fences, and the pricking of a core's lane groups (R22, R77, R143, R361, R366). -/

namespace Sys2Proof.Machine

/-- Entries of the RAS ring (R366). -/
def rasRing : Nat := 256

/-- KIND codes of RAS entries (R366). -/
def RasKind.code (k : RasKind) : Nat :=
  match k with
  | .corrected => 1 | .uncorrectable => 2 | .fence => 3 | .derating => 4 | .linkDown => 5 | .sandbox => 6

/-- Write an entry into the ring and announce it (R366). -/
def State.putRas (s : State) (e : RasEntry) : State :=
  State.sendMsix { s with ras := s.ras ++ [e], rasProd := s.rasProd + 1 } 3

/-- The oldest entry of KIND 1 overwritten; none where there is none (R366). -/
def overwriteCorrected (e : RasEntry) : List RasEntry → Option (List RasEntry)
  | [] => none
  | f :: l => if f.kind = .corrected then some (e :: l) else (overwriteCorrected e l).map (f :: ·)

/-- A new entry: into the ring; while it is full, KIND 1 is dropped and another kind overwrites the oldest of KIND 1 or
stalls its writer (R366). -/
def State.addRas (s : State) (e : RasEntry) : State :=
  if s.ras.length < rasRing then
    if s.rasStalled = [] then s.putRas e else { s with rasStalled := s.rasStalled ++ [e] }
  else if e.kind = .corrected then s
  else match overwriteCorrected e s.ras with
    | some l => State.sendMsix { s with ras := l } 3
    | none => { s with rasStalled := s.rasStalled ++ [e] }

/-- Log an event at the present time (R321, R366; log 6). -/
def State.logRas (s : State) (kind : RasKind) (unit : BitVec 16) (addr : Word) (job : BitVec 64) : State :=
  let t := s.readTime
  t.1.addRas { kind := kind, unit := unit, addr := addr, job := job, time := t.2 }

/-- Writes to the RAS ring that wait, once it has room (R366). -/
def State.writeStalledRas (s : State) : State :=
  match s.rasStalled with
  | [] => s
  | e :: rest => if s.ras.length < rasRing then State.putRas { s with rasStalled := rest } e else s

/-- The oldest of the waiting jobs that no set of cores covers (R77). -/
def State.uncovered (s : State) : Option (BitVec 64) :=
  ((s.jobs.foldr insertJob []).find? fun j =>
    (j.state = .waiting || j.state = .blocked) && !s.eligible j.record).map fun j => j.record.id

/-- Waiting jobs that no set of cores covers any longer complete, in order of JOB_ID (R77). The number bounds them. -/
def State.dropUncovered (s : State) : Nat → State
  | 0 => s
  | n + 1 =>
    match s.uncovered with
    | none => s
    | some id => (s.endJob id .noEligibleCore false 0).dropUncovered n

/-- A placed job on core p that uses the class is marked and halted, unless its halt is under way; one that no set of cores
covers any longer completes at once (R70, R77, R361). -/
def State.haltUser (s : State) (p cls : Nat) : State :=
  match (s.core p).place with
  | none => s
  | some pl =>
    if !pl.useMask.getLsbD cls then s
    else match s.job pl.job with
      | none => s
      | some j =>
        let t := s.mapJob pl.job fun j => { j with fencedDuring := true }
        if !t.eligible j.record then t.endJob pl.job .noEligibleCore false 0
        else if j.state = .placed then t.haltJob pl.job else t

/-- Clear some classes of core p (R361). -/
def State.clearClass (s : State) (p : Nat) (classes : Word) : State :=
  s.setCore p { s.core p with capMask := (s.core p).capMask &&& ~~~ classes }

/-- The stored fences of a core as a mask (R361). -/
def State.fencedClasses (s : State) (p : Nat) : Word :=
  s.fences.foldl (fun acc e => if e.1 = p then acc ||| BitVec.ofNat 64 (2 ^ e.2) else acc) 0

/-- The stored fences stand in the capability masks (R11, R359, R361). -/
def State.applyFences (s : State) : State :=
  s.fences.foldl (fun t e => t.clearClass e.1 (BitVec.ofNat 64 (2 ^ e.2))) s

/-- A fence: the class leaves the capability mask and the fence is stored and logged; the running job on the core that
uses the class is pre-empted, and waiting jobs that no core set covers complete (R77, R361). -/
def State.fence (s : State) (p cls : Nat) : State :=
  let t := s.clearClass p (BitVec.ofNat 64 (2 ^ cls))
  let t := { t with fences := if t.fences.contains (p, cls) then t.fences else t.fences ++ [(p, cls)] }
  let job := (((s.core p).place).map Place.job).getD 0
  let t := (t.logRas .fence (BitVec.ofNat 16 p) (BitVec.ofNat 64 cls) job).haltUser p cls
  t.dropUncovered (t.jobs.length + 1)

/-- Classes that a core without a usable lane group does not offer: every vector, matrix and clause class (R22). -/
def laneClasses : Word := 0xFE

/-- The pricking of a start: the lowest-numbered usable groups, four, two or one of them (R143). -/
def prickOf (usable : BitVec 4) : List Nat :=
  let l := (List.range 4).filter fun g => usable.getLsbD g
  l.take (if 4 ≤ l.length then 4 else if 2 ≤ l.length then 2 else l.length)

/-- The pricking after a mapped group is retired: the spare takes its place; without a spare the mapping is made anew
(R143). -/
def retirePrick (usable : BitVec 4) (prick : List Nat) (g : Nat) : List Nat :=
  match ((List.range 4).filter fun h => usable.getLsbD h && !prick.contains h).getLast? with
  | some spare => prick.map fun h => if h = g then spare else h
  | none => prickOf usable

end Sys2Proof.Machine
end

