-- ==== Sys2Proof/Machine/HostEvents.lean ====
section
/-! DEFINITION. What the host does to the device besides the mailbox: register writes and reads, memory accesses; and the
fault merger with its ring and the acknowledgement of shoot-downs (R192, R196, R337 to R342, R346, R347, R359, R362). -/

namespace Sys2Proof.Machine

/-! ## Rings and registers -/

/-- The low 32 bits of a written count (R340). -/
def countOf (v : Word) : BitVec 32 := v.setWidth 32

/-- K of a control register after a write: taken when the ring is off by that write and empty, and in range (R341). -/
def newK (k : Nat) (v : Word) (empty : Bool) : Nat :=
  let n := v.toNat % 32
  if !v.getLsbD 8 && empty && 4 ≤ n && n ≤ 16 then n else k

/-- BASE after a write: taken when the ring is off and empty and the base is a multiple of 4 KiB (R340, R341). -/
def newBase (base v : Word) (en empty : Bool) : Word := if !en && empty && v.toNat % 4096 = 0 then v else base

/-- Every write of a PROD register is a doorbell; one in a low power state starts the exit from it (R340, R363; log 57). -/
def State.doorbell (s : State) : State := { s with wake := s.wake || s.power ≠ 0 }

/-- `PROD_WRITE`: the doorbell of class c, or OVR when the ring would be overfilled (R340, R341, R363). -/
def execProdWrite (c : Nat) (v : BitVec 64) (s : State) : Res :=
  if 8 ≤ c then .next s
  else
  let s := s.doorbell
  let q := s.queue c
  if 2 ^ q.k < (countOf v - q.cons).toNat then .next (s.setQueue c { q with ovr := true })
  else .next (s.setQueue c { q with prod := countOf v })

/-- `QCTL_WRITE` (R340, R341). -/
def execQctlWrite (c : Nat) (v : BitVec 64) (s : State) : Res :=
  let q := s.queue c
  if 8 ≤ c then .next s
  else .next (s.setQueue c { q with
    k := newK q.k v (q.prod = q.cons)
    en := v.getLsbD 8
    ovr := q.ovr && !v.getLsbD 9 })

/-- `FCTL_WRITE` (R346). -/
def execFctlWrite (v : BitVec 64) (s : State) : Res :=
  let m := s.merger
  .next { s with merger := { m with k := newK m.k v (m.prod = m.cons), en := v.getLsbD 8 } }

/-- `CCTL_WRITE` (R347). -/
def execCctlWrite (v : BitVec 64) (s : State) : Res :=
  let u := s.undel
  .next { s with undel := { u with k := newK u.k v (u.prod = u.cons), en := v.getLsbD 8 } }

/-- The power ceiling in watts (R2). -/
def powerCeiling : Nat := 1800

/-- `PLIMIT_WRITE` (R2, R362). -/
def execPlimitWrite (v : BitVec 64) (s : State) : Res :=
  .next { s with plimit := BitVec.ofNat 12 (Nat.min (v.toNat % 2 ^ 12) powerCeiling) }

/-- Some job is placed on cores, or has left them and not completed yet (R299, R340, R349, R363). -/
def State.anyPlaced (s : State) : Bool :=
  s.jobs.any fun j => j.state = .placed || j.state = .halting || (j.isOver && !j.isDone)

/-- A write of MBCMD, ignored while a command runs (R343). -/
def State.writeCommand (s : State) (v : Word) : State :=
  if s.mbox.go then s else { s with mbox := { s.mbox with op := v.setWidth 8, go := v.getLsbD 8 } }

/-- A write of MBARGi, ignored while a command runs (R343). -/
def State.writeArg (s : State) (i : Nat) (v : Word) : State :=
  if s.mbox.go then s
  else { s with mbox :=
    match i with
    | 0 => { s.mbox with arg0 := v }
    | 1 => { s.mbox with arg1 := v }
    | 2 => { s.mbox with arg2 := v }
    | _ => { s.mbox with arg3 := v } }

/-- A write of ROUTE n: VALID and a port from 0 to 17; ignored while a job is placed (R349). -/
def State.writeRoute (s : State) (n : Nat) (v : Word) : State :=
  if s.anyPlaced || 18 ≤ v.toNat % 32 then s
  else { s with routes := Table.set 0 s.routes n (v.setWidth 6) }

/-- A write of RASCONS: the entries counted as consumed make room; their slots still show them (R366). -/
def State.writeRasCons (s : State) (v : Word) : State :=
  let n := (v - s.rasCons).toNat
  { s with rasCons := v, ras := s.ras.drop n, rasRead := ((s.ras.take n).reverse ++ s.rasRead).take rasRing }

/-- The entry that a slot of the RAS ring shows: the last one written there (R366). -/
def State.rasSlot (s : State) (slot : Nat) : Option RasEntry :=
  (s.ras.reverse ++ s.rasRead)[(s.rasProd.toNat + (rasRing - 1) - slot) % rasRing]?

/-- A halt has been requested of some core, or of a strand of it, and has not reached its boundary (R326, R364). -/
def State.haltsPending (s : State) : Bool := s.cores.any fun e => e.2.stopPending

/-- The arithmetic clock in MHz: the full one from a halt request to its boundary (R362, R364). -/
def State.clock (s : State) : Nat := if s.haltsPending then 1750 else s.mhz.toNat

/-- `REGISTER_WRITE`: a host write of a register of BAR0 by its access code and write rule; a write of a read-only register
or of an offset not listed is ignored (R9, R10, R340, R343, R346, R347, R349, R362, R366). -/
def execRegisterWrite (off : Nat) (v : BitVec 64) (s : State) : Res :=
  if off = 0 then .next (if s.anyPlaced then s else { s with devid := v.setWidth 6 })
  else if 0x1000 ≤ off && off < 0x1200 then
    let c := (off - 0x1000) / 0x40
    let q := s.queue c
    match (off - 0x1000) % 0x40 with
    | 0 => .next (s.setQueue c { q with base := newBase q.base v q.en (q.prod = q.cons) })
    | 8 => execQctlWrite c v s
    | 16 => execProdWrite c v s
    | _ => .next s
  else if off = 0x2000 then .next (s.writeCommand v)
  else if 0x2010 ≤ off && off ≤ 0x2028 && off % 8 = 0 then .next (s.writeArg ((off - 0x2010) / 8) v)
  else if off = 0x3000 then
    let m := s.merger
    .next { s with merger := { m with base := newBase m.base v m.en (m.prod = m.cons) } }
  else if off = 0x3008 then execFctlWrite v s
  else if off = 0x3018 then .next { s with merger := { s.merger with cons := countOf v } }
  else if off = 0x3020 then
    let u := s.undel
    .next { s with undel := { u with base := newBase u.base v u.en (u.prod = u.cons) } }
  else if off = 0x3028 then execCctlWrite v s
  else if off = 0x3038 then .next { s with undel := { s.undel with cons := countOf v } }
  else if 0x4008 ≤ off && off ≤ 0x41F8 && off % 8 = 0 then .next (s.writeRoute ((off - 0x4000) / 8) v)
  else if off = 0x6000 then .next { s with lattol := countOf v }
  else if off = 0x6008 then execPlimitWrite v s
  else if off = 0x6010 then .next { s with derated := s.derated && v.getLsbD 18 }
  else if off = 0x8018 then .next (s.writeRasCons v)
  else .next s

/-- K and EN as a control register shows them. -/
def ringControl (k : Nat) (en : Bool) : Nat := k + if en then 2 ^ 8 else 0

/-- The code of a port's state (R350). -/
def PortSt.code (p : PortSt) : Nat :=
  match p with
  | .down => 0 | .training => 1 | .up => 2 | .retraining => 3

/-- CORESTAT of a core (R359). -/
def Core.status (c : Core) : Nat :=
  c.spadUsable + (c.prick.zipIdx.foldl (fun acc e => acc + e.1 * 2 ^ (2 * e.2)) 0) * 2 ^ 32 + c.usable.toNat * 2 ^ 40

/-- The 32 bytes of a RAS entry (R366). -/
def RasEntry.bytes (e : RasEntry) : List Byte :=
  leBytes 2 e.kind.code ++ leBytes 2 e.unit.toNat ++ leBytes 4 0 ++ leBytes 8 e.addr.toNat ++ leBytes 8 e.job.toNat
    ++ leBytes 8 e.time.toNat

/-- The register of BAR0 at an offset, as a host read returns it (R340, R343, R346, R347, R349, R350, R359, R362, R365, R366). -/
def State.readRegister (s : State) (off : Nat) : Word :=
  BitVec.ofNat 64 <|
  if off = 0 then s.devid.toNat
  else if 0x1000 ≤ off && off < 0x1200 then
    let q := s.queue ((off - 0x1000) / 0x40)
    match (off - 0x1000) % 0x40 with
    | 0 => q.base.toNat
    | 8 => ringControl q.k q.en + if q.ovr then 2 ^ 9 else 0
    | 16 => q.prod.toNat
    | 24 => q.cons.toNat
    | _ => 0
  else if off = 0x2000 then s.mbox.op.toNat + if s.mbox.go then 2 ^ 8 else 0
  else if off = 0x2008 then s.mbox.status.toNat
  else if off = 0x2010 then s.mbox.arg0.toNat
  else if off = 0x2018 then s.mbox.arg1.toNat
  else if off = 0x2020 then s.mbox.arg2.toNat
  else if off = 0x2028 then s.mbox.arg3.toNat
  else if off = 0x3000 then s.merger.base.toNat
  else if off = 0x3008 then ringControl s.merger.k s.merger.en
  else if off = 0x3010 then s.merger.prod.toNat
  else if off = 0x3018 then s.merger.cons.toNat
  else if off = 0x3020 then s.undel.base.toNat
  else if off = 0x3028 then ringControl s.undel.k s.undel.en
  else if off = 0x3030 then s.undel.prod.toNat
  else if off = 0x3038 then s.undel.cons.toNat
  else if 0x4008 ≤ off && off ≤ 0x41F8 && off % 8 = 0 then (Table.get 0 s.routes ((off - 0x4000) / 8)).toNat
  else if 0x5000 ≤ off && off < 0x5240 then
    let q := Table.get Port.reset s.ports ((off - 0x5000) / 0x20)
    match (off - 0x5000) % 0x20 with
    | 0 => q.st.code + q.width * 4 + q.peer.toNat * 32
    | 8 => q.replays.toNat + q.sheds.toNat * 2 ^ 32
    | _ => 0
  else if off = 0x6000 then s.lattol.toNat
  else if off = 0x6008 then s.plimit.toNat
  else if off = 0x6010 then
    s.clock + s.alccap * 2 ^ 12 + s.power * 2 ^ 14 + (if s.clock < 1750 || s.alccap ≠ 0 then 2 ^ 17 else 0)
      + if s.derated then 2 ^ 18 else 0
  else if 0x6020 ≤ off && off < 0x6040 && off % 8 = 0 then
    let d := (off - 0x6020) / 8
    let n := Table.get 16 s.phases d
    (Config.railRating d).toNat * n / 16 + n * 2 ^ 16
  else if 0x7000 ≤ off && off < 0x7C00 && off % 8 = 0 then
    let c := s.core ((off - 0x7000) / 16)
    if off % 16 = 0 then c.capMask.toNat else c.status
  else if off = 0x8000 then s.ceSram.toNat
  else if off = 0x8008 then s.ceHbm.toNat
  else if off = 0x8010 then s.rasProd.toNat
  else if off = 0x8018 then s.rasCons.toNat
  else if 0x9000 ≤ off && off < 0xB000 && off % 8 = 0 then
    match s.rasSlot ((off - 0x9000) / 32) with
    | some e => leNat ((e.bytes.drop (off % 32)).take 8)
    | none => 0
  else 0

/-! ## Host memory accesses -/

/-- The host stores bytes into its own memory, at their place in the one order of that memory (R296). -/
def State.hostStore (s : State) (a : Nat) (data : List Byte) : State :=
  if 2 ^ 52 < a + data.length then s else (s.put .host a data).unkey .host a data.length

/-- The 64-byte lines that some bytes touch. -/
def linesOf (a n : Nat) : List Nat := if n = 0 then [] else (List.range ((a + n - 1) / 64 - a / 64 + 1)).map (a / 64 + ·)

/-- The host holds some lines. -/
def State.hostHolds (s : State) (a n : Nat) : State := { s with hostLines := dedup (linesOf a n ++ s.hostLines) }

/-- `HOST_MEM_ACCESS`: a host access to device memory in coherence order; a read that consumes an uncorrectable error
returns all-ones data and is logged (R17, R337, R338, R365). Bytes outside the HDM range are not device memory. -/
def execHostMemAccess (acc : HostAccess) (s : State) : Res :=
  match acc with
  | .read a n bad =>
    if Config.deviceBytes < a + n then .next s
    else if bad then
      .next (State.logRas { s with hostRead := List.replicate n 0xFF } .uncorrectable (BitVec.ofNat 16 (a / 4096 % 8))
        (BitVec.ofNat 64 a) 0)
    else .next (State.hostHolds { s with hostRead := s.peek .device a n } a n)
  | .write a data =>
    if Config.deviceBytes < a + data.length then .next s
    else .next (((s.put .device a data).unkey .device a data.length).hostHolds a data.length)

/-! ## The fault merger -/

/-- The 32 bytes of a notification entry (R346). -/
def FaultEntry.bytes (e : FaultEntry) : List Byte :=
  leBytes 8 e.job.toNat ++ leBytes 8 e.page.toNat ++ leBytes 1 e.kind ++ leBytes 1 e.src ++ leBytes 2 e.asid
    ++ leBytes 1 e.slot ++ leBytes 11 0

/-- Write the oldest held entry, when the ring is enabled and has room (R346). An FBASE above the 52-bit host addresses counts modulo
2^52: the model's choice (log 80). -/
def State.writeFaultEntry (s : State) : State :=
  let m := s.merger
  match m.held with
  | [] => s
  | e :: rest =>
    if m.en && ringRoom m.k m.prod m.cons then
      let a := (m.base.toNat + 32 * (m.prod.toNat % 2 ^ m.k)) % 2 ^ 52
      let t := (s.put .host a e.bytes).unkey .host a 32
      { t with merger := { m with prod := m.prod + 1, held := rest } }
    else s

/-- Write every held entry that the ring takes; the number bounds them. -/
def State.writeFaultEntries (s : State) : Nat → State
  | 0 => s
  | n + 1 => s.writeFaultEntry.writeFaultEntries n

/-- Report pages that are not outstanding yet: an entry for each, written as soon as the ring takes it, and a notification
of the job due (R192, R346, R348). -/
def State.reportPages (s : State) (job : BitVec 64) (slot kind src asid : Nat) (pages : List Word) : State :=
  let fresh := pages.filter fun pg => !s.merger.outstanding.contains (job, slot, pg)
  let entries : List FaultEntry := fresh.map fun pg =>
    { job := job, page := pg, kind := kind, src := src, asid := asid, slot := slot }
  let m := s.merger
  let t := { s with merger := { m with
    outstanding := m.outstanding ++ fresh.map fun pg => (job, slot, pg)
    held := m.held ++ entries
    due := if fresh = [] || m.due.contains job then m.due else m.due ++ [job] } }
  t.writeFaultEntries t.merger.held.length

/-- `FAULT_RECORD_MERGE`: the merger takes the oldest record passed to it; a strand's newer record replaces its older one
(R192). -/
def execFaultRecordMerge (s : State) : Res :=
  match s.merger.inbox with
  | [] => .next s
  | r :: rest =>
    let m := s.merger
    let others := m.open_.filter fun q => !(q.job = r.job && q.core = r.core && q.strand = r.strand)
    let t := { s with merger := { m with inbox := rest, open_ := if r.engine then m.open_ else others ++ [r] } }
    .next (t.reportPages r.job 0 r.kind 0 r.asid r.pages)

/-- `FAULT_NOTIFY`: vector 1, once every entry of the job's records is visible to the host (R192, R342). -/
def execFaultNotify (job : BitVec 64) (s : State) : Res :=
  let m := s.merger
  if m.due.contains job && !m.held.any (fun e => e.job = job) then
    .next (State.sendMsix { s with merger := { m with due := m.due.filter (· ≠ job) } } 1)
  else .next s

/-- `HELD_FAULT_ENTRY_WRITE` (R346). -/
def execHeldFaultEntryWrite (s : State) : Res := .next s.writeFaultEntry

/-! ## Shoot-downs -/

/-- A core gives up the translations that a shoot-down names: a copy command that holds one is suspended, and held stores are
translated again. Accesses numbered below `no` may have used them, and `agents` wait for the acknowledgement (R196, R281, R302). -/
def Core.shot (c : Core) (h : Shoot) (no : Nat) (agents : List Nat) : Core :=
  { c with
    tlb := c.tlb.filter fun e => !h.names e.vpage
    strands := c.strands.map fun (k, st) => (k, { st with storeQ := st.storeQ.map h.marks })
    copies := c.copies.map fun cp => if cp.pages.any (fun e => h.names e.1) then { cp with suspended := true } else cp
    shoots := { h with given := some no, stopped := agents } :: c.shoots.drop 1 }

/-- An access to other devices is one by a named page. -/
def Shoot.namesFlight (h : Shoot) (f : Flight) : Bool := f.elems.any fun e => e.2.any fun q => h.names q.page

/-- The agents of core p with an instruction under way to other devices by a named page (R196). -/
def State.shotAgents (s : State) (p : Nat) (h : Shoot) : List Nat :=
  (s.flights.filter fun f => (s.core p).flies f && f.instr.isSome && h.namesFlight f).map fun f => f.source.agent

/-- A shoot-down stops what core p has under way to other devices by a named page: accesses that only read are given up and run
again, one that changes memory stops after what it has asked for. Walks are made again (R195 to R197, R302). -/
def State.shotFlights (s : State) (p : Nat) (h : Shoot) : State :=
  let named (f : Flight) : Bool := h.namesFlight f
  { s with flights := (s.flights.filter fun f =>
      !((s.core p).flies f && !f.changes && (f.elems = [] || named f))).map fun f =>
        if (s.core p).flies f && f.stopped.isNone && f.instr.isSome && named f then f.stop else f }

/-- The pages that the memory instruction at strand k's PC translates, where it comes to phase two (R190, R196). -/
def State.pagesInUse (s : State) (p k : Nat) : List Nat :=
  let t := { s.at_ p k with cut := some 0, attr := none }
  let used (i : Instr) (t : State) : List Nat :=
    match State.memoryInstr (t.setCore p { t.core p with tlb := [] }) i with
    | some (.next u) => (u.core p).tlb.map TlbEntry.vpage
    | _ => []
  match t.me.issuedWait with
  | some (i, u) => used i (State.setMyCore { t with attr := u.attr } { t.myCore with fmts := u.fmts, capMask := u.caps })
  | none => match t.strandFetch with
    | .instr i t' => used i t'
    | _ => []

/-- An access of core p that used a named translation, numbered below `no`, has not performed: a local reduce, a posted write, or
an access that changes the memory of another device (R302; log 56). -/
def State.shotBusy (s : State) (p : Nat) (h : Shoot) (no : Nat) : Bool :=
  let c := s.core p
  let mine (job : BitVec 64) (core : Nat) : Bool := c.place.any fun pl => job = pl.job && core = pl.team
  s.nmrQ.any (fun r => r.sent.device = 0 && mine r.sent.job r.sent.core && r.no < no && r.vpages.any h.names)
    || s.postedQ.any (fun e => mine e.source.job e.source.core && e.no < no && e.unit.any fun q => h.names q.page)
    || s.flights.any fun f => c.flies f && f.elems.any (fun e => e.2.any fun q => h.names q.page)
      && f.asks.any fun a => a.id < no && a.answer.isNone && !readsOnly a.op

/-- Core p acknowledges its shoot-down once every access that used a named translation has performed (R196, R302). -/
def State.ackShoot (s : State) (p : Nat) : State :=
  match (s.core p).shoots with
  | [] => s
  | h :: _ =>
    match h.given with
    | none => s
    | some no =>
      if s.shotBusy p h no then s
      else State.settleShoot (s.setCore p { s.core p with shoots := (s.core p).shoots.drop 1 })

/-- `SHOOTDOWN_ACK`: core p stops the memory instructions that hold a named translation, those strands having performed
some elements, gives the translations up and, once every access that used one has performed, acknowledges; the strands rerun
by themselves after that (R195, R196, R281, R302). It waits for no strand and for no answer of the host (R330). -/
def execShootdownAck (p : Nat) (stops : List (Nat × Nat)) (s : State) : Res :=
  match (s.core p).shoots with
  | [] => .next s
  | h :: _ =>
    if h.given.isSome then .next (s.ackShoot p)
    else
      let hit := stops.filter fun e => (s.pagesInUse p e.1).any h.names
      (s.stopStrands p hit).andThen fun t =>
        if (t.core p).place.isNone then .next t
        else
          let u := t.shotFlights p h
          .next ((u.setCore p ((u.core p).shot h u.askId (hit.map Prod.fst ++ t.shotAgents p h))).ackShoot p)

end Sys2Proof.Machine
end

