-- ==== Sys2Proof/Machine/Crypto.lean ====
section
/-! DEFINITION. SHA-256 (FIPS 180-4), and ECDSA signatures on P-256 and their verification (FIPS 186-5), which the SMC uses for
firmware images and attestation (R4, R355, R357; log 15). -/

namespace Sys2Proof.Machine

/-! ## SHA-256 -/

/-- The round constants of FIPS 180-4. -/
def shaRounds : List (BitVec 32) :=
  [0x428A2F98, 0x71374491, 0xB5C0FBCF, 0xE9B5DBA5, 0x3956C25B, 0x59F111F1, 0x923F82A4, 0xAB1C5ED5] ++
  [0xD807AA98, 0x12835B01, 0x243185BE, 0x550C7DC3, 0x72BE5D74, 0x80DEB1FE, 0x9BDC06A7, 0xC19BF174] ++
  [0xE49B69C1, 0xEFBE4786, 0x0FC19DC6, 0x240CA1CC, 0x2DE92C6F, 0x4A7484AA, 0x5CB0A9DC, 0x76F988DA] ++
  [0x983E5152, 0xA831C66D, 0xB00327C8, 0xBF597FC7, 0xC6E00BF3, 0xD5A79147, 0x06CA6351, 0x14292967] ++
  [0x27B70A85, 0x2E1B2138, 0x4D2C6DFC, 0x53380D13, 0x650A7354, 0x766A0ABB, 0x81C2C92E, 0x92722C85] ++
  [0xA2BFE8A1, 0xA81A664B, 0xC24B8B70, 0xC76C51A3, 0xD192E819, 0xD6990624, 0xF40E3585, 0x106AA070] ++
  [0x19A4C116, 0x1E376C08, 0x2748774C, 0x34B0BCB5, 0x391C0CB3, 0x4ED8AA4A, 0x5B9CCA4F, 0x682E6FF3] ++
  [0x748F82EE, 0x78A5636F, 0x84C87814, 0x8CC70208, 0x90BEFFFA, 0xA4506CEB, 0xBEF9A3F7, 0xC67178F2]

/-- The initial hash value of FIPS 180-4. -/
def shaInitial : List (BitVec 32) :=
  [0x6A09E667, 0xBB67AE85, 0x3C6EF372, 0xA54FF53A, 0x510E527F, 0x9B05688C, 0x1F83D9AB, 0x5BE0CD19]

/-- A number as n bytes, the most significant first. -/
def beBytes (n k : Nat) : List Byte := (leBytes n k).reverse

/-- The number that bytes form, the most significant first. -/
def beNat (bs : List Byte) : Nat := leNat bs.reverse

/-- The message with its padding: a one bit, zeros and the length in bits (FIPS 180-4). -/
def shaPadded (bs : List Byte) : List Byte :=
  bs ++ 0x80 :: List.replicate ((119 - bs.length % 64) % 64) 0 ++ beBytes 8 (8 * bs.length)

/-- The first n words of some bytes. -/
def shaWords : Nat → List Byte → List (BitVec 32)
  | 0, _ => []
  | n + 1, bs => BitVec.ofNat 32 (beNat (bs.take 4)) :: shaWords n (bs.drop 4)

/-- The message schedule, its latest word first: n more words (FIPS 180-4). -/
def shaSchedule : Nat → List (BitVec 32) → List (BitVec 32)
  | 0, w => w
  | n + 1, w =>
    let x (i : Nat) : BitVec 32 := w.getD i 0
    let s0 := (x 14).rotateRight 7 ^^^ (x 14).rotateRight 18 ^^^ (x 14) >>> 3
    let s1 := (x 1).rotateRight 17 ^^^ (x 1).rotateRight 19 ^^^ (x 1) >>> 10
    shaSchedule n ((x 15 + s0 + x 6 + s1) :: w)

/-- One round over the eight working variables, from a round constant plus a word of the schedule (FIPS 180-4). -/
def shaRound (v : List (BitVec 32)) (kw : BitVec 32) : List (BitVec 32) :=
  match v with
  | [a, b, c, d, e, f, g, h] =>
    let t1 := h + (e.rotateRight 6 ^^^ e.rotateRight 11 ^^^ e.rotateRight 25) + ((e &&& f) ^^^ (~~~ e &&& g)) + kw
    let t2 := (a.rotateRight 2 ^^^ a.rotateRight 13 ^^^ a.rotateRight 22) + ((a &&& b) ^^^ (a &&& c) ^^^ (b &&& c))
    [t1 + t2, a, b, c, d + t1, e, f, g]
  | v => v

/-- The hash value after one block of 64 bytes (FIPS 180-4). -/
def shaBlock (h : List (BitVec 32)) (block : List Byte) : List (BitVec 32) :=
  let w := (shaSchedule 48 (shaWords 16 block).reverse).reverse
  List.zipWith (· + ·) h ((List.zipWith (· + ·) shaRounds w).foldl shaRound h)

/-- The SHA-256 digest of some bytes (FIPS 180-4). -/
def sha256 (bs : List Byte) : List Byte :=
  let m := shaPadded bs
  ((units64 (m.length / 64) 0 m).foldl (fun h u => shaBlock h u.2) shaInitial).flatMap fun w => beBytes 4 w.toNat

/-! ## ECDSA on P-256 -/

/-- The prime of the field (FIPS 186-5, P-256). -/
def p256 : Nat := 2 ^ 256 - 2 ^ 224 + 2 ^ 192 + 2 ^ 96 - 1
/-- The order of the group. -/
def p256Order : Nat := 0xFFFFFFFF00000000FFFFFFFFFFFFFFFFBCE6FAADA7179E84F3B9CAC2FC632551
/-- The coefficient b of the curve; a is -3. -/
def p256B : Nat := 0x5AC635D8AA3A93E7B3EBBD55769886BC651D06B0CC53B0F63BCE3C3E27D2604B

/-- A point of the curve in Jacobian coordinates: (x, y, z) stands for x/z^2 and y/z^3, and z = 0 for the point at infinity. -/
structure CurvePoint where
  x : Nat
  y : Nat
  z : Nat
  deriving DecidableEq, Repr

/-- The base point. -/
def p256Base : CurvePoint where
  x := 0x6B17D1F2E12C4247F8BCE6E563A440F277037D812DEB33A0F4A13945D898C296
  y := 0x4FE342E2FE1A7F9B8EE7EB4A7C0F9E162BCE33576B315ECECBB6406837BF51F5
  z := 1

/-- b^e modulo m, over the n low bits of e. -/
def powMod (m b : Nat) : Nat → Nat → Nat
  | 0, _ => 1 % m
  | n + 1, e =>
    let r := powMod m b n (e / 2)
    if e % 2 = 1 then r * r % m * b % m else r * r % m

/-- The inverse modulo a prime of 256 bits. -/
def invMod (m a : Nat) : Nat := powMod m (a % m) 256 (m - 2)

/-- a - b modulo the prime. -/
def subP (a b : Nat) : Nat := (a + (p256 - b % p256)) % p256

/-- Twice a point. -/
def CurvePoint.double (u : CurvePoint) : CurvePoint :=
  let d := u.z * u.z % p256
  let g := u.y * u.y % p256
  let b := u.x * g % p256
  let a := 3 * (subP u.x d) * (u.x + d) % p256
  let x := subP (a * a) (8 * b)
  { x := x
    y := subP (a * subP (4 * b) x) (8 * g * g)
    z := 2 * u.y * u.z % p256 }

/-- The sum of two points. -/
def CurvePoint.add (u v : CurvePoint) : CurvePoint :=
  if u.z = 0 then v
  else if v.z = 0 then u
  else
    let zu := u.z * u.z % p256
    let zv := v.z * v.z % p256
    let xu := u.x * zv % p256
    let yu := u.y * zv * v.z % p256
    let h := subP (v.x * zu) xu
    let r := subP (v.y * zu * u.z) yu
    if h = 0 then (if r = 0 then u.double else ⟨1, 1, 0⟩)
    else
      let h2 := h * h % p256
      let h3 := h2 * h % p256
      let x := subP (subP (r * r) h3) (2 * xu * h2)
      { x := x
        y := subP (r * subP (xu * h2) x) (yu * h3)
        z := u.z * v.z * h % p256 }

/-- k times a point, over the n low bits of k. -/
def CurvePoint.times (u : CurvePoint) : Nat → Nat → CurvePoint
  | 0, _ => ⟨1, 1, 0⟩
  | n + 1, k =>
    let r := (u.times n (k / 2)).double
    if k % 2 = 1 then r.add u else r

/-- The coordinate x of a point that is not at infinity. -/
def CurvePoint.affineX (u : CurvePoint) : Nat := u.x * invMod p256 (u.z * u.z) % p256

/-- The coordinate y of a point that is not at infinity. -/
def CurvePoint.affineY (u : CurvePoint) : Nat := u.y * invMod p256 (u.z * u.z % p256 * u.z) % p256

/-- The public key of a secret number: the coordinates of its multiple of the base point, two big-endian numbers (FIPS 186-5). -/
def publicKey (key : Nat) : List Byte :=
  let q := p256Base.times 256 (key % p256Order)
  beBytes 32 q.affineX ++ beBytes 32 q.affineY

/-- Coordinates of a point of the curve (FIPS 186-5). -/
def onCurve (x y : Nat) : Bool :=
  x < p256 && y < p256 && y * y % p256 = (x * x * x + p256B + (3 * p256 - 3 * x)) % p256

/-- The signature (r, s) of a digest verifies under a public key (FIPS 186-5). -/
def ecdsaVerifies (keyX keyY : Nat) (digest : List Byte) (r s : Nat) : Bool :=
  if !onCurve keyX keyY || r = 0 || s = 0 || p256Order ≤ r || p256Order ≤ s then false
  else
    let w := invMod p256Order s
    let u := (p256Base.times 256 (beNat digest * w % p256Order)).add
      (CurvePoint.times ⟨keyX, keyY, 1⟩ 256 (r * w % p256Order))
    u.z ≠ 0 && u.affineX % p256Order = r

/-- The signature of a digest with the secret numbers of a key and of this signature: r and s (FIPS 186-5). -/
def ecdsaSign (key nonce : Nat) (digest : List Byte) : List Byte :=
  let r := (p256Base.times 256 (nonce % p256Order)).affineX % p256Order
  beBytes 32 r ++ beBytes 32 (invMod p256Order nonce * (beNat digest + r * key) % p256Order)

end Sys2Proof.Machine
end

