-- ==== Sys2Proof/Machine/Imports.lean ====
section
/-! DEFINITION. What a device does with the flits that reach it: import windows and reduce packets, requests of other devices
at its home die cache, and the responses and acknowledgements of its own (R202, R297, R339, R340, R348, R349). -/

namespace Sys2Proof.Machine

/-! ## Import windows -/

/-- An import slot. -/
def State.importSlot (s : State) (n : Nat) : Option ImportSlot := Table.get none s.imports n

/-- A dropped packet is acknowledged with an error and logged (R348). -/
def State.dropPacket (s : State) (pkt : ReducePacket) : State :=
  State.logRas (s.queueFlit pkt.device (.reduceAck pkt.device pkt false)) .uncorrectable
    (BitVec.ofNat 16 ((s.route pkt.device).getD 0)) pkt.page 0

/-- The 4 KiB pages that a packet's additions reach. -/
def packetPages (pkt : ReducePacket) : List Nat :=
  dedup (pkt.adds.flatMap fun a => match a with
    | .int addr _ _ => [addr.toNat / 4096]
    | .cell addr next _ => addr.toNat / 4096 :: if addr.toNat % 4096 + 48 ≤ 4096 then [] else [next.toNat / 4096])

/-- A page through a slot's tables, as a store of the job that its PT_ROOT names (R348). -/
def State.importFate (s : State) (slot : ImportSlot) (page : Nat) : Fate :=
  if !canonical (page * 4096) || inWindows (page * 4096) then .forbidden
  else Access.limits .reduce (s.leafFate .store false (page * 4096) (s.walkFrom (page * 4096) 4 (rootOf slot.ptRoot)))

/-- The physical address of an address whose page has a place. -/
def physicalIn (places : List (Nat × Nat)) (a : Word) : Word :=
  BitVec.ofNat 64 ((((places.find? (fun e => e.1 = a.toNat / 4096)).map (·.2)).getD 0) + a.toNat % 4096)

/-- An addition at its physical address. -/
def reduceAt (places : List (Nat × Nat)) (a : ReduceAdd) : ReduceAdd :=
  match a with
  | .int addr bytes v => .int (physicalIn places addr) bytes v
  | .cell addr next u => .cell (physicalIn places addr) (physicalIn places next) u

/-- The walker of an import slot, as the sender of what it reads in other devices' memories. -/
def State.importer (s : State) (n : Nat) : Sender :=
  { device := s.devid.toNat, job := 0, core := n, agent := walkAgent importAgent }

/-- What the walks for a packet read in other devices' memories (R339, R348). -/
def State.importAsks (s : State) (slot : ImportSlot) (pkt : ReducePacket) : List Question :=
  ((packetPages pkt).filter fun pg => canonical (pg * 4096) && !inWindows (pg * 4096)).flatMap fun pg =>
    (s.walkAsks (pg * 4096) 4 (rootOf slot.ptRoot)).map entryAsk

/-- A packet whose walks have read what they need: passed to the near-memory reduce unit, held with its pages reported, or
dropped. `no` is its place among the arrivals (R297, R348). One that reaches a missing and a forbidden page is dropped at once: the
model's choice (log 84). -/
def State.importWalked (s : State) (n : Nat) (slot : ImportSlot) (pkt : ReducePacket) (no : Nat) : State :=
  let fates := (packetPages pkt).map fun pg => (pg, s.importFate slot pg)
  let missing := (fates.filter fun e => e.2 = .missing).map fun e => BitVec.ofNat 64 (e.1 * 4096)
  if fates.any (fun e => e.2 = .forbidden) then s.dropPacket pkt
  else if missing ≠ [] then
    State.reportPages { s with heldPkts := s.heldPkts ++ [{ slot := n, packet := pkt, no := no }] } 0 n 3 pkt.device
      (asidOf slot.ptRoot) missing
  else
    let places := fates.map fun e => (e.1, match e.2 with
      | .at_ _ a => a
      | _ => 0)
    let r : Reduce := {
      sent := pkt
      adds := pkt.adds.map (reduceAt places)
      page := (physicalIn places pkt.page).toNat
      interval := 0
      no := no
      vpages := packetPages pkt
      slot := some (n, asidOf slot.ptRoot) }
    { s with nmrQ := s.nmrQ ++ [r] }

/-- A packet that matched a slot: it is held while its walks wait for other devices, and dropped where these no longer answer
(R339, R348). -/
def State.importPacket (s : State) (n : Nat) (slot : ImportSlot) (pkt : ReducePacket) (no : Nat) : State :=
  match s.walkStep (s.importer n) fun s => s.importAsks slot pkt with
  | .ready t => t.importWalked n slot pkt no
  | .waits t => { t with heldPkts := t.heldPkts ++ [{ slot := n, packet := pkt, no := no }] }
  | .lost => s.dropPacket pkt

/-- A slot whose window holds an address, lowest first (R348). -/
def State.matchSlot (s : State) (a : Word) : Option (Nat × ImportSlot) :=
  (List.range 16).findSome? fun n =>
    match s.importSlot n with
    | some w => if (a - w.base).toNat < w.len then some (n, w) else none
    | none => none

/-- The receiving col die takes a reduce packet (R348). -/
def State.takePacket (s : State) (pkt : ReducePacket) : State :=
  match s.matchSlot pkt.page with
  | some (n, w) => s.takeNumber.importPacket n w pkt s.askId
  | none => s.dropPacket pkt

/-- Held packets that a test takes are taken again, or dropped (R348). -/
def State.takeAgain (s : State) (n : Nat) (mapped : Bool) (test : HeldPacket → Bool) : State :=
  let (hit, other) := s.heldPkts.partition fun e => e.slot = n && test e
  hit.foldl (fun (s : State) e =>
      match mapped, s.importSlot n with
      | true, some w => s.importPacket n w e.packet e.no
      | _, _ => s.dropPacket e.packet)
    { s with heldPkts := other }

/-- Answer a page of an import slot: its packets are taken again, or dropped (R348). -/
def State.answerSlot (s : State) (n : Nat) (page : Word) (mapped : Bool) : State :=
  s.takeAgain n mapped fun e => (packetPages e.packet).contains (page.toNat / 4096)

/-- A held packet waits for an answer of the host. -/
def State.awaitsHost (s : State) (e : HeldPacket) : Bool :=
  (packetPages e.packet).any fun pg => s.merger.outstanding.contains (0, e.slot, BitVec.ofNat 64 (pg * 4096))

/-! ## Requests of other devices -/

/-- Where bytes at an address of device memory lie: those beyond its 4 KiB page follow at `next` (R138, R202, R339). -/
def devicePieces (a next len : Nat) : List Piece :=
  let n := Nat.min len (4096 - a % 4096)
  let head : Piece := { space := .device, addr := a, len := n }
  if len ≤ n then [head] else [head, { space := .device, addr := next, len := len - n }]

/-- The write of a read-modify-write over some pieces (R287, R295). -/
def State.rmwPieces (s : State) (job : BitVec 64) (sync : Release) (ps : List Piece) (bs : List Byte) : State :=
  (ps.foldl (fun (acc : State × List Byte) (q : Piece) =>
    (acc.1.rmwStore job sync q.space q.addr (acc.2.take q.len), acc.2.drop q.len)) (s, bs)).1

/-- What a request writes, from the old bytes as a number; none where it writes nothing (R199 to R201, R339). -/
def remoteWrites (op : RemoteOp) (bytes old : Nat) : Option Nat :=
  match op with
  | .load | .lr | .sc _ => none
  | .amo o v => some (amoOp o (8 * bytes) old v)
  | .cas bits expected new => if old % 2 ^ bits = expected then some new else none
  | .cell u => some (cellAdd old u)

/-- A release of a sender on another device. -/
def releaseFrom (src : Sender) (r : Release) : Release := { r with device := src.device }

/-- The releases of a sender's job that some bytes carry, by the number of the byte, as the sender's device has them (R295). -/
def State.syncsFor (s : State) (src : Sender) (ps : List Piece) : List (Nat × Release) :=
  (ps.flatMap fun q => (List.range q.len).map fun i => (q.space, q.addr + i)).zipIdx.flatMap fun (at_, i) =>
    (s.syncs.filter fun e => e.1 = at_ && e.2.1 = src.job && e.2.2.device = src.device).map fun e =>
      (i, { e.2.2 with device := 0 })

/-- The reservation is that of a control hart of another device. -/
def Resv.of (r : Resv) (src : Sender) : Bool := r.device = src.device && r.job = src.job && r.core = src.core

/-- A load-reserved of another device's control hart: its reservation stands at this device too (R90, R284; log 12). -/
def State.reserveFor (s : State) (src : Sender) (ps : List Piece) : State :=
  let new : List Resv := ps.map fun q =>
    { device := src.device, job := src.job, core := src.core, space := q.space, addr := q.addr, size := q.len }
  { s with resvs := new ++ s.resvs.filter fun r => !r.of src }

/-- A store-conditional of another device's control hart: whether its reservation still stands, and the state after it (R90, R284;
log 12). -/
def State.storeFor (s : State) (src : Sender) (ps : List Piece) (bs : List Byte) (sync : Release) : State × Bool :=
  let holds := ps.all fun q => s.resvs.any fun r =>
    r.of src && r.space = q.space && r.addr ≤ q.addr && q.addr + q.len ≤ r.addr + r.size
  let t := { s with resvs := s.resvs.filter fun r => !r.of src }
  (if holds then t.rmwPieces src.job sync ps bs else t, holds)

/-- A request is performed at the home die cache, as one single-copy atomic access, and answered with the old bytes and the
releases that they carried; a store-conditional answers whether it stored (R284, R295, R339). -/
def State.serve (s : State) (src : Sender) (id a next len : Nat) (op : RemoteOp) (sync : Release) : State :=
  let ps := devicePieces a next len
  let old := s.readPieces ps
  let r : State × List Byte := match op with
    | .lr => (s.reserveFor src ps, old)
    | .sc v =>
      let x := s.storeFor src ps (leBytes len v) (releaseFrom src sync)
      (x.1, leBytes len (if x.2 then 1 else 0))
    | op =>
      match remoteWrites op len (leNat old) with
      | none => (s, old)
      | some v => (s.rmwPieces src.job (releaseFrom src sync) ps (leBytes len v), old)
  r.1.queueFlit src.device (.response src.device src s.devid.toNat id r.2 (s.syncsFor src ps))

/-- A posted write of another device takes effect: one segment as a whole, with its key and its release (R284, R295, R339). -/
def State.takeWrite (s : State) (src : Sender) (a next : Nat) (data : List Byte) (key : Option Key) (sync : Release) : State :=
  let ps := devicePieces a next data.length
  if ps.any fun q => Config.deviceBytes < q.addr + q.len then s
  else storePieces src (key.map fun k => { k with device := src.device }) (releaseFrom src sync) ps data s

/-- A response reaches the access that asked; a unit on several devices that has its last answer is read whole (R194, R284, R339). -/
def State.answerAsk (s : State) (src : Sender) (id : Nat) (data : List Byte) (syncs : List (Nat × Release)) : State :=
  { s with flights := s.flights.map fun f =>
      if f.source = src then
        let g : Flight :=
          { f with asks := f.asks.map fun a => if a.id = id then { a with answer := some (data, syncs) } else a }
        g.readHere s.pieceBytes
      else f }

/-- A response that completes the walks of an import slot: packets that wait for them are taken again, and a shoot-down may have
waited for them (R344, R348). -/
def State.walkAnswered (s : State) (src : Sender) : State :=
  if src = s.importer src.core && (s.flight src).any Flight.landed
  then (s.takeAgain src.core true fun e => !s.awaitsHost e).settleShoot else s

/-- The import slots with a packet that waits for walks which no longer wait for any device: what they waited for is cut off
(R348, R352). -/
def State.strandedSlots (s : State) : List Nat :=
  (List.range 16).filter fun n =>
    s.heldPkts.any (fun e => e.slot = n && !s.awaitsHost e) && (s.flight (s.importer n)).isNone

/-- Packets whose walks another device can no longer answer are taken again, and so dropped (R348, R352). -/
def State.retakeStranded (s : State) : State :=
  (s.strandedSlots.foldl (fun (t : State) n => t.takeAgain n true fun e => !t.awaitsHost e) s).settleShoot

/-- A reduce of this device has been acknowledged; an error is logged and ends its job (R288, R348). -/
def State.reduceAcked (s : State) (pkt : ReducePacket) (ok : Bool) : State :=
  match s.remoteQ.find? fun r => r.2 = pkt with
  | none => s
  | some r =>
    let t := { s with remoteQ := s.remoteQ.erase r }
    if ok then t
    else (t.logRas .uncorrectable (BitVec.ofNat 16 ((s.route r.1).getD 0)) pkt.page pkt.job).endJob pkt.job .uncorrectable
      false 0

/-! ## Accepted loads -/

/-- A write of this device to another is acknowledged: the oldest of its agent to that device (R290, R297). -/
def State.writeAcked (s : State) (src : Sender) (device : Nat) : State :=
  { s with postedQ := s.postedQ.eraseP fun e => e.device = device && e.source = src }

/-- What an accepted load does: it is forwarded by its target's route, or takes effect here (R297, R339, R348, R349). A device
of number 0 accepts no fabric traffic (R340). -/
def State.acceptLoad (s : State) (l : FlitLoad) : State :=
  if s.devid = 0 then s
  else match flitTarget l with
    | none => s
    | some n =>
      if n ≠ s.devid.toNat then s.sendFlit n l
      else match l with
        | .write _ src a next data key sync => (s.takeWrite src a next data key sync).queueFlit src.device (.writeAck src.device src n)
        | .writeAck _ src device => (s.writeAcked src device).acknowledged src.job
        | .request _ src id a next len op sync => s.serve src id a next len op sync
        | .response _ src _ id data syncs => ((s.answerAsk src id data syncs).walkAnswered src).acknowledged src.job
        | .reduce _ pkt => s.takePacket pkt
        | .reduceAck _ pkt ok => (s.reduceAcked pkt ok).acknowledged pkt.job
        | .part _ _ _ _ => s
        | .idle => s

/-- A reduce of a device for this one is not applied yet. -/
def State.reduceWaits (s : State) (device : Nat) : Bool :=
  s.nmrQ.any (fun r => r.sent.device = device) || s.heldPkts.any fun e => e.packet.device = device

/-- A packet of a device is held for a walk that waits for other devices. -/
def State.walkHolds (s : State) (device : Nat) : Bool := s.heldPkts.any fun e => e.packet.device = device && !s.awaitsHost e

/-- A reduce of a device comes before an answer to a walk of an import slot: one that is applied without that answer, being no release
behind a packet that is held for a walk, or one that the host has to answer (R297, R348; log 46). -/
def State.reduceFirst (s : State) (device : Nat) : Bool :=
  s.nmrQ.any (fun r => r.sent.device = device
      && !(r.sent.release && s.heldPkts.any fun e => e.packet.device = device && !s.awaitsHost e && e.no < r.no))
    || s.heldPkts.any fun e => e.packet.device = device && s.awaitsHost e

/-- A load that has arrived must wait: a reduce for this device while the hold buffer is full, a write, a request or a response
while a reduce of the same device is not applied, and what follows one on its port from the same device. An answer to a walk for
a held packet passes only what may wait for it: packets of that device that are held for a walk, and what waits behind them or for
room (R297, R348; log 46). -/
def State.waitsForRoom (s : State) (p : Nat) (l : FlitLoad) : Bool :=
  let here := flitTarget l = some s.devid.toNat
  let behind := (s.port p).inbox.any fun e => flitSource e = flitSource l
  here && match l with
    | .reduce _ _ => s.holdFull || behind
    | .write _ src _ _ _ _ _ => s.reduceWaits src.device || behind
    | .request _ src _ _ _ _ _ _ => s.reduceWaits src.device || behind
    | .response _ src device _ _ _ =>
      if src.agent = walkAgent importAgent then s.reduceFirst device || (behind && !s.walkHolds device && !s.holdFull)
      else s.reduceWaits device || behind
    | l => (flitSource l).isSome && behind

/-- A load that port p has accepted takes effect, or waits. -/
def State.takeLoad (s : State) (p : Nat) (l : FlitLoad) : State :=
  if s.waitsForRoom p l then s.setPort p { s.port p with inbox := (s.port p).inbox ++ [l] } else s.acceptLoad l

/-- Packets whose walks are cut off are dropped, and loads that waited at their ports are taken, port by port in the order of arrival
(R297, R348). -/
def State.takeHeldBack (s : State) : State :=
  ((List.range 18).foldl (fun t p =>
    let loads := (t.port p).inbox
    if loads = [] then t else loads.foldl (fun t l => t.takeLoad p l) (t.setPort p { t.port p with inbox := [] })) s.retakeStranded).settlePorts

end Sys2Proof.Machine
end

