-- ==== Sys2Proof/Machine/Mailbox.lean ====
section
/-! DEFINITION. The mailbox commands (R343 to R348, R355 to R358, R360). -/

namespace Sys2Proof.Machine

/-- The status codes of R343 and R356. -/
def mbBusy : BitVec 8 := 1
/-- UNKNOWN. -/
def mbUnknown : BitVec 8 := 2
/-- STALE. -/
def mbStale : BitVec 8 := 3
/-- BAD_ARG. -/
def mbBadArg : BitVec 8 := 4
/-- BAD_OP. -/
def mbBadOp : BitVec 8 := 5
/-- BAD_SIG. -/
def mbBadSig : BitVec 8 := 6
/-- ROLLBACK. -/
def mbRollback : BitVec 8 := 7

/-- A command that recovery serves (R358). -/
def servedInRecovery (op : Nat) : Bool := 16 ≤ op && op ≤ 22

/-- A failure of step 1, 2 or 3 leaves no mailbox to the host (R358). -/
def State.mailboxLost (s : State) : Bool :=
  s.startRec.any fun e => e.step ≤ 3 && (e.result = .failed || e.result = .held)

/-- The mailbox takes commands: the device is active and started, and has a mailbox (R343, R358, R363). -/
def State.mailboxRuns (s : State) : Bool := s.mbox.go && s.power = 0 && !s.starting && !s.mailboxLost

/-- Run command `op` when GO names it and the part serves it (R343, R358; log 7). -/
def State.mailbox (s : State) (op : Nat) (k : State → Res) : Res :=
  if s.mailboxRuns && s.mbox.op.toNat = op && (!s.recovery || servedInRecovery op) then k s else .next s

/-- A command that completes at once. -/
def State.answered (s : State) (status : BitVec 8) : Res := .next (s.mailboxDone status)

/-! ## Jobs -/

/-- `RETIRE` (R68, R344). -/
def execRetire (s : State) : Res :=
  s.mailbox 1 fun s =>
    match s.job s.mbox.arg0 with
    | none => s.answered mbUnknown
    | some j =>
      if j.isDone then
        State.answered { s with jobs := s.jobs.filter fun j => j.record.id ≠ s.mbox.arg0 } 0
      else s.answered mbBusy

/-- Cancel a job that has not completed: at once when it is not placed or its halt has reached the boundary, else at the
boundary of its halt (R345). -/
def State.cancelJob (s : State) (j : Job) : State :=
  let id := j.record.id
  let mark (s : State) : State := s.mapJob id fun j => { j with ending := some .cancelled }
  match j.state with
  | .placed => mark (s.haltJob id)
  | .halting => if s.allHalted j then s.endJob id .cancelled false 0 else mark s
  | _ => s.endJob id .cancelled false 0

/-- `CANCEL` (R344, R345). A job that has stopped and only awaits acknowledgements has not completed, so the command answers OK, and
the job keeps the STATUS with which it stopped: the model's choice (log 79). -/
def execCancel (s : State) : Res :=
  s.mailbox 2 fun s =>
    match s.job s.mbox.arg0 with
    | none => s.answered mbUnknown
    | some j => if j.isDone then s.answered mbUnknown else (s.cancelJob j).answered 0

/-! ## Answers -/

/-- A strand, HELD or not, that still stands TRAPPED with XLATE is resumed, or its cause becomes ACCESS (R192). -/
def Strand.hostAnswer (st : Strand) (mapped : Bool) : Strand :=
  let trapped := st.st = .trapped || (st.st = .held && st.heldSt = .trapped)
  if !trapped || st.rec0.toNat % 2 ^ 8 ≠ Cause.xlate.code then st
  else if !mapped then { st with rec0 := st.rec0 + 1 }
  else if st.st = .held then
    let u := { st with st := .trapped }.kresume
    { u with st := .held, heldSt := u.st }
  else st.kresume

/-- Change logical core t of a job, on its core or in its saved context. -/
def State.mapTeamCore (s : State) (j : Job) (t : Nat) (f : Core → Core) : State :=
  if j.state = .placed || j.state = .halting then
    match j.cores[t]? with
    | some p => s.setCore p (f (s.core p))
    | none => s
  else s.mapJob j.record.id fun j => { j with saved := j.saved.zipIdx.map fun (c, i) => if i = t then f c else c }

/-- The commands of a core that wait for a page: with the page mapped they wait for the others, and with the page unmappable
they are abandoned. INFO of their trap is then the base of that page, and not the first byte that the command had left there: the model's
choice (log 77). The number bounds them (R281). -/
def Core.answerCopies (c : Core) (page : Word) (mapped : Bool) : Nat → Core
  | 0 => c
  | n + 1 =>
    match c.copies[n]? with
    | none => c.answerCopies page mapped n
    | some cp =>
      if !cp.awaiting.contains page then c.answerCopies page mapped n
      else if mapped then
        Core.answerCopies { c with copies := c.copies.set n { cp with awaiting := cp.awaiting.filter (· ≠ page) } } page mapped n
      else (c.abandon n page (cp.rowAt (page.toNat / 4096))).answerCopies page mapped n

/-- The records that list a page of the job; mapped, one without further pages resumes its strand (R192). -/
def State.answerReports (s : State) (j : Job) (page : Word) (mapped : Bool) : State :=
  let id := j.record.id
  let (hit, other) := s.merger.open_.partition fun r => r.job = id && r.pages.contains page
  let less := hit.map fun r => { r with pages := r.pages.filter (· ≠ page) }
  let settled := less.filter fun r => !mapped || r.pages = []
  let stay := if mapped then less.filter fun r => r.pages ≠ [] else []
  settled.foldl (fun s r => s.mapTeamCore j r.core fun c => c.setStrand r.strand ((c.strand r.strand).hostAnswer mapped))
    { s with merger := { s.merger with open_ := other ++ stay } }

/-- The held stores of a strand that wait for a page: with the page mapped they go on, and with the page unmappable they are
dropped and the strand takes the access violation (R281; log 56). -/
def Strand.answerHeld (st : Strand) (page : Word) (mapped : Bool) : Strand :=
  let hit (h : Held) : Bool := h.awaiting && h.page = page.toNat / 4096
  if mapped then { st with storeQ := st.storeQ.map fun h => if hit h then { h with awaiting := false } else h }
  else
    let lost := st.storeQ.filter hit
    { st with
      storeQ := st.storeQ.filter fun h => !lost.any fun g => g.no = h.no && g.pc = h.pc
      abandoned := st.abandoned ++ (lost.take 1).map fun h =>
        { pc := h.pc, blk := h.blk, addr := BitVec.ofNat 64 h.va, row := 0 } }

/-- What a core's engine and its store queue awaited of a page (R281; log 56). -/
def Core.answerPage (c : Core) (page : Word) (mapped : Bool) : Core :=
  let d := c.answerCopies page mapped c.copies.length
  { d with strands := d.strands.map fun (k, st) => (k, st.answerHeld page mapped) }

/-- Answer a page of a job (R192, R281). -/
def State.answerJob (s : State) (j : Job) (page : Word) (mapped : Bool) : State :=
  (List.range j.record.team).foldl (fun s t => s.mapTeamCore j t fun c => c.answerPage page mapped)
    (s.answerReports j page mapped)

/-- `ANSWER` (R192, R281, R344, R348). -/
def execAnswer (s : State) : Res :=
  s.mailbox 3 fun s =>
    let m := s.mbox
    if 1 < m.arg2.toNat || (m.arg0 = 0 && 15 < m.arg3.toNat) || (m.arg0 ≠ 0 && m.arg3 ≠ 0) then s.answered mbBadArg
    else
      let key := (m.arg0, m.arg3.toNat, m.arg1)
      if !s.merger.outstanding.contains key then s.answered mbStale
      else
        let t := { s with merger := { s.merger with outstanding := s.merger.outstanding.filter (· ≠ key) } }
        let mapped := m.arg2 = 0
        let t := if m.arg0 = 0 then (t.answerSlot m.arg3.toNat m.arg1 mapped).takeHeldBack
          else match t.job m.arg0 with
            | some j => t.answerJob j m.arg1 mapped
            | none => t
        t.answered 0

/-- `SHOOT`: every core on which a job of the ASID is placed receives the shoot-down; the command is done when the last has
acknowledged, at once where there is none (R196, R330, R344). -/
def execShoot (s : State) : Res :=
  s.mailbox 4 fun s =>
    let m := s.mbox
    if 2 ^ 16 ≤ m.arg0.toNat then s.answered mbBadArg
    else if s.mbox.sent || s.cores.any (fun c => c.2.shoots ≠ []) then .next s
    else
      let h : Shoot := { asid := m.arg0.toNat, base := m.arg1, pages := m.arg2.toNat }
      let t := s.cores.foldl (fun s (p, c) =>
        match c.place with
        | some pl => if asidOf pl.ptRoot = h.asid then s.setCore p { c with shoots := [h] } else s
        | none => s) s
      .next (State.settleShoot { t with mbox := { t.mbox with sent := true } })

/-- `IMPORT` (R344, R348). -/
def execImport (s : State) : Res :=
  s.mailbox 5 fun s =>
    let m := s.mbox
    if 15 < m.arg0.toNat || m.arg1.toNat / 2 ^ 60 ≠ 0 || m.arg2.toNat % 4096 ≠ 0 || m.arg3.toNat % 4096 ≠ 0 || m.arg3 = 0
    then s.answered mbBadArg
    else if (s.importSlot m.arg0.toNat).isSome then s.answered mbBusy
    else
      let w : ImportSlot := { ptRoot := m.arg1, base := m.arg2, len := m.arg3.toNat }
      State.answered { s with imports := Table.set none s.imports m.arg0.toNat (some w) } 0

/-- `UNIMPORT`: once the packets that it let in are applied, and those whose walks wait for another device have got through them, those
still held without an answer of the host are dropped and the slot closes (R344, R348). A slot that is not open is answered with OK:
the model's choice (log 85). -/
def execUnimport (s : State) : Res :=
  s.mailbox 6 fun s =>
    let n := s.mbox.arg0.toNat
    if 15 < n then s.answered mbBadArg
    else
      let u := s.retakeStranded
      if u.nmrQ.any (fun r => r.slot.any fun e => e.1 = n) || u.heldPkts.any (fun e => e.slot = n && !u.awaitsHost e) then .next u
      else
        let (hit, other) := u.heldPkts.partition fun e => e.slot = n
        let t := { u with
          heldPkts := other
          imports := Table.set none u.imports n none
          merger := { u.merger with outstanding := u.merger.outstanding.filter fun e => !(e.1 = 0 && e.2.1 = n) } }
        (hit.foldl (fun s e => s.dropPacket e.packet) t).takeHeldBack.answered 0

/-! ## Packages -/

/-- `PKG_ADD`: the package at ARG0 of ARG1 bytes, whose content is `info`, becomes resident; its handle returns in ARG0
(R37, R344; log 14). -/
def execPkgAdd (info : PackageInfo) (s : State) : Res :=
  s.mailbox 7 fun s =>
    let h := s.nextHandle
    let p : Package := { handle := h, addr := s.mbox.arg0, size := s.mbox.arg1, info := info }
    State.answered { s with
      pkgs := s.pkgs ++ [p]
      nextHandle := h + 1
      mbox := { s.mbox with arg0 := h.setWidth 64 } } 0

/-- `PKG_DROP` (R344). -/
def execPkgDrop (s : State) : Res :=
  s.mailbox 8 fun s =>
    let h := s.mbox.arg0
    if 2 ^ 32 ≤ h.toNat then s.answered mbBadArg
    else if s.jobs.any (fun j => j.record.pkg = h.setWidth 32) then s.answered mbBusy
    else State.answered { s with pkgs := s.pkgs.filter fun p => p.handle ≠ h.setWidth 32 } 0

/-! ## Commands of the system management controller -/

/-- The 128-byte header of an image (R355). -/
def fwHeader (img : List Byte) : List Byte := img.take 128

/-- The root image that runs: the one that the part was delivered with until another was installed (R355; log 15). -/
def Firmware.rootRuns (f : Firmware) : List Byte := if f.rootImage = [] then Config.deliveredRoot else f.rootImage

/-- The service image that runs (R355; log 15). -/
def Firmware.serviceRuns (f : Firmware) : List Byte := if f.serviceImage = [] then Config.deliveredService else f.serviceImage

/-- The VERSION of the root image that runs, also where no start step has accepted it (R355, R356). -/
def Firmware.root (f : Firmware) : BitVec 32 := Config.imageVersion (fwHeader f.rootRuns)

/-- The VERSION of the service image that runs. -/
def Firmware.service (f : Firmware) : BitVec 32 := Config.imageVersion (fwHeader f.serviceRuns)

/-- `IDENTIFY` (R1, R356). -/
def execIdentify (s : State) : Res :=
  s.mailbox 16 fun s =>
    State.answered { s with mbox := { s.mbox with
      arg0 := if Config.moduleForm then 1 else 0
      arg1 := Config.serialNumber
      arg2 := s.fw.root.setWidth 64
      arg3 := s.fw.service.setWidth 64 } } 0

/-- Result codes of the start record (R358). -/
def StartResult.code (r : StartResult) : Nat :=
  match r with
  | .ok => 0 | .failed => 1 | .skipped => 2 | .alternate => 3 | .held => 4

/-- Entries of a start record by their codes (R358). -/
def startEntries (l : List StartEntry) : List (Nat × Nat × Nat × Nat) :=
  l.map fun e => (e.step, e.unit, e.result.code, e.cause.toNat)

/-- Bytes of host memory (R339). -/
def State.hostBytes (s : State) (a : Word) (n : Nat) : List Byte := s.peek .host (a.toNat % 2 ^ 52) n

/-- The device writes bytes into host memory. -/
def State.writeHost (s : State) (a : Word) (bs : List Byte) : State :=
  let o := a.toNat % 2 ^ 52
  (s.put .host o bs).unkey .host o bs.length

/-- The four measurements: the two firmware images, the capability masks and pricking tables in physical order, and the start
record as this start left it (R357). -/
def State.measurements (s : State) : List (List Byte) :=
  [s.fw.rootRuns, s.fw.serviceRuns,
    Config.maskBytes ((List.range Config.cores).map fun p => ((s.core p).capMask, (s.core p).prick)),
    Config.startRecordImage (startEntries s.startLeft)].map sha256

/-- An SPDM error response: its code and its data. The codes and the layouts of messages are those of SPDM 1.3 (log 15). -/
def spdmError (code data : Byte) : List Byte := [0x13, 0x7F, code, data]

/-- The error response for an unsupported request (R4, R357). -/
def spdmUnsupported (request : List Byte) : List Byte := spdmError 0x07 (request.getD 1 0)

/-- The error response for an invalid request. -/
def spdmInvalid : List Byte := spdmError 0x01 0

/-- An algorithm structure names something else than ECDSA on P-256: its type, its count and what it supports (R357). -/
def structureOther (l : List Byte) : Bool :=
  (l.getD 1 0).toNat % 16 ≠ 0 || !(leNat ((l.drop 2).take 2) = 0 || (l.getD 0 0 = 4 && leNat ((l.drop 2).take 2) = 0x10))

/-- A NEGOTIATE_ALGORITHMS request names an algorithm other than ECDSA on P-256 and SHA-256, in its base fields or in one of its
algorithm structures, whose number Param1 is (R4, R357). -/
def namesOther (request : List Byte) : Bool :=
  leNat ((request.drop 8).take 4) ≠ 0x10 || leNat ((request.drop 12).take 4) ≠ 1 || request.getD 28 0 ≠ 0
    || request.getD 29 0 ≠ 0 || (List.range (request.getD 2 0).toNat).any fun i => structureOther (request.drop (32 + 4 * i))

/-- CAPABILITIES: certificates, challenges and measurements with signatures, and nothing else; messages of up to 4 KiB (R4, R356,
R357). -/
def spdmCapabilities : List Byte :=
  [0x13, 0x61, 0, 0, 0, Config.spdmTimeout, 0, 0] ++ leBytes 4 0x16 ++ leBytes 4 4096 ++ leBytes 4 4096

/-- ALGORITHMS: ECDSA on P-256 and SHA-256 (R357). -/
def spdmAlgorithms : List Byte :=
  [0x13, 0x63, 0, 0] ++ leBytes 2 36 ++ [1, 0] ++ leBytes 4 2 ++ leBytes 4 0x10 ++ leBytes 4 1 ++ leBytes 16 0

/-- A measurement block: its index, the DMTF form, and a digest (R357). -/
def measurementBlock (index : Nat) (digest : List Byte) : List Byte :=
  leBytes 1 index ++ [1] ++ leBytes 2 35 ++ [Config.measurementType index] ++ leBytes 2 32 ++ digest

/-- The measurement blocks by their indices (R357). -/
def State.measurementBlocks (s : State) : List (Nat × List Byte) :=
  s.measurements.zipIdx.map fun (d, i) => (i + 1, measurementBlock (i + 1) d)

/-- What signed responses end with: the nonce, a digest of measurements where one is asked for, no opaque data, and the context
of the requester. -/
def spdmTail (tick : Nat) (summary context : List Byte) : List Byte :=
  leBytes 32 (Config.spdmNonce tick).toNat ++ summary ++ leBytes 2 0 ++ context

/-- The characters of a text. -/
def textBytes (t : String) : List Byte := t.toList.map fun c => BitVec.ofNat 8 c.toNat

/-- The signature of a transcript by the identity key: over the prefix of SPDM 1.3, which names what is signed in its last 36 bytes,
and the digest of the transcript (R4, R357; log 15). -/
def spdmSignature (tick : Nat) (purpose : String) (transcript : List Byte) : List Byte :=
  let version := textBytes "dmtf-spdm-v1.3.*"
  let name := textBytes purpose
  let message := version ++ version ++ version ++ version ++ List.replicate (36 - name.length) 0 ++ name ++ sha256 transcript
  ecdsaSign Config.identityKey (Config.signatureNonce tick) (sha256 message)

/-- The certificate chain in slot 0: it ends in the certificate of the identity key, which holds that key's public point (R357; log
15). -/
def certificateChain : List Byte := Config.chainBefore ++ publicKey Config.identityKey ++ Config.chainAfter

/-- A response with what the device keeps of the attestation; an error response changes nothing of it. -/
def Attestation.answer (a : Attestation) (response : List Byte) (next : Attestation) : List Byte × Attestation :=
  (response, if response.getD 1 0 = 0x7F then a else next)

/-- MEASUREMENTS: their number for operation 0, all of them for 0xFF, and one by its index; signed with the key of slot 0 where the
request says so, over the negotiation and every measurement since the last signature (R357). -/
def State.spdmMeasurements (s : State) (request : List Byte) : List Byte × Attestation :=
  let a := s.attest
  let op := (request.getD 3 0).toNat
  let signed := (request.getD 2 0).getLsbD 0
  let blocks := s.measurementBlocks
  let chosen := if op = 0xFF then blocks else blocks.filter fun b => b.1 = op
  if (op ≠ 0 && chosen = []) || (signed && (request.getD 36 0).toNat % 16 ≠ 0) then (spdmInvalid, a)
  else
    let record := chosen.flatMap (·.2)
    let context := (request.drop (if signed then 37 else 4)).take 8
    let body := [0x13, 0x60] ++ leBytes 1 (if op = 0 then blocks.length else 0) ++ [0] ++ leBytes 1 chosen.length
      ++ leBytes 3 record.length ++ record ++ spdmTail s.tick [] context
    let heard := a.measured ++ request ++ body
    if signed then
      (body ++ spdmSignature s.tick "responder-measurements signing" (a.setup ++ heard), { a with certs := [], measured := [] })
    else (body, { a with certs := [], measured := heard })

/-- CERTIFICATE: a portion of the chain in slot 0, which is the only one (R357). -/
def spdmCertificate (request : List Byte) : List Byte :=
  let rest := certificateChain.drop (leNat ((request.drop 4).take 2))
  let part := rest.take (leNat ((request.drop 6).take 2))
  if (request.getD 2 0).toNat % 16 ≠ 0 then spdmInvalid
  else [0x13, 0x02, 0, 0] ++ leBytes 2 part.length ++ leBytes 2 (rest.length - part.length) ++ part

/-- CHALLENGE_AUTH for the chain in slot 0, signed over the negotiation and the certificates that were read (R357). -/
def State.spdmChallenge (s : State) (request : List Byte) : List Byte :=
  let summary := if request.getD 3 0 = 0 then [] else sha256 (s.measurementBlocks.flatMap Prod.snd)
  if (request.getD 2 0).toNat % 16 ≠ 0 then spdmInvalid
  else
    let body := [0x13, 0x03, 0, 1] ++ sha256 certificateChain ++ spdmTail s.tick summary ((request.drop 36).take 8)
    body ++ spdmSignature s.tick "responder-challenge_auth signing" (s.attest.setup ++ s.attest.certs ++ request ++ body)

/-- A request comes in its order: a version at any time, then the capabilities, then the algorithms, then the others. -/
def Attestation.expects (a : Attestation) (code : Nat) : Bool :=
  match code with
  | 0x84 => true
  | 0xE1 => a.phase = 1
  | 0xE3 => a.phase = 2
  | _ => a.phase = 3

/-- The requests that the device serves: the measurement, certificate and challenge flows with what sets them up (R4, R357). -/
def spdmServed (code : Nat) : Bool := (0x81 ≤ code && code ≤ 0x84) || code = 0xE0 || code = 0xE1 || code = 0xE3

/-- The response to an SPDM message: that of its flow, an error response for a request of another version of SPDM or out of its
order, and the error response for an unsupported request to every other one (R4, R357; log 15). -/
def State.spdmAnswer (s : State) (request : List Byte) : List Byte × Attestation :=
  let a := s.attest
  let code := (request.getD 1 0).toNat
  let setup (phase : Nat) (r : List Byte) : List Byte × Attestation :=
    a.answer r { phase := phase, setup := a.setup ++ request ++ r, certs := [], measured := [] }
  let certs (r : List Byte) : List Byte × Attestation := a.answer r { a with certs := a.certs ++ request ++ r, measured := [] }
  if request.getD 0 0 ≠ (if code = 0x84 then 0x10 else 0x13) then (spdmError 0x41 0, a)
  else if !spdmServed code then (spdmUnsupported request, a)
  else if !a.expects code then (spdmError 0x04 0, a)
  else match code with
    | 0x84 =>
      let r : List Byte := [0x10, 0x04, 0, 0, 0, 1, 0, 0x13]
      (r, { phase := 1, setup := request ++ r, certs := [], measured := [] })
    | 0xE1 => setup 2 spdmCapabilities
    | 0xE3 => setup 3 (if namesOther request then spdmUnsupported request else spdmAlgorithms)
    | 0x81 => certs ([0x13, 0x01, 1, 1] ++ sha256 certificateChain)
    | 0x82 => certs (spdmCertificate request)
    | 0x83 => a.answer (s.spdmChallenge request) { a with certs := [], measured := [] }
    | _ => s.spdmMeasurements request

/-- `SPDM`: one message and its response (R356, R357). -/
def execSpdm (s : State) : Res :=
  s.mailbox 17 fun s =>
    let m := s.mbox
    let n := m.arg1.toNat
    let (answer, attest) := s.spdmAnswer (s.hostBytes m.arg0 n)
    if n = 0 || 4096 < n || m.arg3.toNat < answer.length then s.answered mbBadArg
    else
      let t := s.writeHost m.arg2 answer
      State.answered { t with attest := attest, mbox := { t.mbox with arg1 := BitVec.ofNat 64 answer.length } } 0

/-- `FW_STAGE` (R356). -/
def execFwStage (s : State) : Res :=
  s.mailbox 18 fun s =>
    if 0x800000 < s.mbox.arg1.toNat then s.answered mbBadArg
    else State.answered { s with fw := { s.fw with staged := some (s.hostBytes s.mbox.arg0 s.mbox.arg1.toNat) } } 0

/-- The digest that is fused at manufacture: that of the verifying key (R355). -/
def fusedDigest : List Byte := sha256 Config.verifyingKey

/-- An image holds a header and a body of its SIZE, the verifying key is the fused one, and the signature in the last 64 bytes of
the header verifies over the first 64 and the body (R355, log 15). -/
def imageGenuine (img : List Byte) : Bool :=
  let h := fwHeader img
  let key := Config.verifyingKey
  img.length = 128 + Config.imageSize h && sha256 key = fusedDigest
    && ecdsaVerifies (beNat (key.take 32)) (beNat (key.drop 32)) (sha256 (h.take 64 ++ img.drop 128))
      (beNat ((h.drop 64).take 32)) (beNat (h.drop 96))

/-- The minimum VERSION of a KIND: the greatest that was accepted, and the image that runs was, at the latest by the start before
State.reset (R355; log 2, log 15). -/
def Firmware.minimum (f : Firmware) (root : Bool) : Nat :=
  if root then Nat.max f.minRoot.toNat f.root.toNat else Nat.max f.minService.toNat f.service.toNat

/-- An image of a KIND is accepted: its signature verifies, and its VERSION is at least the minimum (R355). -/
def Firmware.accepts (f : Firmware) (root : Bool) (img : List Byte) : Bool :=
  imageGenuine img && Config.imageRoot (fwHeader img) == root
    && decide (f.minimum root ≤ (Config.imageVersion (fwHeader img)).toNat)

/-- An accepted image runs: its VERSION is the minimum of its KIND (R355, R358). -/
def Firmware.took (f : Firmware) (root : Bool) (img : List Byte) : Firmware :=
  let v := Config.imageVersion (fwHeader img)
  if root then { f with minRoot := v } else { f with minService := v }

/-- `FW_COMMIT`: an accepted image raises its minimum VERSION and is installed for the next start (R355, R356). -/
def execFwCommit (s : State) : Res :=
  s.mailbox 19 fun s =>
    match s.fw.staged with
    | none => s.answered mbBadSig
    | some img =>
      let v := Config.imageVersion (fwHeader img)
      if !imageGenuine img then s.answered mbBadSig
      else if Config.imageRoot (fwHeader img) then
        if v.toNat < s.fw.minimum true then s.answered mbRollback
        else State.answered { s with fw := { s.fw with minRoot := v, nextRootImage := img } } 0
      else if v.toNat < s.fw.minimum false then s.answered mbRollback
      else State.answered { s with fw := { s.fw with minService := v, nextServiceImage := img } } 0

/-- `RECORD`: the start record, at most the 4 KiB that the least capacity holds (R356, R358; log 15). -/
def execRecord (s : State) : Res :=
  s.mailbox 20 fun s =>
    if s.mbox.arg1.toNat < 4096 then s.answered mbBadArg
    else (s.writeHost s.mbox.arg0 ((Config.startRecordImage (startEntries s.startRec)).take 4096)).answered 0

/-- `RECORD_CLEAR` (R356, R358). -/
def execRecordClear (s : State) : Res :=
  s.mailbox 21 fun s =>
    let m := s.mbox
    State.answered { s with startRec := s.startRec.filter fun e =>
      !(m.arg0.toNat = e.step && (m.arg1 = 0xFFFF || m.arg1.toNat = e.unit)) } 0

/-- The images installed run from now on, those that the part was delivered with where none is (R355, R356). -/
def Firmware.installed (f : Firmware) : Firmware :=
  { f with staged := none, rootImage := f.nextRootImage, serviceImage := f.nextServiceImage }

/-- The part restarts: what always-on storage and the host hold stays, everything else is as after reset, and the start steps
are to run; after the fifth restart the part is held in recovery instead (R355, R358, R361). -/
def State.restarted (s : State) : State :=
  let held := 5 ≤ s.restarts + 1
  State.applyFences { State.reset with
    hostMem := s.hostMem
    msix := s.msix
    remotes := s.remotes
    fences := s.fences
    startRec := s.startRec
    startLeft := s.startRec
    restarts := s.restarts + 1
    recovery := held
    starting := !held
    fw := s.fw.installed
    agenda := s.agenda
    tick := s.tick }

/-- `RESTART` (R356, R358). -/
def execRestart (s : State) : Res :=
  s.mailbox 22 fun s => if s.jobs ≠ [] then s.answered mbBusy else .next s.restarted

/-- `FENCE` (R356, R360, R361). -/
def execFenceCommand (s : State) : Res :=
  s.mailbox 23 fun s =>
    let p := s.mbox.arg0.toNat
    let cls := s.mbox.arg1.toNat
    if Config.cores ≤ p || !classBit cls then s.answered mbBadArg
    else (s.fence p cls).answered 0

/-- OP values that no command has, or that recovery does not serve (R344, R356, R358). -/
def badOp (recovery : Bool) (op : Nat) : Bool :=
  op = 0 || (9 ≤ op && op ≤ 15) || 24 ≤ op || (recovery && !servedInRecovery op)

/-- A mailbox GO with an OP value that names no command (R344, R356). -/
def execMailboxBadOp (s : State) : Res :=
  if s.mailboxRuns && badOp s.recovery s.mbox.op.toNat then s.answered mbBadOp else .next s

end Sys2Proof.Machine
end

