-- ==== Sys2Proof/Machine/Links.lean ====
section
/-! DEFINITION. Link traffic: receiving flits, changing widths, and applying reduce packets at the stacks (R18, R202, R297,
R348 to R352). -/

namespace Sys2Proof.Machine

/-! ## Receiving flits -/

/-- Flits acknowledged by a sequence number leave the replay buffer, oldest first (R349). -/
def dropAcked (ack : BitVec 12) (fs : List Flit) : List Flit :=
  if fs.any (fun f => f.seq = ack) then (fs.dropWhile fun f => f.seq ≠ ack).drop 1 else fs

/-- `FLIT_RECEIVE`: a flit whose CRC fails is asked for again; of another the acknowledgement frees the replay buffer, and one in
sequence is accepted with the credits that it returns, where a duplicate is discarded (R349). -/
def execFlitReceive (port : Nat) (flit : Flit) (s : State) : Res :=
  let q := s.port port
  if 18 ≤ port || q.st ≠ .up then .next s
  else if !flit.crcOk then .next (s.pushFlit port (waitingFlit true .idle)).settlePorts
  else
    let fresh := flit.seq = q.recvSeq
    let kept := dropAcked flit.ack q.replay
    let t := s.setPort port { q with
      replay := kept
      used := if fresh then subCredits q.used flit.credits else q.used
      owed := if fresh then addCredits q.owed (flitCredit flit.load) else q.owed
      replays := if flit.nak then q.replays + BitVec.ofNat 32 kept.length else q.replays
      recvSeq := if fresh then q.recvSeq + 1 else q.recvSeq }
    .next (if fresh then (t.takeLoad port flit.load).takeHeldBack else t.settlePorts)

/-- `REDUCE_PACKET_RECEIVE`: the receiving col die takes a reduce packet, behind what waits for room from its sender (R297,
R340, R348). -/
def execReducePacketReceive (pkt : ReducePacket) (s : State) : Res :=
  if s.devid = 0 || s.holdFull || (List.range 18).any (fun p => s.waitsForRoom p (.reduce s.devid.toNat pkt)) then .next s
  else .next (s.takePacket pkt).settlePorts

/-! ## Applying reduces -/

/-- One addition at a near-memory reduce unit (R138, R202). A wide cell on two 4 KiB units, and so on two stacks (R16), is
added whole by the unit of its first byte: the model's choice (log 59). -/
def State.applyAdd (s : State) (job : BitVec 64) (sync : Release) (a : ReduceAdd) : State :=
  match a with
  | .int addr bytes v =>
    let old := leNat (s.peek .device addr.toNat bytes)
    s.rmwStore job sync .device addr.toNat (leBytes bytes ((old + v) % 2 ^ (8 * bytes)))
  | .cell addr next u =>
    let ps := devicePieces addr.toNat next.toNat 48
    let bs := leBytes 48 (cellAdd (leNat (s.readPieces ps)) u)
    s.rmwPieces job sync ps bs

/-- An earlier packet of the sender of a packet is not applied: one on its way to a unit, or one that an import window holds
(R297). -/
def State.reduceBefore (s : State) (r : Reduce) : Bool :=
  s.nmrQ.any (fun q => q.sent.device = r.sent.device && q.no < r.no)
    || s.heldPkts.any fun e => e.packet.device = r.sent.device && e.no < r.no

/-- The first packet of a stack that may be applied: one with a release follows the earlier packets of its sender (R16,
R297). -/
def State.nextReduce (s : State) (stack : Nat) : List Reduce → List Reduce → Option (List Reduce × Reduce × List Reduce)
  | _, [] => none
  | before, r :: rest =>
    if r.page / 4096 % 8 = stack && !(r.sent.release && s.reduceBefore r) then some (before, r, rest)
    else s.nextReduce stack (before ++ [r]) rest

/-- `NMR_REDUCE_APPLY`: the near-memory reduce unit of a stack applies a packet as a whole; a packet of another device is
acknowledged, what waited behind it goes on, and a shoot-down may have waited for it (R18, R202, R288, R297, R344, R348). -/
def execNmrReduceApply (stack : Nat) (s : State) : Res :=
  match s.nextReduce stack [] s.nmrQ with
  | none => .next s
  | some (before, r, rest) =>
    let pkt := r.sent
    let sync : Release := if pkt.device = 0 then pkt.sync else { pkt.sync with device := pkt.device }
    let t := r.adds.foldl (fun s a => s.applyAdd pkt.job sync a) { s with nmrQ := before ++ rest }
    if pkt.device = 0 then .next t
    else .next (t.queueFlit pkt.device (.reduceAck pkt.device pkt true)).takeHeldBack.settleShoot

/-! ## Widths -/

/-- `LINK_WIDTH_CHANGE`: a port that is UP stops sending and retrains at the requested width (R350, R351). -/
def execLinkWidthChange (port width : Nat) (s : State) : Res :=
  let q := s.port port
  if 18 ≤ port || q.st ≠ .up || width = 0 || 3 < width then .next s
  else .next (s.setPort port { q with st := .retraining, fails := 0, tryWidth := width })

/-- A port goes DOWN: its routes lose VALID, what it held is discarded with its jobs, packets whose walks went by it are dropped,
and the event is logged (R348, R352, R366). -/
def State.portDown (s : State) (p : Nat) : State :=
  let routes := (List.range 64).foldl (fun r n =>
    let v := Table.get 0 s.routes n
    if v.toNat % 32 = p then Table.set 0 r n (v &&& 0x1F) else r) s.routes
  let t := { s with routes := routes }
  let q := t.port p
  ((t.setPort p { q with st := .down, width := 0 }).logRas .linkDown (BitVec.ofNat 16 p) 0 0).settlePorts.takeHeldBack

/-- `RETRAIN_ATTEMPT_END`: on success the port replays what is not acknowledged and goes on; a failure tries the next
narrower width, and the third leaves the port DOWN (R351, R352). -/
def execRetrainAttemptEnd (port : Nat) (ok : Bool) (s : State) : Res :=
  let q := s.port port
  if 18 ≤ port || q.st ≠ .retraining then .next s
  else if ok then
    .next (s.setPort port { q with
      st := .up
      width := q.tryWidth
      fails := 0
      sheds := if q.width = q.tryWidth then q.sheds else q.sheds + 1
      replays := q.replays + BitVec.ofNat 32 q.replay.length }).settlePorts
  else if 2 ≤ q.fails then .next (s.portDown port)
  else .next (s.setPort port { q with fails := q.fails + 1, tryWidth := Nat.max 1 (q.tryWidth - 1) })

end Sys2Proof.Machine
end

