-- ==== Sys2Proof/Machine/SystemEvents.lean ====
section
/-! DEFINITION. The system management controller: starts, in-field tests, fences, power, lane groups, errors and the RAS log
(R143, R354, R358 to R366). -/

namespace Sys2Proof.Machine

/-! ## The start -/

/-- The steps of a start and the number of their units (R12, R14, R15, R358). -/
def startSteps : List (Nat × Nat) := [(1, 1), (2, 1), (3, 1), (4, 8), (5, 6), (6, 192), (7, 18), (8, 1)]

/-- Kinds of start steps (R358). -/
inductive StepKind where
  | mandatory | degradable | optional
  deriving DecidableEq, Repr

/-- The kind of a step (R358). -/
def stepKind (step : Nat) : StepKind := if step ≤ 3 then .mandatory else if step ≤ 6 then .degradable else .optional

/-- How a start takes a unit, by its kind and the entry it finds (R358). -/
inductive UnitFate where
  | normal | alternate | skip | hold
  deriving DecidableEq, Repr

/-- The fate of a unit (R358). -/
def unitFate (kind : StepKind) (e : Option StartEntry) : UnitFate :=
  match e with
  | none => .normal
  | some e =>
    match e.result, kind with
    | .ok, _ => .normal
    | .held, _ => .hold
    | .skipped, _ => .skip
    | .alternate, _ => .alternate
    | .failed, .mandatory => .hold
    | .failed, .degradable => if e.again then .hold else .alternate
    | .failed, .optional => .skip

/-- Replace the entry of a unit. -/
def putEntry (e : StartEntry) : List StartEntry → List StartEntry
  | [] => [e]
  | f :: l => if f.step = e.step && f.unit = e.unit then e :: l else f :: putEntry e l

/-- The entry of a unit. -/
def State.startEntry (s : State) (step unit : Nat) : Option StartEntry :=
  s.startRec.find? fun e => e.step = step && e.unit = unit

/-- Write the entry of a unit (R358). -/
def State.record (s : State) (step unit : Nat) (r : StartResult) (cause : BitVec 16) (again : Bool) : State :=
  { s with startRec := putEntry { step := step, unit := unit, result := r, cause := cause, again := again } s.startRec }

/-- The outcome of a unit: the given one, or a pass. -/
def testOf (units : List UnitTest) (step unit : Nat) : UnitTest :=
  (units.find? fun u => u.step = step && u.unit = unit).getD
    { step := step, unit := unit, ok := true, cause := 0, failClass := 0, failLanes := 0, failSpad := 0, width := 0, peer := 0 }

/-- The classes of a mask. -/
def classList (w : Word) : List Nat := (List.range 64).filter fun b => w.getLsbD b && classBit b

/-- A core as its self-test left it: stored fences clear its classes, and lane groups, pricking and scratchpad bytes are what
passed (R22, R143, R358, R359). -/
def Core.tested (c : Core) (fenced : Word) (u : UnitTest) : Core :=
  let usable := 0xF &&& ~~~ u.failLanes
  { c with
    capMask := allClasses &&& ~~~ fenced &&& (if usable = 0 then ~~~ laneClasses else ~~~ 0)
    usable := usable
    prick := prickOf usable
    spadUsable := Config.spadBytes - 0x10000 * u.failSpad }

/-- What a unit that passes leaves: an image's VERSION as the minimum, a core's masks, a port that is UP (R350, R355, R358). A core
whose entry was cleared and that passes loses its stored fences (R361); one in its ALTERNATE way fences its failing classes. A port
trains within one step, so that no read shows it TRAINING: the model's choice (log 86). -/
def State.unitPassed (s : State) (u : UnitTest) (cleared alternate : Bool) : State :=
  if u.step = 1 then { s with fw := s.fw.took true s.fw.rootRuns }
  else if u.step = 2 then { s with fw := s.fw.took false s.fw.serviceRuns }
  else if u.step = 6 then
    let p := u.unit
    let failed := if alternate then classList u.failClass else []
    let fences := (if cleared then s.fences.filter fun e => e.1 ≠ p else s.fences)
    let t := { s with fences := fences ++ (failed.filter fun b => !fences.contains (p, b)).map fun b => (p, b) }
    let t := t.setCore p ((t.core p).tested (t.fencedClasses p) (if alternate then u else { u with failLanes := 0 }))
    failed.foldl (fun s b => s.logRas .fence (BitVec.ofNat 16 p) (BitVec.ofNat 64 b) 0) t
  else if u.step = 7 then
    s.setPort u.unit { s.port u.unit with
      st := .up
      width := Nat.max 1 (Nat.min 3 u.width)
      peer := u.peer
      used := ⟨0, 0, 0⟩
      owed := ⟨0, 0, 0⟩ }
  else s

/-- The firmware image that a step of a start verifies is accepted (R355, R358). -/
def State.verifies (s : State) (step : Nat) : Bool :=
  match step with
  | 1 => s.fw.accepts true s.fw.rootRuns
  | 2 => s.fw.accepts false s.fw.serviceRuns
  | _ => true

/-- One unit of a start: the state, and whether the start goes on. An image that is not accepted fails its step (R355, R358). -/
def State.startUnit (s : State) (u : UnitTest) : State × Bool :=
  let u := { u with ok := u.ok && s.verifies u.step }
  let old := s.startEntry u.step u.unit
  let cause := (old.map StartEntry.cause).getD 0
  match unitFate (stepKind u.step) old with
  | .hold => ({ s.record u.step u.unit .held cause false with recovery := true, starting := false }, false)
  | .skip => (s.record u.step u.unit .skipped cause false, true)
  | .normal =>
    if u.ok then ((s.unitPassed u old.isNone false).record u.step u.unit .ok 0 false, true)
    else ((s.record u.step u.unit .failed u.cause false).restarted, false)
  | .alternate =>
    if u.ok then ((s.unitPassed u false true).record u.step u.unit .alternate cause false, true)
    else ((s.record u.step u.unit .failed u.cause true).restarted, false)

/-- The units of a start in order, until one ends it (R358). The first failing unit ends the start, and the units behind it in its step
do not run: the model's choice (log 45). -/
def State.startUnits (s : State) (units : List UnitTest) : List (Nat × Nat) → State
  | [] => { s with starting := false }
  | (step, unit) :: rest =>
    let r := s.startUnit (testOf units step unit)
    if r.2 then r.1.startUnits units rest else r.1

/-- The start record as a start leaves it is kept for the measurement (R357). -/
def State.keepRecord (s : State) : State := { s with startLeft := s.startRec }

/-- Every unit of every step, in order. -/
def allUnits : List (Nat × Nat) := startSteps.flatMap fun (step, n) => (List.range n).map fun u => (step, u)

/-- `PART_START`: the start steps of a part that restarts (R358). -/
def execPartStart (units : List UnitTest) (s : State) : Res :=
  if s.starting then .next (s.startUnits units allUnits).keepRecord else .next s

/-! ## Tests and fences -/

/-- A core and a class that exist (R14, R63). -/
def fenceable (p cls : Nat) : Bool := p < Config.cores && classBit cls

/-- `IN_FIELD_TEST`: a core that holds no job is withheld; the test on a withheld core then runs and ends. A mismatch at nominal
voltage that at least two of three reruns repeat becomes a fence; one at reduced voltage narrows the core's voltage margin by a step
and fences nothing (R360; log 48). -/
def execInFieldTest (p cls : Nat) (run : FieldTest) (s : State) : Res :=
  let c := s.core p
  if !fenceable p cls || c.place.isSome then .next s
  else if !c.withheld then .next (s.setCore p { c with withheld := true })
  else
    let t := s.setCore p { c with withheld := false, margin := c.margin + if run.mismatch && run.reduced then 1 else 0 }
    let again := (if run.rerun0 then 1 else 0) + (if run.rerun1 then 1 else 0) + if run.rerun2 then 1 else 0
    if run.mismatch && !run.reduced && 2 ≤ again then .next (t.fence p cls) else .next t

/-- `CLASS_FENCE` (R77, R361). -/
def execClassFence (p cls : Nat) (s : State) : Res := if fenceable p cls then .next (s.fence p cls) else .next s

/-- `LANE_GROUP_RETIRE`: a mapped physical lane group is retired and the spare takes its logical number; a core left without
groups loses its vector, matrix and clause classes, and waiting jobs that no set of cores covers any longer complete (R22, R77,
R89, R143). That loss is no fence: it is neither stored nor logged, and a job placed on the core stays placed and meets the FENCED
trap where it uses such a class: the model's choice (log 47). -/
def execLaneGroupRetire (p g : Nat) (s : State) : Res :=
  let c := s.core p
  if Config.cores ≤ p || !c.prick.contains g then .next s
  else
    let usable := c.usable &&& ~~~ BitVec.ofNat 4 (2 ^ g)
    let t := s.setCore p { c with usable := usable, prick := retirePrick usable c.prick g }
    let u := t.clearClass p laneClasses
    .next (if usable = 0 then u.dropUncovered (u.jobs.length + 1) else t)

/-! ## Power -/

/-- Fence every class of every core of a die whose fence is not stored and in force yet (R361, R364). -/
def State.fenceDie (s : State) (d : Nat) : State :=
  ((List.range 48).map (48 * d + ·)).foldl (fun s p =>
    (classList (allClasses &&& (~~~ s.fencedClasses p ||| (s.core p).capMask))).foldl (fun s b => s.fence p b) s) s

/-- `PHASE_LOSS`: die d's rail is left with n working phases; with fewer than 8 the die is fenced (R364, R366). -/
def execPhaseLoss (die phases : Nat) (s : State) : Res :=
  if 4 ≤ die || Table.get 16 s.phases die ≤ phases then .next s
  else
    let t := State.logRas { s with phases := Table.set 16 s.phases die phases, derated := true } .derating
      (BitVec.ofNat 16 die) 0 0
    .next (if phases < 8 then t.fenceDie die else t)

/-- `THROTTLE_STEP`: one measure, or one undone, in the order of R364. -/
def execThrottleStep (lower : Bool) (s : State) : Res :=
  if lower then
    if 875 < s.mhz.toNat then .next { s with mhz := s.mhz - 25 }
    else .next { s with alccap := Nat.min 2 (s.alccap + 1) }
  else if 0 < s.alccap then .next { s with alccap := s.alccap - 1 }
  else if s.mhz.toNat < 1750 then .next { s with mhz := s.mhz + 25 }
  else .next s

/-- No job is placed, no ring holds an unread record, and no mailbox command runs (R363). -/
def State.idle (s : State) : Bool :=
  !s.anyPlaced && !s.mbox.go && (List.range 8).all fun c => (s.queue c).prod = (s.queue c).cons

/-- Link traffic: flits that wait, or that are not acknowledged, and packets of other devices (R363; log 57). -/
def State.linkTraffic (s : State) : Bool :=
  s.nmrQ ≠ [] || s.heldPkts ≠ [] || s.ports.any fun e => e.2.queue ≠ [] || e.2.replay ≠ [] || e.2.inbox ≠ []

/-- The deepest power state whose exit latency is at most LATTOL (R363). -/
def deepestState (ns : Nat) : Nat := if 200000 ≤ ns then 3 else if 20000 ≤ ns then 2 else if 2000 ≤ ns then 1 else 0

/-- PSTAT.STATE changes; vector 3 announces it (R362, R366). -/
def State.setPower (s : State) (n : Nat) : State := if s.power = n then s else State.sendMsix { s with power := n } 3

/-- `POWER_STATE_ENTRY`; not while a doorbell has started the exit (R363). -/
def execPowerStateEntry (s : State) : Res :=
  if s.idle && !s.wake then .next (s.setPower (deepestState s.lattol.toNat)) else .next s

/-- `POWER_STATE_EXIT`: a PROD doorbell, a mailbox command or link traffic ends the state, also a doorbell that left no unread record
(R363; log 57). -/
def execPowerStateExit (s : State) : Res :=
  .next (if !s.idle || s.linkTraffic || s.wake then { s.setPower 0 with wake := false } else s)

/-- `LANE_GROUP_GATE`: timing only (R87, R363). -/
def execLaneGroupGate (p g : Nat) (s : State) : Res :=
  let c := s.core p
  if c.place.isSome && g < 4 then .next (s.setCore p { c with gated := c.gated ||| BitVec.ofNat 4 (2 ^ g) }) else .next s

/-- `LANE_GROUP_UNGATE`: timing only (R87, R363). -/
def execLaneGroupUngate (p g : Nat) (s : State) : Res :=
  let c := s.core p
  .next (s.setCore p { c with gated := c.gated &&& ~~~ BitVec.ofNat 4 (2 ^ g) })

/-! ## Errors -/

/-- `CORRECTED_ERROR`: a count, logged at each multiple of 1,024 (R365, R366). -/
def execCorrectedError (hbm : Bool) (unit : BitVec 16) (addr : BitVec 64) (s : State) : Res :=
  let n := (if hbm then s.ceHbm else s.ceSram) + 1
  let t := if hbm then { s with ceHbm := n } else { s with ceSram := n }
  .next (if n.toNat % 1024 = 0 then t.logRas .corrected unit addr 0 else t)

/-- `UNCORRECTABLE_ERROR`: the job that consumed it completes with UNCORRECTABLE; without a job it is logged only (R70, R365,
R366). -/
def execUncorrectableError (job : BitVec 64) (unit : BitVec 16) (addr : BitVec 64) (s : State) : Res :=
  let t := s.logRas .uncorrectable unit addr job
  match t.job job with
  | some j => if j.state = .placed || j.state = .halting then .next (t.endJob job .uncorrectable false 0) else .next t
  | none => .next t

/-- `SANDBOX_VIOLATION`: a blocked access of the service firmware is logged (R354, R366). -/
def execSandboxViolation (unit : BitVec 16) (addr : BitVec 64) (s : State) : Res :=
  .next (s.logRas .sandbox unit addr 0)

/-- `STALLED_RAS_ENTRY_WRITE` (R366). -/
def execStalledRasEntryWrite (s : State) : Res := .next s.writeStalledRas

end Sys2Proof.Machine
end

