-- ==== Sys2Proof/Machine/Dispatch.lean ====
section
/-! DEFINITION. One arm for each row of the opcode table: the meaning of the instruction or event. -/

namespace Sys2Proof.Machine

def exec (i : Instr) (s : State) : Host.Outcome State Fault Refusal :=
  match i with
  | .add d a b => Sys2Proof.Machine.execAdd d a b s
  | .sub d a b => Sys2Proof.Machine.execSub d a b s
  | .and d a b => Sys2Proof.Machine.execAnd d a b s
  | .or d a b => Sys2Proof.Machine.execOr d a b s
  | .xor d a b => Sys2Proof.Machine.execXor d a b s
  | .andn d a b => Sys2Proof.Machine.execAndn d a b s
  | .sll d a b => Sys2Proof.Machine.execSll d a b s
  | .srl d a b => Sys2Proof.Machine.execSrl d a b s
  | .sra d a b => Sys2Proof.Machine.execSra d a b s
  | .slt d a b => Sys2Proof.Machine.execSlt d a b s
  | .sltu d a b => Sys2Proof.Machine.execSltu d a b s
  | .min d a b => Sys2Proof.Machine.execMin d a b s
  | .max d a b => Sys2Proof.Machine.execMax d a b s
  | .minu d a b => Sys2Proof.Machine.execMinu d a b s
  | .maxu d a b => Sys2Proof.Machine.execMaxu d a b s
  | .clz d a => Sys2Proof.Machine.execClz d a s
  | .ctz d a => Sys2Proof.Machine.execCtz d a s
  | .popc d a => Sys2Proof.Machine.execPopc d a s
  | .mul d a b => Sys2Proof.Machine.execMul d a b s
  | .bfx d a b => Sys2Proof.Machine.execBfx d a b s
  | .bfi d a b => Sys2Proof.Machine.execBfi d a b s
  | .fsh d a b h => Sys2Proof.Machine.execFsh d a b h s
  | .slli d a h => Sys2Proof.Machine.execSlli d a h s
  | .srli d a h => Sys2Proof.Machine.execSrli d a h s
  | .srai d a h => Sys2Proof.Machine.execSrai d a h s
  | .jalr d a b => Sys2Proof.Machine.execJalr d a b s
  | .lb d a b sc ordered => Sys2Proof.Machine.execLb d a b sc ordered s
  | .lh d a b sc ordered => Sys2Proof.Machine.execLh d a b sc ordered s
  | .lw d a b sc ordered => Sys2Proof.Machine.execLw d a b sc ordered s
  | .ld d a b sc ordered => Sys2Proof.Machine.execLd d a b sc ordered s
  | .lbu d a b sc ordered => Sys2Proof.Machine.execLbu d a b sc ordered s
  | .lhu d a b sc ordered => Sys2Proof.Machine.execLhu d a b sc ordered s
  | .lwu d a b sc ordered => Sys2Proof.Machine.execLwu d a b sc ordered s
  | .sb d a b sc ordered => Sys2Proof.Machine.execSb d a b sc ordered s
  | .sh d a b sc ordered => Sys2Proof.Machine.execSh d a b sc ordered s
  | .sw d a b sc ordered => Sys2Proof.Machine.execSw d a b sc ordered s
  | .sd d a b sc ordered => Sys2Proof.Machine.execSd d a b sc ordered s
  | .stop => Sys2Proof.Machine.execStop s
  | .go a => Sys2Proof.Machine.execGo a s
  | .signal a => Sys2Proof.Machine.execSignal a s
  | .vpost b c => Sys2Proof.Machine.execVpost b c s
  | .vtake d c => Sys2Proof.Machine.execVtake d c s
  | .addi d a imm => Sys2Proof.Machine.execAddi d a imm s
  | .andi d a imm => Sys2Proof.Machine.execAndi d a imm s
  | .ori d a imm => Sys2Proof.Machine.execOri d a imm s
  | .xori d a imm => Sys2Proof.Machine.execXori d a imm s
  | .slti d a imm => Sys2Proof.Machine.execSlti d a imm s
  | .sltiu d a imm => Sys2Proof.Machine.execSltiu d a imm s
  | .jal d o => Sys2Proof.Machine.execJal d o s
  | .lui d imm => Sys2Proof.Machine.execLui d imm s
  | .lpc d o => Sys2Proof.Machine.execLpc d o s
  | .beq a b o => Sys2Proof.Machine.execBeq a b o s
  | .bne a b o => Sys2Proof.Machine.execBne a b o s
  | .blt a b o => Sys2Proof.Machine.execBlt a b o s
  | .bge a b o => Sys2Proof.Machine.execBge a b o s
  | .bltu a b o => Sys2Proof.Machine.execBltu a b o s
  | .bgeu a b o => Sys2Proof.Machine.execBgeu a b o s
  | .vcfg g t => Sys2Proof.Machine.execVcfg g t s
  | .vgrp g => Sys2Proof.Machine.execVgrp g s
  | .vtag d t => Sys2Proof.Machine.execVtag d t s
  | .stripLt d a b w => Sys2Proof.Machine.execStripLt d a b w s
  | .stripLe d a b w => Sys2Proof.Machine.execStripLe d a b w s
  | .stripLtu d a b w => Sys2Proof.Machine.execStripLtu d a b w s
  | .stripLeu d a b w => Sys2Proof.Machine.execStripLeu d a b w s
  | .stripN d a w => Sys2Proof.Machine.execStripN d a w s
  | .vcmpEq d a b m chainA chainB => Sys2Proof.Machine.execVcmpEq d a b m chainA chainB s
  | .vcmpNe d a b m chainA chainB => Sys2Proof.Machine.execVcmpNe d a b m chainA chainB s
  | .vcmpLt d a b m chainA chainB => Sys2Proof.Machine.execVcmpLt d a b m chainA chainB s
  | .vcmpLe d a b m chainA chainB => Sys2Proof.Machine.execVcmpLe d a b m chainA chainB s
  | .vcmpGt d a b m chainA chainB => Sys2Proof.Machine.execVcmpGt d a b m chainA chainB s
  | .vcmpGe d a b m chainA chainB => Sys2Proof.Machine.execVcmpGe d a b m chainA chainB s
  | .mand d a b => Sys2Proof.Machine.execMand d a b s
  | .mor d a b => Sys2Proof.Machine.execMor d a b s
  | .mxor d a b => Sys2Proof.Machine.execMxor d a b s
  | .mandn d a b => Sys2Proof.Machine.execMandn d a b s
  | .mnot d a => Sys2Proof.Machine.execMnot d a s
  | .mmov d a => Sys2Proof.Machine.execMmov d a s
  | .mset d => Sys2Proof.Machine.execMset d s
  | .mclr d => Sys2Proof.Machine.execMclr d s
  | .mshl d a b => Sys2Proof.Machine.execMshl d a b s
  | .mshr d a b => Sys2Proof.Machine.execMshr d a b s
  | .mbrk d a => Sys2Proof.Machine.execMbrk d a s
  | .mcnt d a => Sys2Proof.Machine.execMcnt d a s
  | .mfirst d a => Sys2Proof.Machine.execMfirst d a s
  | .mlast d a => Sys2Proof.Machine.execMlast d a s
  | .mfromidx d a m chainA => Sys2Proof.Machine.execMfromidx d a m chainA s
  | .vadd d a b m chainA chainB => Sys2Proof.Machine.execVadd d a b m chainA chainB s
  | .vsub d a b m chainA chainB => Sys2Proof.Machine.execVsub d a b m chainA chainB s
  | .vadc d a b k chainA chainB => Sys2Proof.Machine.execVadc d a b k chainA chainB s
  | .vsbc d a b k chainA chainB => Sys2Proof.Machine.execVsbc d a b k chainA chainB s
  | .vmin d a b m chainA chainB => Sys2Proof.Machine.execVmin d a b m chainA chainB s
  | .vmax d a b m chainA chainB => Sys2Proof.Machine.execVmax d a b m chainA chainB s
  | .vminu d a b m chainA chainB => Sys2Proof.Machine.execVminu d a b m chainA chainB s
  | .vmaxu d a b m chainA chainB => Sys2Proof.Machine.execVmaxu d a b m chainA chainB s
  | .vsadd d a b m chainA chainB => Sys2Proof.Machine.execVsadd d a b m chainA chainB s
  | .vssub d a b m chainA chainB => Sys2Proof.Machine.execVssub d a b m chainA chainB s
  | .vabs d a m chainA => Sys2Proof.Machine.execVabs d a m chainA s
  | .vneg d a m chainA => Sys2Proof.Machine.execVneg d a m chainA s
  | .vand d a b m chainA chainB => Sys2Proof.Machine.execVand d a b m chainA chainB s
  | .vor d a b m chainA chainB => Sys2Proof.Machine.execVor d a b m chainA chainB s
  | .vxor d a b m chainA chainB => Sys2Proof.Machine.execVxor d a b m chainA chainB s
  | .vandn d a b m chainA chainB => Sys2Proof.Machine.execVandn d a b m chainA chainB s
  | .vnot d a m chainA => Sys2Proof.Machine.execVnot d a m chainA s
  | .vshl d a b m chainA chainB => Sys2Proof.Machine.execVshl d a b m chainA chainB s
  | .vshr d a b m chainA chainB => Sys2Proof.Machine.execVshr d a b m chainA chainB s
  | .vsra d a b m chainA chainB => Sys2Proof.Machine.execVsra d a b m chainA chainB s
  | .vrot d a b m chainA chainB => Sys2Proof.Machine.execVrot d a b m chainA chainB s
  | .vfsh d a b m chainA chainB => Sys2Proof.Machine.execVfsh d a b m chainA chainB s
  | .vmulh d a b m chainA chainB rm => Sys2Proof.Machine.execVmulh d a b m chainA chainB rm s
  | .vavg d a b m chainA chainB rm => Sys2Proof.Machine.execVavg d a b m chainA chainB rm s
  | .vmul d a b m chainA chainB => Sys2Proof.Machine.execVmul d a b m chainA chainB s
  | .vpopc d a m chainA => Sys2Proof.Machine.execVpopc d a m chainA s
  | .vclz d a m chainA => Sys2Proof.Machine.execVclz d a m chainA s
  | .vbfx d a b m chainA chainB => Sys2Proof.Machine.execVbfx d a b m chainA chainB s
  | .vbfi d a b m chainA chainB => Sys2Proof.Machine.execVbfi d a b m chainA chainB s
  | .vsel d a b m chainA chainB => Sys2Proof.Machine.execVsel d a b m chainA chainB s
  | .vdup d a m => Sys2Proof.Machine.execVdup d a m s
  | .viota d m => Sys2Proof.Machine.execViota d m s
  | .vmov d a m chainA => Sys2Proof.Machine.execVmov d a m chainA s
  | .vredsum d a b m chainA chainB => Sys2Proof.Machine.execVredsum d a b m chainA chainB s
  | .vredmin d a b m chainA chainB => Sys2Proof.Machine.execVredmin d a b m chainA chainB s
  | .vredmax d a b m chainA chainB => Sys2Proof.Machine.execVredmax d a b m chainA chainB s
  | .vredand d a b m chainA chainB => Sys2Proof.Machine.execVredand d a b m chainA chainB s
  | .vredor d a b m chainA chainB => Sys2Proof.Machine.execVredor d a b m chainA chainB s
  | .vredxor d a b m chainA chainB => Sys2Proof.Machine.execVredxor d a b m chainA chainB s
  | .vslup d a b m chainA => Sys2Proof.Machine.execVslup d a b m chainA s
  | .vsldn d a b m chainA => Sys2Proof.Machine.execVsldn d a b m chainA s
  | .vgath d a b m chainA chainB => Sys2Proof.Machine.execVgath d a b m chainA chainB s
  | .vcomp d a m chainA => Sys2Proof.Machine.execVcomp d a m chainA s
  | .vexpd d a m chainA => Sys2Proof.Machine.execVexpd d a m chainA s
  | .vzip d a b m chainA chainB => Sys2Proof.Machine.execVzip d a b m chainA chainB s
  | .vunzip d a b m chainA chainB => Sys2Proof.Machine.execVunzip d a b m chainA chainB s
  | .vrev d a m chainA => Sys2Proof.Machine.execVrev d a m chainA s
  | .vtopk d a b m chainA => Sys2Proof.Machine.execVtopk d a b m chainA s
  | .visect d a b m chainA chainB => Sys2Proof.Machine.execVisect d a b m chainA chainB s
  | .vconf d a m chainA => Sys2Proof.Machine.execVconf d a m chainA s
  | .vld d a m => Sys2Proof.Machine.execVld d a m s
  | .vst d b m chainB => Sys2Proof.Machine.execVst d b m chainB s
  | .vldff d a m => Sys2Proof.Machine.execVldff d a m s
  | .vpf a m => Sys2Proof.Machine.execVpf a m s
  | .vlds d a b m => Sys2Proof.Machine.execVlds d a b m s
  | .vsts d a b m chainB => Sys2Proof.Machine.execVsts d a b m chainB s
  | .vldx d a b m chainB => Sys2Proof.Machine.execVldx d a b m chainB s
  | .vstx d a b m chainA chainB => Sys2Proof.Machine.execVstx d a b m chainA chainB s
  | .vldseg d a m => Sys2Proof.Machine.execVldseg d a m s
  | .vstseg d b m chainB => Sys2Proof.Machine.execVstseg d b m chainB s
  | .vamoAdd d a b m chainA chainB => Sys2Proof.Machine.execVamoAdd d a b m chainA chainB s
  | .vamoMin d a b m chainA chainB => Sys2Proof.Machine.execVamoMin d a b m chainA chainB s
  | .vamoMax d a b m chainA chainB => Sys2Proof.Machine.execVamoMax d a b m chainA chainB s
  | .vamoAnd d a b m chainA chainB => Sys2Proof.Machine.execVamoAnd d a b m chainA chainB s
  | .vamoOr d a b m chainA chainB => Sys2Proof.Machine.execVamoOr d a b m chainA chainB s
  | .vamoXor d a b m chainA chainB => Sys2Proof.Machine.execVamoXor d a b m chainA chainB s
  | .vamoSwap d a b m chainA chainB => Sys2Proof.Machine.execVamoSwap d a b m chainA chainB s
  | .vcas d a b m chainA chainB => Sys2Proof.Machine.execVcas d a b m chainA chainB s
  | .vsca d a b m chainA chainB => Sys2Proof.Machine.execVsca d a b m chainA chainB s
  | .vfacc d a b m chainA chainB => Sys2Proof.Machine.execVfacc d a b m chainA chainB s
  | .vrred d a b m chainB => Sys2Proof.Machine.execVrred d a b m chainB s
  | .memoryAttributeWord sc od next => Sys2Proof.Machine.execMemoryAttributeWord sc od next s
  | .fence sc => Sys2Proof.Machine.execFence sc s
  | .convoy => Sys2Proof.Machine.execConvoy s
  | .fadd d a b m chainA chainB rm => Sys2Proof.Machine.execFadd d a b m chainA chainB rm s
  | .fsub d a b m chainA chainB rm => Sys2Proof.Machine.execFsub d a b m chainA chainB rm s
  | .fmul d a b m chainA chainB rm => Sys2Proof.Machine.execFmul d a b m chainA chainB rm s
  | .fma d a b m chainA chainB rm => Sys2Proof.Machine.execFma d a b m chainA chainB rm s
  | .fdiv d a b m chainA chainB rm => Sys2Proof.Machine.execFdiv d a b m chainA chainB rm s
  | .fsqrt d a m chainA rm => Sys2Proof.Machine.execFsqrt d a m chainA rm s
  | .fcvt d a m chainA rm => Sys2Proof.Machine.execFcvt d a m chainA rm s
  | .fround d a m chainA rm => Sys2Proof.Machine.execFround d a m chainA rm s
  | .fscale d a b m chainA chainB rm => Sys2Proof.Machine.execFscale d a b m chainA chainB rm s
  | .fspecExp2 d a m chainA rm => Sys2Proof.Machine.execFspecExp2 d a m chainA rm s
  | .fspecLog2 d a m chainA rm => Sys2Proof.Machine.execFspecLog2 d a m chainA rm s
  | .fspecRcp d a m chainA rm => Sys2Proof.Machine.execFspecRcp d a m chainA rm s
  | .fspecRsqrt d a m chainA rm => Sys2Proof.Machine.execFspecRsqrt d a m chainA rm s
  | .fspecTanh d a m chainA rm => Sys2Proof.Machine.execFspecTanh d a m chainA rm s
  | .fspecSigmoid d a m chainA rm => Sys2Proof.Machine.execFspecSigmoid d a m chainA rm s
  | .fmin d a b m chainA chainB => Sys2Proof.Machine.execFmin d a b m chainA chainB s
  | .fmax d a b m chainA chainB => Sys2Proof.Machine.execFmax d a b m chainA chainB s
  | .fabs d a m chainA => Sys2Proof.Machine.execFabs d a m chainA s
  | .fneg d a m chainA => Sys2Proof.Machine.execFneg d a m chainA s
  | .fredsum d a rm m chainA => Sys2Proof.Machine.execFredsum d a rm m chainA s
  | .fredmax d a m chainA => Sys2Proof.Machine.execFredmax d a m chainA s
  | .vblk d a rm m chainA => Sys2Proof.Machine.execVblk d a rm m chainA s
  | .vunblk d a rm m chainA => Sys2Proof.Machine.execVunblk d a rm m chainA s
  | .fcell d a rm m chainA => Sys2Proof.Machine.execFcell d a rm m chainA s
  | .mopa d a b chainA chainB => Sys2Proof.Machine.execMopa d a b chainA chainB s
  | .mopas d a b k chainA chainB => Sys2Proof.Machine.execMopas d a b k chainA chainB s
  | .mclzE0 d a b chainA chainB => Sys2Proof.Machine.execMclzE0 d a b chainA chainB s
  | .mclzE1 d a b chainA chainB => Sys2Proof.Machine.execMclzE1 d a b chainA chainB s
  | .mrnd d a b m rm => Sys2Proof.Machine.execMrnd d a b m rm s
  | .mshape a b => Sys2Proof.Machine.execMshape a b s
  | .manch d a => Sys2Proof.Machine.execManch d a s
  | .mzero d => Sys2Proof.Machine.execMzero d s
  | .mstat d a => Sys2Proof.Machine.execMstat d a s
  | .mrow d a b => Sys2Proof.Machine.execMrow d a b s
  | .mwrow d a b chainA => Sys2Proof.Machine.execMwrow d a b chainA s
  | .msave d a => Sys2Proof.Machine.execMsave d a s
  | .mload d a => Sys2Proof.Machine.execMload d a s
  | .cdraw d a m chainA => Sys2Proof.Machine.execCdraw d a m chainA s
  | .cprob d a b m chainA => Sys2Proof.Machine.execCprob d a b m chainA s
  | .cfb1 d a b m chainA chainB => Sys2Proof.Machine.execCfb1 d a b m chainA chainB s
  | .cfb2 d a b m chainA chainB => Sys2Proof.Machine.execCfb2 d a b m chainA chainB s
  | .cstep d a m chainA => Sys2Proof.Machine.execCstep d a m chainA s
  | .cadd d a m chainA => Sys2Proof.Machine.execCadd d a m chainA s
  | .xcp d a b sc od => Sys2Proof.Machine.execXcp d a b sc od s
  | .xcp2 d a b sc od => Sys2Proof.Machine.execXcp2 d a b sc od s
  | .xgat d a b sc od => Sys2Proof.Machine.execXgat d a b sc od s
  | .xpg d a b sc od => Sys2Proof.Machine.execXpg d a b sc od s
  | .bini a b sc od => Sys2Proof.Machine.execBini a b sc od s
  | .barr d a b sc od => Sys2Proof.Machine.execBarr d a b sc od s
  | .bexp d a b sc od => Sys2Proof.Machine.execBexp d a b sc od s
  | .bwait d a b sc od => Sys2Proof.Machine.execBwait d a b sc od s
  | .btest d a b sc od => Sys2Proof.Machine.execBtest d a b sc od s
  | .qini a b sc od => Sys2Proof.Machine.execQini a b sc od s
  | .qenq d a b sc od => Sys2Proof.Machine.execQenq d a b sc od s
  | .qdeq d a b sc od => Sys2Proof.Machine.execQdeq d a b sc od s
  | .scrr d n => Sys2Proof.Machine.execScrr d n s
  | .scrw a n => Sys2Proof.Machine.execScrw a n s
  | .trap n => Sys2Proof.Machine.execTrap n s
  | .tret => Sys2Proof.Machine.execTret s
  | .vsave a b => Sys2Proof.Machine.execVsave a b s
  | .vrest a b => Sys2Proof.Machine.execVrest a b s
  | .vdirty d a => Sys2Proof.Machine.execVdirty d a s
  | .rdtime d => Sys2Proof.Machine.execRdtime d s
  | .rdcyc d => Sys2Proof.Machine.execRdcyc d s
  | .cap d a => Sys2Proof.Machine.execCap d a s
  | .brk n => Sys2Proof.Machine.execBrk n s
  | .kbcast b a d => Sys2Proof.Machine.execKbcast b a d s
  | .kbcastw b a d => Sys2Proof.Machine.execKbcastw b a d s
  | .kgo b a d => Sys2Proof.Machine.execKgo b a d s
  | .kjoin a d => Sys2Proof.Machine.execKjoin a d s
  | .kwait a d => Sys2Proof.Machine.execKwait a d s
  | .ksget sel a d => Sys2Proof.Machine.execKsget sel a d s
  | .ksput sel b a => Sys2Proof.Machine.execKsput sel b a s
  | .kfarm b a d => Sys2Proof.Machine.execKfarm b a d s
  | .kresume a d => Sys2Proof.Machine.execKresume a d s
  | .kcfgExit a => Sys2Proof.Machine.execKcfgExit a s
  | .kcfgWdog a d => Sys2Proof.Machine.execKcfgWdog a d s
  | .kcfgFmtw b a d => Sys2Proof.Machine.execKcfgFmtw b a d s
  | .kcfgLclr a d => Sys2Proof.Machine.execKcfgLclr a d s
  | .controlHartInstruction imm compressed => Sys2Proof.Machine.execControlHartInstruction imm compressed s
  | .strandEventInterrupt p => Sys2Proof.Machine.execStrandEventInterrupt p s
  | .kpreWrite p v => Sys2Proof.Machine.execKpreWrite p v s
  | .preemptStop p k elems => Sys2Proof.Machine.execPreemptStop p k elems s
  | .watchdogExpiry p k => Sys2Proof.Machine.execWatchdogExpiry p k s
  | .blockStart p k => Sys2Proof.Machine.execBlockStart p k s
  | .issueStarvationPromotion p k => Sys2Proof.Machine.execIssueStarvationPromotion p k s
  | .memoryResponse p k => Sys2Proof.Machine.execMemoryResponse p k s
  | .signalLatch p k => Sys2Proof.Machine.execSignalLatch p k s
  | .vpostComplete p k => Sys2Proof.Machine.execVpostComplete p k s
  | .vtakeComplete p k => Sys2Proof.Machine.execVtakeComplete p k s
  | .bwaitReturn p k => Sys2Proof.Machine.execBwaitReturn p k s
  | .kjoinReturn p => Sys2Proof.Machine.execKjoinReturn p s
  | .kwaitReturn p => Sys2Proof.Machine.execKwaitReturn p s
  | .kbcastwDeliver p => Sys2Proof.Machine.execKbcastwDeliver p s
  | .fmtwApply p => Sys2Proof.Machine.execFmtwApply p s
  | .matrixStart p => Sys2Proof.Machine.execMatrixStart p s
  | .matrixComplete p => Sys2Proof.Machine.execMatrixComplete p s
  | .copyUnitWrite p => Sys2Proof.Machine.execCopyUnitWrite p s
  | .copyComplete p => Sys2Proof.Machine.execCopyComplete p s
  | .copyRetranslate p => Sys2Proof.Machine.execCopyRetranslate p s
  | .nmrReduceApply stack => Sys2Proof.Machine.execNmrReduceApply stack s
  | .reducePacketReceive pkt => Sys2Proof.Machine.execReducePacketReceive pkt s
  | .faultRecordMerge => Sys2Proof.Machine.execFaultRecordMerge s
  | .faultNotify job => Sys2Proof.Machine.execFaultNotify job s
  | .heldFaultEntryWrite => Sys2Proof.Machine.execHeldFaultEntryWrite s
  | .shootdownAck p stops => Sys2Proof.Machine.execShootdownAck p stops s
  | .recordRead c => Sys2Proof.Machine.execRecordRead c s
  | .jobPlace job => Sys2Proof.Machine.execJobPlace job s
  | .jobAging job => Sys2Proof.Machine.execJobAging job s
  | .headWaitExpiry => Sys2Proof.Machine.execHeadWaitExpiry s
  | .priorityPreempt => Sys2Proof.Machine.execPriorityPreempt s
  | .haltBoundary p stops => Sys2Proof.Machine.execHaltBoundary p stops s
  | .contextSaveDone job => Sys2Proof.Machine.execContextSaveDone job s
  | .coreFinish p => Sys2Proof.Machine.execCoreFinish p s
  | .undeliveredEntryWrite => Sys2Proof.Machine.execUndeliveredEntryWrite s
  | .prodWrite c v => Sys2Proof.Machine.execProdWrite c v s
  | .qctlWrite c v => Sys2Proof.Machine.execQctlWrite c v s
  | .fctlWrite v => Sys2Proof.Machine.execFctlWrite v s
  | .cctlWrite v => Sys2Proof.Machine.execCctlWrite v s
  | .plimitWrite v => Sys2Proof.Machine.execPlimitWrite v s
  | .registerWrite off v => Sys2Proof.Machine.execRegisterWrite off v s
  | .retire => Sys2Proof.Machine.execRetire s
  | .cancel => Sys2Proof.Machine.execCancel s
  | .answer => Sys2Proof.Machine.execAnswer s
  | .shoot => Sys2Proof.Machine.execShoot s
  | .import => Sys2Proof.Machine.execImport s
  | .unimport => Sys2Proof.Machine.execUnimport s
  | .pkgAdd info => Sys2Proof.Machine.execPkgAdd info s
  | .pkgDrop => Sys2Proof.Machine.execPkgDrop s
  | .identify => Sys2Proof.Machine.execIdentify s
  | .spdm => Sys2Proof.Machine.execSpdm s
  | .fwStage => Sys2Proof.Machine.execFwStage s
  | .fwCommit => Sys2Proof.Machine.execFwCommit s
  | .record => Sys2Proof.Machine.execRecord s
  | .recordClear => Sys2Proof.Machine.execRecordClear s
  | .restart => Sys2Proof.Machine.execRestart s
  | .fenceCommand => Sys2Proof.Machine.execFenceCommand s
  | .mailboxBadOp => Sys2Proof.Machine.execMailboxBadOp s
  | .hostMemAccess acc => Sys2Proof.Machine.execHostMemAccess acc s
  | .flitReceive port flit => Sys2Proof.Machine.execFlitReceive port flit s
  | .linkWidthChange port width => Sys2Proof.Machine.execLinkWidthChange port width s
  | .retrainAttemptEnd port ok => Sys2Proof.Machine.execRetrainAttemptEnd port ok s
  | .partStart units => Sys2Proof.Machine.execPartStart units s
  | .inFieldTest p cls run => Sys2Proof.Machine.execInFieldTest p cls run s
  | .classFence p cls => Sys2Proof.Machine.execClassFence p cls s
  | .phaseLoss die phases => Sys2Proof.Machine.execPhaseLoss die phases s
  | .throttleStep lower => Sys2Proof.Machine.execThrottleStep lower s
  | .powerStateEntry => Sys2Proof.Machine.execPowerStateEntry s
  | .powerStateExit => Sys2Proof.Machine.execPowerStateExit s
  | .laneGroupGate p g => Sys2Proof.Machine.execLaneGroupGate p g s
  | .laneGroupUngate p g => Sys2Proof.Machine.execLaneGroupUngate p g s
  | .correctedError hbm unit addr => Sys2Proof.Machine.execCorrectedError hbm unit addr s
  | .uncorrectableError job unit addr => Sys2Proof.Machine.execUncorrectableError job unit addr s
  | .sandboxViolation unit addr => Sys2Proof.Machine.execSandboxViolation unit addr s
  | .stalledRasEntryWrite => Sys2Proof.Machine.execStalledRasEntryWrite s
  | .illegalInstruction w => Sys2Proof.Machine.execIllegalInstruction w s
  | .laneGroupRetire p g => Sys2Proof.Machine.execLaneGroupRetire p g s

end Sys2Proof.Machine
end

