-- ==== Sys2Proof/Machine/Step.lean ====
section
/-! DEFINITION. One step: the agent whose turn it is executes one instruction, or one event happens; and how an
instruction is placed so that the next step runs it. -/

namespace Sys2Proof.Machine

/-- A fetched instruction executes; a word that is none takes the illegal-instruction trap (R57). -/
def Fetched.run (f : Fetched) : Res :=
  match f with
  | .instr i s => exec i s
  | .illegal w s => execIllegalInstruction w s
  | .stop r => r

/-- A strand goes on with an instruction that waits for other devices (R339); else it takes the trap of a copy command that its
engine abandoned, before what has not performed (R281), an implicit restore (R331), its instruction that has issued and waits (R130,
R272), or its next one. -/
def State.strandInstruction (s : State) : Res :=
  if (s.issued s.mySender).isNone && s.me.trapDue then .next s.abandonedTrap
  else if s.me.restore then s.implicitRestore
  else match s.underway with
    | some (i, u) => s.asIssued u (exec i)
    | none => s.strandFetch.run

/-- A strand's turn: a requested stop first (R318); an idle strand starts its first block (R79). -/
def State.strandTurn (s : State) (p k : Nat) : Res :=
  let s := s.at_ p k
  if s.strandRuns p k && (s.core p).halted then .next s
  else if s.strandRuns p k then
    if s.myCore.kpre.getLsbD k && s.stopsHere p k then execPreemptStop p k 0 s else s.strandInstruction
  else execBlockStart p k s

/-- The control hart's turn: an interrupt that is due first, whatever instruction waits (R93, R96, R99). `kcfg` FMTW waits in
the same way and starts afresh after `mret`, though R103 and R230 name only the halt: the model's choice (log 65). -/
def State.hartTurn (s : State) (p : Nat) : Res :=
  let s := s.at_ p s.curStrand
  if !s.hartRuns p then .next s
  else if s.myCore.interruptDue && s.hartStops then execStrandEventInterrupt p s
  else
    match (s.issued s.hartSender).bind Flight.instr with
    | some i => exec i s
    | none => s.hartFetch.run

/-- One turn. -/
def State.takeTurn (s : State) (t : Turn) : Res :=
  match t with
  | .strand p k => s.strandTurn p k
  | .hart p => s.hartTurn p
  | .event i => exec i s
  | .pass cycles ns => .next (s.pass cycles ns)
  | .hostStore a data => .next (s.hostStore a data)

/-- One step of the device (log 4). -/
def step (s : State) : Res := s.nextTurn.2.takeTurn s.nextTurn.1

/-! ## Placing an instruction (log 16) -/

/-- Where the placed instruction lies: virtual and device physical address. -/
def fetchAddress : Nat := 0x10000

/-- The job that a placed instruction belongs to: alone on core 0, every class declared, tables rooted at 0x1000. -/
def fetchPlace : Place where
  job := 1
  team := 0
  size := 1
  strands := 24
  useMask := allClasses
  det := false
  spad := Config.spadBytes
  sdm := Config.sdmBytes
  ptRoot := 1
  ctxBase := 0x100000
  cores := [0]
  discards := []

/-- Tables that map the first GiB to itself, readable, writable and executable in both modes, and the instruction's
bytes. -/
def fetchMemory (m : Mem) (n : Nat) : Mem :=
  ((m.write 0x1000 (leBytes 8 (2 * 1024 + 1))).write 0x2000 (leBytes 8 0xDF)).write fetchAddress (leBytes 8 n)

/-- The instruction is one of strands (R57). -/
def strandWord (n : Nat) : Bool :=
  match decodeBytes (toBytes 8 n) with
  | .ok _ => true
  | .error _ => false

/-- A strand that runs in SELF at the placed instruction. -/
def Strand.placed (st : Strand) : Strand :=
  { st with
    st := .self
    pc := BitVec.ofNat 64 fetchAddress
    blk := none
    waiting := none
    restore := false
    abandoned := [] }

/-- A control hart that runs in M-mode at the placed instruction, its interrupt disabled. -/
def Hart.placed (h : Hart) : Hart :=
  { h with
    pc := BitVec.ofNat 64 fetchAddress
    mode := .m
    mie := 0
    waiting := none }

/-- The state with an instruction of `nbits` bits, numbered as the opcode table numbers them, placed where the next step
fetches: on strand 0 of core 0, or on its control hart when it is no instruction of strands (log 16, log 17). -/
def State.withFetchWord (s : State) (nbits w : Nat) : State :=
  let n := w % 2 ^ nbits
  let onStrand := strandWord n
  let c := s.core 0
  let c := { c with
    place := some fetchPlace
    tlb := []
    exit := none
    kpre := 0
    haltReq := false
    halted := false
    resuming := false }
  let c := if onStrand then c.setStrand 0 (c.strand 0).placed else { c with hart := c.hart.placed }
  { s with devMem := fetchMemory s.devMem n, agenda := [if onStrand then .strand 0 0 else .hart 0] }.setCore 0 c

end Sys2Proof.Machine
end

