-- ==== Sys2Proof/Safety.lean ====
section
/-! DEFINITION. What counts as a safe run, the shape that every step must keep, and the words in which claims say what an
instruction needs, what it does and what it leaves as it was. -/

namespace Sys2Proof.Machine

/-! ## Invariants -/

/-- Every memory is in its canonical form: device and host memory, the memories of other devices, and each core's
scratchpad and SDM (log 3). -/
def State.memoriesWf (s : State) : Prop :=
  s.devMem.wf = true ∧ s.hostMem.wf = true ∧ (∀ n, Mem.wf (Table.get [] s.remotes n) = true)
    ∧ ∀ p, (s.core p).spad.wf = true ∧ (s.core p).sdm.wf = true

/-- The size of a ring is one that the registers allow (R340, R346, R347). -/
def ringSizeOk (k : Nat) : Prop := 4 ≤ k ∧ k ≤ 16

/-- The host's registers stay in the ranges that their write rules leave (R2, R340, R346, R347, R350, R362). -/
def State.hostRegistersOk (s : State) : Prop :=
  s.plimit.toNat ≤ powerCeiling ∧ s.alccap ≤ 2 ∧ 875 ≤ s.mhz.toNat ∧ s.mhz.toNat ≤ 1750 ∧ s.mhz.toNat % 25 = 0
    ∧ s.power ≤ 3
    ∧ ringSizeOk s.merger.k ∧ ringSizeOk s.undel.k ∧ ∀ c, ringSizeOk (s.queue c).k

/-- The control registers of a strand hold values that their write rules allow (R142, R144, R245). -/
def Strand.controlOk (st : Strand) : Prop :=
  (st.vgrp = 1 ∨ st.vgrp = 2 ∨ st.vgrp = 4 ∨ st.vgrp = 8)
    ∧ 2 ≤ st.cwidth.toNat ∧ st.cwidth.toNat ≤ 8
    ∧ (∀ r, tagOk (st.tag r) = true)

/-- Every strand of a core, and the tags that its link channels carry (R108). -/
def Core.controlOk (c : Core) : Prop :=
  (∀ k, (c.strand k).controlOk) ∧ ∀ n ch, c.chan n = some ch → tagOk ch.tag.toNat = true

/-- Every core, and every saved context. -/
def State.controlsOk (s : State) : Prop :=
  (∀ p, (s.core p).controlOk) ∧ ∀ j ∈ s.jobs, ∀ c ∈ j.saved, c.controlOk

/-- Every event that the agenda holds is well formed, and so is every instruction that waits for another device: no other
instruction reaches exec than these and the decoded ones (log 4). -/
def State.agendaOk (s : State) : Prop :=
  (∀ i, Turn.event i ∈ s.agenda → i.wf = true) ∧ ∀ f ∈ s.flights, ∀ i, f.instr = some i → i.wf = true

/-! ## What an instruction needs -/

/-- The job declares class b and the core offers it (checks 7 and 8 of R57). -/
def State.offers (s : State) (b : Nat) : Prop :=
  s.myCore.useMask.getLsbD b = true ∧ s.myCore.capMask.getLsbD b = true

/-- A vector instruction of class b passes the tests of R57, R147 and R322: the groups named are aligned and none of their
registers is absent, nor are the masks where one is used; the sources, given as registers, have the operation tag `tag`
and the instruction accepts it; and the job declares, and the core offers, the class and every format. -/
def State.ready (s : State) (b : Nat) (regs srcs : List Reg) (masks : Bool) (tag : Nat) (accept : Kind → Bool) : Prop :=
  s.me.controlOk ∧ s.offers b
    ∧ (∀ r ∈ regs, r.toNat % s.me.vgrp = 0 ∧ ∀ j, j < s.me.vgrp → s.me.vabs.getLsbD (r.toNat + j) = false)
    ∧ (masks = true → s.me.vabs.getLsbD 32 = false)
    ∧ opTag (srcs.map fun r => s.me.tag r.toNat) = some tag ∧ accept (s.myCore.kind tag) = true
    ∧ ∀ u ∈ tag :: srcs.map (fun r => s.me.tag r.toNat), ∀ c ∈ tagClasses u, s.offers c

/-- Element e of width w is active under governing mask m (R149). -/
def State.active (s : State) (m : Reg) (w e : Nat) : Bool :=
  decide (e < 16384 * s.me.vgrp / w) && decide (e < s.me.sbound.toNat)
    && (decide (m = 31) || (decide (e < 2048) && (s.me.getM m.toNat).getLsbD e))

/-- Element e of source r under the operation tag: the pattern itself, or converted where the tags differ (R146). -/
def State.operand (s : State) (r : Reg) (tag e : Nat) : Nat :=
  ((s.source r).elem (s.me.tag r.toNat = tag) (s.myCore.kind tag) .rne 0 e).bits

/-- For an access of an agent to n bytes at va nobody walks the tables: no walk of it is under way, and no entry that it reads
lies in another device's memory (R185, R339). -/
def State.walksHere (s : State) (agent va n : Nat) : Prop :=
  s.flight (s.senderOf (walkAgent agent)) = none ∧ s.tableAsks s.curCore (pagesOf (runsOf va n)) = []

/-- The end of a job with record r waits for no other device: it has nothing under way there, and the tables that lead to its
DONE address are this device's (R71, R299, R339). -/
def State.endsHere (s : State) (r : JobRecord) : Prop :=
  (∀ e ∈ s.postedQ, e.source.job ≠ r.id) ∧ (∀ q ∈ s.remoteQ, q.2.job ≠ r.id) ∧ (∀ f ∈ s.flights, f.source.job ≠ r.id)
    ∧ s.walkAsks r.done.toNat 4 (rootOf r.ptRoot) = []

/-- An access to n bytes at x of a space needs nobody else first: this device holds them, no access of the agent waits for
another device, no reduce of the current strand is on its way to them, and no other agent has a part of a unit on several devices
there open; and a load knows where the strand's held stores go (R121, R194, R301, R339; log 73). -/
def State.performsNow (s : State) (src : Sender) (acc : Access) (sp : Space) (x n : Nat) : Prop :=
  s.flight src = none ∧ (∀ m, sp ≠ .remote m) ∧ s.reducesMeet [{ space := sp, addr := x, len := n }] = false
    ∧ s.unitWaits src acc.writes [{ space := sp, addr := x, len := n }] = false ∧ (acc = .load → s.heldUnplaced = false)

/-- The n bytes at job address E lie at x of a space for an access of the current strand: E is aligned, canonical and
mapped with the rights that the access needs (R183 to R185). -/
def State.liesAt (s : State) (acc : Access) (E n : Nat) (sp : Space) (x : Nat) : Prop :=
  E % n = 0 ∧ s.translate s.curCore acc false E n = .at_ sp x

/-- They lie there, on this device, and nothing comes first. -/
def State.findsAt (s : State) (acc : Access) (E n : Nat) (sp : Space) (x : Nat) : Prop :=
  s.liesAt acc E n sp x ∧ s.performsNow s.mySender acc sp x n ∧ s.walksHere s.curStrand E n

/-- The same for n bytes that may cross pages, byte by byte: byte k lies at `at_ k`. -/
def State.findsBytes (s : State) (acc : Access) (E n : Nat) (at_ : Nat → Space × Nat) : Prop :=
  s.walksHere s.curStrand E n ∧ ∀ k, k < n →
    s.translate s.curCore acc false ((E + k) % 2 ^ 64) 1 = .at_ (at_ k).1 (at_ k).2
    ∧ s.performsNow s.mySender acc (at_ k).1 (at_ k).2 1

/-- The rows of a copy command of the current strand: what it has read since it issued stays as it is, and the rest of its list and
of its pointers it reads now (R268, R269, R272). -/
def State.copyPlan (s : State) (i : Instr) (form : CopyForm) (c : CopySpec) (src dst : Word) : List RowPlan :=
  let r := (s.copyRead i).getD { desc := 0, list := none, ptrs := [] }
  let list := r.list.getD (s.listBytes c)
  let now := s.readable (unreadPointers (copyRows form c list r.ptrs src dst))
  copyRows form c list (r.ptrs ++ now.map fun e => (e.1.idx, leNat (s.strandLoad e.2))) src dst

/-- The number that a load of the current strand finds in n bytes at x of a space: little-endian, the strand's own held
stores standing before memory (R121, R198, R272). -/
def State.loaded (s : State) (sp : Space) (x n : Nat) : Nat := leNat (s.loadAs s.me [{ space := sp, addr := x, len := n }])

/-- The same for bytes that lie one by one. -/
def State.loadedBytes (s : State) (n : Nat) (at_ : Nat → Space × Nat) : Nat :=
  leNat ((List.range n).flatMap fun k => s.loadAs s.me [{ space := (at_ k).1, addr := (at_ k).2, len := 1 }])

/-- No access of the strand and no walk for one waits for another device, and no older copy command of the strand holds back an
access to n bytes at E e for the elements that are live (R272 to R274, R339). -/
def State.unobstructed (s : State) (writes : Bool) (E : Nat → Nat) (n : Nat) (live : Nat → Bool) : Prop :=
  s.flight s.mySender = none ∧ s.flight (s.senderOf (walkAgent s.curStrand)) = none ∧ s.interlocked writes [] = false
    ∧ ∀ e, live e = true → s.interlocked writes [{ idx := e, addr := E e, len := n }] = false

/-- A release finds every earlier access performed (R286). -/
def State.mayRelease (s : State) : Prop := s.order.rel = true → s.settled s.order.scope = true

/-- The group of an index operand for data of width w: integers of a format that is offered, a legal group, none of its
registers absent, and no partial overlap with the destination (R177, R187). -/
def State.indexReady (s : State) (b : Reg) (w : Nat) (dst : Option Reg) : Prop :=
  let kb := s.myCore.kind (s.me.tag b.toNat)
  let span := max 1 (s.me.vgrp * kb.width / w)
  kb.isInt = true ∧ (∀ c ∈ tagClasses (s.me.tag b.toNat), s.offers c) ∧ b.toNat % span = 0 ∧ span ≤ 8
    ∧ (∀ j, j < span → s.me.vabs.getLsbD (b.toNat + j) = false)
    ∧ ∀ d, dst = some d →
        b = d ∧ span = s.me.vgrp ∨ b.toNat + span ≤ d.toNat ∨ d.toNat + s.me.vgrp ≤ b.toNat

/-- Index e of an index group (R188). -/
def State.indexAt (s : State) (b : Reg) (w e : Nat) : Int :=
  let kb := s.myCore.kind (s.me.tag b.toNat)
  let x := elemOf kb.width (s.me.group b.toNat (max 1 (s.me.vgrp * kb.width / w))) e
  if kb.signed then toSigned kb.width x else x

/-- Element e is active and has yet to perform: at or above `vstart`, or for an atomic outside a valid `vdone` (R195,
R197). -/
def State.live (s : State) (atomic : Bool) (m : Reg) (w e : Nat) : Bool :=
  s.active m w e && (if atomic && s.me.vdValid then !s.me.vdone.getLsbD e else decide (s.me.vstart.toNat ≤ e))

/-- A vector memory instruction traps in phase one and performs nothing, its live elements being n bytes at E e: a misaligned
element first, the lowest of them; then a missing translation, with all such elements and their pages in the fault record;
then the lowest element whose access is forbidden (R190 to R192). A fault record that has no place is an access violation instead
(log 72). -/
def State.trapsFirst (s : State) (i : Instr) (acc : Access) (n : Nat) (E : Nat → Nat) (live : Nat → Bool) : Prop :=
  let fate (e : Nat) : Fate := s.translate s.curCore acc false (E e) n
  let first (bad : Nat → Prop) (e : Nat) : Prop := live e = true ∧ bad e ∧ ∀ f, live f = true → f < e → ¬ bad f
  s.unobstructed acc.writes E n live →
  (∀ e, first (fun e => E e % n ≠ 0) e → exec i s = s.trapped { cause := .misalign, info := E e, elem := e })
  ∧ ((∀ e, live e = true → E e % n = 0 ∧ s.walksHere s.curStrand (E e) n) →
    (∀ e, first (fun e => fate e = .missing) e → ∃ failed pages : List Nat,
      failed.Pairwise (· < ·) ∧ (∀ f, f ∈ failed ↔ live f = true ∧ fate f = .missing)
        ∧ pages.Pairwise (· < ·) ∧ (∀ pg, pg ∈ pages ↔ ∃ f ∈ failed, pg = E f / 4096)
        ∧ match s.reportFault s.curCore s.curStrand acc.kind s.me.pc failed pages with
          | .ok (t, a) => exec i s = t.trapped { cause := .xlate, info := a, elem := e }
          | .error x => exec i s = s.trapped { cause := .access, info := x, elem := e })
    ∧ ∀ e, first (fun e => fate e = .forbidden) e → (∀ f, live f = true → fate f ≠ .missing) →
      exec i s = s.trapped { cause := .access, info := E e, elem := e })

/-- No flit waits at a port that is DOWN, no route leads to one, and no job waits for a device that is cut off, so that what
the ports do ends no job (R352). -/
def State.linksUp (s : State) : Prop :=
  (∀ p, p < 18 → (s.port p).st = .down → (s.port p).replay = [] ∧ (s.port p).queue = [])
    ∧ (∀ n p, s.route n = some p → (s.port p).st ≠ .down) ∧ s.cutJobs = []

/-! ## What an instruction leaves -/

/-- A strand without the fields by which it goes on, waits and traps (R79, R317). -/
def Strand.data (st : Strand) : Strand :=
  { st with
    st := .idle
    fromSt := .idle
    pc := 0
    pcWritten := false
    blk := none
    buf := []
    farm := none
    rec0 := 0
    rec1 := 0
    rec2 := 0
    rec3 := 0
    rec4 := 0
    tpc := 0
    wd := 0
    waiting := none
    partWay := false
    restore := false }

/-- Every byte of every memory reads as before. -/
def State.sameBytes (s t : State) : Prop := ∀ sp a, (t.memOf sp).get a = (s.memOf sp).get a

/-- Nothing but the current strand, its bit of `kpre`, and what it waits for from other devices has changed. -/
structure State.onlyMe (s t : State) : Prop where
  cores   : ∀ p, p ≠ s.curCore → t.core p = s.core p
  strands : ∀ k, k ≠ s.curStrand → (t.core s.curCore).strand k = (s.core s.curCore).strand k
  core    : ({ t.core s.curCore with strands := [], kpre := 0 } : Core) = { s.core s.curCore with strands := [], kpre := 0 }
  kpre    : ∀ k, k ≠ s.curStrand → (t.core s.curCore).kpre.getLsbD k = (s.core s.curCore).kpre.getLsbD k
  device  : ({ t with cores := [], flights := [] } : State) = { s with cores := [], flights := [] }
  flights : t.flights = s.flights ∨ t.flights = (s.dropFlight s.curCore s.curStrand).flights
  bytes   : s.sameBytes t

/-- The same for an access: the translations that it used and the epoch count of its core may have changed too, and of
the device the number of the next access and what a fault record or a store changes; `stored` says which bytes may. -/
structure State.onlyStored (s t : State) (stored : Space → Nat → Prop) : Prop where
  strands : ∀ p k, ¬ (p = s.curCore ∧ k = s.curStrand) → (t.core p).strand k = (s.core p).strand k
  core    : ∀ p, ({ t.core p with strands := [], kpre := 0, tlb := [], epoch := 0, spad := [], sdm := [] } : Core)
              = { s.core p with strands := [], kpre := 0, tlb := [], epoch := 0, spad := [], sdm := [] }
  device  : ({ t with cores := [], devMem := [], hostMem := [], hostLines := [], resvs := [], keys := [], syncs := [],
                      flights := [], askId := 0, merger := s.merger } : State)
              = { s with cores := [], devMem := [], hostMem := [], hostLines := [], resvs := [], keys := [], syncs := [],
                         flights := [], askId := 0 }
  flights : t.flights = s.flights ∨ t.flights = (s.dropFlight s.curCore s.curStrand).flights
  bytes   : ∀ sp a, ¬ stored sp a → (t.memOf sp).get a = (s.memOf sp).get a

/-- The instruction completes, and its strand goes on with the new value `st`: nothing else changes. -/
def State.completes (s : State) (i : Instr) (st : Strand) : Prop := exec i s = .next (s.setMe (st.retire s.ilen))

/-- The same for an instruction after which `vstart` is 0 (R152). -/
def State.completesZero (s : State) (i : Instr) (st : Strand) : Prop := s.completes i { st with vstart := 0 }

/-- The instruction completes with w in x[d], and nothing else changes; a write of `x0` is discarded (R112). -/
def State.writesX (s : State) (i : Instr) (d : Reg) (w : Word) : Prop := s.completes i (s.me.setX d w)

/-- Whenever the instruction gives a next state, every scalar register but d is as before, and so is everything that is
not the current strand's way on. -/
def State.leavesAllBut (s : State) (i : Instr) (d : Reg) : Prop :=
  ∀ t, exec i s = .next t → s.onlyMe t ∧ (∀ r, r ≠ d → t.me.getX r = s.me.getX r)
    ∧ ({ t.me.data with x := [] } : Strand) = { s.me.data with x := [] }

/-- A vector instruction's outcome: element e of group d, of width w, is the new one where there is one and keeps its value
otherwise; every register of the group takes the tag; every other register, mask and special register and everything
outside the strand is as before. `quiet` says that no condition is raised. -/
def State.vectorOutcome (s : State) (r : Res) (d : Reg) (tag w : Nat) (quiet : Bool) (new : Nat → Option Nat) : Prop :=
  ∃ t, r = .next t
    ∧ (∀ e, e < 16384 * s.me.vgrp / w → elemOf w (t.me.group d.toNat s.me.vgrp) e =
        (new e).getD (elemOf w (s.me.group d.toNat s.me.vgrp) e))
    ∧ (∀ r, t.me.tag r = if d.toNat ≤ r ∧ r < d.toNat + s.me.vgrp then tag else s.me.tag r)
    ∧ (∀ r, r < d.toNat ∨ d.toNat + s.me.vgrp ≤ r → t.me.getV r = s.me.getV r)
    ∧ ({ t.me.data with v := [], tags := [], dirty := 0, vstart := 0, fstat := 0 } : Strand)
        = { s.me.data with v := [], tags := [], dirty := 0, vstart := 0, fstat := 0 }
    ∧ t.me.vstart = 0
    ∧ (quiet = true → t.me.fstat = s.me.fstat ∧ (s.me.st = .self → t.me.st = .self ∧ t.me.pc = s.me.pc + BitVec.ofNat 64 s.ilen))
    ∧ s.onlyMe t

/-- The instruction completes with that outcome. -/
def State.vectorResult (s : State) (i : Instr) (d : Reg) (tag w : Nat) (quiet : Bool) (new : Nat → Option Nat) : Prop :=
  s.vectorOutcome (exec i s) d tag w quiet new

/-- Source r at element e of a float instruction into d under the operation tag, with what its conversion raises (R146,
R209). -/
def State.floatOperand (s : State) (rm : Rounding) (d r : Reg) (tag e : Nat) : Out :=
  (s.source r).elem (s.me.tag r.toNat = tag) (s.myCore.kind tag) rm (s.me.rsdDraw rm d.toNat e) e

/-- The current strand has taken the float trap after its instruction (R218, R315, R317). -/
def State.floatTrapped (s t : State) : Prop :=
  t.me.st = .trapped ∧ t.me.rec0.toNat % 256 = 12 ∧ t.me.pc = s.me.pc + BitVec.ofNat 64 s.ilen ∧ t.me.tpc = t.me.pc

/-- The conditions of an instruction in `fstat`, and the trap that an enabled one takes (R217, R218): `raised j` says that
the instruction raises condition j. -/
def State.raises (s t : State) (raised : Nat → Prop) : Prop :=
  (∀ j, j < 5 → (t.me.fstat.getLsbD j = true ↔ s.me.fstat.getLsbD j = true ∨ raised j))
    ∧ (∀ j, 5 ≤ j → t.me.fstat.getLsbD j = s.me.fstat.getLsbD j)
    ∧ ((∃ j, j < 5 ∧ raised j ∧ s.me.fstat.getLsbD (8 + j) = true) → s.floatTrapped t)
    ∧ ((∀ j, j < 5 → raised j → s.me.fstat.getLsbD (8 + j) = false) → s.me.st = .self →
        t.me.st = .self ∧ t.me.pc = s.me.pc + BitVec.ofNat 64 s.ilen)

/-- A float instruction completes: the element of d is the new one where it is active, and its conditions are raised. -/
def State.floatResult (s : State) (i : Instr) (d : Reg) (tag w : Nat) (act : Nat → Bool) (out : Nat → Out) : Prop :=
  ∃ t, exec i s = .next t
    ∧ s.vectorOutcome (.next t) d tag w false (fun e => if act e then some ((out e).bits % 2 ^ w) else none)
    ∧ s.raises t fun j => ∃ e, e < 16384 * s.me.vgrp / w ∧ act e = true ∧ (out e).fl.getLsbD j = true

/-- The instruction completes as a vector load: element e of group d, of width w, is the new one where there is one and
keeps its value otherwise, and no byte changes; `ffi` is what `vffi` holds after it. -/
def State.loadsInto (s : State) (i : Instr) (d : Reg) (tag w : Nat) (ffi : BitVec 32) (new : Nat → Option Nat) : Prop :=
  ∃ t, exec i s = .next t
    ∧ (∀ e, e < 16384 * s.me.vgrp / w → elemOf w (t.me.group d.toNat s.me.vgrp) e =
        (new e).getD (elemOf w (s.me.group d.toNat s.me.vgrp) e))
    ∧ (∀ r, t.me.tag r = if d.toNat ≤ r ∧ r < d.toNat + s.me.vgrp then tag else s.me.tag r)
    ∧ (∀ r, r < d.toNat ∨ d.toNat + s.me.vgrp ≤ r → t.me.getV r = s.me.getV r)
    ∧ ({ t.me.data with v := [], tags := [], dirty := 0, vstart := 0, vdValid := false, vdone := 0, seen := 0 } : Strand)
        = { s.me.data with v := [], tags := [], dirty := 0, vstart := 0, vdValid := false, vdone := 0, seen := 0, vffi := ffi }
    ∧ t.me.vstart = 0 ∧ t.me.vdValid = false
    ∧ (s.me.st = .self → t.me.st = .self ∧ t.me.pc = s.me.pc + BitVec.ofNat 64 s.ilen)
    ∧ s.onlyStored t fun _ _ => False

/-- The instruction completes as a vector store of n bytes at x e of a space for each live element: outside deterministic
mode the bytes of the last element at each place, or all of them behind a copy command into the store queue. Every
register and every other byte stays. -/
def State.storesFrom (s : State) (i : Instr) (n : Nat) (live : Nat → Bool) (sp : Nat → Space) (x : Nat → Nat)
    (value : Nat → Nat) : Prop :=
  ∃ t, exec i s = .next t
    ∧ (s.storeHeld = false → t.me.storeQ = s.me.storeQ ∧ (s.myCore.det = false → ∀ e k, live e = true → k < n →
        (∀ e', live e' = true → e < e' → ¬ (sp e' = sp e ∧ x e' = x e)) →
        (t.memOf (sp e)).get (x e + k) = BitVec.ofNat 8 (value e / 2 ^ (8 * k))))
    ∧ (s.storeHeld = true → s.sameBytes t ∧ ∃ q : List Held, t.me.storeQ = s.me.storeQ ++ q
        ∧ (∀ h ∈ q, ∃ e, live e = true ∧ h.space = sp e ∧ h.addr = x e ∧ h.bytes = leBytes n (value e))
        ∧ ∀ e, live e = true → (∀ e', live e' = true → e < e' → ¬ (sp e' = sp e ∧ x e' = x e)) →
            ∃ h ∈ q, h.space = sp e ∧ h.addr = x e ∧ h.bytes = leBytes n (value e))
    ∧ ({ t.me.data with storeQ := [], vstart := 0, vdValid := false, vdone := 0 } : Strand)
        = { s.me.data with storeQ := [], vstart := 0, vdValid := false, vdone := 0 }
    ∧ t.me.vstart = 0 ∧ t.me.vdValid = false
    ∧ s.onlyStored t fun sp' y => ∃ e, live e = true ∧ sp' = sp e ∧ x e ≤ y ∧ y < x e + n

/-- The outcome of an instruction that writes mask register d: bit e is `bit e` for every index below MLEN (R156). -/
def State.maskOutcome (s : State) (r : Res) (d : Reg) (bit : Nat → Bool) : Prop :=
  ∃ t, r = .next t
    ∧ (∀ e, e < 2048 → (t.me.getM d.toNat).getLsbD e = bit e)
    ∧ (∀ j, j ≠ d.toNat → t.me.getM j = s.me.getM j)
    ∧ ({ t.me.data with m := [], dirty := 0, vstart := 0, fstat := 0 } : Strand)
        = { s.me.data with m := [], dirty := 0, vstart := 0, fstat := 0 }
    ∧ t.me.vstart = 0 ∧ s.onlyMe t

/-- The instruction completes with that outcome. -/
def State.maskResult (s : State) (i : Instr) (d : Reg) (bit : Nat → Bool) : Prop := s.maskOutcome (exec i s) d bit

end Sys2Proof.Machine
end

