-- ==== Sys2Proof/Certificates/Slice0/Obligations.lean ====
section
/-! DEFINITION. The statements for the provers, family by family of the opcode table. -/

open Sys2Proof Sys2Proof.Machine


/-! ## Encodings, steps and reset -/

/-- R46 to R50, R53, R55, R95: words written out from the encoding tables, one to each of several families. -/
def Obligations.WordsDecode : Prop :=
  decodeWord 0b000001_00011_00101_01001_00000_000000 = .ok (.add 3 5 9)
  ∧ decodeWord 0b000010_00001_00010_1111111111111111 = .ok (.addi 1 2 0xFFFF)
  ∧ decodeWord 0b000001_00110_00111_01000_11010_010110 = .ok (.lw 6 7 8 .die true)
  ∧ decodeWord 0b001010_00001_00010_1111111111111110 = .ok (.beq 1 2 0xFFFE)
  ∧ decodeWord 0b010000_000_10_000_0001010_00000000000 = .ok (.vcfg 2 0x0A)
  ∧ decodeWord 0b010011_00010_00011_00101_00000_000000 = .ok (.mand 2 3 5)
  ∧ decodeWord 0b011000_00011_00011_01000_00100_000010 = .ok (.vadc 3 3 8 4 false false)
  ∧ decodeWord 0b100100_01000_10000_11000_11111_000010 = .ok (.vgath 8 16 24 31 false false)
  ∧ decodeWord 0b110000_00010_00100_00110_11111_010001 = .ok (.fadd 2 4 6 31 false true .rz)
  ∧ decodeWord 0b111011_00100_01000_01100_00011_110000 = .ok (.cfb1 4 8 12 3 true true)
  ∧ decodeWord 0b111100_00001_00010_00011_00000_101110 = .ok (.xcp 1 2 3 .sys .acqRel)
  ∧ decodeStrand 0b101111_000000000000000000000_011_01 (some 0b101000_00100_00101_00000_11111_000000)
      = .ok (.memoryAttributeWord .dev .acq (.vld 4 5 31))
  ∧ decodeExtension 0b0000000_00011_00010_000_00001_0001011 = some (.kbcast 3 2 1)

/-- R46 to R57, R60, R95: decoding and encoding agree. Every well-formed instruction with a word of its own is what its word
decodes to, an attribute word with the instruction it binds to is what its two words decode to, and every word that decodes
is the encoding of the well-formed instruction it decodes to. -/
def Obligations.DecodeEncodeAgree : Prop :=
  (∀ (i : Instr) (w : IWord), i.wf = true → encode i = [w] → decodeWord w = .ok i ∨ decodeHart w = i)
  ∧ (∀ (i : Instr) (w v : IWord), i.wf = true → encode i = [w, v] → decodeStrand w (some v) = .ok i)
  ∧ (∀ (i : Instr) (w : IWord), decodeWord w = .ok i → i.wf = true ∧ encode i = [w])
  ∧ (∀ (i : Instr) (w v : IWord), decodeStrand w (some v) = .ok i → i.wf = true ∧ (encode i = [w] ∨ encode i = [w, v]))
  ∧ (∀ (i : Instr) (w : IWord), decodeExtension w.toNat = some i → i.wf = true ∧ encode i = [w])

/-- R53 to R57, R90, R185: a step on the turn of a strand, or of a control hart, that runs performs exec of the instruction
that the bytes at its PC decode to, once the fetch has kept its translation; bytes that are none take the
illegal-instruction trap; an instruction that has issued and waits, for another device or in place, goes on as it issued (R130, R272,
R339); a step on the turn of an event performs that event; and the host stores into its own memory (R296).
The model's own readings in it: logs 4, 10, 16, 22, 53, 64, 87. -/
def Obligations.StepRuns : Prop := ∀ (s : State) (p k : Nat) (rest : List Turn) (sp sp' : Space) (x x' : Nat),
  let next : State := { s with agenda := rest, tick := s.tick + 1, attr := none, cut := none }
  let u := next.at_ p k
  let v := next.at_ p next.curStrand
  let w : IWord := BitVec.ofNat 32 (leNat (u.peek sp x 4))
  let w' : IWord := BitVec.ofNat 32 (leNat (u.peek sp' x' 4))
  let fetches (t : State) (agent i : Nat) (machine : Bool) (pc : Word) (n : Nat) (sp : Space) (x : Nat) : Prop :=
    pc.toNat % n = 0 ∧ t.translate p .fetch machine pc.toNat n = .at_ sp x ∧ (∀ m, sp ≠ .remote m)
      ∧ t.flight (t.senderOf (fetchAgent agent i)) = none ∧ t.walksHere (fetchAgent agent i) pc.toNat n
  (s.agenda = .strand p k :: rest → u.strandRuns p k = true → (u.core p).halted = false → u.myCore.kpre.getLsbD k = false →
    u.underway = none → u.me.abandoned = [] → u.me.restore = false → fetches u k 0 false u.me.pc 4 sp x →
    ∃ pages, let t := u.fillTlb p pages
      (isAttribute w = false → ∀ i, decodeWord w = .ok i → step s = exec i t)
      ∧ (isAttribute w = false → ∀ r, decodeWord w = .error r → step s = exec (.illegalInstruction w) t)
      ∧ (isAttribute w = true → u.me.mayPair = true → fetches t k 1 false (u.me.pc + 4) 4 sp' x' →
          ∃ pages', ∀ i, decodePair w (some w') = .ok i → step s = exec i (t.fillTlb p pages')))
  ∧ (∀ i held, s.agenda = .strand p k :: rest → u.strandRuns p k = true → (u.core p).halted = false →
    u.myCore.kpre.getLsbD k = false → u.underway = some (i, held) → ((u.issued u.mySender).isSome ∨ u.me.abandoned = []) →
    u.me.restore = false → step s = u.asIssued held (exec i))
  ∧ (let h := v.hart
    let machine := decide (h.mode = .m)
    let lo := leNat (v.peek sp x 2)
    let hi := leNat (v.peek sp' x' 2)
    s.agenda = .hart p :: rest → v.hartRuns p = true → v.myCore.interruptDue = false →
      v.issued v.hartSender = none → fetches v hartAgent 0 machine h.pc 2 sp x →
    ∃ pages, let t := v.fillTlb p pages
      (lo % 4 ≠ 3 → step s = exec (decodeHart (BitVec.ofNat 32 lo)) t)
      ∧ (lo % 4 = 3 → fetches t hartAgent 1 machine (h.pc + 2) 2 sp' x' →
          ∃ pages', step s = exec (decodeHart (BitVec.ofNat 32 (lo + 65536 * hi))) (t.fillTlb p pages')))
  ∧ (∀ i, s.agenda = .event i :: rest → step s = exec i next)
  ∧ ∀ a data, s.agenda = .hostStore a data :: rest → a + data.length ≤ 2 ^ 52 →
      ∃ t, step s = .next t ∧ t.cores = s.cores ∧ t.devMem = s.devMem ∧ ∀ y, t.hostMem.get y =
        if a ≤ y ∧ y < a + data.length then data.getD (y - a) 0 else s.hostMem.get y

/-- What reset leaves: R112, R128, R141, R142, R144, R217, R220, R224, R245, R319 for strands, tiles and formats; R77, R103
for a core without a job; R340, R350, R362 for the host's registers; and the four invariants hold of it. The registers that
the spec gives no reset value are at the values of log 1.
The model's own readings in it: logs 1, 2, 3, 4. -/
def Obligations.ResetState : Prop :=
  let s := State.reset
  s.memoriesWf ∧ s.hostRegistersOk ∧ s.controlsOk ∧ s.agendaOk
  ∧ (∀ p k r, let st := (s.core p).strand k
      st.st = .idle ∧ st.getX r = 0 ∧ st.getV r.toNat = 0 ∧ st.getM r.toNat = 0 ∧ st.tag r.toNat = 3
      ∧ st.sbound = 0xFFFFFFFF ∧ st.vgrp = 1 ∧ st.vstart = 0 ∧ st.fstat = 0 ∧ st.cwidth = 8 ∧ st.vabs = 0 ∧ st.vrq = 0)
  ∧ (∀ p, let c := s.core p
      c.place = none ∧ (∀ n, c.chan n = none) ∧ (∀ t, c.tile t = Tile.reset) ∧ (∀ f, c.farm f = none) ∧ c.kpre = 0
      ∧ c.wdLimit = 0x1000000 ∧ (∀ e, 9 ≤ e → e ≤ 15 → c.fmt e = 0x009A0E34) ∧ c.capMask = allClasses
      ∧ c.hart.mode = .m ∧ c.hart.pc = 0 ∧ c.hart.mtvec = 0)
  ∧ (∀ c, s.queue c = ClassQueue.reset) ∧ s.plimit = 1800 ∧ s.mhz = 1750 ∧ s.power = 0 ∧ s.jobs = [] ∧ s.mbox.go = false
  ∧ s.flights = [] ∧ s.postedQ = [] ∧ s.ports = []

/-- R8, log 3: every step keeps every memory in its canonical form, from any state that has them so.
The model's own readings in it: logs 3, 4. -/
def Obligations.StepKeepsMemories : Prop := ∀ s t : State,
  s.agendaOk → s.memoriesWf → step s = .next t → t.memoriesWf ∧ t.agendaOk

/-- R2, R340, R341, R346, R347, R350, R362, R364: every step keeps the host's registers in the ranges of their write
rules.
The model's own reading in it: log 4. -/
def Obligations.StepKeepsHostRegisters : Prop := ∀ s t : State,
  s.agendaOk → s.hostRegistersOk → step s = .next t → t.hostRegistersOk ∧ t.agendaOk

/-- R108, R142, R144, R245, R319: every step keeps the control registers of every strand, the tags of the link channels and
the saved contexts legal.
The model's own readings in it: logs 4, 11. -/
def Obligations.StepKeepsControls : Prop := ∀ s t : State,
  s.agendaOk → s.controlsOk → step s = .next t → t.controlsOk ∧ t.agendaOk
/-! ## Scalar instructions -/

/-- R113: what the register-register instructions write to x[d], in unbounded integers before the wrap to 64 bits. -/
def Obligations.ScalarRegisterResults : Prop := ∀ (s : State) (d a b : Reg), s.offers 0 →
  let A := s.me.getX a
  let B := s.me.getX b
  s.writesX (.add d a b) d (BitVec.ofInt 64 (A.toInt + B.toInt))
  ∧ s.writesX (.sub d a b) d (BitVec.ofInt 64 (A.toInt - B.toInt))
  ∧ s.writesX (.and d a b) d (A &&& B)
  ∧ s.writesX (.or d a b) d (A ||| B)
  ∧ s.writesX (.xor d a b) d (A ^^^ B)
  ∧ s.writesX (.andn d a b) d (A &&& ~~~ B)
  ∧ s.writesX (.sll d a b) d (BitVec.ofNat 64 (A.toNat * 2 ^ (B.toNat % 64)))
  ∧ s.writesX (.srl d a b) d (BitVec.ofNat 64 (A.toNat / 2 ^ (B.toNat % 64)))
  ∧ s.writesX (.sra d a b) d (BitVec.ofInt 64 (A.toInt / 2 ^ (B.toNat % 64)))
  ∧ s.writesX (.slt d a b) d (if A.toInt < B.toInt then 1 else 0)
  ∧ s.writesX (.sltu d a b) d (if A.toNat < B.toNat then 1 else 0)
  ∧ s.writesX (.min d a b) d (BitVec.ofInt 64 (min A.toInt B.toInt))
  ∧ s.writesX (.max d a b) d (BitVec.ofInt 64 (max A.toInt B.toInt))
  ∧ s.writesX (.minu d a b) d (BitVec.ofNat 64 (min A.toNat B.toNat))
  ∧ s.writesX (.maxu d a b) d (BitVec.ofNat 64 (max A.toNat B.toNat))
  ∧ s.writesX (.mul d a b) d (BitVec.ofInt 64 (A.toInt * B.toInt))

/-- R113: the counts of `clz`, `ctz` and `popc`.
R113, R114, R116, R117: bit fields, shifts by an immediate, and the instructions with an immediate operand. Each bit of
a field result is said by itself. -/
def Obligations.ScalarCountsFieldsAndImmediates : Prop :=
  (∀ (s : State) (d a : Reg), s.offers 0 →
    let A := s.me.getX a
    (∃ n, s.writesX (.clz d a) d (BitVec.ofNat 64 n) ∧ n ≤ 64 ∧ A.toNat < 2 ^ (64 - n) ∧ (n < 64 → 2 ^ (63 - n) ≤ A.toNat))
    ∧ (∃ n, s.writesX (.ctz d a) d (BitVec.ofNat 64 n) ∧ n ≤ 64 ∧ (∀ i, i < n → A.getLsbD i = false)
        ∧ (n < 64 → A.getLsbD n = true))
    ∧ s.writesX (.popc d a) d (BitVec.ofNat 64 ((List.range 64).filter (fun i => A.getLsbD i)).length))
  ∧ (∀ (s : State) (d a b : Reg) (h : BitVec 6) (k : BitVec 16) (j : BitVec 20), s.offers 0 →
    let A := s.me.getX a
    let B := s.me.getX b
    let pos := B.toNat % 2 ^ 6
    let len := min (B.toNat / 2 ^ 8 % 2 ^ 7) 64
    (∃ w, s.writesX (.bfx d a b) d w ∧ ∀ i, i < 64 → w.getLsbD i = (decide (i < len) && A.getLsbD (pos + i)))
    ∧ (∃ w, s.writesX (.bfi d a b) d w ∧ ∀ i, i < 64 → w.getLsbD i =
        if pos ≤ i ∧ i < pos + len then A.getLsbD (i - pos) else (s.me.getX d).getLsbD i)
    ∧ s.writesX (.fsh d a b h) d (BitVec.ofNat 64 ((A.toNat * 2 ^ 64 + B.toNat) / 2 ^ h.toNat))
    ∧ s.writesX (.slli d a h) d (BitVec.ofNat 64 (A.toNat * 2 ^ h.toNat))
    ∧ s.writesX (.srli d a h) d (BitVec.ofNat 64 (A.toNat / 2 ^ h.toNat))
    ∧ s.writesX (.srai d a h) d (BitVec.ofInt 64 (A.toInt / 2 ^ h.toNat))
    ∧ s.writesX (.addi d a k) d (BitVec.ofInt 64 (A.toInt + k.toInt))
    ∧ s.writesX (.andi d a k) d (A &&& BitVec.ofInt 64 k.toInt)
    ∧ s.writesX (.ori d a k) d (A ||| BitVec.ofInt 64 k.toInt)
    ∧ s.writesX (.xori d a k) d (A ^^^ BitVec.ofInt 64 k.toInt)
    ∧ s.writesX (.slti d a k) d (if A.toInt < k.toInt then 1 else 0)
    ∧ s.writesX (.sltiu d a k) d (if A.toNat < (BitVec.ofInt 64 k.toInt).toNat then 1 else 0)
    ∧ s.writesX (.lui d j) d (BitVec.ofInt 64 (j.toInt * 4096))
    ∧ s.writesX (.lpc d j) d (BitVec.ofInt 64 (s.me.pc.toInt + j.toInt * 4)))

/-- R112, R97: what no scalar register instruction, branch or jump changes, whatever next state it gives: with the branches
no register, with `jal` and `jalr` the link register alone. -/
def Obligations.ScalarFrames : Prop :=
  ∀ (s : State) (d a b : Reg) (h : BitVec 6) (k : BitVec 16) (j : BitVec 20) (o : BitVec 21),
  (∀ i ∈ [Instr.add d a b, .sub d a b, .and d a b, .or d a b, .xor d a b, .andn d a b, .sll d a b, .srl d a b, .sra d a b,
      .slt d a b, .sltu d a b, .min d a b, .max d a b, .minu d a b, .maxu d a b, .clz d a, .ctz d a, .popc d a, .mul d a b,
      .bfx d a b, .bfi d a b, .fsh d a b h, .slli d a h, .srli d a h, .srai d a h, .addi d a k, .andi d a k, .ori d a k,
      .xori d a k, .slti d a k, .sltiu d a k, .lui d j, .lpc d j, .jal d o, .jalr d a b], s.leavesAllBut i d)
  ∧ (∀ i ∈ [Instr.beq a b k, .bne a b k, .blt a b k, .bge a b k, .bltu a b k, .bgeu a b k], s.leavesAllBut i 0)

/-- R97, R118: a branch that is not taken completes with no change of a register; one that is taken goes to its target, in
SELF to any, in BLOCK to a later word of the block, and otherwise traps at the branch.
R97, R118: `jal` and `jalr` link to the next word and go to their target; a misaligned target of `jalr` traps before
the bounds of a block are tested, and neither trap writes the link register. -/
def Obligations.BranchesAndJumps : Prop :=
  (∀ (s : State) (a b : Reg) (o : BitVec 16), s.offers 0 →
    let A := s.me.getX a
    let B := s.me.getX b
    let target := BitVec.ofInt 64 (s.me.pc.toInt + 4 * o.toInt)
    ∀ p ∈ [(Instr.beq a b o, decide (A = B)), (.bne a b o, decide (A ≠ B)), (.blt a b o, decide (A.toInt < B.toInt)),
        (.bge a b o, decide (B.toInt ≤ A.toInt)), (.bltu a b o, decide (A.toNat < B.toNat)),
        (.bgeu a b o, decide (B.toNat ≤ A.toNat))],
      (p.2 = false → s.completes p.1 s.me)
      ∧ (p.2 = true → s.me.st = .self →
          exec p.1 s = .next (s.setMe { s.me with pc := target, wd := 0, waiting := none, partWay := false }))
      ∧ (p.2 = true → ∀ blk, s.me.st = .block → s.me.blk = some blk →
          exec p.1 s =
            if (s.me.pc - blk.addr).toNat < (target - blk.addr).toNat ∧ (target - blk.addr).toNat < 4 * blk.words
            then .next (s.setMe { s.me with pc := target, wd := 0, waiting := none, partWay := false })
            else s.trapped { cause := .illegal, info := encodeWord p.1 }))
  ∧ (∀ (s : State) (d a b : Reg) (o : BitVec 21), s.offers 0 →
    let near := BitVec.ofInt 64 (s.me.pc.toInt + 4 * o.toInt)
    let far := BitVec.ofInt 64 ((s.me.getX a).toInt + (s.me.getX b).toInt)
    let linked : Strand := { s.me.setX d (s.me.pc + 4) with wd := 0, waiting := none, partWay := false }
    (far.toNat % 4 ≠ 0 → exec (.jalr d a b) s = s.trapped { cause := .misalign, info := far.toNat })
    ∧ ∀ p ∈ [(Instr.jal d o, near), (.jalr d a b, far)], p.2.toNat % 4 = 0 →
      (s.me.st = .self → exec p.1 s = .next (s.setMe { linked with pc := p.2 }))
      ∧ ∀ blk, s.me.st = .block → s.me.blk = some blk →
        exec p.1 s =
          if (s.me.pc - blk.addr).toNat < (p.2 - blk.addr).toNat ∧ (p.2 - blk.addr).toNat < 4 * blk.words
          then .next (s.setMe { linked with pc := p.2 })
          else s.trapped { cause := .illegal, info := encodeWord p.1 })

/-- R119 to R121: a scalar load that no test stops and no older copy holds back completes with the little-endian value at
A + B, sign- or zero-extended, its own strand's held stores standing before memory (R272); nothing else of the
strand changes but what an acquire may count, and no byte changes. The load to `x0` performs and discards.
While a held store of the strand has no place, its translation given up and its page missing or its tables elsewhere, the load waits.
The model's own readings in it: logs 5, 56, 87. -/
def Obligations.ScalarLoads : Prop :=
  ∀ (s : State) (d a b : Reg) (sc : Scope) (acq : Bool) (sp : Space) (x : Nat), s.offers 0 →
  let E := (s.me.getX a + s.me.getX b).toNat
  ∀ p ∈ [(Instr.lb d a b sc acq, 1, true), (.lh d a b sc acq, 2, true), (.lw d a b sc acq, 4, true),
      (.ld d a b sc acq, 8, true), (.lbu d a b sc acq, 1, false), (.lhu d a b sc acq, 2, false),
      (.lwu d a b sc acq, 4, false)],
    ((s.heldUnplaced = true ↔ ∃ h ∈ s.me.storeQ, h.stale = true
        ∧ (s.heldFate s.curCore h = .missing ∨ s.tableAsks s.curCore [h.page] ≠ []))
      ∧ (s.heldUnplaced = true → s.liesAt .load E p.2.1 sp x → s.walksHere s.curStrand E p.2.1 → s.flight s.mySender = none →
        s.flight (s.senderOf (walkAgent s.curStrand)) = none →
        s.interlocked false [{ idx := 0, addr := E, len := p.2.1 }] = false → exec p.1 s = s.waitsIssued p.1))
    ∧ (s.findsAt .load E p.2.1 sp x → s.interlocked false [{ idx := 0, addr := E, len := p.2.1 }] = false →
    ∃ t, exec p.1 s = .next t
      ∧ (let v := leNat (s.loadAs s.me [{ space := sp, addr := x, len := p.2.1 }])
        (s.me.storeQ = [] → v = leNat ((List.range p.2.1).map fun k => (s.memOf sp).get (x + k)))
        ∧ t.me.getX d = if d = 0 then 0 else
            if p.2.2 then BitVec.ofInt 64 (if v < 2 ^ (8 * p.2.1 - 1) then (v : Int) else v - 2 ^ (8 * p.2.1))
            else BitVec.ofNat 64 v)
      ∧ (∀ r, r ≠ d → t.me.getX r = s.me.getX r)
      ∧ ({ t.me.data with x := [], seen := 0 } : Strand) = { s.me.data with x := [], seen := 0 }
      ∧ (s.me.st = .self → t.me.st = .self ∧ t.me.pc = s.me.pc + BitVec.ofNat 64 s.ilen)
      ∧ s.onlyStored t fun _ _ => False)

/-- R119 to R121, R272, R295: a scalar store that no test stops completes. It puts the low bytes of x[d] at A + B, in
deterministic mode except where a byte holds a higher key of the job, or behind a copy command of an earlier interval into
its strand's store queue; the strand goes on, and every other byte and every register stays.
The model's own readings in it: logs 5, 19. -/
def Obligations.ScalarStores : Prop :=
  ∀ (s : State) (d a b : Reg) (sc : Scope) (rel : Bool) (sp : Space) (x : Nat), s.offers 0 →
  let E := (s.me.getX a + s.me.getX b).toNat
  let higher (q : Key) : Prop := q.job = s.myJob ∧ q.device = 0 ∧ (s.myCore.epoch < q.epoch ∨ q.epoch = s.myCore.epoch ∧ s.myTeam < q.core)
  ∀ p ∈ [(Instr.sb d a b sc rel, 1), (.sh d a b sc rel, 2), (.sw d a b sc rel, 4), (.sd d a b sc rel, 8)],
    s.findsAt .store E p.2 sp x → s.interlocked true [{ idx := 0, addr := E, len := p.2 }] = false →
    (rel = true → s.settled sc = true) →
    ∃ t, exec p.1 s = .next t
      ∧ (s.storeHeld = false → ∀ k, k < p.2 →
          let new : Byte := BitVec.ofNat 8 ((s.me.getX d).toNat / 2 ^ (8 * k))
          (s.myCore.det = false → (t.memOf sp).get (x + k) = new ∧ t.keyOf sp (x + k) = none)
          ∧ (s.myCore.det = true → (∀ q, s.keyOf sp (x + k) = some q → ¬ higher q) →
              (t.memOf sp).get (x + k) = new ∧ t.keyOf sp (x + k) = some { job := s.myJob, epoch := s.myCore.epoch, core := s.myTeam })
          ∧ (s.myCore.det = true → ∀ q, s.keyOf sp (x + k) = some q → higher q →
              (t.memOf sp).get (x + k) = (s.memOf sp).get (x + k) ∧ t.keyOf sp (x + k) = some q))
      ∧ (s.storeHeld = true → s.sameBytes t ∧ ∃ h : Held, t.me.storeQ = s.me.storeQ ++ [h] ∧ h.space = sp ∧ h.addr = x
          ∧ h.bytes = leBytes p.2 (s.me.getX d).toNat)
      ∧ (s.storeHeld = false → t.me.storeQ = s.me.storeQ)
      ∧ (s.me.st = .self → t.me.st = .self ∧ t.me.pc = s.me.pc + BitVec.ofNat 64 s.ilen)
      ∧ ({ t.me.data with storeQ := [] } : Strand) = { s.me.data with storeQ := [] }
      ∧ s.onlyStored t fun sp' y => sp' = sp ∧ x ≤ y ∧ y < x + p.2

/-- R120: a scalar access traps, and performs nothing, when it is misaligned, when no translation is found, and when the
page forbids it, in this order, the first before any walk (R190); a translation fault leaves a fault record of the one page,
and is an access violation where that record would have no place (log 72).
R191, R192: the fault record, of a scalar or a vector access: where it lies, what its fields hold, and that the merger gets the
report; every other byte of memory stays.
The model's own readings in it: logs 58, 72. -/
def Obligations.ScalarAccessTraps : Prop :=
  (∀ (s : State) (d a b : Reg) (sc : Scope), s.offers 0 →
  let E := (s.me.getX a + s.me.getX b).toNat
  ∀ p ∈ [(Instr.lb d a b sc false, 1, Access.load), (.lh d a b sc false, 2, .load), (.lw d a b sc false, 4, .load),
      (.ld d a b sc false, 8, .load), (.lbu d a b sc false, 1, .load), (.lhu d a b sc false, 2, .load),
      (.lwu d a b sc false, 4, .load), (.sb d a b sc false, 1, .store), (.sh d a b sc false, 2, .store),
      (.sw d a b sc false, 4, .store), (.sd d a b sc false, 8, .store)],
    s.interlocked p.2.2.writes [{ idx := 0, addr := E, len := p.2.1 }] = false → s.flight s.mySender = none →
    s.flight (s.senderOf (walkAgent s.curStrand)) = none →
    (E % p.2.1 ≠ 0 → exec p.1 s = s.trapped { cause := .misalign, info := E })
    ∧ (E % p.2.1 = 0 → s.walksHere s.curStrand E p.2.1 → s.translate s.curCore p.2.2 false E p.2.1 = .missing →
        match s.reportFault s.curCore s.curStrand p.2.2.kind s.me.pc [0] [E / 4096] with
        | .ok (t, at_) => exec p.1 s = t.trapped { cause := .xlate, info := at_ }
        | .error at_ => exec p.1 s = s.trapped { cause := .access, info := at_ })
    ∧ (E % p.2.1 = 0 → s.walksHere s.curStrand E p.2.1 → s.translate s.curCore p.2.2 false E p.2.1 = .forbidden →
        exec p.1 s = s.trapped { cause := .access, info := E }))
  ∧ ∀ (s : State) (p k kind : Nat) (pc : Word) (failed pages : List Nat) (pl : Place) (sp : Space) (x : Nat),
    (s.core p).place = some pl → s.physicalRange (pl.faultSlot k) 4096 = some (sp, x) → (∀ n, sp ≠ .remote n) →
    k < 256 → kind < 256 → pl.team < 2 ^ 16 → failed.length < 2 ^ 32 → pages.length < 2 ^ 32 →
    (∀ e ∈ failed, e < 16384) → (∀ pg ∈ pages, pg < 2 ^ 52) →
    ∃ t, s.reportFault p k kind pc failed pages = .ok (t, pl.faultSlot k)
      ∧ (let field (o n : Nat) : Nat := leNat ((List.range n).map fun i => (t.memOf sp).get (x + o + i))
        field 0 8 = pl.job.toNat ∧ field 8 2 = pl.team ∧ field 10 1 = k ∧ field 11 1 = kind
        ∧ field 12 4 = (if 248 < pages.length then 1 else 0) ∧ field 16 8 = pc.toNat
        ∧ field 24 4 = failed.length ∧ field 28 4 = pages.length ∧ field 32 4 = min pages.length 248
        ∧ field 36 4 = failed.headD 0 ∧ field 40 24 = 0
        ∧ (∀ e, e < 16384 → (((t.memOf sp).get (x + 64 + e / 8)).getLsbD (e % 8) = true ↔ e ∈ failed))
        ∧ ∀ j, j < 248 → field (0x840 + 8 * j) 8 = 4096 * pages.getD j 0)
      ∧ (∀ sp' y, ¬ (sp' = sp ∧ x ≤ y ∧ y < x + 4096) → (t.memOf sp').get y = (s.memOf sp').get y)
      ∧ (∃ r : FaultReport, t.merger.inbox = s.merger.inbox ++ [r] ∧ r.job = pl.job ∧ r.core = pl.team ∧ r.strand = k
          ∧ r.kind = kind ∧ r.pages = (pages.take 248).map fun pg => BitVec.ofNat 64 (pg * 4096))
      ∧ ∀ q j, (t.core q).strand j = (s.core q).strand j

/-! ## Taking a trap and returning from it -/

/-- R79, R316, R317: a strand's trap. The record, `tpc` and PC say the cause and the resume point, the strand is TRAPPED, a
pending pre-emption request of it is cleared, and nothing else changes. That the trap also gives up whatever the strand waits
for from other devices, its accesses, fetches and walks, is the model's choice (log 53).
The model's own reading in it: log 53. -/
def Obligations.StrandTraps : Prop := ∀ (s : State) (tr : Trap) (resume : Word),
  (tr.code < 256 ∧ tr.reg < 256 ∧ tr.info < 2 ^ 64 ∧ tr.elem < 2 ^ 64 ∧ tr.count < 2 ^ 64) →
  let t := s.trapAt s.curCore s.curStrand tr resume
  t.me.st = .trapped ∧ t.me.fromSt = s.me.st
    ∧ t.me.rec0.toNat % 256 = tr.cause.code ∧ t.me.rec0.toNat / 2 ^ 8 % 2 ^ 8 = tr.code
    ∧ t.me.rec0.toNat / 2 ^ 16 % 2 ^ 8 = (if s.me.st = .block then 1 else 2)
    ∧ t.me.rec0.toNat / 2 ^ 24 = tr.reg
    ∧ t.me.rec1 = resume ∧ t.me.tpc = resume ∧ t.me.pc = resume
    ∧ t.me.rec2.toNat = tr.info ∧ t.me.rec3.toNat = tr.elem ∧ t.me.rec4.toNat = tr.count
    ∧ t.myCore.kpre.getLsbD s.curStrand = false ∧ t.me.blk = s.me.blk ∧ t.me.buf = s.me.buf
    ∧ t.me.data = s.me.data ∧ s.onlyMe t
    ∧ (∀ pl, s.myCore.place = some pl → t.flights = s.flights.filter fun f =>
        !(f.source.job = pl.job && f.source.core = pl.team && f.source.agent % 32 = s.curStrand))

/-- R57, R147, R316, R322: the tests before a vector instruction come in the order of R57: groups that are not aligned or
that partly overlap, then a class that the job does not declare, then one that the core does not offer, then an absent
register, the lowest of them in REG.
The model's own reading in it: log 34. -/
def Obligations.GateOrder : Prop :=
  ∀ (s : State) (i : Instr) (b : Nat) (dst src named : List Group) (masks : Bool),
  (groupsIllegal dst src = true → s.gate i b dst src named masks = some { cause := .illegal, info := encodeWord i })
  ∧ (groupsIllegal dst src = false → s.myCore.useMask.getLsbD b = false →
      s.gate i b dst src named masks = some { cause := .undeclared, info := b })
  ∧ (groupsIllegal dst src = false → s.myCore.useMask.getLsbD b = true → s.myCore.capMask.getLsbD b = false →
      s.gate i b dst src named masks = some { cause := .fenced, info := b })
  ∧ (groupsIllegal dst src = false → s.offers b → (∀ g ∈ named, g.first + g.span ≤ 32) →
      ((∀ g ∈ named, ∀ n, g.first ≤ n → n < g.first + g.span → s.me.vabs.getLsbD n = false) ∧
        (masks = true → s.me.vabs.getLsbD 32 = false) ↔ s.gate i b dst src named masks = none)
      ∧ ∀ tr, s.gate i b dst src named masks = some tr → tr.cause = .vabsent
          ∧ (∀ n, n < 32 → (tr.info.testBit n = true ↔ s.me.vabs.getLsbD n = true
              ∧ ∃ g ∈ named, g.first ≤ n ∧ n < g.first + g.span))
          ∧ (tr.info.testBit 32 = true ↔ masks = true ∧ s.me.vabs.getLsbD 32 = true)
          ∧ tr.info.testBit tr.reg = true ∧ ∀ n, n < tr.reg → tr.info.testBit n = false)

/-- R315, R321, R57: `trap` and `brk` take their traps, the first with the next instruction as its resume point; `tret` goes
to `tpc` in SELF and traps in BLOCK; a word that is no instruction takes the illegal-instruction trap with itself in
INFO. -/
def Obligations.TrapInstructions : Prop := ∀ (s : State) (n : BitVec 6) (w : BitVec 32),
  (s.offers 9 →
    exec (.trap n) s = .next (s.trapAt s.curCore s.curStrand { cause := .software, code := n.toNat } (s.me.pc + 4))
    ∧ exec (.brk n) s = .next (s.trapAt s.curCore s.curStrand { cause := .brk, code := n.toNat } s.me.pc)
    ∧ (s.me.st ≠ .block → exec .tret s = .next (s.setMe { s.me with st := .self, pc := s.me.tpc, wd := 0, waiting := none, partWay := false }))
    ∧ (s.me.st = .block → exec .tret s =
        .next (s.trapAt s.curCore s.curStrand { cause := .illegal, info := encodeWord .tret } s.me.pc)))
  ∧ exec (.illegalInstruction w) s =
      .next (s.trapAt s.curCore s.curStrand { cause := .illegal, info := w.toNat } s.me.pc)

/-! ## Strand control, configuration and masks -/

/-- R79, R102, R105 to R107: `stop` ends the block or the self-run, or in a farm deals the strand its next index or lets it
leave, the last one ending the farm and setting its FARM bit; `go` enters SELF at x[a]; `signal` latches x[a] and sets the
SIG bit. Each completes when nothing holds it back, and waits in place otherwise.
The model's own readings in it: logs 5, 8. -/
def Obligations.StrandControl : Prop := ∀ (s : State) (a : Reg), s.offers 0 →
  (s.settled .core = true →
    (s.me.st = .block ∨ s.me.farm = none →
      exec .stop s = .next (s.setMe (Strand.endBlock { s.me with wd := 0, waiting := none, partWay := false })))
    ∧ (∀ f fm, s.me.st = .self → s.me.farm = some f → s.myCore.farm f = some fm →
      let i := if s.myCore.det then setPosition fm.set s.curStrand + Table.get 0 fm.dealt s.curStrand * setSize fm.set
        else fm.next
      ∃ t, exec .stop s = .next t
        ∧ (i < fm.count → t.me.st = .self ∧ t.me.pc = fm.entry ∧ t.me.getX 31 = BitVec.ofNat 64 i ∧ t.me.farm = some f
            ∧ ∃ fm', t.myCore.farm f = some fm' ∧ fm'.next = fm.next + 1
              ∧ Table.get 0 fm'.dealt s.curStrand = Table.get 0 fm.dealt s.curStrand + 1 ∧ fm'.live = fm.live)
        ∧ (fm.count ≤ i → t.me.farm = none ∧ (s.me.buf = [] → t.me.st = .idle)
            ∧ (∀ k, k ≠ s.curStrand → (t.myCore.farm f = none → fm.live.getLsbD k = false))
            ∧ ((∃ k, k ≠ s.curStrand ∧ fm.live.getLsbD k = true) → ∃ fm', t.myCore.farm f = some fm' ∧ fm'.count = fm.count
              ∧ fm'.live.getLsbD s.curStrand = false ∧ t.myCore.farmEnd = s.myCore.farmEnd)
            ∧ ((∀ k, k ≠ s.curStrand → fm.live.getLsbD k = false) → t.myCore.farm f = none
              ∧ t.myCore.farmEnd = s.myCore.farmEnd ||| BitVec.ofNat 4 (2 ^ f)))
        ∧ (∀ r, r ≠ 31 → t.me.getX r = s.me.getX r) ∧ s.sameBytes t))
  ∧ (s.settled .core = false → exec .stop s = s.waits .stop ∧ exec (.signal a) s = s.waits (.signal a))
  ∧ ((s.me.getX a).toNat % 4 = 0 → exec (.go a) s =
      .next (s.setMe { s.me with st := .self, blk := none, pc := s.me.getX a, wd := 0, waiting := none, partWay := false }))
  ∧ ((s.me.getX a).toNat % 4 ≠ 0 → exec (.go a) s = s.trapped { cause := .misalign, info := (s.me.getX a).toNat })
  ∧ (s.me.sigPend = true → exec (.signal a) s = s.waits (.signal a))
  ∧ (s.me.sigPend = false → s.settled .core = true →
      s.completes (.signal a) { s.me with sig := s.me.getX a, sigPend := true })

/-- R108: `vpost` fills an empty channel with a register and its tag, `vtake` empties it into a register; each waits in
place while the channel does not let it. The other channels, the other registers and every byte stay.
The model's own reading in it: log 8. -/
def Obligations.LinkChannels : Prop := ∀ (s : State) (r : Reg) (ch : BitVec 3), s.offers 0 →
  s.me.vabs.getLsbD r.toNat = false →
  (s.myCore.chan ch.toNat = none → s.postBehind ch = false → s.settled .core = true →
    ∃ t, exec (.vpost r ch) s = .next t
      ∧ (∃ c : Channel, t.myCore.chan ch.toNat = some c ∧ c.bytes = s.me.getV r.toNat ∧ c.tag.toNat = s.me.tag r.toNat)
      ∧ (∀ n, n ≠ ch.toNat → t.myCore.chan n = s.myCore.chan n)
      ∧ t.me = s.me.retire s.ilen ∧ s.sameBytes t)
  ∧ (s.myCore.chan ch.toNat ≠ none → exec (.vpost r ch) s = s.waits (.vpost r ch))
  ∧ (∀ c, s.myCore.chan ch.toNat = some c → s.myCore.takeBehind ch s.curStrand s.tick = false →
    ∃ t, exec (.vtake r ch) s = .next t ∧ t.me.getV r.toNat = c.bytes ∧ t.me.tag r.toNat = c.tag.toNat
      ∧ t.myCore.chan ch.toNat = none ∧ (∀ n, n ≠ ch.toNat → t.myCore.chan n = s.myCore.chan n)
      ∧ (∀ n, n ≠ r.toNat → t.me.getV n = s.me.getV n ∧ t.me.tag n = s.me.tag n)
      ∧ ({ t.me.data with v := [], tags := [], dirty := 0 } : Strand) = { s.me.data with v := [], tags := [], dirty := 0 }
      ∧ s.sameBytes t)
  ∧ (s.myCore.chan ch.toNat = none → exec (.vtake r ch) s = s.waits (.vtake r ch))

/-- R153: `vcfg` sets `vgrp` and the tag of every register, `vgrp` the multiplier alone, `vtag` the tags of one group; no
data changes, and a `vtag` of a group that is not aligned traps.
R154, R155: a strip instruction counts in unbounded arithmetic, caps the count at VL for its width, writes it to
`sbound` and x[d], and closes the ordering interval.
The model's own reading in it: log 24. -/
def Obligations.ConfigurationAndStrips : Prop :=
  (∀ (s : State) (g : BitVec 2) (d : Reg) (tag : BitVec 7),
    s.offers 1 →
    (∃ st, s.completesZero (.vgrp g) st ∧ st = { s.me with vgrp := 2 ^ g.toNat })
    ∧ ((∀ b ∈ tagClasses tag.toNat, s.offers b) →
      (∃ st, s.completesZero (.vcfg g tag) st ∧ st.vgrp = 2 ^ g.toNat ∧ (∀ n, n < 32 → st.tag n = tag.toNat)
        ∧ ({ st with vgrp := 0, tags := [] } : Strand) = { s.me with vgrp := 0, tags := [] })
      ∧ (s.me.controlOk → d.toNat % s.me.vgrp = 0 → (∀ j, j < s.me.vgrp → s.me.vabs.getLsbD (d.toNat + j) = false) →
        ∃ st, s.completesZero (.vtag d tag) st
          ∧ (∀ n, st.tag n = if d.toNat ≤ n ∧ n < d.toNat + s.me.vgrp then tag.toNat else s.me.tag n)
          ∧ ({ st with tags := [] } : Strand) = { s.me with tags := [] }))
    ∧ (s.me.vgrp ≠ 0 → d.toNat % s.me.vgrp ≠ 0 →
        exec (.vtag d tag) s = s.trapped { cause := .illegal, info := encodeWord (.vtag d tag) }))
  ∧ (∀ (s : State) (d a b : Reg) (w : BitVec 3), s.offers 1 → w.toNat < 7 → s.me.controlOk →
    let A := s.me.getX a
    let B := s.me.getX b
    let vl := 16384 * s.me.vgrp / 2 ^ w.toNat
    ∀ p ∈ [(Instr.stripLt d a b w, B.toInt - A.toInt), (.stripLe d a b w, B.toInt - A.toInt + 1),
        (.stripLtu d a b w, (B.toNat : Int) - A.toNat), (.stripLeu d a b w, (B.toNat : Int) - A.toNat + 1),
        (.stripN d a w, (A.toNat : Int))],
      ∃ n : Nat, (n : Int) = min (vl : Int) (max 0 p.2)
        ∧ s.completesZero p.1 ({ s.me with sbound := BitVec.ofNat 32 n, interval := s.me.interval + 1 }.setX d (BitVec.ofNat 64 n))
        ∧ (BitVec.ofNat 32 n).toNat = n)

/-- R157: the mask-logic instructions act on all 2,048 bits, whatever `sbound` holds, and change one mask register.
R158: the mask scans look at the bits below min(`sbound`, 2,048) and write a scalar.
The model's own reading in it: log 24. -/
def Obligations.MaskLogicAndScans : Prop :=
  (∀ (s : State) (d a b : Reg), s.offers 1 → s.me.vabs.getLsbD 32 = false →
    let A := s.me.getM a.toNat
    let B := s.me.getM b.toNat
    let k := (s.me.getX b).toNat
    ∀ p ∈ [(Instr.mand d a b, fun i => A.getLsbD i && B.getLsbD i), (.mor d a b, fun i => A.getLsbD i || B.getLsbD i),
        (.mxor d a b, fun i => A.getLsbD i != B.getLsbD i), (.mandn d a b, fun i => A.getLsbD i && !B.getLsbD i),
        (.mnot d a, fun i => !A.getLsbD i), (.mmov d a, fun i => A.getLsbD i), (.mset d, fun _ => true),
        (.mclr d, fun _ => false), (.mshl d a b, fun i => decide (k ≤ i) && A.getLsbD (i - k)),
        (.mshr d a b, fun i => decide (i + k < 2048) && A.getLsbD (i + k)),
        (.mbrk d a, fun i => (List.range (i + 1)).all fun j => !A.getLsbD j)],
      ∃ w : MReg, s.completesZero p.1 (s.me.setM d.toNat w) ∧ ∀ i, i < 2048 → w.getLsbD i = p.2 i)
  ∧ (∀ (s : State) (d a : Reg), s.offers 1 → s.me.vabs.getLsbD 32 = false →
    let set (i : Nat) : Bool := decide (i < s.me.sbound.toNat) && decide (i < 2048) && (s.me.getM a.toNat).getLsbD i
    s.completesZero (.mcnt d a) (s.me.setX d (BitVec.ofNat 64 ((List.range 2048).filter set).length))
    ∧ (∀ n, set n = true → (∀ j, j < n → set j = false) →
        s.completesZero (.mfirst d a) (s.me.setX d (BitVec.ofNat 64 n)))
    ∧ (∀ n, set n = true → (∀ j, n < j → set j = false) →
        s.completesZero (.mlast d a) (s.me.setX d (BitVec.ofNat 64 n)))
    ∧ ((∀ n, set n = false) → s.completesZero (.mfirst d a) (s.me.setX d 0xFFFFFFFFFFFFFFFF)
        ∧ s.completesZero (.mlast d a) (s.me.setX d 0xFFFFFFFFFFFFFFFF)))

/-! ## Comparison, vector integers and moves between lanes -/

/-- R156: `vcmp` compares the active elements under the operation tag, and every other bit of the mask is 0. A NaN makes eq,
lt, le, gt and ge false and ne true; integers compare signed or unsigned by the tag; floats by value. A signalling NaN of an
active element sets NV under every condition, any NaN under lt, le, gt and ge, and the conversion of a source adds what it
raises (R146, R217).
The model's own readings in it: logs 24, 25. -/
def Obligations.Comparisons : Prop := ∀ (s : State) (d a b m : Reg) (ca cb : Bool) (tag : Nat),
  let k := s.myCore.kind tag
  let x (e : Nat) : Nat := s.operand a tag e
  let y (e : Nat) : Nat := s.operand b tag e
  let nan (e : Nat) : Bool := match k with
    | .flt f => (f.decode (x e)).isNaN || (f.decode (y e)).isNaN
    | _ => false
  let signals (e : Nat) : Bool := match k with
    | .flt f => (f.decode (x e)).isSNaN || (f.decode (y e)).isSNaN
    | _ => false
  let converts (r : Reg) (e : Nat) : Flags := ((s.source r).elem (s.me.tag r.toNat = tag) k .rne 0 e).fl
  let order (e : Nat) : Int := match k with
    | .flt f => (f.decode (x e)).compare (f.decode (y e))
    | .int true w => toSigned w (x e) - toSigned w (y e)
    | _ => (x e : Int) - y e
  ∀ p ∈ [(Instr.vcmpEq d a b m ca cb, true, fun e => !nan e && decide (order e = 0)),
      (.vcmpNe d a b m ca cb, true, fun e => nan e || decide (order e ≠ 0)),
      (.vcmpLt d a b m ca cb, false, fun e => !nan e && decide (order e < 0)),
      (.vcmpLe d a b m ca cb, false, fun e => !nan e && decide (order e ≤ 0)),
      (.vcmpGt d a b m ca cb, false, fun e => !nan e && decide (0 < order e)),
      (.vcmpGe d a b m ca cb, false, fun e => !nan e && decide (0 ≤ order e))],
    s.ready 1 [a, b] [a, b] true tag (fun k => k.isInt || k.isFloat || (p.2.1 && k = .bit)) →
    ∃ t, exec p.1 s = .next t ∧ s.maskOutcome (.next t) d (fun e => s.active m k.width e && p.2.2 e)
      ∧ s.raises t fun j => ∃ e, e < 2048 ∧ s.active m k.width e = true
          ∧ ((converts a e).getLsbD j = true ∨ (converts b e).getLsbD j = true
            ∨ (j = 4 ∧ (signals e = true ∨ (p.2.1 = false ∧ nan e = true))))

/-- R164, R167: the element-by-element instructions with two sources, in unbounded integers: x and y are the W-bit patterns
of the active elements under the operation tag, and V reads one by the tag's signedness. Elements that are not active
keep their values, every register of d takes the operation tag, and nothing else changes.
The model's own reading in it: log 24. -/
def Obligations.VectorArithmetic : Prop := ∀ (s : State) (d a b m : Reg) (ca cb : Bool) (tag : Nat),
  let k := s.myCore.kind tag
  let w := k.width
  let S (x : Nat) : Int := if x < 2 ^ (w - 1) then x else (x : Int) - 2 ^ w
  let V (x : Nat) : Int := if k.signed then S x else x
  let lo : Int := if k.signed then -2 ^ (w - 1) else 0
  let hi : Int := if k.signed then 2 ^ (w - 1) - 1 else 2 ^ w - 1
  let wrap (v : Int) : Nat := (v % 2 ^ w).toNat
  s.ready 2 [d, a, b] [a, b] (m ≠ 31) tag Kind.isInt →
  ∀ p ∈ [(Instr.vadd d a b m ca cb, fun x y => wrap (V x + V y)), (.vsub d a b m ca cb, fun x y => wrap (V x - V y)),
      (.vmin d a b m ca cb, fun x y => if S x ≤ S y then x else y),
      (.vmax d a b m ca cb, fun x y => if S x ≤ S y then y else x),
      (.vminu d a b m ca cb, fun x y => min x y), (.vmaxu d a b m ca cb, fun x y => max x y),
      (.vsadd d a b m ca cb, fun x y => wrap (min hi (max lo (V x + V y)))),
      (.vssub d a b m ca cb, fun x y => wrap (min hi (max lo (V x - V y)))),
      (.vmul d a b m ca cb, fun x y => wrap (V x * V y)),
      (.vshl d a b m ca cb, fun x y => x * 2 ^ (y % w) % 2 ^ w), (.vshr d a b m ca cb, fun x y => x / 2 ^ (y % w)),
      (.vsra d a b m ca cb, fun x y => wrap (S x / 2 ^ (y % w))),
      (.vrot d a b m ca cb, fun x y => (x * 2 ^ (y % w) + x / 2 ^ (w - y % w)) % 2 ^ w)],
    s.vectorResult p.1 d tag w true fun e =>
      if s.active m w e then some (p.2 (s.operand a tag e) (s.operand b tag e)) else none

/-- R166: `vmulh` and `vavg` round the exact product over 2^W, or half the exact sum, to an integer under RM.
The model's own reading in it: log 24. -/
def Obligations.VectorRounding : Prop := ∀ (s : State) (d a b m : Reg) (ca cb : Bool) (tag : Nat) (rm : Rounding),
  let k := s.myCore.kind tag
  let w := k.width
  let V (x : Nat) : Int := if k.signed then toSigned w x else x
  rm ≠ .rsd → s.ready 2 [d, a, b] [a, b] (m ≠ 31) tag Kind.isInt →
  ∀ p ∈ [(Instr.vmulh d a b m ca cb rm, w, fun x y => V x * V y), (.vavg d a b m ca cb rm, 1, fun x y => V x + V y)],
    ∃ q : Nat → Nat → Int, (∀ x y,
        let r := 2 ^ p.2.1 * q x y - p.2.2 x y
        match rm with
        | .rdn => r ≤ 0 ∧ -2 ^ p.2.1 < r
        | .rup => 0 ≤ r ∧ r < 2 ^ p.2.1
        | .rz => (0 ≤ p.2.2 x y → r ≤ 0 ∧ -2 ^ p.2.1 < r) ∧ (p.2.2 x y < 0 → 0 ≤ r ∧ r < 2 ^ p.2.1)
        | .rna => 2 * (r.natAbs : Int) ≤ 2 ^ p.2.1 ∧ (2 * (r.natAbs : Int) = 2 ^ p.2.1 → (0 ≤ p.2.2 x y ↔ 0 < r))
        | _ => 2 * (r.natAbs : Int) ≤ 2 ^ p.2.1 ∧ (2 * (r.natAbs : Int) = 2 ^ p.2.1 → q x y % 2 = 0))
      ∧ s.vectorResult p.1 d tag w true fun e =>
        if s.active m w e then some ((q (s.operand a tag e) (s.operand b tag e) % 2 ^ w).toNat) else none

/-- R162, R167: the logic instructions act bit by bit on integers and on single bits.
R164, R168: the instructions with one source: absolute value, negation and counts.
The model's own reading in it: log 24. -/
def Obligations.VectorLogicAndUnary : Prop :=
  (∀ (s : State) (d a b m : Reg) (ca cb : Bool) (tag : Nat),
    let w := (s.myCore.kind tag).width
    (s.ready 2 [d, a, b] [a, b] (m ≠ 31) tag Kind.isLogic →
      ∀ p ∈ [(Instr.vand d a b m ca cb, fun x y : Nat => x &&& y), (.vor d a b m ca cb, fun x y => x ||| y),
          (.vxor d a b m ca cb, fun x y => x ^^^ y), (.vandn d a b m ca cb, fun x y => x &&& (y ^^^ (2 ^ w - 1)))],
        s.vectorResult p.1 d tag w true fun e =>
          if s.active m w e then some (p.2 (s.operand a tag e) (s.operand b tag e)) else none)
    ∧ (s.ready 2 [d, a] [a] (m ≠ 31) tag Kind.isLogic →
        s.vectorResult (.vnot d a m ca) d tag w true fun e =>
          if s.active m w e then some (s.operand a tag e ^^^ (2 ^ w - 1)) else none))
  ∧ (∀ (s : State) (d a m : Reg) (ca : Bool) (tag : Nat),
    let k := s.myCore.kind tag
    let w := k.width
    let V (x : Nat) : Int := if k.signed then toSigned w x else x
    s.ready 2 [d, a] [a] (m ≠ 31) tag Kind.isInt →
    ∃ zeros : Nat → Nat, (∀ x, x < 2 ^ w → zeros x ≤ w ∧ x < 2 ^ (w - zeros x) ∧ (zeros x < w → 2 ^ (w - 1 - zeros x) ≤ x))
      ∧ ∀ p ∈ [(Instr.vabs d a m ca, fun x => ((V x).natAbs % 2 ^ w : Nat)), (.vneg d a m ca, fun x => (-V x % 2 ^ w).toNat),
          (.vpopc d a m ca, fun x => ((List.range w).filter fun j => x.testBit j).length % 2 ^ w),
          (.vclz d a m ca, fun x => zeros x % 2 ^ w)],
        s.vectorResult p.1 d tag w true fun e => if s.active m w e then some (p.2 (s.operand a tag e)) else none)

/-- R167, R168: the funnel shift and the bit fields, of which `vfsh` and `vbfi` read the old d as their third source, bit by
bit.
R165: `vadc` and `vsbc` add or subtract with a carry bit per element in and out of m[k], below
n = min(VL, `sbound`, MLEN); the bits of m[k] from n on become 0.
The model's own reading in it: log 24. -/
def Obligations.VectorFieldsAndCarry : Prop :=
  (∀ (s : State) (d a b m : Reg) (ca cb : Bool) (tag : Nat),
    let w := (s.myCore.kind tag).width
    let pos (c : Nat) : Nat := c % w
    let len (c : Nat) : Nat := min (c / w % (2 * w)) w
    (s.ready 2 [d, a, b] [a, b] (m ≠ 31) tag Kind.isInt →
      ∃ r : Nat → Nat, (∀ e j, (r e).testBit j =
          (decide (j < len (s.operand b tag e)) && (s.operand a tag e).testBit (pos (s.operand b tag e) + j)))
        ∧ s.vectorResult (.vbfx d a b m ca cb) d tag w true fun e => if s.active m w e then some (r e) else none)
    ∧ (s.ready 2 [d, a, b] [a, b, d] (m ≠ 31) tag Kind.isInt →
      (s.vectorResult (.vfsh d a b m ca cb) d tag w true fun e =>
        if s.active m w e
        then some ((s.operand a tag e * 2 ^ w + s.operand d tag e) / 2 ^ (s.operand b tag e % w) % 2 ^ w) else none)
      ∧ ∃ r : Nat → Nat, (∀ e j, j < w → (r e).testBit j =
            if pos (s.operand b tag e) ≤ j ∧ j < pos (s.operand b tag e) + len (s.operand b tag e)
            then (s.operand a tag e).testBit (j - pos (s.operand b tag e)) else (s.operand d tag e).testBit j)
          ∧ (∀ e, r e < 2 ^ w)
          ∧ s.vectorResult (.vbfi d a b m ca cb) d tag w true fun e => if s.active m w e then some (r e) else none))
  ∧ (∀ (s : State) (d a b k : Reg) (ca cb : Bool) (tag : Nat),
    let w := (s.myCore.kind tag).width
    let n := min (min (16384 * s.me.vgrp / w) s.me.sbound.toNat) 2048
    let x (e : Nat) : Int := s.operand a tag e
    let y (e : Nat) : Int := s.operand b tag e
    let c (e : Nat) : Int := if (s.me.getM k.toNat).getLsbD e then 1 else 0
    s.ready 2 [d, a, b] [a, b] true tag Kind.isInt →
    ∀ p ∈ [(Instr.vadc d a b k ca cb, fun e => x e + y e + c e), (.vsbc d a b k ca cb, fun e => x e - y e - c e)],
      ∃ t, exec p.1 s = .next t
        ∧ (∀ e, e < 16384 * s.me.vgrp / w → elemOf w (t.me.group d.toNat s.me.vgrp) e =
            if e < n then (p.2 e % 2 ^ w).toNat else elemOf w (s.me.group d.toNat s.me.vgrp) e)
        ∧ (∀ e, e < 2048 → (t.me.getM k.toNat).getLsbD e = (decide (e < n) && (decide (p.2 e < 0) || decide (2 ^ w ≤ p.2 e))))
        ∧ (∀ j, j ≠ k.toNat → t.me.getM j = s.me.getM j)
        ∧ (∀ r, t.me.tag r = if d.toNat ≤ r ∧ r < d.toNat + s.me.vgrp then tag else s.me.tag r)
        ∧ (∀ r, r < d.toNat ∨ d.toNat + s.me.vgrp ≤ r → t.me.getV r = s.me.getV r)
        ∧ ({ t.me.data with v := [], m := [], tags := [], dirty := 0, vstart := 0 } : Strand)
            = { s.me.data with v := [], m := [], tags := [], dirty := 0, vstart := 0 }
        ∧ t.me.vstart = 0 ∧ s.onlyMe t)

/-- R169: `vsel` writes every element below min(VL, `sbound`) from a or b by the mask bit; `vmov` copies patterns under a's
tag; `vdup` and `viota` fill the active elements under d's own tag.
R123: an element is written with zeros above a format narrower than its container.
The model's own readings in it: logs 24, 51, 68. -/
def Obligations.VectorMoves : Prop := ∀ (s : State) (d a b m : Reg) (ca cb : Bool) (tag : Nat),
  let k := s.myCore.kind tag
  let w := k.width
  (s.ready 2 [d, a, b] [a, b] (m ≠ 31) tag Kind.isTag →
    s.vectorResult (.vsel d a b m ca cb) d tag w (s.me.tag a.toNat = s.me.tag b.toNat) fun e =>
      if e < min (16384 * s.me.vgrp / w) s.me.sbound.toNat then
        some (k.clip (if m = 31 ∨ (e < 2048 ∧ (s.me.getM m.toNat).getLsbD e = true) then s.operand a tag e
          else s.operand b tag e) % 2 ^ w)
      else none)
  ∧ (s.ready 2 [d, a] [a] (m ≠ 31) tag Kind.isTag →
    s.vectorResult (.vmov d a m ca) d tag w true fun e =>
      if s.active m w e then some (k.clip (elemOf w (s.me.group a.toNat s.me.vgrp) e)) else none)
  ∧ (s.ready 2 [d] [d] (m ≠ 31) tag Kind.isTag →
    s.vectorResult (.vdup d a m) d tag w true fun e =>
      if s.active m w e then some (k.clip ((s.me.getX a).toNat % 2 ^ w)) else none)
  ∧ (s.ready 2 [d] [d] (m ≠ 31) tag Kind.isInt →
    s.vectorResult (.viota d m) d tag w true fun e =>
      if s.active m w e then some (((List.range e).filter fun j => s.active m w j).length % 2 ^ w) else none)

/-- R170: a reduction folds the active elements of a into the seed, element 0 of b, in increasing order, and writes element
0 of d even where it is not active.
The model's own reading in it: log 24. -/
def Obligations.VectorReductions : Prop := ∀ (s : State) (d a b m : Reg) (ca cb : Bool) (tag : Nat),
  let k := s.myCore.kind tag
  let w := k.width
  let V (x : Nat) : Int := if k.signed then toSigned w x else x
  let fold (op : Nat → Nat → Nat) : Nat :=
    ((List.range (16384 * s.me.vgrp / w)).filter fun e => s.active m w e).foldl (fun acc e => op acc (s.operand a tag e))
      (s.operand b tag 0)
  s.ready 2 [d, a, b] [a, b] (m ≠ 31) tag Kind.isInt →
  ∀ p ∈ [(Instr.vredsum d a b m ca cb, fun x y : Nat => (x + y) % 2 ^ w),
      (.vredmin d a b m ca cb, fun x y => if V x ≤ V y then x else y),
      (.vredmax d a b m ca cb, fun x y => if V x ≤ V y then y else x), (.vredand d a b m ca cb, fun x y => x &&& y),
      (.vredor d a b m ca cb, fun x y => x ||| y), (.vredxor d a b m ca cb, fun x y => x ^^^ y)],
    s.vectorResult p.1 d tag w true fun e => if e = 0 then some (fold p.2) else none

/-- R173, R176, R178: the moves of one source: slides, reversal, compression and expansion; positions are read in full
before any is written, and one without a source takes the low W bits of `vfill`.
R123: an element is written with zeros above a format narrower than its container.
R176, R177: `vzip` and `vunzip` interleave two sources, an index at or above n reading `vfill` (between equal tags; log 26
says what mixed tags take); `vgath` takes the element that its index names, or `vfill`.
The model's own readings in it: logs 24, 26, 51. -/
def Obligations.CrossLane : Prop :=
  (∀ (s : State) (d a b m : Reg) (ca : Bool) (tag : Nat),
    let clip := (s.myCore.kind tag).clip
    let w := (s.myCore.kind tag).width
    let n := min (16384 * s.me.vgrp / w) s.me.sbound.toNat
    let k := (s.me.getX b).toNat
    let src (e : Nat) : Nat := elemOf w (s.me.group a.toNat s.me.vgrp) e
    let fill := s.me.vfill.toNat % 2 ^ w
    let below (e : Nat) : Nat := ((List.range e).filter fun j => s.active m w j).length
    s.ready 3 [d, a] [a] (m ≠ 31) tag Kind.isPlain →
    (∀ p ∈ [(Instr.vslup d a b m ca, fun e => if e < k then fill else src (e - k)),
        (.vsldn d a b m ca, fun e => if n ≤ e + k then fill else src (e + k)),
        (.vrev d a m ca, fun e => src (n - 1 - e)), (.vexpd d a m ca, fun e => src (below e))],
      s.vectorResult p.1 d tag w true fun e => if s.active m w e then some (clip (p.2 e)) else none)
    ∧ ∃ packed : Nat → Nat, (∀ e, s.active m w e = true → packed (below e) = src e)
        ∧ (∀ c, below n ≤ c → packed c = fill)
        ∧ s.vectorResult (.vcomp d a m ca) d tag w true fun e => if e < n then some (clip (packed e)) else none)
  ∧ (∀ (s : State) (d a b m : Reg) (ca cb : Bool) (tag : Nat),
    let clip := (s.myCore.kind tag).clip
    let w := (s.myCore.kind tag).width
    let vl := 16384 * s.me.vgrp / w
    let n := min vl s.me.sbound.toNat
    let fill := s.me.vfill.toNat % 2 ^ w
    let from_ (r : Reg) (j : Nat) : Nat := if j < n then elemOf w (s.me.group r.toNat s.me.vgrp) j else fill
    (s.ready 3 [d, a, b] [a, b] (m ≠ 31) tag Kind.isPlain → s.me.tag a.toNat = s.me.tag b.toNat →
      (s.vectorResult (.vzip d a b m ca cb) d tag w true fun e =>
        if s.active m w e then some (clip (if e % 2 = 0 then from_ a (e / 2) else from_ b (e / 2))) else none)
      ∧ s.vectorResult (.vunzip d a b m ca cb) d tag w true fun e =>
        if s.active m w e then some (clip (if e < vl / 2 then from_ a (2 * e) else from_ b (2 * e - vl))) else none)
    ∧ (let kb := s.myCore.kind (s.me.tag b.toNat)
      let span := max 1 (s.me.vgrp * kb.width / w)
      let index (e : Nat) : Int :=
        if kb.signed then toSigned kb.width (elemOf kb.width (s.me.group b.toNat span) e)
        else elemOf kb.width (s.me.group b.toNat span) e
      s.ready 3 [d, a] [a] (m ≠ 31) tag Kind.isPlain → kb.isInt = true → (∀ c ∈ tagClasses (s.me.tag b.toNat), s.offers c) →
      b.toNat % span = 0 → span ≤ 8 → (∀ j, j < span → s.me.vabs.getLsbD (b.toNat + j) = false) →
      (b = d ∧ span = s.me.vgrp ∨ b.toNat + span ≤ d.toNat ∨ d.toNat + s.me.vgrp ≤ b.toNat) →
      s.vectorResult (.vgath d a b m ca cb) d tag w true fun e =>
        if s.active m w e then
          some (clip (if 0 ≤ index e ∧ index e < n then elemOf w (s.me.group a.toNat s.me.vgrp) (index e).toNat else fill))
        else none))

/-- R159, R179 to R181: `mfromidx`, `visect` and `vconf` form masks; `vtopk` writes the indices of the largest active keys
in order, none for a missing key being 0xFFFFFFFF.
The model's own reading in it: log 24. -/
def Obligations.IndexSets : Prop := ∀ (s : State) (d a b m : Reg) (ca cb : Bool) (tag : Nat),
  let k := s.myCore.kind tag
  let w := k.width
  let vl := 16384 * s.me.vgrp / w
  let n := min vl s.me.sbound.toNat
  let V (e : Nat) : Int :=
    if k.signed then toSigned w (elemOf w (s.me.group a.toNat s.me.vgrp) e) else elemOf w (s.me.group a.toNat s.me.vgrp) e
  (s.ready 1 [a] [a] true tag Kind.isInt →
    s.maskResult (.mfromidx d a m ca) d fun j => (List.range vl).any fun e => s.active m w e && decide (V e = j))
  ∧ (s.ready 3 [a, b] [a, b] true tag Kind.isInt →
    s.maskResult (.visect d a b m ca cb) d fun e =>
      s.active m w e && (List.range n).any fun j => decide (s.operand b tag j = s.operand a tag e))
  ∧ (s.ready 3 [a] [a] true tag Kind.isInt →
    s.maskResult (.vconf d a m ca) d fun e =>
      s.active m w e && (List.range e).all fun j => !(s.active m w j && decide (V j = V e)))
  ∧ (s.ready 3 [a] [a] (m ≠ 31) tag (fun k => k.isInt || k.isFloat) → s.offers 18 → s.me.vabs.getLsbD d.toNat = false →
    (s.me.vgrp = 1 ∨ d.toNat < a.toNat ∨ a.toNat + s.me.vgrp ≤ d.toNat) →
    let kk := min (s.me.getX b).toNat 512
    let key (e : Nat) : Nat := elemOf w (s.me.group a.toNat s.me.vgrp) e
    ∃ t, ∃ ranked : List Nat, exec (.vtopk d a b m ca) s = .next t
      ∧ (∀ e, e ∈ ranked ↔ s.active m w e = true) ∧ ranked.Nodup
      ∧ ranked.Pairwise (fun i j => keyAbove k (key i) (key j) = true ∨ (keyAbove k (key j) (key i) = false ∧ i < j))
      ∧ (∀ r, r < 512 → elemOf 32 (t.me.getV d.toNat).toNat r =
          if r < kk then ranked.getD r 0xFFFFFFFF else elemOf 32 (s.me.getV d.toNat).toNat r)
      ∧ (∀ r, t.me.tag r = if r = d.toNat then 6 else s.me.tag r) ∧ (∀ r, r ≠ d.toNat → t.me.getV r = s.me.getV r)
      ∧ ({ t.me.data with v := [], tags := [], dirty := 0, vstart := 0 } : Strand)
          = { s.me.data with v := [], tags := [], dirty := 0, vstart := 0 } ∧ s.onlyMe t)


/-! ## Vector memory -/

/-- R187, R188, R198: the unit-stride, strided and indexed loads. Each live element is read, little-endian, at base plus
element offset modulo 2^64 and written to d at the width of d's tag (8 bits for a narrower one in the unit-stride forms);
nothing else is written. Aligned elements that are found and that no older copy holds back complete.
R190 to R192: where an element is misaligned, has no translation or is forbidden, the load traps and performs nothing.
R193, R203: `vldff` loads as `vld` where every element is found and reports VL capped at `sbound`; where an element
other than the lowest active one is not found it loads those below it and reports its index, and a run after a stop keeps
the trim of the run before it. `vpf` completes and changes nothing.
The model's own readings in it: logs 5, 28, 51, 53, 72. -/
def Obligations.VectorLoads : Prop :=
  (∀ (s : State) (d a b m : Reg) (cb : Bool) (tag : Nat) (sp : Nat → Space) (x : Nat → Nat),
    let A := (s.me.getX a).toNat
    let k := s.myCore.kind tag
    let w := k.width
    s.ready 4 [d] [d] (m ≠ 31) tag (fun _ => true) → s.cut = none → s.mayRelease →
    let loads (i : Instr) (w : Nat) (offset : Nat → Int) : Prop :=
      let E (e : Nat) : Nat := ((A + offset e) % 2 ^ 64).toNat
      let live (e : Nat) : Bool := s.live false m w e
      s.trapsFirst i .load (w / 8) E live ∧ (s.unobstructed false E (w / 8) live → (∀ e, live e = true → s.findsAt .load (E e) (w / 8) (sp e) (x e)) →
      s.loadsInto i d tag w s.me.vffi fun e => if live e then some (moveClip k (s.loaded (sp e) (x e) (w / 8))) else none)
    loads (.vld d a m) (max 8 w) (fun e => ((e * (max 8 w / 8) : Nat) : Int))
    ∧ (8 ≤ w → loads (.vlds d a b m) w fun e => e * (s.me.getX b).toInt)
    ∧ (8 ≤ w → s.indexReady b w (some d) → loads (.vldx d a b m cb) w fun e => s.indexAt b w e * (w / 8 : Nat))
    ∧ (s.me.storeQ = [] → ∀ sp x n, s.loaded sp x n = leNat ((List.range n).map fun k => (s.memOf sp).get (x + k))))
  ∧ (∀ (s : State) (d a m : Reg) (tag : Nat) (sp : Nat → Space) (x : Nat → Nat),
    let k := s.myCore.kind tag
    let w := max 8 k.width
    let E (e : Nat) : Nat := ((s.me.getX a).toNat + e * (w / 8)) % 2 ^ 64
    s.ready 4 [d] [d] (m ≠ 31) tag (fun _ => true) → s.cut = none → s.mayRelease →
    let live (e : Nat) : Bool := s.live false m w e && (s.me.trimmed.map fun f => decide (e < f.toNat)).getD true
    let whole : BitVec 32 := s.me.trimmed.getD (BitVec.ofNat 32 (min (16384 * s.me.vgrp / w) s.me.sbound.toNat))
    let fails (e : Nat) : Prop := ∀ sp x, ¬ s.liesAt .load (E e) (w / 8) sp x
    ((∃ e, live e = true ∧ E e % (w / 8) ≠ 0) ∨ (∃ e, live e = true ∧ fails e ∧ ∀ f, f < e → s.active m w f = false) →
      s.trapsFirst (.vldff d a m) .load (w / 8) E live)
    ∧ (s.unobstructed false E (w / 8) live → (∀ e, live e = true → s.findsAt .load (E e) (w / 8) (sp e) (x e)) →
      s.loadsInto (.vldff d a m) d tag w whole fun e =>
        if live e then some (moveClip k (s.loaded (sp e) (x e) (w / 8))) else none)
    ∧ (∀ f, live f = true → (∃ e, e < f ∧ s.active m w e = true) → fails f →
      (∀ e, live e = true → E e % (w / 8) = 0 ∧ s.walksHere s.curStrand (E e) (w / 8)) → s.unobstructed false E (w / 8) (fun e => live e && decide (e < f)) →
      (∀ e, live e = true → e < f → s.findsAt .load (E e) (w / 8) (sp e) (x e)) →
      s.loadsInto (.vldff d a m) d tag w (BitVec.ofNat 32 f) fun e =>
        if live e && decide (e < f) then some (moveClip k (s.loaded (sp e) (x e) (w / 8))) else none)
    ∧ s.completes (.vpf a m) s.me)

/-- R187, R188, R198: the unit-stride, strided and indexed stores.
R190 to R192: where an element is misaligned, has no translation or is forbidden, the store traps and performs nothing.
The model's own readings in it: logs 5, 28, 51, 53, 72. -/
def Obligations.VectorStores : Prop := ∀ (s : State) (d a b m : Reg) (ca cb : Bool) (tag : Nat) (sp : Nat → Space) (x : Nat → Nat),
  let D := (s.me.getX d).toNat
  let k := s.myCore.kind tag
  let w := k.width
  s.ready 4 [b] [b] (m ≠ 31) tag (fun _ => true) → s.cut = none → s.mayRelease →
  let stores (i : Instr) (w : Nat) (offset : Nat → Int) : Prop :=
    let E (e : Nat) : Nat := ((D + offset e) % 2 ^ 64).toNat
    let live (e : Nat) : Bool := s.live false m w e
    s.trapsFirst i .store (w / 8) E live
    ∧ (s.unobstructed true E (w / 8) live → (∀ e, live e = true → s.findsAt .store (E e) (w / 8) (sp e) (x e)) →
      s.storesFrom i (w / 8) live sp x fun e => moveClip k (elemOf w (s.me.group b.toNat s.me.vgrp) e))
  stores (.vst d b m cb) (max 8 w) (fun e => ((e * (max 8 w / 8) : Nat) : Int))
  ∧ (8 ≤ w → stores (.vsts d a b m cb) w fun e => e * (s.me.getX a).toInt)
  ∧ (8 ≤ w → s.indexReady a w none → stores (.vstx d a b m ca cb) w fun e => s.indexAt a w e * (w / 8 : Nat))

/-- R133, R194: block-scaled segments of 32 elements of n bits and a scale word, whose bits [15:10] are ignored on a load and
zero on a store. The scales lie in the group behind the elements, which takes the tag n16.
The model's own readings in it: logs 5, 28. -/
def Obligations.Segments : Prop := ∀ (s : State) (d m : Reg) (a : Reg) (cb : Bool) (tag n : Nat) (at_ : Nat → Nat → Space × Nat),
  s.myCore.kind tag = .bs n → s.offers 17 → s.ready 4 [d] [d] (m ≠ 31) tag (fun _ => true) →
  d.toNat + 2 * s.me.vgrp ≤ 32 → (∀ j, j < s.me.vgrp → s.me.vabs.getLsbD (d.toNat + s.me.vgrp + j) = false) →
  s.cut = none → s.mayRelease →
  let g := s.me.vgrp
  let count := 16384 * g / (32 * n)
  let live (j : Nat) : Bool := s.live false m (32 * n) j
  let E (j : Nat) : Nat := ((s.me.getX a).toNat + j * (4 * n + 2)) % 2 ^ 64
  let scale (j : Nat) : Nat := elemOf 16 (s.me.group (d.toNat + g) g) j
  let data (j : Nat) : Nat := elemOf (32 * n) (s.me.group d.toNat g) j
  (s.unobstructed false E (4 * n + 2) live → (∀ j, live j = true → s.findsBytes .load (E j) (4 * n + 2) (at_ j)) →
    ∃ t, exec (.vldseg d a m) s = .next t
      ∧ (∀ j, j < count → elemOf (32 * n) (t.me.group d.toNat g) j =
          if live j then s.loadedBytes (4 * n + 2) (at_ j) % 2 ^ (32 * n) else data j)
      ∧ (∀ j, j < 1024 * g → elemOf 16 (t.me.group (d.toNat + g) g) j =
          if live j then s.loadedBytes (4 * n + 2) (at_ j) / 2 ^ (32 * n) % 1024 else scale j)
      ∧ (∀ r, t.me.tag r = if d.toNat ≤ r ∧ r < d.toNat + g then tag
          else if d.toNat + g ≤ r ∧ r < d.toNat + 2 * g then 5 else s.me.tag r)
      ∧ (∀ r, r < d.toNat ∨ d.toNat + 2 * g ≤ r → t.me.getV r = s.me.getV r)
      ∧ ({ t.me.data with v := [], tags := [], dirty := 0, vstart := 0, vdValid := false, vdone := 0, seen := 0 } : Strand)
          = { s.me.data with v := [], tags := [], dirty := 0, vstart := 0, vdValid := false, vdone := 0, seen := 0 }
      ∧ t.me.vstart = 0 ∧ s.onlyStored t fun _ _ => False)
  ∧ (s.unobstructed true E (4 * n + 2) live → (∀ j, live j = true → s.findsBytes .store (E j) (4 * n + 2) (at_ j)) →
    (∀ i j k l, live i = true → live j = true → k < 4 * n + 2 → l < 4 * n + 2 → at_ i k = at_ j l → i = j ∧ k = l) →
    ∃ t, exec (.vstseg a d m cb) s = .next t
      ∧ (s.storeHeld = false → s.myCore.det = false → ∀ j k, live j = true → k < 4 * n + 2 →
          (t.memOf (at_ j k).1).get (at_ j k).2 =
            BitVec.ofNat 8 ((data j + 2 ^ (32 * n) * (scale j % 1024)) / 2 ^ (8 * k)))
      ∧ (s.storeHeld = true → s.sameBytes t)
      ∧ ({ t.me.data with storeQ := [], vstart := 0, vdValid := false, vdone := 0 } : Strand)
          = { s.me.data with storeQ := [], vstart := 0, vdValid := false, vdone := 0 }
      ∧ t.me.vstart = 0 ∧ s.onlyStored t fun sp y => ∃ j k, live j = true ∧ k < 4 * n + 2 ∧ at_ j k = (sp, y))

/-- R187, R199, R200: the vector atomics. In increasing element order each live element reads its place, d receives what
was read, and the place takes the new value; elements at one place follow one another. `vcas` compares without the bits beyond
a narrow format (R123).
R190 to R192: where an element is misaligned, has no translation or is forbidden, the atomic traps and performs nothing.
The model's own readings in it: logs 5, 28, 51, 53, 72. -/
def Obligations.VectorAtomics : Prop := ∀ (s : State) (d a b m : Reg) (ca cb : Bool) (tag : Nat) (sp : Nat → Space) (x : Nat → Nat),
  let k := s.myCore.kind tag
  let w := k.width
  let V (v : Nat) : Int := if k.signed then toSigned w v else v
  let live (e : Nat) : Bool := s.live true m w e
  let E (e : Nat) : Nat := elemOf 64 (s.me.group a.toNat (max 1 (s.me.vgrp * 64 / w))) e
  let c (e : Nat) : Nat := elemOf w (s.me.group d.toNat s.me.vgrp) e
  s.ready 4 [d, b] [b] (m ≠ 31) tag (fun k => decide (8 ≤ k.width)) → s.cut = none → s.mayRelease → s.storeHeld = false →
  s.indexReady a w (some d) → (s.myCore.kind (s.me.tag a.toNat)).width = 64 →
  ∀ p ∈ [(Instr.vamoAdd d a b m ca cb, k.isInt, fun (_ v old : Nat) => (old + v) % 2 ^ w),
      (.vamoMin d a b m ca cb, k.isInt, fun _ v old => if V old ≤ V v then old else v),
      (.vamoMax d a b m ca cb, k.isInt, fun _ v old => if V old ≤ V v then v else old),
      (.vamoAnd d a b m ca cb, k.isInt, fun _ v old => old &&& v), (.vamoOr d a b m ca cb, k.isInt, fun _ v old => old ||| v),
      (.vamoXor d a b m ca cb, k.isInt, fun _ v old => old ^^^ v), (.vamoSwap d a b m ca cb, true, fun _ v _ => k.clip v),
      (.vcas d a b m ca cb, decide (Machine.tagCode (s.me.tag d.toNat) = Machine.tagCode tag), fun c v old => if k.clip old = k.clip c then k.clip v else old)],
    p.2.1 = true → s.trapsFirst p.1 .rmw (w / 8) E live ∧
    (s.unobstructed true E (w / 8) live → (∀ e, live e = true → s.findsAt .rmw (E e) (w / 8) (sp e) (x e)) →
    ∃ t, ∃ before : Nat → Nat, exec p.1 s = .next t
      ∧ (let new (e : Nat) : Nat := p.2.2 (c e) (elemOf w (s.me.group b.toNat s.me.vgrp) e) (before e)
        (∀ e, live e = true → (∀ f, live f = true → f < e → ¬ (sp f = sp e ∧ x f = x e)) →
          before e = leNat ((List.range (w / 8)).map fun j => (s.memOf (sp e)).get (x e + j)))
        ∧ (∀ e f, live e = true → live f = true → f < e → sp f = sp e → x f = x e →
            (∀ g, live g = true → f < g → g < e → ¬ (sp g = sp e ∧ x g = x e)) → before e = new f)
        ∧ ∀ e j, live e = true → j < w / 8 → (∀ f, live f = true → e < f → ¬ (sp f = sp e ∧ x f = x e)) →
            (t.memOf (sp e)).get (x e + j) = BitVec.ofNat 8 (new e / 2 ^ (8 * j)))
      ∧ (∀ e, e < 16384 * s.me.vgrp / w → elemOf w (t.me.group d.toNat s.me.vgrp) e =
          if live e then k.clip (before e) else c e)
      ∧ (∀ r, t.me.tag r = if d.toNat ≤ r ∧ r < d.toNat + s.me.vgrp then tag else s.me.tag r)
      ∧ (∀ r, r < d.toNat ∨ d.toNat + s.me.vgrp ≤ r → t.me.getV r = s.me.getV r)
      ∧ ({ t.me.data with v := [], tags := [], dirty := 0, vstart := 0, vdValid := false, vdone := 0, seen := 0 } : Strand)
          = { s.me.data with v := [], tags := [], dirty := 0, vstart := 0, vdValid := false, vdone := 0, seen := 0 }
      ∧ t.me.vstart = 0 ∧ t.me.vdValid = false
      ∧ s.onlyStored t fun sp' y => ∃ e, live e = true ∧ sp' = sp e ∧ x e ≤ y ∧ y < x e + w / 8)

/-- R138, R201: `vsca` adds to each integer the sum of the elements that name it, modulo 2^W; `vfacc` adds each element
exactly, in units of 2^-149, to a 384-bit cell, which becomes the NaN code for a NaN, an infinity or a sum out of range.
R202, R288: `vrred` passes its elements to the near-memory reduce units of this device or of another: one packet for each
4 KiB unit that they reach, and an element that is no integer goes to a 48-byte cell; no byte changes until a unit applies
its packet.
That a 48-byte cell on two 4 KiB units goes whole into the packet of its first byte is the model's choice (log 59).
The model's own readings in it: logs 5, 28, 29, 52, 53, 59, 73. -/
def Obligations.AdditionsInMemory : Prop :=
  (∀ (s : State) (d a b m : Reg) (ca cb : Bool) (tag : Nat) (sp : Nat → Space) (x : Nat → Nat)
      (at_ : Nat → Nat → Space × Nat),
    let k := s.myCore.kind tag
    let w := k.width
    let live (e : Nat) : Bool := s.live true m w e
    let data (e : Nat) : Nat := elemOf w (s.me.group b.toNat s.me.vgrp) e
    let quiet (t : State) : Prop :=
      ({ t.me.data with vstart := 0, vdValid := false, vdone := 0 } : Strand)
        = { s.me.data with vstart := 0, vdValid := false, vdone := 0 } ∧ t.me.vstart = 0 ∧ t.me.vdValid = false
    s.ready 4 [b] [b] (m ≠ 31) tag (fun _ => true) → s.cut = none → s.mayRelease → s.storeHeld = false →
    s.indexReady a w none →
    (k.isInt = true →
      let E (e : Nat) : Nat := (((s.me.getX d).toNat + s.indexAt a w e * (w / 8 : Nat)) % 2 ^ 64).toNat
      s.unobstructed true E (w / 8) live → (∀ e, live e = true → s.findsAt .rmw (E e) (w / 8) (sp e) (x e)) →
      ∃ t, exec (.vsca d a b m ca cb) s = .next t
        ∧ (∀ e j, live e = true → j < w / 8 →
            let here (f : Nat) : Bool := live f && decide (sp f = sp e) && decide (x f = x e)
            let sum := (((List.range (16384 * s.me.vgrp / w)).filter here).map data).sum
            (t.memOf (sp e)).get (x e + j) = BitVec.ofNat 8
              ((leNat ((List.range (w / 8)).map fun i => (s.memOf (sp e)).get (x e + i)) + sum) % 2 ^ w / 2 ^ (8 * j)))
        ∧ quiet t ∧ s.onlyStored t fun sp' y => ∃ e, live e = true ∧ sp' = sp e ∧ x e ≤ y ∧ y < x e + w / 8)
    ∧ (cellTag tag = true →
      let E (e : Nat) : Nat := (((s.me.getX d).toNat + s.indexAt a w e * 48) % 2 ^ 64).toNat
      let add (old : Nat) (u : Option Int) : Nat := match u with
        | none => 2 ^ 383
        | some v =>
          let c : Int := toSigned 384 old + v
          if old = 2 ^ 383 ∨ 2 ^ 383 ≤ c.natAbs then 2 ^ 383 else (c % 2 ^ 384).toNat
      s.unobstructed true E 48 live →
      (∀ e, live e = true → E e % 16 = 0 ∧ s.findsBytes .rmw (E e) 48 (at_ e)) →
      (∀ e f i j, live e = true → live f = true → i < 48 → j < 48 → at_ e i = at_ f j → i = j ∧ ∀ l, l < 48 → at_ e l = at_ f l) →
      ∃ t, ∃ before : Nat → Nat, exec (.vfacc d a b m ca cb) s = .next t
        ∧ (let new (e : Nat) : Nat := add (before e) (cellUnits k (data e))
          (∀ e, live e = true → (∀ f, live f = true → f < e → at_ f 0 ≠ at_ e 0) →
            before e = leNat ((List.range 48).map fun i => (s.memOf (at_ e i).1).get (at_ e i).2))
          ∧ (∀ e f, live e = true → live f = true → f < e → at_ f 0 = at_ e 0 →
              (∀ g, live g = true → f < g → g < e → at_ g 0 ≠ at_ e 0) → before e = new f)
          ∧ ∀ e j, live e = true → j < 48 → (∀ f, live f = true → e < f → at_ f 0 ≠ at_ e 0) →
              (t.memOf (at_ e j).1).get (at_ e j).2 = BitVec.ofNat 8 (new e / 2 ^ (8 * j)))
        ∧ quiet t ∧ s.onlyStored t fun sp' y => ∃ e j, live e = true ∧ j < 48 ∧ at_ e j = (sp', y)))
  ∧ (∀ (s : State) (d a b m : Reg) (cb : Bool) (tag : Nat) (x : Nat → Nat → Nat),
    let k := s.myCore.kind tag
    let w := k.width
    let bytes := if k.isInt then w / 8 else 48
    let live (e : Nat) : Bool := s.live true m w e
    let E (e : Nat) : Nat := ((s.me.getX d).toNat + e * bytes) % 2 ^ 64
    let data (e : Nat) : Nat := elemOf w (s.me.group b.toNat s.me.vgrp) e
    let scale (e : Nat) : Nat := elemOf 16 (s.me.group (b.toNat + s.me.vgrp) s.me.vgrp) (e / 32) % 1024
    let blockUnits (n e : Nat) : Option Int :=
      if scale e = 1023 then none
      else if scale e = 0 then some 0
      else some (roundedInt .rne (if n = 1 then (if data e = 0 then 1 else -1) else toSigned n (data e)) (scale e - 511 + 149))
    let add (e at0 at1 : Nat) : ReduceAdd := match k with
      | .int _ _ => .int (BitVec.ofNat 64 at0) bytes (data e)
      | .bs n => .cell (BitVec.ofNat 64 at0) (BitVec.ofNat 64 at1) (blockUnits n e)
      | _ => .cell (BitVec.ofNat 64 at0) (BitVec.ofNat 64 at1) (cellUnits k (data e))
    let unit (pg : Nat) : List Nat := (List.range (16384 * s.me.vgrp / w)).filter fun e => live e && decide (E e / 4096 = pg)
    let quiet (t : State) : Prop :=
      ({ t.me.data with vstart := 0, vdValid := false, vdone := 0 } : Strand)
        = { s.me.data with vstart := 0, vdValid := false, vdone := 0 } ∧ t.me.vstart = 0 ∧ t.me.vdValid = false
        ∧ s.sameBytes t
    s.ready 4 [b] [b] (m ≠ 31) tag (fun _ => true) → s.cut = none → s.mayRelease → s.storeHeld = false →
    (k.isInt = true ∨ cellTag tag = true
      ∨ (s.segmentBad b = false ∧ s.offers 17
          ∧ ∀ j, j < s.me.vgrp → s.me.vabs.getLsbD (b.toNat + s.me.vgrp + j) = false)) →
    (∀ e, live e = true → E e % (if k.isInt then bytes else 16) = 0) →
    (((s.me.getX a).toNat = 0 ∨ (s.me.getX a).toNat = s.devid.toNat) → s.unobstructed true E bytes live →
      (∀ e, live e = true → s.walksHere s.curStrand (E e) bytes) →
      (∀ e j, live e = true → j < bytes → s.translate s.curCore .reduce false ((E e + j) % 2 ^ 64) 1 = .at_ .device (x e j)
        ∧ s.unitWaits s.mySender true [{ space := .device, addr := x e j, len := 1 }] = false) →
      ∃ t, ∃ sent : List Reduce, ∃ pages : List Nat, exec (.vrred d a b m cb) s = .next t ∧ t.nmrQ = s.nmrQ ++ sent
        ∧ pages.Nodup ∧ (∀ pg, pg ∈ pages ↔ ∃ e, live e = true ∧ E e / 4096 = pg)
        ∧ sent.map Reduce.adds = pages.map (fun pg => (unit pg).map fun e =>
            add e (x e 0) (if E e % 4096 + bytes ≤ 4096 then 0 else x e (4096 - E e % 4096)))
        ∧ (∀ r ∈ sent, r.sent.device = 0 ∧ r.sent.job = s.myJob ∧ r.page % 4096 = 0
            ∧ ∃ e, live e = true ∧ r.page = x e 0 / 4096 * 4096)
        ∧ quiet t ∧ ({ t with cores := [], nmrQ := [], askId := 0 } : State) = { s with cores := [], nmrQ := [], askId := 0 })
    ∧ (let n := (s.me.getX a).toNat
      n ≠ 0 → n ≠ s.devid.toNat → s.reaches n = true → s.linksUp →
      ∃ t, ∃ sent : List ReducePacket, ∃ pages : List Nat, exec (.vrred d a b m cb) s = .next t
        ∧ t.remoteQ = s.remoteQ ++ sent.map (fun pkt => (n, pkt)) ∧ t.nmrQ = s.nmrQ
        ∧ pages.Nodup ∧ (∀ pg, pg ∈ pages ↔ ∃ e, live e = true ∧ E e / 4096 = pg)
        ∧ sent.map ReducePacket.adds = pages.map (fun pg => (unit pg).map fun e => add e (E e) ((E e / 4096 + 1) * 4096))
        ∧ sent.map ReducePacket.page = pages.map (fun pg => BitVec.ofNat 64 (pg * 4096))
        ∧ (∀ pkt ∈ sent, pkt.device = s.devid.toNat ∧ pkt.job = s.myJob
            ∧ ∃ p, s.route n = some p ∧ ∃ f ∈ (t.port p).replay ++ (t.port p).queue, f.load = .reduce n pkt)
        ∧ quiet t))

/-- R53, R55: an attribute pair executes its vector memory word, of 8 bytes, under the attribute's scope and order; loads take
rlx and acq, stores and the instructions without a result rlx and rel, atomics every order, and any other pair is the
illegal-instruction trap.
R287 to R290, R295: `fence` waits for every earlier access: no own copy command, held store or local reduce is left, no own
reduce waits to be sent, and for `.fab` and `.sys` none and no write awaits another device's answer; a fence of one strand
waits for nothing. In deterministic mode at device scope or wider it moves the core's epoch past all that the strand has
met; `convoy` waits in deterministic mode for every earlier instruction.
That INFO of an illegal pair is the attribute word is the model's choice (log 60).
The model's own readings in it: logs 8, 41, 60. -/
def Obligations.AttributesAndFences : Prop :=
  (∀ (s : State) (sc : Scope) (od : Sys2Proof.Ordering) (d a b m : Reg) (ca cb : Bool),
    let t := { s with attr := some (sc, od) }
    let bad (i : Instr) : Prop := exec (.memoryAttributeWord sc od i) s =
      s.trapped { cause := .illegal, info := encodeWord (.memoryAttributeWord sc od i) }
    (∀ i ∈ [Instr.vld d a m, .vldff d a m, .vpf a m, .vlds d a b m, .vldx d a b m cb, .vldseg d a m],
      if od = .rlx ∨ od = .acq then exec (.memoryAttributeWord sc od i) s = exec i t else bad i)
    ∧ (∀ i ∈ [Instr.vst d b m cb, .vsts d a b m cb, .vstx d a b m ca cb, .vstseg d b m cb, .vsca d a b m ca cb,
        .vfacc d a b m ca cb, .vrred d a b m cb],
      if od = .rlx ∨ od = .rel then exec (.memoryAttributeWord sc od i) s = exec i t else bad i)
    ∧ (∀ i ∈ [Instr.vamoAdd d a b m ca cb, .vamoMin d a b m ca cb, .vamoMax d a b m ca cb, .vamoAnd d a b m ca cb,
        .vamoOr d a b m ca cb, .vamoXor d a b m ca cb, .vamoSwap d a b m ca cb, .vcas d a b m ca cb],
      exec (.memoryAttributeWord sc od i) s = exec i t)
    ∧ bad (.add d a b) ∧ bad .convoy
    ∧ (s.offers 4 → (m ≠ 31 → s.me.vabs.getLsbD 32 = false) → od = .rlx ∨ od = .acq →
        exec (.memoryAttributeWord sc od (.vpf a m)) s = .next (t.setMe (s.me.retire 8))))
  ∧ (∀ (s : State) (sc : Scope),
    let own (pkt : ReducePacket) : Prop := pkt.job = s.myJob ∧ pkt.core = s.myTeam ∧ pkt.strand = s.curStrand
    s.settled sc = true ↔ sc = .strand
      ∨ ((∀ c ∈ s.myCore.copies, c.strand ≠ s.curStrand) ∧ s.me.storeQ = []
        ∧ (∀ r ∈ s.nmrQ, ¬ (r.sent.device = 0 ∧ own r.sent))
        ∧ (∀ q ∈ s.ports, ∀ f ∈ q.2.queue, ∀ n pkt, f.load = .reduce n pkt → ¬ (pkt.device = s.devid.toNat ∧ own pkt))
        ∧ (sc = .fab ∨ sc = .sys → (∀ r ∈ s.remoteQ, ¬ own r.2) ∧ ∀ e ∈ s.postedQ, e.source ≠ s.mySender)))
  ∧ (∀ (s : State) (sc : Scope), s.offers 4 →
    (s.settled sc = false → exec (.fence sc) s = s.waits (.fence sc))
    ∧ (s.settled sc = true → (s.myCore.det = false ∨ sc = .strand ∨ sc = .core) → s.completes (.fence sc) s.me)
    ∧ (s.settled .die = true → s.myCore.det = true →
        s.completes (.fence .die) { s.me with fepDie := s.myCore.epoch })
    ∧ (s.settled sc = true → s.myCore.det = true → (sc = .dev ∨ sc = .fab ∨ sc = .sys) →
        let e := max s.myCore.epoch s.me.seen + 1
        ∃ t, exec (.fence sc) s = .next t ∧ t.myCore.epoch = e ∧ t.me = { s.me with fep := e }.retire s.ilen
          ∧ s.sameBytes t)
    ∧ (s.myCore.det = false ∨ (s.settled .core = true ∧ ∀ e ∈ s.myCore.mq, e.strand ≠ s.curStrand) →
        s.completes .convoy s.me)
    ∧ (s.myCore.det = true → s.settled .core = false ∨ (∃ e ∈ s.myCore.mq, e.strand = s.curStrand) →
        exec .convoy s = s.waits .convoy))


/-! ## Vector floating point -/

/-- R135: the rounding of a magnitude, m × 2^e or above it by less than 2^e where `sticky`, to a multiple k × 2^q of the grid,
in integers: each mode chooses the neighbour that R135 names, and a value on the grid stays.
R125, R135: a nonzero value is delivered to a format, one of the four tags or a valid table entry, as that multiple at the
spacing of its exponent or of the subnormal range; above the largest finite value it overflows as the table says; NX,
UF and OF are those of R135. An element that encodes a finite value rounds to itself in its own format and raises
nothing; its negation has the other sign bit.
The model's own readings in it: logs 35, 70. -/
def Obligations.RoundingResults : Prop :=
  (∀ (rm : Rounding) (draw : Nat) (neg : Bool) (m : Nat) (e q : Int) (sticky : Bool),
    let k := (gridRound rm draw neg m e q sticky).1
    let inexact := (gridRound rm draw neg m e q sticky).2
    let unit := 2 ^ (q - e).toNat
    let more := if sticky then 1 else 0
    (q ≤ e → sticky = false → k = m * 2 ^ (e - q).toNat ∧ inexact = false)
    ∧ (e < q →
      (inexact = true ↔ sticky = true ∨ k * unit ≠ m) ∧ k * unit < m + more + unit ∧ m < k * unit + unit
      ∧ match rm with
        | .rz => k * unit ≤ m
        | .rdn => if neg then m + more ≤ k * unit else k * unit ≤ m
        | .rup => if neg then k * unit ≤ m else m + more ≤ k * unit
        | .rne => 2 * (k * unit) ≤ 2 * m + unit ∧ 2 * (m + more) ≤ 2 * (k * unit) + unit
            ∧ (sticky = false → 2 * (k * unit) = 2 * m + unit ∨ 2 * m = 2 * (k * unit) + unit → k % 2 = 0)
        | .rna => 2 * (k * unit) ≤ 2 * m + unit ∧ 2 * (m + more) ≤ 2 * (k * unit) + unit
            ∧ (sticky = false → 2 * m < 2 * (k * unit) + unit)
        | .rsd => (m < k * unit ↔ draw < m % unit * 65536 / unit)))
  ∧ (∀ f : Fmt, (f ∈ [Fmt.f16, Fmt.bf16, Fmt.f32, Fmt.f64] ∨ ∃ v, entryValid v = true ∧ f = Fmt.ofEntry v) →
    ∀ (rm : Rounding) (draw : Nat) (neg : Bool) (m : Nat) (e : Int) (sticky : Bool), 0 < m →
    let lead : Int := e + (Nat.log2 m : Int) - f.mw
    let least : Int := 1 - (f.bias : Int)
    let q : Int := max (least - f.mw) lead
    let k := (f.gridPoint rm draw neg m e q sticky).1
    let inexact := (f.gridPoint rm draw neg m e q sticky).2
    let below := gridRound .rz draw neg m e q sticky
    let slot : Prop := f.cls = 1 ∧ q = 2 ^ f.ew - 1 - (f.bias : Int) - f.mw ∧ 2 ^ (f.mw + 1) - 2 ≤ below.1
    let o := f.round rm draw neg m e sticky
    (¬ slot → f.gridPoint rm draw neg m e q sticky = gridRound rm draw neg m e q sticky)
    ∧ (slot → rm ≠ .rne ∨ below ≠ (2 ^ (f.mw + 1) - 1, false) →
        k = 2 * (gridRound rm draw neg m e (q + 1) sticky).1 ∧ inexact = (gridRound rm draw neg m e (q + 1) sticky).2)
    ∧ (∃ (M : Nat) (E : Int), f.decode (f.largest neg) = .num neg M E
      ∧ (M * 2 ^ (E - q).toNat < k * 2 ^ (q - E).toNat →
          o.bits = f.overflow rm neg ∧ o.fl.getLsbD 0 = true ∧ o.fl.getLsbD 2 = true)
      ∧ (k * 2 ^ (q - E).toNat ≤ M * 2 ^ (E - q).toNat →
          (k = 0 → o.bits = f.pack neg 0 0)
          ∧ (0 < k → ∃ (m' : Nat) (e' : Int), f.decode o.bits = .num neg m' e'
              ∧ m' * 2 ^ (e' - q).toNat = k * 2 ^ (q - e').toNat)
          ∧ o.fl.getLsbD 0 = inexact ∧ o.fl.getLsbD 2 = false))
    ∧ o.fl.getLsbD 1 = (inexact && decide ((gridRound rm draw neg m e lead sticky).1 < 2 ^ (least - lead).toNat))
    ∧ o.fl.getLsbD 3 = false ∧ o.fl.getLsbD 4 = false
    ∧ (f.sat = true ∨ f.cls = 2 → f.overflow rm neg = f.largest neg)
    ∧ (f.sat = false → f.cls = 1 → f.overflow rm neg = f.pack false (2 ^ f.ew - 1) (2 ^ f.mw - 1))
    ∧ (f.sat = false → f.cls = 0 → f.overflow rm neg = match rm with
        | .rz => f.largest neg
        | .rdn => if neg then f.pack true (2 ^ f.ew - 1) 0 else f.largest false
        | .rup => if neg then f.largest true else f.pack false (2 ^ f.ew - 1) 0
        | _ => f.pack neg (2 ^ f.ew - 1) 0))
  ∧ (∀ f ∈ [Fmt.f16, Fmt.bf16, Fmt.f32, Fmt.f64], ∀ (rm : Rounding) (draw x : Nat),
    x < 2 ^ f.total → (f.decode x).isNaN = false →
    f.convert f rm draw (f.decode x) = ⟨x, 0⟩
    ∧ (f.decode (x ^^^ 2 ^ (f.ew + f.mw))) = (f.decode x).negate
    ∧ (f.decode x).compare (f.decode x) = 0)

/-- R209 to R212: the element-by-element float instructions, with what the conversion of a source raises.
R135, R209, R211, R212: on finite values each operation is its exact result, rounded once as `RoundingResults` says: the sum, the
product, the product and sum, the quotient and the root as whole numbers of some unit and whether more remains, the scaled
value, and the integer that RM gives. A value that is not zero over zero raises DZ.
R136, R212: `fmin` and `fmax` take a number before a NaN, of two NaNs the first, made quiet, and of two numbers the lesser or
greater, −0 below +0; a signalling NaN sets NV. A scaled NaN keeps its pattern.
R136: the first NaN among the operands of a sum, a product, a quotient, a product and sum or a root is the result, made quiet,
with NV for a signalling one; 0 × ∞, ∞ − ∞, 0/0, ∞/∞ and the root of a number below −0 give the canonical NaN and NV; other
infinities and zeros give the infinity or the zero of their sign.
The model's own readings in it: logs 24, 35, 36, 76. -/
def Obligations.FloatArithmetic : Prop := ∀ (s : State) (d a b m : Reg) (ca cb : Bool) (rm : Rounding) (tag : Nat),
  let k := s.myCore.kind tag
  let w := k.width
  let f := k.fmt
  let act (e : Nat) : Bool := s.active m w e
  let draw (e : Nat) : Nat := s.me.rsdDraw rm d.toNat e
  let val (x : Out) : Val := f.decode x.bits
  let cut (o : Out) (fl : Flags) : Out := ⟨o.bits % 2 ^ f.total, o.fl ||| fl⟩
  (s.ready 5 [d, a, b] [a, b] (m ≠ 31) tag Kind.isFloat →
    let x (e : Nat) : Out := s.floatOperand rm d a tag e
    let y (e : Nat) : Out := s.floatOperand rm d b tag e
    (∀ p ∈ [(Instr.fadd d a b m ca cb rm, fun e => f.add rm (draw e) (val (x e)) (val (y e))),
        (.fsub d a b m ca cb rm, fun e => f.add rm (draw e) (val (x e)) (val (y e)).negate),
        (.fmul d a b m ca cb rm, fun e => f.mul rm (draw e) (val (x e)) (val (y e))),
        (.fdiv d a b m ca cb rm, fun e => f.div rm (draw e) (val (x e)) (val (y e)))],
      s.floatResult p.1 d tag w act fun e => cut (p.2 e) ((x e).fl ||| (y e).fl))
    ∧ (rm = .rne → ∀ p ∈ [(Instr.fmin d a b m ca cb, fun e => f.pick false (x e).bits (y e).bits),
          (.fmax d a b m ca cb, fun e => f.pick true (x e).bits (y e).bits)],
      s.floatResult p.1 d tag w act fun e => cut (p.2 e) ((x e).fl ||| (y e).fl)))
  ∧ (s.ready 5 [d, a, b] [a, b, d] (m ≠ 31) tag Kind.isFloat →
    let x (e : Nat) : Out := s.floatOperand rm d a tag e
    let y (e : Nat) : Out := s.floatOperand rm d b tag e
    let z (e : Nat) : Out := s.floatOperand rm d d tag e
    s.floatResult (.fma d a b m ca cb rm) d tag w act fun e =>
      cut (f.fma rm (draw e) (val (x e)) (val (y e)) (val (z e))) ((x e).fl ||| (y e).fl ||| (z e).fl))
  ∧ (s.ready 5 [d, a] [a] (m ≠ 31) tag Kind.isFloat →
    let x (e : Nat) : Nat := elemOf w (s.me.group a.toNat s.me.vgrp) e
    ∀ p ∈ [(Instr.fsqrt d a m ca rm, fun e => f.sqrt rm (draw e) (f.decode (x e))),
        (.fround d a m ca rm, fun e => f.integral rm (draw e) (f.decode (x e))),
        (.fabs d a m ca, fun e => ⟨x e % 2 ^ (f.ew + f.mw), 0⟩), (.fneg d a m ca, fun e => ⟨x e ^^^ 2 ^ (f.ew + f.mw), 0⟩)],
      s.floatResult p.1 d tag w act fun e => cut (p.2 e) 0)
  ∧ (s.ready 5 [d, a] [a] (m ≠ 31) tag Kind.isFloat → s.indexReady b w (some d) →
    s.floatResult (.fscale d a b m ca cb rm) d tag w act fun e =>
      cut (f.scale rm (draw e) (f.decode (elemOf w (s.me.group a.toNat s.me.vgrp) e)) (s.indexAt b w e)) 0)
  ∧ (∀ (g : Fmt) (dr : Nat) (n n' n'' : Bool) (x x' x'' : Nat) (e e' e'' : Int), 0 < x → 0 < x' → 0 < x'' →
    let neg := n != n'
    let units (n : Bool) (x : Nat) (e lo : Int) : Int := (if n then -1 else 1) * (x * 2 ^ (e - lo).toNat : Nat)
    let rounded (v lo : Int) : Out :=
      if v = 0 then ⟨g.pack (rm = .rdn) 0 0, 0⟩ else g.round rm dr (v < 0) v.natAbs lo false
    (let lo := min e e';
      g.add rm dr (.num n x e) (.num n' x' e') = rounded (units n x e lo + units n' x' e' lo) lo
      ∧ g.add rm dr (.num n x e) (.zero n') = g.round rm dr n x e false
      ∧ g.add rm dr (.zero n) (.num n' x' e') = g.round rm dr n' x' e' false)
    ∧ g.mul rm dr (.num n x e) (.num n' x' e') = g.round rm dr neg (x * x') (e + e') false
    ∧ (let lo := min (e + e') e'';
      g.fma rm dr (.num n x e) (.num n' x' e') (.num n'' x'' e'')
        = rounded (units neg (x * x') (e + e') lo + units n'' x'' e'' lo) lo
      ∧ g.fma rm dr (.num n x e) (.num n' x' e') (.zero n'') = g.round rm dr neg (x * x') (e + e') false)
    ∧ (x' < 2 ^ 53 → ∃ (p y : Nat), 2 ^ 74 ≤ y ∧ y * x' ≤ x * 2 ^ p ∧ x * 2 ^ p < (y + 1) * x'
        ∧ g.div rm dr (.num n x e) (.num n' x' e') = g.round rm dr neg y (e - e' - p) (decide (y * x' ≠ x * 2 ^ p)))
    ∧ (∃ (p y : Nat) (h : Int), 2 ^ 74 ≤ y ∧ e - 2 * h = p ∧ y * y ≤ x * 2 ^ p ∧ x * 2 ^ p < (y + 1) * (y + 1)
        ∧ g.sqrt rm dr (.num false x e) = g.round rm dr false y h (decide (y * y ≠ x * 2 ^ p)))
    ∧ g.sqrt rm dr (.num true x e) = ⟨g.canonical.bits, 16⟩
    ∧ g.div rm dr (.num n x e) (.zero n') = ⟨(g.inf neg).bits, 8 ||| (g.inf neg).fl⟩
    ∧ g.div rm dr (.zero n) (.zero n') = ⟨g.canonical.bits, 16⟩
    ∧ (∀ j : Int, g.scale rm dr (.num n x e) j = g.round rm dr n x (e + j) false)
    ∧ (let r := gridRound rm dr n x e 0 false
      let o := g.round rm dr n r.1 0 false;
      g.integral rm dr (.num n x e) = ⟨o.bits, o.fl ||| if r.2 then 1 else 0⟩))
  ∧ (∀ g : Fmt, (g ∈ [Fmt.f16, Fmt.bf16, Fmt.f32, Fmt.f64] ∨ ∃ v, entryValid v = true ∧ g = Fmt.ofEntry v) →
    ∀ (big : Bool) (dr x y : Nat) (j : Int), x < 2 ^ g.total → y < 2 ^ g.total →
    let X := g.decode x
    let Y := g.decode y
    let o := g.pick big x y
    let above (U V : Val) : Prop := 0 < U.compare V ∨ (U = .zero false ∧ V = .zero true)
    (X.isNaN = true → Y.isNaN = false → o.bits = y) ∧ (X.isNaN = false → Y.isNaN = true → o.bits = x)
    ∧ (X.isNaN = true → Y.isNaN = true → o.bits = if g.cls = 0 then x ||| 2 ^ (g.mw - 1) else x)
    ∧ (X.isNaN = false → Y.isNaN = false →
        (o.bits = x ∨ o.bits = y) ∧ (above X Y → o.bits = if big then x else y) ∧ (above Y X → o.bits = if big then y else x))
    ∧ (o.fl = if X.isSNaN || Y.isSNaN then 16 else 0)
    ∧ (X.isNaN = true → g.scale rm dr X j = ⟨x, if X.isSNaN then 16 else 0⟩)
    ∧ ∀ Z : Val,
      let quieted (v : Nat) (l : List Val) : Out :=
        ⟨if g.cls = 0 then v ||| 2 ^ (g.mw - 1) else v, if l.any Val.isSNaN then 16 else 0⟩
      let two : List (Val → Val → Out) := [g.add rm dr, fun u v => g.add rm dr u v.negate, g.mul rm dr, g.div rm dr]
      (X.isNaN = true → (∀ op ∈ two, op X Y = quieted x [X, Y]) ∧ g.fma rm dr X Y Z = quieted x [X, Y, Z]
        ∧ g.sqrt rm dr X = quieted x [X])
      ∧ (Y.isNaN = true → Z.isNaN = false → (∀ op ∈ two, op Z Y = quieted y [Y]) ∧ g.fma rm dr Z Y X = quieted y [Y, X]
        ∧ ∀ U : Val, U.isNaN = false → g.fma rm dr Z U Y = quieted y [Y]))
  ∧ ∀ (g : Fmt) (dr : Nat) (n n' n'' : Bool) (v u : Val),
    let finite (r : Val) : Prop := r.isNaN = false ∧ ∀ j, r ≠ .inf j
    let invalid : Out := ⟨if g.cls = 0 then g.pack false (2 ^ g.ew - 1) (2 ^ (g.mw - 1))
      else if g.cls = 1 then g.pack false (2 ^ g.ew - 1) (2 ^ g.mw - 1) else 0, 16⟩
    let inf (j : Bool) : Out := ⟨g.pack j (2 ^ g.ew - 1) 0, 0⟩
    let zero (j : Bool) : Out := ⟨g.pack j 0 0, 0⟩
    let sum (j j' : Bool) : Bool := if j = j' then j else decide (rm = .rdn)
    g.add rm dr (.zero n) (.zero n') = zero (sum n n')
    ∧ (finite v → g.mul rm dr (.zero n) v = zero (n != v.neg) ∧ g.mul rm dr v (.zero n) = zero (v.neg != n)
      ∧ g.fma rm dr (.zero n) v (.zero n'') = zero (sum (n != v.neg) n'')
      ∧ g.fma rm dr v (.zero n) (.zero n'') = zero (sum (v.neg != n) n''))
    ∧ (finite v → (∀ j, v ≠ .zero j) → g.div rm dr (.zero n) v = zero (n != v.neg))
    ∧ g.div rm dr (.zero n) (.zero n') = invalid ∧ g.div rm dr (.inf n) (.inf n') = invalid
    ∧ g.mul rm dr (.inf n) (.zero n') = invalid ∧ g.mul rm dr (.zero n) (.inf n') = invalid
    ∧ (u.isNaN = false → g.fma rm dr (.inf n) (.zero n') u = invalid ∧ g.fma rm dr (.zero n) (.inf n') u = invalid)
    ∧ (n ≠ n' → g.add rm dr (.inf n) (.inf n') = invalid) ∧ g.sqrt rm dr (.inf true) = invalid
    ∧ g.sqrt rm dr (.zero n) = zero n
    ∧ (g.cls = 0 → g.add rm dr (.inf n) (.inf n) = inf n ∧ g.mul rm dr (.inf n) (.inf n') = inf (n != n')
      ∧ g.sqrt rm dr (.inf false) = inf false
      ∧ g.fma rm dr (.inf n) (.inf n') (.inf n'') = (if (n != n') = n'' then inf n'' else invalid)
      ∧ (finite v → g.add rm dr (.inf n) v = inf n ∧ g.add rm dr v (.inf n) = inf n
        ∧ g.div rm dr (.inf n) v = inf (n != v.neg) ∧ g.div rm dr v (.inf n) = zero (v.neg != n)
        ∧ g.fma rm dr (.inf n) (.inf n') v = inf (n != n') ∧ (finite u → g.fma rm dr u v (.inf n) = inf n))
      ∧ (finite v → (∀ j, v ≠ .zero j) → g.mul rm dr (.inf n) v = inf (n != v.neg) ∧ g.mul rm dr v (.inf n) = inf (v.neg != n)
        ∧ (finite u → g.fma rm dr (.inf n) v u = inf (n != v.neg) ∧ g.fma rm dr v (.inf n) u = inf (v.neg != n))
        ∧ g.fma rm dr (.inf n) v (.inf n'') = (if (n != v.neg) = n'' then inf n'' else invalid)
        ∧ g.fma rm dr v (.inf n) (.inf n'') = (if (v.neg != n) = n'' then inf n'' else invalid)))

/-- R213: `fcvt` converts each active element from a's tag to d's, of whose widths the wider sets VL. A float becomes the
integer that RM gives, with NX where it was none, saturating with NV, and a NaN becomes 0; an integer saturates to an integer
without a flag.
R135, R136, R213: an integer, or a finite float, becomes the float that it rounds to (`RoundingResults`); an infinity stays one
or, in a format without, becomes the largest value with OF; a NaN is made quiet, its payload aligned at its top, or becomes
the NaN of CLASS 1, or +0 with NV in CLASS 2.
R138, R216: `fcell` rounds 384-bit cells of the group's bytes.
The model's own readings in it: logs 24, 35. -/
def Obligations.FloatConversions : Prop := ∀ (s : State) (d a m : Reg) (ca : Bool) (rm : Rounding),
  let ta := s.me.tag a.toNat
  let td := s.me.tag d.toNat
  let ka := s.myCore.kind ta
  let kd := s.myCore.kind td
  let g := s.me.vgrp
  let draw (e : Nat) : Nat := s.me.rsdDraw rm d.toNat e
  (let wide := max ka.width kd.width
    let na := max 1 (g * ka.width / wide)
    let nd := max 1 (g * kd.width / wide)
    let act (e : Nat) : Bool := s.active m wide e
    let out (e : Nat) : Out := convertTo ka kd rm (draw e) (elemOf ka.width (s.me.group a.toNat na) e)
    s.me.controlOk → s.offers 5 → (∀ c ∈ tagClasses ta ++ tagClasses td, s.offers c) →
    (ka.isInt || ka.isFloat) = true → (kd.isInt || kd.isFloat) = true → a.toNat % na = 0 → d.toNat % nd = 0 →
    (a.toNat = d.toNat ∧ na = nd ∨ a.toNat + na ≤ d.toNat ∨ d.toNat + nd ≤ a.toNat) →
    (∀ j, j < na → s.me.vabs.getLsbD (a.toNat + j) = false) → (∀ j, j < nd → s.me.vabs.getLsbD (d.toNat + j) = false) →
    (m ≠ 31 → s.me.vabs.getLsbD 32 = false) →
    ∃ t, exec (.fcvt d a m ca rm) s = .next t
      ∧ (∀ e, e < 16384 * nd / kd.width → elemOf kd.width (t.me.group d.toNat nd) e =
          if act e then (out e).bits % 2 ^ kd.width else elemOf kd.width (s.me.group d.toNat nd) e)
      ∧ (∀ r, t.me.tag r = if d.toNat ≤ r ∧ r < d.toNat + nd then td else s.me.tag r)
      ∧ (∀ r, r < d.toNat ∨ d.toNat + nd ≤ r → t.me.getV r = s.me.getV r)
      ∧ ({ t.me.data with v := [], tags := [], dirty := 0, vstart := 0, fstat := 0 } : Strand)
          = { s.me.data with v := [], tags := [], dirty := 0, vstart := 0, fstat := 0 }
      ∧ t.me.vstart = 0 ∧ s.onlyMe t
      ∧ s.raises t fun j => ∃ e, e < 16384 * g / wide ∧ act e = true ∧ (out e).fl.getLsbD j = true)
  ∧ (∀ (sg sg' : Bool) (w w' dr x : Nat) (f f' : Fmt) (n q : Bool) (man : Nat),
      let V : Int := if sg then toSigned w x else x
      let lo : Int := if sg' then -2 ^ (w' - 1) else 0
      let hi : Int := if sg' then 2 ^ (w' - 1) - 1 else 2 ^ w' - 1
      let nv : Flags := if q then 0 else 16
      convertTo (.int sg w) (.int sg' w') rm dr x = ⟨(min hi (max lo V) % 2 ^ w').toNat, 0⟩
      ∧ convertTo (.int sg w) (.flt f) rm dr x = (if V = 0 then ⟨0, 0⟩ else f.round rm dr (V < 0) V.natAbs 0 false)
      ∧ convertTo (.flt f) (.int sg w) rm dr x = toInteger sg w rm dr (f.decode x)
      ∧ convertTo (.flt f) (.flt f') rm dr x = f'.convert f rm dr (f.decode x)
      ∧ f'.convert f rm dr (.zero n) = ⟨f'.pack n 0 0, 0⟩
      ∧ (∀ m e, f'.convert f rm dr (.num n m e) = f'.round rm dr n m e false)
      ∧ f'.convert f rm dr (.inf n) = (if f'.cls = 0 then ⟨f'.pack n (2 ^ f'.ew - 1) 0, 0⟩ else ⟨f'.largest n, 4⟩)
      ∧ (f'.cls = 0 → f'.convert f rm dr (.nan n man q) = ⟨f'.pack n (2 ^ f'.ew - 1)
          ((if f.mw ≤ f'.mw then man * 2 ^ (f'.mw - f.mw) else man / 2 ^ (f.mw - f'.mw)) ||| 2 ^ (f'.mw - 1)), nv⟩)
      ∧ (f'.cls = 1 → f'.convert f rm dr (.nan n man q) =
          ⟨f'.pack (n && decide (f.mw ≤ f'.mw)) (2 ^ f'.ew - 1) (2 ^ f'.mw - 1), nv⟩)
      ∧ (f'.cls = 2 → f'.convert f rm dr (.nan n man q) = ⟨0, 16⟩))
  ∧ (∀ (sg : Bool) (w : Nat) (e : Int) (n : Bool) (v : Nat), 2 ≤ w → w ≤ 64 →
      let lo : Int := if sg then -2 ^ (w - 1) else 0
      let hi : Int := if sg then 2 ^ (w - 1) - 1 else 2 ^ w - 1
      toInteger sg w rm 0 (.nan n v true) = ⟨0, 16⟩
      ∧ toInteger sg w rm 0 (.inf n) = ⟨((if n then lo else hi) % 2 ^ w).toNat, 16⟩
      ∧ (0 ≤ e → e < 80 → 0 < v →
        let x : Int := (if n then -1 else 1) * (v * 2 ^ e.toNat : Nat)
        toInteger sg w rm 0 (.num n v e) = ⟨(min hi (max lo x) % 2 ^ w).toNat, if lo ≤ x ∧ x ≤ hi then 0 else 16⟩)
      ∧ ∀ dr, toInteger sg w rm dr (.zero n) = ⟨0, 0⟩
        ∧ (0 < v →
          let r := gridRound rm dr n v e 0 false
          let x : Int := if n then -(r.1 : Int) else r.1
          toInteger sg w rm dr (.num n v e)
            = ⟨(min hi (max lo x) % 2 ^ w).toNat, if ¬ (lo ≤ x ∧ x ≤ hi) then 16 else if r.2 then 1 else 0⟩))
  ∧ (s.ready 5 [d, a] [d] (m ≠ 31) td Kind.isFloat →
    let w := kd.width
    s.floatResult (.fcell d a rm m ca) d td w (fun e => s.active m w e && decide (e < 16384 * g / 384)) fun e =>
      let c := elemOf 384 (s.me.group a.toNat g) e
      if c = 2 ^ 383 then kd.fmt.canonical else kd.fmt.roundInt rm (draw e) (toSigned 384 c) (-149) false)

/-- R214: the special functions and their special cases. A value that is not exact is rounded once in a 16-bit format; in f32,
and under `.rsd`, the result is one of its two neighbours (log 13 says which is a free value). That value is within one
unit of the exact reciprocal and reciprocal root, m × 2^e at more than 100 bits; of the logarithm and the power within
2 and 2^16 units, at 128 and 320 bits, which the powers of both sides say in integers; the hyperbolic tangent and the
sigmoid stay within their ranges.
The model's own readings in it: logs 13, 24. -/
def Obligations.SpecialFunctions : Prop :=
  (∀ (s : State) (d a m : Reg) (ca : Bool) (rm : Rounding) (tag : Nat),
    let w := (s.myCore.kind tag).width
    let f := (s.myCore.kind tag).fmt
    s.ready 5 [d, a] [a] (m ≠ 31) tag (fun _ => cellTag tag) →
    ∀ p ∈ [(Instr.fspecExp2 d a m ca rm, Special.exp2), (.fspecLog2 d a m ca rm, .log2), (.fspecRcp d a m ca rm, .rcp),
        (.fspecRsqrt d a m ca rm, .rsqrt), (.fspecTanh d a m ca rm, .tanh), (.fspecSigmoid d a m ca rm, .sigmoid)],
      s.floatResult p.1 d tag w (fun e => s.active m w e) fun e =>
        p.2.eval f rm (s.me.rsdDraw rm d.toNat e) (elemOf w (s.me.group a.toNat s.me.vgrp) e))
  ∧ (∀ f ∈ [Fmt.f16, Fmt.bf16, Fmt.f32], ∀ (rm : Rounding) (draw : Nat),
    let inf (n : Bool) : Nat := f.pack n (2 ^ f.ew - 1) 0
    let one (n : Bool) : Nat := f.pack n f.bias 0
    let nan : Out := ⟨f.canonical.bits, 16⟩
    ∀ p ∈ [(Special.exp2, inf true, ⟨0, 0⟩), (.exp2, inf false, ⟨inf false, 0⟩), (.exp2, 0, ⟨one false, 0⟩),
        (.log2, 0, (⟨inf true, 8⟩ : Out)), (.log2, f.pack true 0 0, ⟨inf true, 8⟩), (.log2, one true, nan),
        (.log2, inf false, ⟨inf false, 0⟩), (.log2, one false, ⟨0, 0⟩),
        (.rcp, 0, ⟨inf false, 8⟩), (.rcp, f.pack true 0 0, ⟨inf true, 8⟩), (.rcp, inf true, ⟨f.pack true 0 0, 0⟩),
        (.rcp, one true, ⟨one true, 0⟩), (.rsqrt, 0, ⟨inf false, 8⟩), (.rsqrt, f.pack true 0 0, ⟨inf true, 8⟩),
        (.rsqrt, one true, nan), (.rsqrt, inf false, ⟨0, 0⟩), (.rsqrt, one false, ⟨one false, 0⟩),
        (.tanh, 0, ⟨0, 0⟩), (.tanh, inf true, ⟨one true, 0⟩), (.sigmoid, 0, ⟨f.pack false (f.bias - 1) 0, 0⟩),
        (.sigmoid, inf true, ⟨0, 0⟩), (.sigmoid, inf false, ⟨one false, 0⟩)],
      p.1.eval f rm draw p.2.1 = p.2.2)
  ∧ (∀ f ∈ [Fmt.f16, Fmt.bf16, Fmt.f32], ∀ (p : Special) (rm : Rounding) (draw x : Nat) (neg : Bool) (m : Nat) (e : Int),
    f.decode x = .num neg m e → (p = .log2 ∨ p = .rsqrt → neg = false) →
    let a := p.approx neg m e
    let o := p.eval f rm draw x
    let side (r : Rounding) : Out := f.round r 0 a.neg a.m a.e true
    (a.sticky = false → o = f.round rm draw a.neg a.m a.e false)
    ∧ (a.sticky = true → rm ≠ .rsd → f.w = 16 → o = f.round rm draw a.neg a.m a.e true)
    ∧ (a.sticky = true → rm = .rsd ∨ f.w = 32 → ∃ r : Rounding, (r = .rz ∨ r = if a.neg then .rdn else .rup)
        ∧ o.fl = (side r).fl
        ∧ o.bits = if (side r).fl.getLsbD 2 = true then f.overflow rm a.neg else (side r).bits))
  ∧ ∀ (neg : Bool) (m : Nat) (e : Int), 0 < m → m < 2 ^ 24 →
    let power : Prop := m = 2 ^ Nat.log2 m
    let lead : Int := e + Nat.log2 m
    (let a := Special.approx .rcp neg m e;
      a.neg = neg ∧ (power → a = ⟨neg, 1, -lead, false⟩)
      ∧ (¬ power → a.sticky = true ∧ ∃ p : Nat, 128 ≤ p ∧ a.e = -e - p ∧ a.m * m < 2 ^ p ∧ 2 ^ p < (a.m + 1) * m))
    ∧ (let a := Special.approx .rsqrt false m e;
      a.neg = false ∧ (power → lead % 2 = 0 → a = ⟨false, 1, -(lead / 2), false⟩)
      ∧ (¬ (power ∧ lead % 2 = 0) → a.sticky = true ∧ ∃ p : Nat, 256 ≤ p ∧ 2 * a.e = -e - p
          ∧ a.m * a.m * m < 2 ^ p ∧ 2 ^ p < (a.m + 1) * (a.m + 1) * m))
    ∧ (let a := Special.approx .log2 false m e
      (power → a = ⟨decide (lead < 0), lead.natAbs, 0, false⟩)
      ∧ (¬ power → a.sticky = true ∧ a.e = -128 ∧ ∃ v w : Nat, (v : Int) = (if a.neg then -(a.m : Int) - 1 else a.m) - lead * 2 ^ 128
          ∧ w = Nat.log2 m * 2 ^ 128 + v ∧ 2 ^ w ≤ m ^ 2 ^ 128 ∧ m ^ 2 ^ 128 < 2 ^ (w + 2)))
    ∧ (e < 0 → m % 2 ^ (-e).toNat ≠ 0 → -e ≤ 149 →
      let a := Special.approx .exp2 neg m e
      let n := (-e).toNat
      let whole : Nat := m / 2 ^ n
      let frac : Nat := if neg then 2 ^ n - m % 2 ^ n else m % 2 ^ n
      a.neg = false ∧ a.sticky = true ∧ a.e = (if neg then -(whole : Int) - 1 else whole) - 320
      ∧ a.m ^ 2 ^ n ≤ 2 ^ (320 * 2 ^ n + frac) ∧ 2 ^ (320 * 2 ^ n + frac) < (a.m + 2 ^ 16) ^ 2 ^ n)
    ∧ ((Special.approx .tanh neg m e).neg = neg
        ∧ (Special.approx .tanh neg m e).m ≤ 2 ^ (-(Special.approx .tanh neg m e).e).toNat
        ∧ (Special.approx .sigmoid neg m e).neg = false ∧ (Special.approx .sigmoid neg m e).m ≤ 2 ^ 600
        ∧ (Special.approx .sigmoid neg m e).e = -600
        ∧ (neg = true → 2 * (Special.approx .sigmoid neg m e).m ≤ 2 ^ 600)
        ∧ (neg = false → 2 ^ 600 ≤ 2 * (Special.approx .sigmoid neg m e).m))

/-- R140, R210: `fredsum` and `fredmax` fold the active elements of a by the binary tree over the indices and then the seed,
the first W bits of d, and write element 0 of d; without an active element the seed stays.
The model's own readings in it: logs 24, 69. -/
def Obligations.FloatReductions : Prop := ∀ (s : State) (d a m : Reg) (ca : Bool) (rm : Rounding) (tag : Nat),
  let k := s.myCore.kind tag
  let w := k.width
  let f := k.fmt
  let vl := 16384 * s.me.vgrp / w
  let act (e : Nat) : Bool := s.active m w e
  let x (e : Nat) : Nat := elemOf w (s.me.group a.toNat s.me.vgrp) e
  let seed := elemOf w (s.me.group d.toNat s.me.vgrp) 0
  s.ready 5 [d, a] [a] (m ≠ 31) tag Kind.isFloat →
  ∀ p ∈ [(Instr.fredsum d a rm m ca, fun j y z => f.add rm (s.me.rsdDraw rm d.toNat j) (f.decode y) (f.decode z)),
      (.fredmax d a m ca, fun _ y z => f.pick true y z)],
    ∃ node : Nat → Nat → Option Out,
      (∀ e, node 0 e = if e < vl ∧ act e = true then some ⟨x e, 0⟩ else none)
      ∧ (∀ h j, node (h + 1) j = match node h (2 * j), node h (2 * j + 1) with
          | none, u => u
          | l, none => l
          | some l, some u =>
            let o := p.2 ((h + 1) * 2 ^ 18 + j) l.bits u.bits
            some ⟨o.bits, l.fl ||| u.fl ||| o.fl⟩)
      ∧ let out : Out := match node (Nat.log2 vl) 0 with
          | none => ⟨seed, 0⟩
          | some r =>
            let o := p.2 0xFFFFFF seed r.bits
            ⟨o.bits % 2 ^ f.total % 2 ^ w, r.fl ||| o.fl⟩
        ∃ t, exec p.1 s = .next t
          ∧ s.vectorOutcome (.next t) d tag w false (fun e => if e = 0 then some out.bits else none)
          ∧ s.raises t fun j => out.fl.getLsbD j = true

/-- R132, R215: `vblk` writes for each active block of 32 floats its elements and its scale word, and `vunblk` gives each element
of an active block its value times 2^(E-511), rounded; a NaN block gives NaNs.
R215: a block with a NaN or an infinity is the NaN block, with NV, and one of zeros the zero block; of any other the scale
follows from the greatest magnitude, or for 1-bit elements from the mean, and each element is rounded and clamped, or
its sign is kept; NX, OF and UF are those of R215. Magnitudes are whole numbers of 2^lo.
The model's own reading in it: log 24. -/
def Obligations.BlockScaling : Prop := (∀ (s : State) (d a m : Reg) (ca : Bool) (rm : Rounding) (n tb tf : Nat),
  let kf := s.myCore.kind tf
  let w := kf.width
  let f := kf.fmt
  let g := s.me.vgrp
  let span := max 1 (g * n / w)
  let act (j : Nat) : Bool := s.active m (32 * w) j
  s.me.controlOk → s.offers 5 → s.offers 17 → (∀ c ∈ tagClasses tb ++ tagClasses tf, s.offers c) →
  s.myCore.kind tb = .bs n → kf.isFloat = true → (m ≠ 31 → s.me.vabs.getLsbD 32 = false) →
  let fits (blk flt : Reg) : Prop := s.me.tag blk.toNat = tb ∧ s.me.tag flt.toNat = tf ∧ flt.toNat % g = 0
    ∧ blk.toNat % span = 0 ∧ blk.toNat + span ≤ 31
    ∧ (blk.toNat + span < flt.toNat ∨ flt.toNat + g ≤ blk.toNat ∨ (blk = flt ∧ span = g) ∨ (g = 1 ∧ blk.toNat + span = flt.toNat))
    ∧ (∀ j, j < g → s.me.vabs.getLsbD (flt.toNat + j) = false) ∧ ∀ j, j ≤ span → s.me.vabs.getLsbD (blk.toNat + j) = false
  (fits d a →
    let packed (j : Nat) : Packed := packBlock n rm (s.me.rsdDraw rm d.toNat (32 * j))
      ((List.range 32).map fun e => f.decode (elemOf w (s.me.group a.toNat g) (32 * j + e)))
    ∃ t, exec (.vblk d a rm m ca) s = .next t
      ∧ (∀ j, j < 16384 * span / (32 * n) → elemOf (32 * n) (t.me.group d.toNat span) j =
          if act j then (packed j).bits % 2 ^ (32 * n) else elemOf (32 * n) (s.me.group d.toNat span) j)
      ∧ (∀ j, j < 1024 → elemOf 16 (t.me.getV (d.toNat + span)).toNat j =
          if act j then (packed j).scale % 2 ^ 16 else elemOf 16 (s.me.getV (d.toNat + span)).toNat j)
      ∧ (∀ r, t.me.tag r = if d.toNat ≤ r ∧ r < d.toNat + span then tb else if r = d.toNat + span then 5 else s.me.tag r)
      ∧ (∀ r, r < d.toNat ∨ d.toNat + span < r → t.me.getV r = s.me.getV r)
      ∧ ({ t.me.data with v := [], tags := [], dirty := 0, vstart := 0, fstat := 0 } : Strand)
          = { s.me.data with v := [], tags := [], dirty := 0, vstart := 0, fstat := 0 }
      ∧ t.me.vstart = 0 ∧ s.onlyMe t ∧ s.raises t fun j => ∃ e, act e = true ∧ (packed e).fl.getLsbD j = true)
  ∧ (fits a d →
    s.floatResult (.vunblk d a rm m ca) d tf w (fun e => act (e / 32)) fun e =>
      let scale := elemOf 16 (s.me.getV (a.toNat + span)).toNat (e / 32) % 1024
      let x := elemOf n (s.me.group a.toNat span) e
      let v : Int := if n = 1 then (if x = 0 then 1 else -1) else toSigned n x
      if scale = 1023 then f.canonical
      else if scale = 0 then f.zero false
      else f.roundInt rm (s.me.rsdDraw rm d.toNat e) v ((scale : Int) - 511) false))
  ∧ (∀ (n : Nat) (rm : Rounding) (draw : Nat) (vs : List Val), n ∈ [1, 2, 4, 8] → vs.length = 32 →
    (∀ neg m e, .num neg m e ∈ vs → 0 < m) →
    let p := packBlock n rm draw vs
    ((∃ v ∈ vs, v.isNaN = true ∨ ∃ neg, v = .inf neg) → p = ⟨1023, 0, 16⟩)
    ∧ ((∀ v ∈ vs, ∃ neg, v = .zero neg) → p = ⟨0, 0, 0⟩)
    ∧ ((∀ v ∈ vs, v.isNaN = false ∧ ∀ neg, v ≠ .inf neg) → (∃ neg m e, .num neg m e ∈ vs) →
      ∀ lo : Int, lo ≤ -510 → (∀ neg m e, .num neg m e ∈ vs → lo ≤ e) →
      let units (v : Val) : Int := match v with
        | .num neg m e => (if neg then -1 else 1) * (m * 2 ^ (e - lo).toNat : Nat)
        | _ => 0
      let mags := vs.map fun v => (units v).natAbs
      let e : Int := if n = 1 then Nat.log2 mags.sum + lo - 5 + 511
        else Nat.log2 (mags.foldl max 0) + lo + 513 - n
      let E : Int := min 1022 (max 1 e)
      let whole (v : Val) : Int := match v with
        | .num neg m x => (if neg then -1 else 1) * ((gridRound rm draw neg m (x - (E - 511)) 0 false).1 : Int)
        | _ => 0
      let code (v : Val) : Int := if n = 1 then (if v.neg then -1 else 1)
        else min (2 ^ (n - 1) - 1) (max (-2 ^ (n - 1)) (whole v))
      let off (v : Val) : Prop := code v * 2 ^ (E - 511 - lo).toNat ≠ units v
      p.scale = E
      ∧ (∀ j v, vs[j]? = some v →
          elemOf n p.bits j = if n = 1 then (if v.neg then 1 else 0) else (code v % 2 ^ n).toNat)
      ∧ (p.fl.getLsbD 0 = true ↔ ∃ v ∈ vs, off v)
      ∧ (p.fl.getLsbD 1 = true ↔ e < 1 ∧ ∃ v ∈ vs, off v)
      ∧ (p.fl.getLsbD 2 = true ↔ 1022 < e ∨ (E = 1022 ∧ n ≠ 1 ∧ ∃ v ∈ vs, code v ≠ whole v))
      ∧ p.fl.getLsbD 3 = false ∧ p.fl.getLsbD 4 = false))

/-! ## Matrix engine -/

/-- R221 to R225, R233 to R235: the products. `mopa` adds to each active element of the tile the products of a row of A and a
column of B; `mopas` compresses A to the positions that the K-mask sets, and the tile keeps its elements where it sets none;
`mclz` says for each row and column whether they share no position. For integer formats the sums are exact and saturate.
R222: operand groups that do not fit are refused. R228, R229: the queue entry of each keeps the format entries that `mfmt` names,
`mext`, `mfmt` and the operands as they were.
R231: with these the entry gives the same tile again from the tile as it was before it.
That the products leave `vstart` as it is, and that `mclz` leaves it 0, is the model's choice (log 24).
The model's own readings in it: logs 24, 30, 55, 87. -/
def Obligations.MatrixProducts : Prop := ∀ (s : State) (d a b k : Reg) (ca cb : Bool),
  let K := s.me.kext
  let fa := s.myCore.matFmt (s.me.mfmt.toNat % 256)
  let fb := s.myCore.matFmt (s.me.mfmt.toNat / 256 % 256)
  let ready (o : Operand) : Prop :=
    o.bad = false ∧ ∀ g ∈ o.groups, ∀ j, j < g.span → s.me.vabs.getLsbD (g.first + j) = false
  let queued (t : State) (formats writes : List Nat) (groups : List Group) : Prop :=
    (∃ q : MatrixEntry, t.myCore.mq = s.myCore.mq ++ [q] ∧ q.strand = s.curStrand ∧ q.formats = formats ∧ q.writes = writes
        ∧ q.started = false ∧ q.values = formats.map s.myCore.fmt ∧ q.mext = s.me.mext ∧ q.mfmt = s.me.mfmt
        ∧ q.operands = groups.map (fun g => s.me.group g.first g.span)
        ∧ (writes ≠ [] → q.before = s.tile d) ∧ q.run (s.tile d) = t.myCore.tile d.toNat)
      ∧ ({ t.myCore with strands := [], kpre := 0, tiles := [], mq := [] } : Core)
          = { s.myCore with strands := [], kpre := 0, tiles := [], mq := [] }
      ∧ (∀ n, n ≠ s.curStrand → t.myCore.kpre.getLsbD n = s.myCore.kpre.getLsbD n)
      ∧ (∀ n, n ≠ s.curStrand → t.myCore.strand n = s.myCore.strand n) ∧ s.sameBytes t
  let updated (t : State) (tile : Tile) : Prop :=
    t.myCore.tile d.toNat = tile ∧ (∀ n, n ≠ d.toNat → t.myCore.tile n = s.myCore.tile n) ∧ t.me = s.me.retire s.ilen
  s.offers 6 → s.mqFull = false →
  (s.tilesAhead [] [d.toNat] = false → s.offers fa.cls → s.offers fb.cls → ready (operandOf b fb K) →
    (K ≤ 512 → ready (operandOf a fa K) →
      ∃ t, exec (.mopa d a b ca cb) s = .next t
        ∧ queued t (fa.captured ++ fb.captured) [d.toNat] ((operandOf a fa K).groups ++ (operandOf b fb K).groups)
        ∧ updated t (s.me.product (s.tile d) (operandOf a fa K) (operandOf b fb K) K (List.range K)))
    ∧ (let ks := (List.range K).filter fun j => (s.me.getM k.toNat).getLsbD j
      let oa := operandOf a fa (32 * ((ks.length + 31) / 32))
      s.me.vabs.getLsbD 32 = false → (∀ g ∈ oa.groups, ∀ j, j < g.span → s.me.vabs.getLsbD (g.first + j) = false) →
      (ks.length ≤ 512 → oa.bad = false →
        ∃ t, exec (.mopas d a b k ca cb) s = .next t
          ∧ queued t (fa.captured ++ fb.captured) [d.toNat] (oa.groups ++ (operandOf b fb K).groups)
          ∧ updated t (if ks = [] then s.tile d else s.me.product (s.tile d) oa (operandOf b fb K) ks.length ks))
      ∧ (512 < ks.length ∨ oa.bad = true → exec (.mopas d a b k ca cb) s =
          s.trapped { cause := .illegal, info := encodeWord (.mopas d a b k ca cb) })))
  ∧ (∀ (sa sb : Bool) (wa wb : Nat) (x : Tile) (oa ob : Operand) (ks : List Nat) (m n : Nat),
      oa.fmt = .int sa wa → ob.fmt = .int sb wb → oa.kx % 32 = 0 → ob.kx % 32 = 0 → ks.length ≤ oa.kx → (∀ j ∈ ks, j < ob.kx) →
      x.anchor ≤ 0 → m < 32 → n < 32 →
      let value (sg : Bool) (w v : Nat) : Int := if sg then toSigned w (v % 2 ^ w) else ((v % 2 ^ w : Nat) : Int)
      let at_ (o : Operand) (r j : Nat) : Nat := elemOf o.fmt.width (s.me.group o.reg o.span) (r * o.kx + j)
      let sum : Int := (ks.zipIdx.map fun (j, i) => value sa wa (at_ oa m i) * value sb wb (at_ ob n j)).sum
      let c := x.get m n
      let y : Int := tileInt c + sum * 2 ^ (-x.anchor).toNat
      (s.me.product x oa ob ks.length ks).get m n =
        if m < s.me.rows ∧ n < s.me.cols then
          if c = tileNaN then tileNaN else BitVec.ofInt 256 (min (2 ^ 255 - 1) (max (-(2 ^ 255 - 1)) y))
        else c)
  ∧ (s.offers 20 → K ≤ 512 → s.me.vabs.getLsbD d.toNat = false →
    let one : MatFmt := .int false 1
    let oa := operandOf a one K
    let ob := operandOf b one K
    ready oa → ready ob → (∀ g ∈ oa.groups ++ ob.groups, (⟨d.toNat, 1⟩ : Group).partly g = false) →
    ∀ p ∈ [(Instr.mclzE0 d a b ca cb, false), (.mclzE1 d a b ca cb, true)],
      ∃ t, exec p.1 s = .next t ∧ queued t (fa.captured ++ fb.captured) [] (oa.groups ++ ob.groups) ∧ (∀ n, t.myCore.tile n = s.myCore.tile n)
        ∧ (∀ j, j < 16384 → (t.me.getV d.toNat).getLsbD j =
            if j < 1024 ∧ j / 32 < s.me.rows ∧ j % 32 < s.me.cols then
              if (List.range K).all fun i => !(s.me.group a.toNat oa.span).testBit (j / 32 * K + i) then p.2
              else (List.range K).all fun i => !((s.me.group a.toNat oa.span).testBit (j / 32 * K + i)
                && (s.me.group b.toNat ob.span).testBit (j % 32 * K + i))
            else (s.me.getV d.toNat).getLsbD j)
        ∧ (∀ n, n ≠ d.toNat → t.me.getV n = s.me.getV n) ∧ (∀ n, t.me.tag n = if n = d.toNat then 0x0C else s.me.tag n)
        ∧ ({ t.me.data with v := [], tags := [], dirty := 0 } : Strand)
            = { s.me.data with v := [], tags := [], dirty := 0, vstart := 0 })

/-- R220, R236 to R240: extents, the anchor, zeroing, status, and rows of a tile.
R241: the 32,832 bytes of a tile image: the anchor, the flags and zeros in the first 64-byte unit, then element 32m + n
in 32 bytes. `msave` stores them, `mload` reads them, and refuses an image whose first unit is bad.
R231: the queue entry gives the same tile again from the tile as it was before it.
R228: their entries keep `mext`, `mfmt` and the format entries that it names, too.
R86, R229: a full queue makes a queued instruction wait, and `mstat`, `mrow` and `mrnd` wait for every queued writer of
their tile; a matrix instruction of another strand that has issued and waits counts in the queue, and comes first at its tile. That `mrow` and `mrnd` leave `vstart` 0 and the queued instructions leave it as it is is the model's choice
(log 24).
The model's own readings in it: logs 5, 24, 30, 75, 87. -/
def Obligations.Tiles : Prop :=
  (∀ (s : State) (d a b m : Reg) (ca : Bool) (rm : Rounding),
    let r := (s.me.getX b).toNat
    let waiting (k : Nat) : Option Instr := ((s.myCore.strand k).issuedWait).map Prod.fst
    let captured (q : MatrixEntry) : Prop := q.mext = s.me.mext ∧ q.mfmt = s.me.mfmt
      ∧ q.formats = (s.myCore.matFmt (s.me.mfmt.toNat % 256)).captured ++ (s.myCore.matFmt (s.me.mfmt.toNat / 256 % 256)).captured
      ∧ q.values = q.formats.map s.myCore.fmt
    let stored (i : Instr) (f : Tile → Prop) : Prop :=
      ∃ t, ∃ q : MatrixEntry, exec i s = .next t ∧ f (t.tile d) ∧ t.myCore.mq = s.myCore.mq ++ [q] ∧ q.writes = [d.toNat]
        ∧ q.strand = s.curStrand ∧ q.started = false ∧ captured q ∧ q.before = s.tile d ∧ q.run (s.tile d) = t.tile d ∧ (∀ n, n ≠ d.toNat → t.myCore.tile n = s.myCore.tile n)
        ∧ t.me = s.me.retire s.ilen
        ∧ ({ t.myCore with strands := [], kpre := 0, tiles := [], mq := [] } : Core)
            = { s.myCore with strands := [], kpre := 0, tiles := [], mq := [] }
        ∧ (∀ n, n ≠ s.curStrand → t.myCore.strand n = s.myCore.strand n
            ∧ t.myCore.kpre.getLsbD n = s.myCore.kpre.getLsbD n)
        ∧ s.sameBytes t
    s.offers 6 →
    (∀ rows cols, 1 ≤ rows → rows ≤ 32 → 1 ≤ cols → cols ≤ 32 → (s.me.getX a).toNat = rows + 256 * cols →
      r % 32 = 0 → 32 ≤ r → r ≤ 2048 →
      s.completes (.mshape a b) { s.me with mext := BitVec.ofNat 64 (rows + 256 * cols + 65536 * r) })
    ∧ (s.mqFull = false → s.tilesAhead [] [d.toNat] = false →
      (-2048 ≤ (s.me.getX a).toInt → (s.me.getX a).toInt ≤ 2047 →
        stored (.manch d a) fun u => u.anchor = (s.me.getX a).toInt ∧ ∀ i j, i < 32 → j < 32 →
          let c := (s.tile d).get i j
          u.get i j = if c = tileNaN then c else BitVec.ofInt 256 (min (2 ^ 255 - 1) (max (-(2 ^ 255 - 1))
            (integralRound .rne 0 (tileInt c < 0) (tileInt c).natAbs ((s.tile d).anchor - (s.me.getX a).toInt)).1)))
      ∧ stored (.mzero d) (fun u => u.anchor = (s.tile d).anchor ∧ u.inx = false ∧ u.ovf = false ∧ u.nan = false
          ∧ ∀ i j, u.get i j = 0)
      ∧ (a.toNat % s.me.vgrp = 0 → s.me.controlOk → (∀ j, j < s.me.vgrp → s.me.vabs.getLsbD (a.toNat + j) = false) → r ≤ 31 →
        stored (.mwrow d a b ca) fun u => u.anchor = (s.tile d).anchor ∧ ∀ i j, i < 32 → j < 32 →
          u.get i j = if i = r then BitVec.ofNat 256 (elemOf 256 (s.me.getV a.toNat).toNat j) else (s.tile d).get i j))
    ∧ (s.mqFull = true ∨ s.tilesAhead [] [d.toNat] = true → s.hasIssued (.mzero d) = false → exec (.mzero d) s = s.waits (.mzero d))
    ∧ (s.mqFull = true ↔ 16 ≤ s.myCore.mq.length
        + (List.range 24).countP fun k => decide (k ≠ s.curStrand) && (waiting k).any inQueue)
    ∧ (∀ reads writes : List Nat, s.tilesAhead reads writes = true ↔ ∃ k i, k < 24 ∧ k ≠ s.curStrand ∧ waiting k = some i
        ∧ ((∃ t ∈ writes, t ∈ (tileUse i).1 ∨ t ∈ (tileUse i).2) ∨ ∃ t ∈ reads, t ∈ (tileUse i).2))
    ∧ (s.tileBusy a = true ↔ (∃ q ∈ s.myCore.mq, a.toNat ∈ q.writes) ∨ s.tilesAhead [a.toNat] [] = true)
    ∧ (s.tileBusy a = true → exec (.mstat d a) s = s.waitsIssued (.mstat d a))
    ∧ (s.tileBusy a = false → ∃ w : Word, s.completes (.mstat d a) (s.me.setX d w)
        ∧ (-2048 ≤ (s.tile a).anchor → (s.tile a).anchor ≤ 2047 → w.toInt / 65536 = (s.tile a).anchor)
        ∧ w.toNat % 65536 = (if (s.tile a).inx then 1 else 0) + (if (s.tile a).ovf then 2 else 0)
            + if (s.tile a).nan then 4 else 0)
    ∧ (s.offers 19 → s.me.vabs.getLsbD d.toNat = false → r ≤ 31 → s.tileBusy a = true →
      exec (.mrow d a b) s = s.waitsIssued (.mrow d a b))
    ∧ (s.offers 19 → s.me.vabs.getLsbD d.toNat = false → r ≤ 31 → s.tileBusy a = false →
      ∃ t, exec (.mrow d a b) s = .next t
        ∧ (∀ j, j < 64 → elemOf 256 (t.me.getV d.toNat).toNat j =
            if j < 32 then ((s.tile a).get r j).toNat else elemOf 256 (s.me.getV d.toNat).toNat j)
        ∧ (∀ n, t.me.tag n = if n = d.toNat then 7 else s.me.tag n) ∧ (∀ n, n ≠ d.toNat → t.me.getV n = s.me.getV n)
        ∧ ({ t.me.data with v := [], tags := [], dirty := 0 } : Strand)
            = { s.me.data with v := [], tags := [], dirty := 0, vstart := 0 }
        ∧ s.onlyMe t)
    ∧ (∀ tag, s.ready 6 [d] [d] (m ≠ 31) tag (fun k => k.isInt || k.isFloat) → r ≤ 31 →
      (s.tileBusy a = true → exec (.mrnd d a b m rm) s = s.waitsIssued (.mrnd d a b m rm))
      ∧ (s.tileBusy a = false →
      let k := s.myCore.kind tag
      let w := k.width
      let act (e : Nat) : Bool := s.active m w e && decide (e < 32)
      let c (e : Nat) : BitVec 256 := (s.tile a).get r e
      let anchor := (s.tile a).anchor
      let draw (e : Nat) : Nat := s.me.rsdDraw rm d.toNat e
      let out (e : Nat) : Out :=
        if k.isFloat then
          if c e = tileNaN then k.fmt.canonical else k.fmt.roundInt rm (draw e) (tileInt (c e)) anchor false
        else if c e = tileNaN then ⟨0, 16⟩ else if c e = 0 then ⟨0, 0⟩
        else toInteger k.signed w rm (draw e) (.num (tileInt (c e) < 0) (tileInt (c e)).natAbs anchor)
      ∃ t, exec (.mrnd d a b m rm) s = .next t
        ∧ (∀ e, e < 16384 * s.me.vgrp / w → elemOf w (t.me.group d.toNat s.me.vgrp) e =
            if act e then (out e).bits % 2 ^ w else elemOf w (s.me.group d.toNat s.me.vgrp) e)
        ∧ (∀ n, t.me.tag n = if d.toNat ≤ n ∧ n < d.toNat + s.me.vgrp then tag else s.me.tag n)
        ∧ (∀ n, n < d.toNat ∨ d.toNat + s.me.vgrp ≤ n → t.me.getV n = s.me.getV n)
        ∧ ({ t.me.data with v := [], tags := [], dirty := 0, fstat := 0 } : Strand)
            = { s.me.data with v := [], tags := [], dirty := 0, vstart := 0, fstat := 0 }
        ∧ s.onlyMe t ∧ s.raises t fun j => ∃ e, act e = true ∧ (out e).fl.getLsbD j = true)))
  ∧ (∀ (s : State) (d a : Reg) (sp : Nat → Space) (x : Nat → Nat),
    let live (u : Nat) : Bool := decide (u < 513)
    let E (r : Reg) (u : Nat) : Nat := ((s.me.getX r).toNat + 64 * u) % 2 ^ 64
    s.offers 6 → s.mqFull = false → s.cut = none →
    (s.tilesAhead [a.toNat] [] = false → s.unobstructed true (E d) 64 live → (∀ u, u < 513 → s.findsAt .store (E d u) 64 (sp u) (x u)) →
      ∃ t, ∃ q : MatrixEntry, exec (.msave d a) s = .next t ∧ t.myCore.mq = s.myCore.mq ++ [q] ∧ q.reads = [a.toNat]
        ∧ (∀ n, t.myCore.tile n = s.myCore.tile n)
        ∧ ({ t.me.data with storeQ := [] } : Strand) = { s.me.data with storeQ := [] }
        ∧ (s.storeHeld = true → s.sameBytes t)
        ∧ (s.storeHeld = false → s.myCore.det = false →
          (∀ u v, u < 513 → v < 513 → sp u = sp v → x u = x v → u = v) →
          let byte (n : Nat) : Byte := (t.memOf (sp (n / 64))).get (x (n / 64) + n % 64)
          let flags := (if (s.tile a).inx then 1 else 0) + (if (s.tile a).ovf then 2 else 0) + if (s.tile a).nan then 4 else 0
          byte 0 = BitVec.ofInt 8 (s.tile a).anchor ∧ byte 1 = BitVec.ofInt 8 ((s.tile a).anchor / 256)
          ∧ byte 2 = BitVec.ofNat 8 flags ∧ (∀ n, 3 ≤ n → n < 64 → byte n = 0)
          ∧ ∀ i j, i < 1024 → j < 32 →
              byte (64 + 32 * i + j) = BitVec.ofNat 8 (((s.tile a).get (i / 32) (i % 32)).toNat / 2 ^ (8 * j)))
        ∧ ∀ sp' y, (∀ u, u < 513 → ¬ (sp' = sp u ∧ x u ≤ y ∧ y < x u + 64)) → (t.memOf sp').get y = (s.memOf sp').get y)
    ∧ (s.tilesAhead [] [d.toNat] = false → s.me.storeQ = [] → s.unobstructed false (E a) 64 live → (∀ u, u < 513 → s.findsAt .load (E a u) 64 (sp u) (x u)) →
      let byte (n : Nat) : Byte := (s.memOf (sp (n / 64))).get (x (n / 64) + n % 64)
      let anchor : Int := toSigned 16 ((byte 0).toNat + 256 * (byte 1).toNat)
      let good := (byte 2).toNat ≤ 7 ∧ (∀ n, 3 ≤ n → n < 64 → byte n = 0) ∧ -2048 ≤ anchor ∧ anchor ≤ 2047
      (good → ∃ t, exec (.mload d a) s = .next t ∧ (t.tile d).anchor = anchor ∧ (t.tile d).inx = (byte 2).getLsbD 0
        ∧ (t.tile d).ovf = (byte 2).getLsbD 1 ∧ (t.tile d).nan = (byte 2).getLsbD 2
        ∧ (∀ i, i < 1024 → ((t.tile d).get (i / 32) (i % 32)).toNat = leNat ((List.range 32).map fun j => byte (64 + 32 * i + j)))
        ∧ (∀ n, n ≠ d.toNat → t.myCore.tile n = s.myCore.tile n)
        ∧ ({ t.me with seen := 0 } : Strand) = { s.me.retire s.ilen with seen := 0 } ∧ s.sameBytes t)
      ∧ (¬ good → ∃ t, exec (.mload d a) s = .next t ∧ t.me.st = .trapped ∧ t.me.rec0.toNat % 256 = 1
        ∧ t.me.tpc = s.me.pc ∧ (∀ n, t.myCore.tile n = s.myCore.tile n) ∧ s.sameBytes t)))


/-! ## Clause learning -/

/-- R243 to R257: automata are read bit-sliced from w plane groups; draws come from the generator or from the table; and an
instruction writes what its rule says: `cdraw` a mask, `cprob` probabilities, `cfb1`, `cfb2`, `cstep` and `cadd` saturating
steps of automata, and the feedback instructions with DELTA set step counts instead.
R247 to R249: a draw is the table's entry in table mode, and otherwise the generator's value, four rounds over the counter words,
for the counter that kind and element give.
The model's own readings in it: logs 24, 38. -/
def Obligations.ClauseFeedback : Prop :=
  (∀ (s : State) (kind e n : Nat), kind < 16 →
    let field (w : Word) (lo bits : Nat) : Nat := w.toNat / 2 ^ lo % 2 ^ bits
    let lits := field s.me.cgeom 0 24
    let entry := s.me.dtab.toNat + 2 * ((s.me.dpos.toNat + n) % field s.me.dmode 16 22)
    let key := s.me.dseed.toNat
    let round (v : Nat × Nat) (r : Nat × Nat) : Nat × Nat :=
      let x := (v.1 + v.2) % 2 ^ 64
      ((x + (key ^^^ (r.2 * 0x9E3779B97F4A7C15 % 2 ^ 64))) % 2 ^ 64,
        ((v.2 * 2 ^ r.1 + v.2 / 2 ^ (64 - r.1)) % 2 ^ 64) ^^^ x)
    let made (c0 c1 : Nat) : Nat :=
      let v := [(16, 0), (40, 1), (24, 2), (32, 3)].foldl round (c0 ^^^ key, c1)
      (v.1 ^^^ v.2) % 2 ^ 16
    (s.me.dmode.getLsbD 0 = true → s.drawOf kind e n = s.loaded (.spad s.curCore) (entry - windowBase) 2)
    ∧ (s.me.dmode.getLsbD 0 = false → 0 < lits → s.drawOf kind e n = made (s.me.getX 30).toNat
        (kind * 2 ^ 60 + field s.me.cgeom 48 12 * 2 ^ 48 + (field s.me.cgeom 24 24 + e / lits) % 2 ^ 24 * 2 ^ 24 + e % lits)))
  ∧ ∀ (s : State) (d a b m : Reg) (ca cb : Bool),
  let st := s.me
  let g := st.vgrp
  let n := st.automatonBits
  let A (e : Nat) : Bool := (st.group a.toNat g).testBit e
  let B (e : Nat) : Bool := (st.group b.toNat g).testBit e
  let auto (u : Strand) (e : Nat) : Nat :=
    (List.range n).foldl (fun acc j => acc + (if (u.group (d.toNat + j * g) g).testBit e then 2 ^ j else 0)) 0
  let place (live : Nat → Bool) (e : Nat) : Nat := ((List.range e).filter live).length
  let draw (kind : Nat) (live : Nat → Bool) (e : Nat) : Nat := s.drawOf kind e (place live e)
  let tableOk (live : Nat → Bool) : Prop := st.tableMode = true →
    s.tableBad = false ∧ s.unobstructed false (fun e => st.tableAt (place live e)) 2 live
  let moved (t : State) (count : Option Nat) : Prop :=
    t.me.dpos = (match count with
      | some n => if st.tableMode then BitVec.ofNat 64 ((st.dpos.toNat + n) % st.tableLen) else st.dpos
      | none => st.dpos)
      ∧ t.me.vstart = 0 ∧ s.onlyStored t fun _ _ => False
  let rest (u : Strand) : Strand := { u.data with v := [], m := [], tags := [], dirty := 0, vstart := 0, dpos := 0, seen := 0 }
  let none32 (r : Reg) : Prop := r.toNat % g = 0 ∧ ∀ j, j < g → st.vabs.getLsbD (r.toNat + j) = false
  let step1 (live : Nat → Bool) (e : Nat) : Int :=
    if A e && B e then (if st.boost || decide (draw 8 live e < 65536 - st.decayQ) then 1 else 0)
    else if draw 9 live e < st.decayQ then -1 else 0
  let sat (x : Int) : Nat := (min (2 ^ n - 1) (max 0 x)).toNat
  st.controlOk → s.offers 7 → (m ≠ 31 → st.vabs.getLsbD 32 = false) → none32 a →
  (st.vabs.getLsbD 32 = false → st.tag a.toNat = 6 → s.offers 18 →
    let live (e : Nat) : Bool := s.active m 32 e && decide (e < 2048)
    tableOk live →
    ∃ t, exec (.cdraw d a m ca) s = .next t
      ∧ (∀ e, e < 2048 → (t.me.getM d.toNat).getLsbD e =
          (live e && decide (draw st.drawKind live e < min 65536 (elemOf 32 (st.group a.toNat g) e))))
      ∧ (∀ j, j ≠ d.toNat → t.me.getM j = st.getM j) ∧ (∀ r, t.me.getV r = st.getV r ∧ t.me.tag r = st.tag r)
      ∧ rest t.me = rest st ∧ moved t (some (place live 2048)))
  ∧ (∀ (T : Nat) (pol : Bool), 0 < T → T < 2 ^ 31 → (s.me.getX b).toNat = T + (if pol then 2 ^ 32 else 0) → st.tag a.toNat = 2 → s.offers 18 →
    none32 d →
    s.vectorResult (.cprob d a b m ca) d 6 32 true fun e =>
      let v : Int := min (T : Int) (max (-T) (toSigned 32 (elemOf 32 (st.group a.toNat g) e)))
      if s.active m 32 e then some ((65536 * (if pol then (T : Int) + v else T - v) / (2 * T)).toNat % 2 ^ 32) else none)
  ∧ (s.offers 20 → d.toNat % g = 0 → d.toNat + n * g ≤ 32 →
    (∀ j, j < n * g → st.vabs.getLsbD (d.toNat + j) = false) →
    let apart (r : Reg) : Prop := r.toNat + g ≤ d.toNat ∨ d.toNat + n * g ≤ r.toNat
    let stepped (i : Instr) (live : Nat → Bool) (draws : Bool) (step : Nat → Int) : Prop :=
      ∃ t, exec i s = .next t
        ∧ (∀ e, e < 16384 * g → auto t.me e = if live e then sat (auto st e + step e) else auto st e)
        ∧ (∀ r, t.me.tag r = if d.toNat ≤ r ∧ r < d.toNat + n * g then 0x0C else st.tag r)
        ∧ (∀ r, r < d.toNat ∨ d.toNat + n * g ≤ r → t.me.getV r = st.getV r) ∧ (∀ j, t.me.getM j = st.getM j)
        ∧ rest t.me = rest st ∧ moved t (if draws then some (place live (16384 * g)) else none)
    apart a →
    (st.tag a.toNat = 0x0C → none32 b → st.tag b.toNat = 0x0C → apart b → st.delta = false →
      (tableOk (s.active m 1) → stepped (.cfb1 d a b m ca cb) (s.active m 1) true (step1 (s.active m 1)))
      ∧ stepped (.cfb2 d a b m ca cb) (s.active m 1) false fun e =>
          if B e && !A e && decide (auto st e < 2 ^ (n - 1)) then 1 else 0)
    ∧ (st.tag a.toNat = 0x0C → stepped (.cstep d a m ca) (s.active m 1) false fun e => if A e then 1 else -1)
    ∧ (st.tag a.toNat < 4 → (∀ c ∈ tagClasses (st.tag a.toNat), s.offers c) →
      let w := 8 * 2 ^ st.tag a.toNat
      stepped (.cadd d a m ca) (s.active m w) false fun e => toSigned w (elemOf w (st.group a.toNat g) e)))
  ∧ (s.offers 20 → none32 b → none32 d → st.delta = true → st.tag a.toNat = 0x0C → st.tag b.toNat = 0x0C →
    st.tag d.toNat ≤ 2 → (∀ c ∈ tagClasses (st.tag d.toNat), s.offers c) →
    let w := 8 * 2 ^ st.tag d.toNat
    let counted (i : Instr) (draws : Bool) (step : Nat → Int) : Prop :=
      ∃ t, exec i s = .next t
        ∧ (∀ e, e < 16384 * g / w → elemOf w (t.me.group d.toNat g) e =
            if s.active m w e then ((elemOf w (st.group d.toNat g) e + step e) % 2 ^ w).toNat
            else elemOf w (st.group d.toNat g) e)
        ∧ (∀ r, t.me.tag r = if d.toNat ≤ r ∧ r < d.toNat + g then st.tag d.toNat else st.tag r)
        ∧ (∀ r, r < d.toNat ∨ d.toNat + g ≤ r → t.me.getV r = st.getV r) ∧ (∀ j, t.me.getM j = st.getM j)
        ∧ rest t.me = rest st ∧ moved t (if draws then some (place (s.active m w) (16384 * g)) else none)
    (tableOk (s.active m w) → counted (.cfb1 d a b m ca cb) true (step1 (s.active m w)))
    ∧ counted (.cfb2 d a b m ca cb) false fun e => if B e && !A e then 1 else 0)

/-! ## Copy engine, barriers and queues -/

/-- R267 to R273: a copy command that passes its checks completes for its strand and enters the engine's queue with the rows
that its form gives; one of no rows or of empty rows only completes. `xcp` has one row, `xcp2` strides, `xgat` reads the
source row's index from a list, and `xpg` its pointer from a table. A command that waits keeps what it has read since it issued:
its descriptor, its list and its pointers.
R270: a command that fails a check traps: the illegal-instruction trap, misalignment, access violation or translation
fault of that check.
R271, R275, R280, R281: the engine's events. The oldest command writes its next 64-byte aligned unit, or what its row
covers of it, from what its source holds, but no byte that a higher key outranks, and drains its barrier of as many
bytes; it leaves when every row is done; and when suspended it goes on with fresh translations, waits for the missing
pages, or is abandoned where an address is forbidden.
R277, R290, R352: a unit that went to another device drains the barrier only once it is acknowledged, and a command whose next
unit has no place any more is abandoned.
That a fault record without a place is an access violation, and that a unit on several devices which another agent has open
holds the engine back, is the model's choice (logs 72, 73).
The model's own readings in it: logs 5, 7, 31, 39, 66, 72, 73, 74, 87. -/
def Obligations.Copies : Prop :=
  (∀ (s : State) (d a b : Reg) (sc : Scope) (od : Sys2Proof.Ordering),
    let x := (s.me.getX b).toNat
    let A := (s.me.getX a).toNat
    let D := (s.me.getX d).toNat
    let signed (n : Nat) : Int := toSigned 64 (n % 2 ^ 64)
    let wrap (v : Int) : Nat := (v % 2 ^ 64).toNat
    s.offers 8 →
    ∀ p ∈ [(Instr.xcp d a b sc od, CopyForm.linear), (.xcp2 d a b sc od, .strided), (.xgat d a b sc od, .gather),
        (.xpg d a b sc od, .pages)],
      let linear : Bool := decide (p.2 = .linear)
      let held := s.copyRead p.1
      let desc := match held with
        | some r => r.desc
        | none => leNat (s.loadAs s.me [{ space := .sdm s.curCore, addr := x % 2 ^ 18, len := 32 }])
      let c := CopySpec.read p.2 x (if linear then 0 else desc)
      let plan := s.copyPlan p.1 p.2 c (s.me.getX a) (s.me.getX d)
      let reads := plan.flatMap fun r => r.reads c.rowLen
      let writes := plan.flatMap fun r => r.writes c.rowLen
      let list := desc / 2 ^ 192 % 2 ^ 64
      let remote := x.testBit 62
      let target := x / 2 ^ 54 % 2 ^ 8
      let barrier := if remote then teamBase + target * 0x800000 + x / 2 ^ 32 % 2 ^ 22 else windowBase + x / 2 ^ 32 % 2 ^ 22
      let bad := (remote = false ∧ target ≠ 0) ∨ (linear = false ∧ (x / 2 ^ 18 % 2 ^ 14 ≠ 0 ∨ 65536 < desc % 2 ^ 32
        ∨ 2 ^ 24 < desc / 2 ^ 32 % 2 ^ 32 ∨ (p.2 = .strided ∧ list ≠ 0)))
      let askew := (linear = false ∧ x % 2 ^ 18 % 32 ≠ 0) ∨ (x.testBit 63 = true ∧ x / 2 ^ 32 % 2 ^ 22 % 16 ≠ 0)
        ∨ (p.2.listed = true ∧ list % 4 ≠ 0) ∨ (p.2 = .pages ∧ A % 8 ≠ 0)
      let outside := (p.2.listed = true ∧ desc % 2 ^ 32 ≠ 0 ∧ (list < windowBase ∨ teamBase ≤ list
          ∨ s.windowAt s.curCore (list - windowBase) (4 * (desc % 2 ^ 32)) = .forbidden))
        ∨ (remote = true ∧ ((s.myCore.place).map Place.size).getD 0 ≤ target)
        ∨ (x.testBit 63 = true ∧ s.window s.curCore barrier 16 = .forbidden)
      let failed := s.copyTrap p.1 p.2 c (s.me.getX a)
      (linear = false → s.interlocked false [{ idx := 0, addr := sdmBase + x % 2 ^ 18, len := 32 }] = false) →
      (bad → failed.map Trap.cause = some .illegal) ∧ (¬ bad → askew → failed.map Trap.cause = some .misalign)
      ∧ (¬ bad → ¬ askew → outside → failed.map Trap.cause = some .access) ∧ (¬ bad → ¬ askew → ¬ outside → failed = none)
      ∧ (held = none → ∀ u, failed = some u → exec p.1 s = s.trapped u)
      ∧ (failed = none → (held = none → s.entriesTaken = false) → s.flight s.mySender = none →
      s.flight (s.senderOf (walkAgent s.curStrand)) = none →
      (∀ e ∈ reads ++ writes, s.walksHere s.curStrand e.addr e.len) →
      (∀ r ∈ plan, ∀ v, r.ptr = some v → ∀ ps y', s.translate s.curCore .load false v 8 = .at_ ps y' →
        (∀ m, ps ≠ .remote m) ∧ s.reducesMeet [{ space := ps, addr := y', len := 8 }] = false
          ∧ s.unitOpen s.mySender [{ space := ps, addr := y', len := 8 }] = false ∧ s.heldUnplaced = false) →
      (c.rows = (if linear then 1 else desc % 2 ^ 32) ∧ c.rowLen = (if linear then x else desc / 2 ^ 32) % 2 ^ 32)
      ∧ (p.2 = .linear → plan = [{ row := 0, ptr := none, src := some A, dst := D }])
      ∧ (p.2 = .strided → ∀ r, r < c.rows → plan[r]? = some
          ⟨r, none, some (wrap (A + r * signed (desc / 2 ^ 64))), wrap (D + r * signed (desc / 2 ^ 128))⟩)
      ∧ (∀ sp y, s.windowAt s.curCore ((desc / 2 ^ 192) % 2 ^ 64 - windowBase) (4 * c.rows) = .at_ sp y →
          let index (r : Nat) : Nat := match held.bind CopyRead.list with
            | some bytes => leNat ((bytes.drop (4 * r)).take 4)
            | none => s.loaded sp (y + 4 * r) 4
          (p.2 = .gather → ∀ r, r < c.rows → plan[r]? = some
            ⟨r, none, some (wrap (A + index r * signed (desc / 2 ^ 64))), wrap (D + r * signed (desc / 2 ^ 128))⟩)
          ∧ (p.2 = .pages → ∀ r, r < c.rows → ∃ q : RowPlan, plan[r]? = some q ∧ q.row = r
            ∧ q.ptr = some (wrap (A + 8 * index r)) ∧ q.dst = wrap (D + r * signed (desc / 2 ^ 128))
            ∧ match (held.bind fun u => u.ptrs.find? fun e => e.1 = r) with
              | some e => q.src = some (wrap (e.2 + signed (desc / 2 ^ 64)))
              | none => ∀ ps y', s.findsAt .load (wrap (A + 8 * index r)) 8 ps y' →
                q.src = some (wrap (s.loaded ps y' 8 + signed (desc / 2 ^ 64)))))
      ∧ (held = none → c.rows = 0 ∨ c.rowLen = 0 →
          ∃ t, exec p.1 s = .next t ∧ t.myCore.copies = s.myCore.copies ∧ t.me = s.me.retire s.ilen ∧ s.sameBytes t)
      ∧ (c.rows ≠ 0 → c.rowLen ≠ 0 →
        (p.2.listed = true → s.interlocked false [{ idx := 0, addr := c.list.toNat, len := 4 * c.rows }] = false) →
        s.interlocked false reads = false → s.interlocked true writes = false →
        (∀ rows pages written, s.copyPhase s.curCore reads writes = .missing rows pages written →
          match s.reportFault s.curCore s.curStrand (if written then 1 else 0) s.me.pc rows pages with
          | .ok (u, y) => exec p.1 s = u.trapped { cause := .xlate, info := y, elem := (rows.head?).getD 0 }
          | .error y => exec p.1 s = s.trapped { cause := .access, info := y, elem := (rows.head?).getD 0 })
        ∧ (∀ row addr, s.copyPhase s.curCore reads writes = .forbidden row addr →
          exec p.1 s = s.trapped { cause := .access, info := addr, elem := row })
        ∧ (∀ pages, s.copyPhase s.curCore reads writes = .ok pages → s.copyOverlaps p.2 c plan = true →
          exec p.1 s = s.trapped { cause := .access, info := D })
        ∧ ∀ pages, s.copyPhase s.curCore reads writes = .ok pages → s.copyOverlaps p.2 c plan = false →
        ∃ t, ∃ cp : Copy, exec p.1 s = .next t ∧ t.myCore.copies = s.myCore.copies ++ [cp] ∧ t.me = s.me.retire s.ilen
          ∧ cp.strand = s.curStrand ∧ cp.pc = s.me.pc ∧ cp.interval = s.me.interval ∧ cp.scope = sc ∧ cp.order = od
          ∧ cp.rows = plan.map (fun r => (⟨BitVec.ofNat 64 (r.src.getD 0), BitVec.ofNat 64 r.dst, c.rowLen⟩ : CopyRow))
          ∧ cp.row = 0 ∧ cp.offset = 0 ∧ cp.suspended = false ∧ cp.unit = none ∧ cp.blk = s.me.blk ∧ cp.pages = pages
          ∧ cp.key = s.storeKey ∧ cp.sync = s.relEpoch (Order.of sc od)
          ∧ cp.barrier = (if x.testBit 63 then
              some (if x.testBit 62 then x / 2 ^ 54 % 2 ^ 8 else s.myTeam, x / 2 ^ 32 % 2 ^ 22) else none)
          ∧ s.sameBytes t)))
  ∧ (∀ (s : State) (p : Nat) (c : Copy) (rest : List Copy),
    (s.core p).copies = c :: rest → (s.core p).halted = false → (s.core p).resuming = false →
    (∀ (r : CopyRow) (sp : Space) (x : Nat) (at_ : Nat → Space × Nat), c.rows[c.row]? = some r → c.suspended = false →
      c.unit = none → s.copyBehind p c = false → c.offset < r.len → s.flight (s.copySender p engineAgent) = none →
      (∀ m, sp ≠ .remote m) →
      let asker := s.copySender p engineAgent
      let dest := (r.dst.toNat + c.offset) % 2 ^ 64
      let n := min (r.len - c.offset) (64 - dest % 64)
      s.copyPlace p c (dest, n) = .at_ sp x → s.unitWaits asker true [{ space := sp, addr := x, len := n }] = false →
      (∀ k, k < n → s.copyPlace p c ((r.src.toNat + c.offset + k) % 2 ^ 64, 1) = .at_ (at_ k).1 (at_ k).2
        ∧ (∀ m, (at_ k).1 ≠ .remote m)
        ∧ s.unitOpen asker [{ space := (at_ k).1, addr := (at_ k).2, len := 1 }] = false) →
      let drained (q off : Nat) : Prop := ∃ b pl, c.barrier = some (b, off) ∧ (s.core p).place = some pl ∧ pl.cores[b]? = some q
      let word (u : State) (q off : Nat) : Nat := leNat ((u.memOf (.spad q)).read off 16)
      (∀ q off, drained q off → sp = .spad q → x + n ≤ off ∨ off + 16 ≤ x) →
      ∃ t, ∃ c' : Copy, exec (.copyUnitWrite p) s = .next t ∧ (t.core p).copies = c' :: rest
        ∧ (c'.row, c'.offset) = (if c.offset + n < r.len then (c.row, c.offset + n) else (c.row + 1, 0))
        ∧ (∀ k, k < n → (t.memOf sp).get (x + k) =
            if ∃ key, c.key = some key ∧ s.outranked key sp (x + k) = true then (s.memOf sp).get (x + k)
            else (s.memOf (at_ k).1).get (at_ k).2)
        ∧ (∀ q off, drained q off →
            (Barrier.ofNat (word s q off) = none → word t q off = word s q off)
            ∧ ∀ v, Barrier.ofNat (word s q off) = some v → -2 ^ 55 ≤ v.pending - n →
              let pending := v.pending - n
              let phase (f : Bool) : Nat := if f then 2 ^ 63 else 0
              word t q off = if v.arrived = v.expect ∧ pending = 0 then phase (!v.phase) + v.expect * 2 ^ 64
                else (pending % 2 ^ 56).toNat + phase v.phase + v.expect * 2 ^ 64 + v.arrived * 2 ^ 80)
        ∧ ∀ sp' y, ¬ (sp' = sp ∧ x ≤ y ∧ y < x + n) → (∀ q off, drained q off → ¬ (sp' = .spad q ∧ off ≤ y ∧ y < off + 16)) →
            (t.memOf sp').get y = (s.memOf sp').get y)
    ∧ (∀ (r : CopyRow) (n lo hi : Nat), c.rows[c.row]? = some r → c.unit = some (n, lo, hi) →
      ((∃ e ∈ s.postedQ, lo ≤ e.no ∧ e.no < hi) → exec (.copyUnitWrite p) s = .next s)
      ∧ ((∀ e ∈ s.postedQ, ¬ (lo ≤ e.no ∧ e.no < hi)) →
        ∃ t, ∃ c' : Copy, exec (.copyUnitWrite p) s = .next t ∧ (t.core p).copies = c' :: rest ∧ c'.unit = none
          ∧ (c'.row, c'.offset) = (if c.offset + n < r.len then (c.row, c.offset + n) else (c.row + 1, 0))))
    ∧ (∀ r : CopyRow, c.rows[c.row]? = some r → c.suspended = false → c.unit = none → s.copyBehind p c = false →
      let dest := (r.dst.toNat + c.offset) % 2 ^ 64
      let n := min (r.len - c.offset) (64 - dest % 64)
      c.offset < r.len → s.copyPlace p c (dest, n) = .forbidden →
      (∀ k, k < n → ∃ sp x, s.copyPlace p c ((r.src.toNat + c.offset + k) % 2 ^ 64, 1) = .at_ sp x) →
      ∃ t, exec (.copyUnitWrite p) s = .next t ∧ (t.core p).copies = rest
        ∧ ((t.core p).strand c.strand).abandoned = ((s.core p).strand c.strand).abandoned
            ++ [{ pc := c.pc, blk := c.blk, addr := BitVec.ofNat 64 dest, row := c.row }] ∧ s.sameBytes t)
    ∧ (c.rows.length ≤ c.row → exec (.copyComplete p) s = .next (s.setCore p { s.core p with copies := rest }))
    ∧ (c.suspended = true → c.awaiting = [] → c.unit = none →
      let reads : List Elem := c.remaining.map fun (i, r) => { idx := i, addr := r.src.toNat, len := r.len }
      let writes : List Elem := c.remaining.map fun (i, r) => { idx := i, addr := r.dst.toNat, len := r.len }
      let u := s.at_ p s.curStrand
      u.flight (u.senderOf (walkAgent engineAgent)) = none →
      (∀ e ∈ reads ++ writes, u.walksHere engineAgent e.addr e.len) →
      (∀ pages, s.copyPhase p reads writes = .ok pages → exec (.copyRetranslate p) s =
        .next (s.setCore p { s.core p with copies := { c with pages := pages, suspended := false } :: rest }))
      ∧ (∀ rows pages written, s.copyPhase p reads writes = .missing rows pages written →
          match s.reportFault p c.strand (if written then 1 else 0) c.pc rows pages true with
          | .ok (t, _) => exec (.copyRetranslate p) s = .next (t.setCore p { t.core p with
              copies := { c with awaiting := (pages.take 248).map fun pg => BitVec.ofNat 64 (pg * 4096) } :: rest })
          | .error y => ∃ t, exec (.copyRetranslate p) s = .next t ∧ (t.core p).copies = rest ∧ s.sameBytes t
              ∧ ((t.core p).strand c.strand).abandoned = ((s.core p).strand c.strand).abandoned
                ++ [{ pc := c.pc, blk := c.blk, addr := BitVec.ofNat 64 y, row := (rows.head?).getD 0 }])
      ∧ (∀ row addr, s.copyPhase p reads writes = .forbidden row addr →
        ∃ t, exec (.copyRetranslate p) s = .next t ∧ (t.core p).copies = rest
          ∧ ((t.core p).strand c.strand).abandoned = ((s.core p).strand c.strand).abandoned
              ++ [{ pc := c.pc, blk := c.blk, addr := BitVec.ofNat 64 addr, row := row }] ∧ s.sameBytes t)))

/-- R275, R276: barriers of 16 bytes in a scratchpad. An update adds arrivals and bytes, and completes the phase where every
arrival and byte is in; an invalid barrier or a refused update returns all ones and changes nothing.
R278, R279: queues. `qini` writes a header; `qenq` appends an element and counts TAIL up, `qdeq` takes the oldest and
counts HEAD up; each returns 1, changing nothing, where the queue is full or empty, and 2 where it is no valid queue.
The model's own readings in it: logs 8, 41, 66. -/
def Obligations.BarriersAndQueues : Prop :=
  (∀ (s : State) (d a b : Reg) (sc : Scope) (od : Sys2Proof.Ordering) (q x : Nat),
    let va := s.me.getX a
    let o := Order.of sc od
    let word (t : State) : Nat := leNat ((t.memOf (.spad q)).read x 16)
    let B := s.me.getX b
    let gives (i : Instr) (w : Word) (n : Nat) : Prop :=
      ∃ t, exec i s = .next t ∧ word t = n ∧ t.me.getX d = (if d = 0 then 0 else w) ∧ (∀ r, r ≠ d → t.me.getX r = s.me.getX r)
        ∧ ({ t.me.data with x := [], seen := 0 } : Strand) = { s.me.data with x := [], seen := 0 }
        ∧ s.onlyStored t fun sp y => sp = .spad q ∧ x ≤ y ∧ y < x + 16
    s.offers 8 → va.toNat % 16 = 0 → inWindows va.toNat = true → s.window s.curCore va.toNat 16 = .at_ (.spad q) x →
    (s.objectWaits o true [{ idx := 0, addr := va.toNat, len := 16 }] = false →
      (0 < B.toNat → B.toNat < 65536 → ∃ t, exec (.bini a b sc od) s = .next t ∧ word t = B.toNat * 2 ^ 64
        ∧ t.me.data = s.me.data ∧ s.onlyStored t fun sp y => sp = .spad q ∧ x ≤ y ∧ y < x + 16)
      ∧ ∀ p ∈ [(Instr.barr d a b sc od, 1), (.bexp d a b sc od, 0)],
        (Barrier.ofNat (word s) = none → gives p.1 (~~~ 0) (word s))
        ∧ ∀ v : Barrier, Barrier.ofNat (word s) = some v →
          let pending := v.pending + B.toInt
          let full := p.2 = 1 ∧ v.arrived = v.expect
          let out := pending < -2 ^ 55 ∨ 2 ^ 55 ≤ pending
          let phase (f : Bool) : Nat := if f then 2 ^ 63 else 0
          (full ∨ out → gives p.1 (~~~ 0) (word s))
          ∧ (¬ full → ¬ out → gives p.1 (if v.phase then 1 else 0)
            (if v.arrived + p.2 = v.expect ∧ pending = 0 then phase (!v.phase) + v.expect * 2 ^ 64
            else (pending % 2 ^ 56).toNat + phase v.phase + v.expect * 2 ^ 64 + (v.arrived + p.2) * 2 ^ 80)))
    ∧ (s.objectWaits o false [{ idx := 0, addr := va.toNat, len := 16 }] = false →
      (Barrier.ofNat (word s) = none → gives (.bwait d a b sc od) (~~~ 0) (word s) ∧ gives (.btest d a b sc od) (~~~ 0) (word s))
      ∧ ∀ v : Barrier, Barrier.ofNat (word s) = some v →
        if v.phase = B.getLsbD 0 then
          exec (.bwait d a b sc od) s = s.waits (.bwait d a b sc od) ∧ gives (.btest d a b sc od) 0 (word s)
        else
          gives (.bwait d a b sc od) 0 (word s) ∧ gives (.btest d a b sc od) 1 (word s)
          ∧ (∀ (u : State) (w : Waiting), u.at_ s.curCore s.curStrand = s → s.me.waiting = some w →
              w.instr = .bwait d a b sc od → s.strandRuns s.curCore s.curStrand = true →
              ∃ t, exec (.bwaitReturn s.curCore s.curStrand) u = .next t ∧ t.me.getX d = 0 ∧ t.me.waiting = none
                ∧ (∀ r, r ≠ d → t.me.getX r = s.me.getX r) ∧ s.sameBytes t)))
  ∧ (∀ (s : State) (d a b : Reg) (sc : Scope) (od : Sys2Proof.Ordering) (q x : Nat),
    let va := s.me.getX a
    let o := Order.of sc od
    let word (t : State) : Nat := leNat ((t.memOf (.spad q)).read x 64)
    let leaves (t : State) (stored : Space → Nat → Prop) : Prop :=
      (∀ r, r ≠ d → t.me.getX r = s.me.getX r)
        ∧ ({ t.me.data with x := [], seen := 0 } : Strand) = { s.me.data with x := [], seen := 0 } ∧ s.onlyStored t stored
    let header (sp : Space) (y : Nat) : Prop := sp = .spad q ∧ x ≤ y ∧ y < x + 64
    s.offers 8 → va.toNat % 64 = 0 → inWindows va.toNat = true → s.window s.curCore va.toNat 64 = .at_ (.spad q) x →
    s.objectWaits o true [{ idx := 0, addr := va.toNat, len := 64 }] = false →
    (∀ e esize, e ≤ 16 → esize ∈ [8, 16, 32, 64] → (s.me.getX b).toNat = 2 ^ e + esize * 2 ^ 32 →
      s.window s.curCore va.toNat (64 + esize * 2 ^ e) = .at_ (.spad q) x →
      ∃ t, exec (.qini a b sc od) s = .next t ∧ word t = 2 ^ e * 2 ^ 64 + esize * 2 ^ 96 ∧ t.me.data = s.me.data
        ∧ s.onlyStored t header)
    ∧ (let n := word s
      let head := n % 2 ^ 32
      let tail := n / 2 ^ 32 % 2 ^ 32
      let cap := n / 2 ^ 64 % 2 ^ 32
      let esize := n / 2 ^ 96 % 2 ^ 16
      let eb := s.me.getX b
      let place : Piece := { space := .spad q, addr := x, len := 64 }
      let slot (j : Nat) : Nat := x + 64 + esize * (j % cap)
      let apart (j : Nat) : List Elem := [{ idx := 0, addr := (va + BitVec.ofNat 64 (64 + esize * (j % cap))).toNat, len := esize }]
      let counts (h t : Nat) : Nat := h % 2 ^ 32 + t % 2 ^ 32 * 2 ^ 32 + n / 2 ^ 64 * 2 ^ 64
      ∀ (sp : Space) (y : Nat), eb.toNat % 8 = 0 → windowBase ≤ eb.toNat → eb.toNat < teamBase →
        s.windowAt s.curCore (eb.toNat - windowBase) (if esizeOk esize then esize else 8) = .at_ sp y →
        s.interlocked false [{ idx := 0, addr := eb.toNat, len := if esizeOk esize then esize else 8 }] = false →
        s.interlocked true [{ idx := 0, addr := eb.toNat, len := if esizeOk esize then esize else 8 }] = false →
        let refuses (i : Instr) (w : Word) : Prop :=
          ∃ t, exec i s = .next t ∧ t.me.getX d = (if d = 0 then 0 else w) ∧ leaves t fun _ _ => False
        (s.queueValid place n = false → refuses (.qenq d a b sc od) 2 ∧ refuses (.qdeq d a b sc od) 2)
        ∧ (s.queueValid place n = true → (tail + 2 ^ 32 - head) % 2 ^ 32 = cap → refuses (.qenq d a b sc od) 1)
        ∧ (s.queueValid place n = true → tail = head → refuses (.qdeq d a b sc od) 1)
        ∧ (s.queueValid place n = true → (tail + 2 ^ 32 - head) % 2 ^ 32 ≠ cap →
          s.interlocked true (apart tail) = false →
          ∃ t, exec (.qenq d a b sc od) s = .next t ∧ t.me.getX d = 0 ∧ word t = counts head (tail + 1)
            ∧ (∀ k, k < esize → (t.memOf (.spad q)).get (slot tail + k) = (s.memOf sp).get (y + k))
            ∧ leaves t fun sp' z => header sp' z ∨ (sp' = .spad q ∧ slot tail ≤ z ∧ z < slot tail + esize))
        ∧ (s.queueValid place n = true → tail ≠ head → s.storeHeld = false → s.myCore.det = false →
          (sp = .spad q → y + esize ≤ x ∨ x + 64 ≤ y) → s.interlocked false (apart head) = false →
          ∃ t, exec (.qdeq d a b sc od) s = .next t ∧ t.me.getX d = 0 ∧ word t = counts (head + 1) tail
            ∧ (∀ k, k < esize → (t.memOf sp).get (y + k) = (s.memOf (.spad q)).get (slot head + k))
            ∧ leaves t fun sp' z => header sp' z ∨ (sp' = sp ∧ y ≤ z ∧ z < y + esize))))


/-! ## System instructions -/

/-- R87, R319, R321: reading a strand control register; `alc` and `lmod` read 0 in deterministic mode, set their bits of
`detf` and mark the job. A register is read and written by the numbers that R319 assigns, below 29 and 32 to 47; no word
names another.
R9, R10, R142, R217, R220, R221, R245, R319: writing a strand control register by its own rule; a number that `scrw` may
not name is illegal, and a read-only register keeps its value. -/
def Obligations.ControlRegisters : Prop :=
  (∀ (s : State) (d : Reg) (n : BitVec 6), s.offers 9 →
    let st := s.me
    (∀ p ∈ [(0, st.sbound.setWidth 64), (1, BitVec.ofNat 64 st.vgrp), (2, 16384), (5, st.vstart.setWidth 64),
        (6, st.vffi.setWidth 64), (7, st.vfill), (12, if st.vdValid then 1 else 0), (13, st.fstat), (14, 0x2002020), (15, st.mext), (16, st.mfmt),
        (17, st.cwidth), (18, st.cspec), (19, st.cgeom), (20, st.dseed), (21, st.dmode), (22, st.dtab), (23, st.dpos),
        (24, st.detf), (25, st.vabs), (26, st.vimg), (27, st.vrq), (28, st.tpc)],
      n.toNat = p.1 → s.writesX (.scrr d n) d p.2)
    ∧ (∀ e, e < 16 → n.toNat = 32 + e → s.writesX (.scrr d n) d (s.myCore.fmt e))
    ∧ (n.toNat < 29 ∨ (32 ≤ n.toNat ∧ n.toNat < 48) → ∃ t, ∃ w : Word, exec (.scrr d n) s = .next t
        ∧ t.me.getX d = (if d = 0 then 0 else w) ∧ (∀ r, r ≠ d → t.me.getX r = st.getX r)
        ∧ ({ t.me.data with x := [], detf := 0 } : Strand) = { st.data with x := [], detf := 0 } ∧ s.sameBytes t)
    ∧ ((Instr.scrr d n).wf = true ↔ n.toNat < 29 ∨ (32 ≤ n.toNat ∧ n.toNat < 48))
    ∧ (∀ k, k < 4 → n.toNat = 8 + k → ∃ w : Word, s.writesX (.scrr d n) d w
        ∧ ∀ j, j < 8 → w.toNat / 2 ^ (8 * j) % 256 = st.tag (8 * k + j))
    ∧ (s.myCore.det = false → s.myCore.prick.length ≤ 4 →
        (n.toNat = 4 → s.writesX (.scrr d n) d (BitVec.ofNat 64 (16 * s.myCore.prick.length)))
        ∧ (n.toNat = 3 → ∃ w : Word, s.writesX (.scrr d n) d w ∧ w.toNat ≤ 16 * s.myCore.prick.length
            ∧ w.toNat ∈ [0, 16, 32, 64] ∧ (w = 0 ↔ s.myCore.prick = [])))
    ∧ (s.myCore.det = true → ∀ k, k = 3 ∨ k = 4 → n.toNat = k →
        ∃ t, exec (.scrr d n) s = .next t ∧ t.me.getX d = 0 ∧ (∀ r, r ≠ d → t.me.getX r = st.getX r)
          ∧ t.me.detf = st.detf ||| BitVec.ofNat 64 (2 ^ (k - 1))
          ∧ ({ t.me.data with x := [], detf := 0 } : Strand) = { st.data with x := [], detf := 0 }
          ∧ (∀ j ∈ t.jobs, j.record.id = s.myJob → j.detRead = true) ∧ s.sameBytes t))
  ∧ (∀ (s : State) (a : Reg) (n : BitVec 6), s.offers 9 →
    let st := s.me
    let w := s.me.getX a
    ((Instr.scrw a n).wf = true ↔ n.toNat < 29 ∨ (32 ≤ n.toNat ∧ n.toNat < 48))
    ∧ (0 < n.toNat → n.toNat < 29 → (n.toNat < 8 ∨ 11 < n.toNat) → ∃ u : Strand, s.completes (.scrw a n) u
        ∧ u.x = st.x ∧ u.v = st.v ∧ u.m = st.m ∧ u.sbound = st.sbound ∧ u.tags = st.tags)
    ∧ (n.toNat = 0 ∨ (8 ≤ n.toNat ∧ n.toNat ≤ 11) ∨ (32 ≤ n.toNat ∧ n.toNat < 48) →
        exec (.scrw a n) s = s.trapped { cause := .illegal, info := encodeWord (.scrw a n) })
    ∧ (∀ p ∈ [(2, st), (3, st), (4, st), (12, st), (14, st),
        (5, { st with vstart := w.setWidth 32 }), (6, { st with vffi := w.setWidth 32 }), (7, { st with vfill := w }),
        (20, { st with dseed := w }), (22, { st with dtab := w }), (24, { st with detf := st.detf &&& w }),
        (28, { st with tpc := w })],
      n.toNat = p.1 → s.completes (.scrw a n) p.2)
    ∧ (n.toNat = 1 → s.completes (.scrw a n)
        { st with vgrp := if w.toNat % 16 ∈ [1, 2, 4, 8] then w.toNat % 16 else st.vgrp })
    ∧ (n.toNat = 13 → ∃ f : Word, s.completes (.scrw a n) { st with fstat := f } ∧ ∀ j, f.getLsbD j =
        if j < 5 then st.fstat.getLsbD j && w.getLsbD j else decide (8 ≤ j ∧ j ≤ 12) && w.getLsbD j)
    ∧ (n.toNat = 15 → ∃ f : Word, s.completes (.scrw a n) { st with mext := f }
        ∧ (let rows := w.toNat % 64
          let cols := w.toNat / 256 % 64
          let k := w.toNat / 65536 % 4096
          f = if 1 ≤ rows ∧ rows ≤ 32 ∧ 1 ≤ cols ∧ cols ≤ 32 ∧ k % 32 = 0 ∧ 32 ≤ k ∧ k ≤ 2048
            then BitVec.ofNat 64 (rows + 256 * cols + 65536 * k) else st.mext))
    ∧ (n.toNat = 16 → ∃ f : Word, s.completes (.scrw a n) { st with mfmt := f } ∧ f.toNat < 65536
        ∧ ∀ i, i < 2 → f.toNat / 256 ^ i % 256 =
            if matCodeOk (w.toNat / 256 ^ i % 256) then w.toNat / 256 ^ i % 256 else st.mfmt.toNat / 256 ^ i % 256)
    ∧ (n.toNat = 17 → s.completes (.scrw a n)
        { st with cwidth := if 2 ≤ w.toNat % 16 ∧ w.toNat % 16 ≤ 8 then BitVec.ofNat 64 (w.toNat % 16) else st.cwidth })
    ∧ (n.toNat = 18 → ∃ f : Word, s.completes (.scrw a n) { st with cspec := f }
        ∧ f.toNat = (if w.toNat % 2 ^ 17 ≤ 65536 then w.toNat % 2 ^ 17 else st.cspec.toNat % 2 ^ 17)
            + w.toNat / 2 ^ 24 % 4 * 2 ^ 24)
    ∧ (n.toNat = 19 → s.completes (.scrw a n)
        { st with cgeom := if w.toNat % 2 ^ 24 = 0 then st.cgeom else BitVec.ofNat 64 (w.toNat % 2 ^ 63) })
    ∧ (n.toNat = 21 → ∃ f : Word, s.completes (.scrw a n) { st with dmode := f }
        ∧ f.toNat = (if w.toNat / 2 ^ 16 % 2 ^ 22 ≤ 2 ^ 21 then w.toNat / 2 ^ 16 % 2 ^ 22 else st.dmode.toNat / 2 ^ 16 % 2 ^ 22)
            * 2 ^ 16 + w.toNat % 2)
    ∧ (n.toNat = 23 → s.completes (.scrw a n) { st with dpos := BitVec.ofNat 64 (w.toNat % 2 ^ 32) })
    ∧ (n.toNat = 25 → s.completes (.scrw a n) { st with vabs := BitVec.ofNat 64 (w.toNat % 2 ^ 33) })
    ∧ (n.toNat = 26 → s.completes (.scrw a n) { st with vimg := if w.toNat % 64 = 0 then w else st.vimg })
    ∧ (n.toNat = 27 → s.completes (.scrw a n) { st with vrq := BitVec.ofNat 64 (w.toNat % 2 ^ 33) }))

/-- R321: the dirty set, the timer, the cycle count and the capabilities. In deterministic mode the last three read 0, 0 and
what the job declares, and set their bits of `detf`. How much time passes between two looks is a free value (log 6).
The model's own reading in it: log 6. -/
def Obligations.DirtyTimeAndCapabilities : Prop := ∀ (s : State) (d a : Reg), s.offers 9 →
  let st := s.me
  let x := st.getX a
  (x.toNat < 2 ^ 33 → ∃ w : BitVec 33, s.completes (.vdirty d a) ({ st with dirty := w }.setX d (st.dirty.setWidth 64))
      ∧ ∀ j, j < 33 → w.getLsbD j = (st.dirty.getLsbD j && !x.getLsbD j))
  ∧ (2 ^ 33 ≤ x.toNat → exec (.vdirty d a) s = s.trapped { cause := .illegal, info := encodeWord (.vdirty d a) })
  ∧ (s.myCore.det = false →
    (∃ n, s.now ≤ n ∧
      exec (.rdtime d) s = .next (({ s with now := n } : State).setMe ((st.setX d (BitVec.ofNat 64 n)).retire s.ilen)))
    ∧ (∃ t, ∃ n, s.myCore.cyc ≤ n ∧ exec (.rdcyc d) s = .next t ∧ t.myCore.cyc = n
        ∧ t.me = (st.setX d (BitVec.ofNat 64 n)).retire s.ilen ∧ s.sameBytes t)
    ∧ (x = 0 → s.writesX (.cap d a) d s.myCore.capMask)
    ∧ (x = 1 → s.writesX (.cap d a) d (BitVec.ofNat 64 s.myCore.spadUsable)))
  ∧ (x ≠ 0 → x ≠ 1 → exec (.cap d a) s = s.trapped { cause := .illegal, info := encodeWord (.cap d a) })
  ∧ (s.myCore.det = true →
    let reads (i : Instr) (bit : Nat) (w : Word) : Prop :=
      ∃ t, exec i s = .next t ∧ t.me.getX d = (if d = 0 then 0 else w) ∧ (∀ r, r ≠ d → t.me.getX r = st.getX r)
        ∧ t.me.detf = st.detf ||| BitVec.ofNat 64 (2 ^ bit)
        ∧ ({ t.me.data with x := [], detf := 0 } : Strand) = { st.data with x := [], detf := 0 }
        ∧ (∀ j ∈ t.jobs, j.record.id = s.myJob → j.detRead = true) ∧ t.now = s.now ∧ s.sameBytes t
    reads (.rdtime d) 0 0 ∧ reads (.rdcyc d) 1 0 ∧ (x = 0 → reads (.cap d a) 4 s.myCore.useMask)
    ∧ ∀ pl, s.myCore.place = some pl → x = 1 → reads (.cap d a) 4 (BitVec.ofNat 64 pl.spad))

/-- R322 to R324: `vsave` stores the header, and of the parts named those that are not absent, at their places of the strand
image (of the control registers seven words are said here); `vrest` loads the parts named, or marks them absent where LAZY is set, and refuses a bad header.
R323: a base that is no multiple of 64, a part bit above 34 and LAZY on `vsave` trap; a value that a control register's own rule
refuses leaves the register, or the field, as it is; bit 7 of a tag byte is reserved and ignored (R10).
That a misaligned base traps before a bad part bit is the model's choice (log 78).
The model's own readings in it: logs 5, 40, 78. -/
def Obligations.StrandImages : Prop := ∀ (s : State) (a b : Reg) (sp : Nat → Space) (x : Nat → Nat),
  let st := s.me
  let base := if a = 0 then st.vimg else st.getX a
  let E (u : Nat) : Nat := (base.toNat + 64 * u) % 2 ^ 64
  let byteOf (t : State) (n : Nat) : Byte := (t.memOf (sp (n / 64))).get (x (n / 64) + n % 64)
  let wordOf (t : State) (n len : Nat) : Nat := leNat ((List.range len).map fun i => byteOf t (n + i))
  let v (n : Nat) : Nat := 0x2140 + 0x800 * n
  s.offers 9 → s.cut = none →
  (let bad (i : Instr) : Prop := exec i s = s.trapped { cause := .illegal, info := encodeWord i }
    let savedParts := if b = 0 then st.dirty.toNat + 2 ^ 33 else (st.getX b).toNat
    let loadedParts := if b = 0 then st.vrq.toNat else (st.getX b).toNat
    (base.toNat % 64 ≠ 0 → ∀ i ∈ [Instr.vsave a b, .vrest a b], exec i s = s.trapped { cause := .misalign, info := base.toNat })
    ∧ (base.toNat % 64 = 0 → (2 ^ 34 ≤ savedParts → bad (.vsave a b)) ∧ (2 ^ 35 ≤ loadedParts → bad (.vrest a b))))
  ∧ (base.toNat % 64 = 0 →
  (let parts := if b = 0 then st.dirty.toNat + 2 ^ 33 else (st.getX b).toNat
    let has (j : Nat) : Bool := parts.testBit j && (decide (j = 33) || !st.vabs.getLsbD j)
    let live (u : Nat) : Bool := decide (u < 1) || (has 33 && decide (1 ≤ u ∧ u < 37))
      || (has 32 && decide (37 ≤ u ∧ u < 133)) || (decide (133 ≤ u ∧ u < 1157) && has ((u - 133) / 32))
    parts < 2 ^ 34 → s.unobstructed true E 64 live → (∀ u, live u = true → s.findsAt .store (E u) 64 (sp u) (x u)) →
    (∀ u u', live u = true → live u' = true → sp u = sp u' → x u = x u' → u = u') →
    ∃ t, exec (.vsave a b) s = .next t
      ∧ ({ t.me.data with storeQ := [] } : Strand) = { st.data with storeQ := [] }
      ∧ (s.storeHeld = true → s.sameBytes t)
      ∧ (s.storeHeld = false → s.myCore.det = false →
        wordOf t 0 4 = 0x31535650 ∧ wordOf t 4 4 = 16384
        ∧ (∀ j, j < 64 → (wordOf t 8 8).testBit j = (decide (j < 34) && has j)) ∧ wordOf t 17 47 = 0
        ∧ (has 33 = true → wordOf t 0x40 8 = st.sbound.toNat ∧ wordOf t 0x48 8 = st.vgrp % 2 ^ 64
          ∧ wordOf t 0x68 8 = st.vstart.toNat ∧ wordOf t 0x78 8 = st.vfill.toNat ∧ wordOf t 0xA8 8 = st.fstat.toNat
          ∧ wordOf t 0x120 8 = st.tpc.toNat ∧ wordOf t 0x140 0x800 = st.vdone.toNat)
        ∧ (has 32 = true → ∀ k, k < 24 → wordOf t (0x940 + 0x100 * k) 0x100 = (st.getM k).toNat)
        ∧ ∀ k, k < 32 → has k = true → wordOf t (v k) 0x800 = (st.getV k).toNat)
      ∧ s.onlyStored t fun sp' y => ∃ u, live u = true ∧ sp' = sp u ∧ x u ≤ y ∧ y < x u + 64)
  ∧ (let parts := if b = 0 then st.vrq.toNat else (st.getX b).toNat
    let lazy := parts.testBit 34
    let has (j : Nat) : Bool := parts.testBit j
    let live (u : Nat) : Bool := decide (u < 1) || (has 33 && decide (1 ≤ u ∧ u < 37))
      || (!lazy && has 32 && decide (37 ≤ u ∧ u < 133)) || (!lazy && decide (133 ≤ u ∧ u < 1157) && has ((u - 133) / 32))
    parts < 2 ^ 35 → st.storeQ = [] → s.unobstructed false E 64 live →
    (∀ u, live u = true → s.findsAt .load (E u) 64 (sp u) (x u)) →
    let good := wordOf s 0 4 = 0x31535650 ∧ wordOf s 4 4 = 16384 ∧ wordOf s 17 47 = 0
    (¬ good → ∃ t, exec (.vrest a b) s = .next t ∧ t.me.st = .trapped ∧ t.me.rec0.toNat % 256 = 1 ∧ t.me.tpc = st.pc
      ∧ t.me.v = st.v ∧ t.me.m = st.m ∧ t.me.vabs = st.vabs ∧ t.me.vrq = st.vrq ∧ s.sameBytes t)
    ∧ (good → ∃ t, exec (.vrest a b) s = .next t ∧ s.onlyStored t (fun _ _ => False)
      ∧ (∀ r, t.me.getX r = st.getX r) ∧ (s.me.st = .self → t.me.st = .self ∧ t.me.pc = st.pc + BitVec.ofNat 64 s.ilen)
      ∧ (∀ k, k < 32 → t.me.getV k = if has k && !lazy then BitVec.ofNat 16384 (wordOf s (v k) 0x800) else st.getV k)
      ∧ (∀ k, k < 24 → t.me.getM k = if has 32 && !lazy then BitVec.ofNat 2048 (wordOf s (0x940 + 0x100 * k) 0x100)
          else st.getM k)
      ∧ (∀ j, j < 33 → t.me.dirty.getLsbD j = (st.dirty.getLsbD j && !has j))
      ∧ (∀ j, j < 33 → t.me.vabs.getLsbD j = if has j then lazy else st.vabs.getLsbD j)
      ∧ t.me.vimg = (if lazy then base else st.vimg) ∧ t.me.vrq = (if a = 0 ∧ b = 0 then 0 else st.vrq)
      ∧ (if has 33 then t.me.sbound = BitVec.ofNat 32 (wordOf s 0x40 8) ∧ t.me.vfill = BitVec.ofNat 64 (wordOf s 0x78 8)
          ∧ t.me.dseed = BitVec.ofNat 64 (wordOf s 0xE0 8) ∧ t.me.tpc = BitVec.ofNat 64 (wordOf s 0x120 8)
          ∧ t.me.vdone = BitVec.ofNat 16384 (wordOf s 0x140 0x800)
          ∧ (let word (n : Nat) : Nat := wordOf s (0x40 + 8 * n) 8
            let group := word 1 % 16
            let rows := word 15 % 64
            let cols := word 15 / 256 % 64
            let k := word 15 / 65536 % 4096
            t.me.vgrp = (if group ∈ [1, 2, 4, 8] then group else st.vgrp)
            ∧ t.me.cwidth = (if 2 ≤ word 17 % 16 ∧ word 17 % 16 ≤ 8 then BitVec.ofNat 64 (word 17 % 16) else st.cwidth)
            ∧ t.me.mext = (if 1 ≤ rows ∧ rows ≤ 32 ∧ 1 ≤ cols ∧ cols ≤ 32 ∧ k % 32 = 0 ∧ 32 ≤ k ∧ k ≤ 2048
              then BitVec.ofNat 64 (rows + 256 * cols + 65536 * k) else st.mext)
            ∧ (∀ i, i < 2 → t.me.mfmt.toNat / 256 ^ i % 256 = if matCodeOk (word 16 / 256 ^ i % 256)
              then word 16 / 256 ^ i % 256 else st.mfmt.toNat / 256 ^ i % 256)
            ∧ (∀ r, r < 32 → let byte := word (8 + r / 8) / 256 ^ (r % 8) % 128;
              t.me.tag r = if tagOk byte then byte else st.tag r))
        else t.me.sbound = st.sbound ∧ t.me.vgrp = st.vgrp ∧ t.me.tags = st.tags ∧ t.me.vfill = st.vfill
          ∧ t.me.dseed = st.dseed ∧ t.me.tpc = st.tpc ∧ t.me.vdone = st.vdone))))

/-! ## Control hart -/

/-- R94 to R102: the extensions of the control hart that direct strands. A bad operand is the strand-command fault. R111: `kjoin`
returns a TRAPPED strand once its earlier accesses have performed.
The model's own readings in it: logs 8, 37. -/
def Obligations.StrandCommands : Prop := ∀ (s : State) (a b d : Reg),
  let h := s.hart
  let x := h.getX a
  let addr := h.getX b
  let c := s.myCore
  let named (k : Nat) : Bool := decide (k < 24) && x.getLsbD k
  let gives (i : Instr) (w : Word → Prop) (f : Nat → Strand → Strand) (rest : Core → Prop) : Prop :=
    ∃ t, ∃ w', w w' ∧ exec i s = .next t ∧ t.hart = { h.setX d w' with pc := h.pc + 4, instret := h.instret + 1, waiting := none }
      ∧ (∀ k, k < 24 → t.myCore.strand k = f k (c.strand k)) ∧ rest t.myCore ∧ (∀ p, p ≠ s.curCore → t.core p = s.core p)
      ∧ s.sameBytes t
  let waits (i : Instr) : Prop := exec i s = s.hartWaits i
  let faults (i : Instr) : Prop := exec i s = s.hartTrapped 24 (BitVec.ofNat 64 (encodeWord i))
  let same (f : Nat → Strand → Bool) (w : Word) : Prop := w.toNat < 2 ^ 24 ∧ ∀ k, k < 24 → w.getLsbD k = (named k && f k (c.strand k))
  let stay (u : Core) : Prop := u.farms = c.farms ∧ u.farmEnd = c.farmEnd
  s.hartClass = true →
  ((x &&& ~~~ 0xF000000).toNat < 2 ^ c.strandCount → addr.toNat % 4 = 0 →
    let full (k : Nat) : Bool := named k && decide (4 ≤ (c.strand k).buf.length)
    let blk : Block := { addr := addr, words := x.toNat / 2 ^ 24 % 16 + 1 }
    (∀ i ∈ [Instr.kbcast b a d, .kbcastw b a d], (∀ k, full k = false) →
      gives i (· = 0) (fun k st => if named k then { st with buf := st.buf ++ [blk] } else st) stay)
    ∧ ((∃ k, full k = true) → waits (.kbcastw b a d)
      ∧ gives (.kbcast b a d) (same fun _ st => decide (4 ≤ st.buf.length)) (fun _ st => st) stay))
  ∧ (2 ^ c.strandCount ≤ (x &&& ~~~ 0xF000000).toNat ∨ addr.toNat % 4 ≠ 0 →
      faults (.kbcast b a d) ∧ faults (.kbcastw b a d))
  ∧ (x.toNat < 2 ^ c.strandCount → c.strandCount ≤ 24 →
    (addr.toNat % 4 = 0 → gives (.kgo b a d) (same fun _ st => !st.atRest) (fun k st =>
      if named k && st.atRest then { st with st := .self, pc := addr, blk := none, pcWritten := false, wd := 0, waiting := none,
                                             partWay := false, restore := false }
      else st) stay)
    ∧ (if (List.range 24).all fun k => !named k || (c.strand k).atRest
        || (decide ((c.strand k).st = .trapped) && (s.at_ s.curCore k).settled .core) then
        gives (.kjoin a d) (same fun _ st => decide (st.st = .trapped)) (fun _ st => st) stay
      else waits (.kjoin a d))
    ∧ gives (.kresume a d) (same fun _ st => decide (st.st = .trapped)) (fun k st =>
      if named k && decide (st.st = .trapped) then
        if st.vrq ≠ 0 then
          if st.pcWritten then { st with st := .self, blk := none, pcWritten := false, wd := 0, partWay := false, restore := true }
          else { st with st := st.fromSt, wd := 0, restore := true }
        else if st.pcWritten then { st with st := .self, blk := none, pcWritten := false, wd := 0, partWay := false }
        else Strand.goOn { st with st := st.fromSt, wd := 0 } st.pc
      else st) stay)
  ∧ (2 ^ c.strandCount ≤ x.toNat → faults (.kgo b a d) ∧ faults (.kjoin a d) ∧ faults (.kresume a d))
  ∧ (addr.toNat % 4 ≠ 0 → faults (.kgo b a d)) ∧ (2 ^ 52 ≤ x.toNat → faults (.kwait a d))
  ∧ (2 ^ c.strandCount ≤ (x &&& 0xFFFFFFFF).toNat ∨ addr.toNat % 4 ≠ 0
      ∨ ((∀ k, named k = false) ∧ 0 < x.toNat / 2 ^ 32) → faults (.kfarm b a d))
  ∧ (x.toNat < 2 ^ 52 →
    let v := c.kpend &&& x
    (v ≠ 0 ∨ x = 0 → gives (.kwait a d) (· = v) (fun k st => if v.getLsbD k then { st with sigPend := false } else st)
      fun u => u.farms = c.farms ∧ ∀ f, f < 4 → u.farmEnd.getLsbD f = (c.farmEnd.getLsbD f && !v.getLsbD (48 + f)))
    ∧ (v = 0 → x ≠ 0 → waits (.kwait a d)))
  ∧ (∀ f, f < 4 → (c.farm f).isNone = true → (∀ j, j < f → (c.farm j).isSome = true) →
    let n := x.toNat / 2 ^ 32
    (x &&& 0xFFFFFFFF).toNat < 2 ^ c.strandCount → c.strandCount ≤ 24 → addr.toNat % 4 = 0 →
    (n = 0 → (∀ k, named k = true → (c.strand k).atRest = true) →
      gives (.kfarm b a d) (· = BitVec.ofNat 64 f) (fun _ st => st) fun u => u.farms = c.farms ∧ u.farmEnd.getLsbD f = true
        ∧ ∀ j, j < 4 → j ≠ f → u.farmEnd.getLsbD j = c.farmEnd.getLsbD j)
    ∧ ((∃ k, named k = true ∧ (c.strand k).atRest = false) →
      gives (.kfarm b a d) (· = 4) (fun _ st => st) stay)
    ∧ (0 < n → (∃ k, named k = true) → (∀ k, named k = true → (c.strand k).atRest = true) → c.det = false →
      let before (k : Nat) : Nat := ((List.range k).filter named).length
      ∃ t, exec (.kfarm b a d) s = .next t
        ∧ t.hart = { h.setX d (BitVec.ofNat 64 f) with pc := h.pc + 4, instret := h.instret + 1, waiting := none }
        ∧ (∀ k, k < 24 → named k = true → before k < n →
            (t.myCore.strand k).st = .self ∧ (t.myCore.strand k).pc = addr ∧ (t.myCore.strand k).farm = some f
            ∧ (t.myCore.strand k).getX 31 = BitVec.ofNat 64 (before k))
        ∧ (∀ k, k < 24 → (named k = false ∨ n ≤ before k) → (t.myCore.strand k).st = (c.strand k).st)
        ∧ s.sameBytes t))
  ∧ ((∀ f, f < 4 → (c.farm f).isSome = true) → (x &&& 0xFFFFFFFF).toNat < 2 ^ c.strandCount → addr.toNat % 4 = 0 →
      ((∃ k, named k = true) ∨ x.toNat / 2 ^ 32 = 0) → gives (.kfarm b a d) (· = 5) (fun _ st => st) stay)

/-- R100, R101, R103: the extensions that read and write a resting or trapped strand and configure the core; `kcfg` is
illegal in U-mode, and `ksget` and `ksput` of a strand that runs, or with a selector that names nothing, are the
strand-command fault, as are FMTW of a bad entry and LCLR of a channel above 7. R70: EXIT discards the
state of the strands that are not IDLE. That their held stores stay, and that their farms, their queued matrix
instructions and requested stops go, is the model's choice (log 37).
The model's own readings in it: logs 8, 37, 67. -/
def Obligations.StrandItems : Prop := ∀ (s : State) (a b d : Reg) (n : BitVec 7) (k : Nat),
  let h := s.hart
  let x := h.getX a
  let y := h.getX b
  let c := s.myCore
  let after (d : Reg) (w : Word) : Hart := { h.setX d w with pc := h.pc + 4, instret := h.instret + 1, waiting := none }
  let leaves (i : Instr) (d : Reg) (w : Word) (u : Core) : Prop := exec i s = .next (s.setMyCore { u with hart := after d w })
  let item (w : Word) : Prop := leaves (.ksget n a d) d w c
  s.hartClass = true →
  (x.toNat = k → k < 24 → k < c.strandCount → ((c.strand k).st = .idle ∨ (c.strand k).st = .trapped) →
    let st := c.strand k
    (∀ r : Reg, n.toNat = r.toNat → item (st.getX r) ∧ leaves (.ksput n b a) 0 0 (c.setStrand k (st.setX r y)))
    ∧ (∀ p ∈ [(32, st.pc), (34, st.sig), (35, st.rec0), (36, st.rec1), (37, st.rec2), (38, st.rec3), (39, st.rec4),
        (64, st.sbound.setWidth 64), (65, BitVec.ofNat 64 st.vgrp), (71, st.vfill), (77, st.fstat), (84, st.dseed),
        (92, st.tpc)], n.toNat = p.1 → item p.2)
    ∧ (n.toNat = 33 → ∃ w : Word, item w ∧ w.toNat % 8 = (match st.st with | .trapped => 3 | _ => 0)
        ∧ (st.buf.length ≤ 4 → w.toNat / 8 % 8 = st.buf.length)
        ∧ (st.buf.length ≤ 4 → ∀ f, f < 4 → st.farm = some f → w.toNat / 64 = 1 + 2 * f))
    ∧ (n.toNat = 32 → leaves (.ksput n b a) 0 0 (c.setStrand k { st with pc := y, pcWritten := decide (st.st = .trapped) }))
    ∧ (33 ≤ n.toNat → n.toNat < 40 → leaves (.ksput n b a) 0 0 (c.setStrand k st))
    ∧ (n.toNat = 64 → leaves (.ksput n b a) 0 0 (c.setStrand k { st with sbound := y.setWidth 32 }))
    ∧ (n.toNat = 84 → leaves (.ksput n b a) 0 0 (c.setStrand k { st with dseed := y }))
    ∧ (40 ≤ n.toNat → n.toNat < 64 → exec (.ksget n a d) s = s.hartTrapped 24 (BitVec.ofNat 64 (encodeWord (.ksget n a d)))
        ∧ exec (.ksput n b a) s = s.hartTrapped 24 (BitVec.ofNat 64 (encodeWord (.ksput n b a))))
    ∧ (∀ e, e < 16 → n.toNat = 96 + e → item (c.fmt e)
        ∧ exec (.ksput n b a) s = s.hartTrapped 24 (BitVec.ofNat 64 (encodeWord (.ksput n b a))))
    ∧ ((93 ≤ n.toNat ∧ n.toNat ≤ 95) ∨ 112 ≤ n.toNat →
        exec (.ksget n a d) s = s.hartTrapped 24 (BitVec.ofNat 64 (encodeWord (.ksget n a d)))
        ∧ exec (.ksput n b a) s = s.hartTrapped 24 (BitVec.ofNat 64 (encodeWord (.ksput n b a)))))
  ∧ (24 ≤ x.toNat ∨ c.strandCount ≤ x.toNat ∨ (c.strand x.toNat).st = .block ∨ (c.strand x.toNat).st = .self →
      exec (.ksget n a d) s = s.hartTrapped 24 (BitVec.ofNat 64 (encodeWord (.ksget n a d)))
      ∧ exec (.ksput n b a) s = s.hartTrapped 24 (BitVec.ofNat 64 (encodeWord (.ksput n b a))))
  ∧ (h.mode = .m →
    (∃ t, exec (.kcfgExit a) s = .next t ∧ t.myCore.exit = some (x.setWidth 32) ∧ t.myCore.farms = []
      ∧ t.myCore.mq = c.mq.filter (fun q => decide ((c.strand q.strand).st = .idle))
      ∧ t.myCore.kpre = 0 ∧ (∀ j, j < 24 → t.myCore.strand j = if (c.strand j).st = .idle then c.strand j
          else { Strand.reset with storeQ := (c.strand j).storeQ, interval := (c.strand j).interval })
      ∧ s.sameBytes t)
    ∧ (let limit := if x.toNat = 0 then 0 else min (2 ^ 40) (max 1024 x.toNat)
      leaves (.kcfgWdog a d) d (BitVec.ofNat 64 c.wdLimit) { c with wdLimit := limit })
    ∧ (x.toNat < 9 ∨ 15 < x.toNat ∨ entryValid y = false → exec (.kcfgFmtw b a d) s =
        s.hartTrapped 24 (BitVec.ofNat 64 (encodeWord (.kcfgFmtw b a d))))
    ∧ (256 ≤ x.toNat → exec (.kcfgLclr a d) s = s.hartTrapped 24 (BitVec.ofNat 64 (encodeWord (.kcfgLclr a d))))
    ∧ (∀ e, x.toNat = e → 9 ≤ e → e ≤ 15 → entryValid y = true →
      ((∃ q ∈ c.mq, e ∈ q.formats) → exec (.kcfgFmtw b a d) s = s.hartWaits (.kcfgFmtw b a d))
      ∧ ((∀ q ∈ c.mq, e ∉ q.formats) → ∃ t, exec (.kcfgFmtw b a d) s = .next t ∧ t.hart = after d (c.fmt e)
        ∧ t.myCore.fmt e = BitVec.ofNat 64 (y.toNat % 2 ^ 23 + entryWidth y * 2 ^ 23)
        ∧ (∀ j, j ≠ e → t.myCore.fmt j = c.fmt j) ∧ (∀ j, t.myCore.strand j = c.strand j) ∧ s.sameBytes t))
    ∧ (x.toNat < 256 → ∃ t, ∃ w : Word, exec (.kcfgLclr a d) s = .next t ∧ t.hart = after d w
      ∧ (∀ j, j < 64 → w.getLsbD j = (decide (j < 8) && (c.chan j).isSome))
      ∧ (∀ j, j < 8 → t.myCore.chan j = if x.getLsbD j then none else c.chan j)
      ∧ (∀ j, t.myCore.strand j = c.strand j) ∧ s.sameBytes t))
  ∧ (h.mode = .u → ∀ i ∈ [Instr.kcfgExit a, .kcfgWdog a d, .kcfgFmtw b a d, .kcfgLclr a d],
      exec i s = s.hartTrapped 2 (BitVec.ofNat 64 (encodeWord i)))

/-- R4, R90, R290: the base, M, Zba and Zbb instructions of the control hart that compute or jump: the result of each operation on
two registers or a register and an immediate, of the word operations, of the one-operand operations, and the way on of each
jump and branch; `fence`, which waits for the writes to other devices that are not acknowledged. What they compute is the RISC-V architecture's, to which R90 leaves it (log 12).
The model's own reading in it: log 12. -/
def Obligations.HartArithmetic : Prop := ∀ (s : State) (d a b : Reg) (imm : BitVec 12) (c : Bool),
  let h := s.hart
  let X := h.getX a
  let Y := h.getX b
  let I := imm.signExtend 64
  let next := h.pc + (if c then 2 else 4)
  let done (i : Rv) (d : Reg) (w pc : Word) : Prop := exec (.controlHartInstruction i c) s
    = .next (s.setMyCore { s.myCore with hart := { h.setX d w with pc := pc, instret := h.instret + 1, waiting := none } })
  let gives (i : Rv) (w : Word) : Prop := done i d w next
  let nat (n : Nat) : Int := n
  let bit (p : Prop) [Decidable p] : Int := if p then 1 else 0
  (∀ p ∈ ([(.add, fun x y => x.toInt + y.toInt), (.sub, fun x y => x.toInt - y.toInt),
      (.sll, fun x y => nat (x.toNat * 2 ^ (y.toNat % 64))), (.srl, fun x y => nat (x.toNat / 2 ^ (y.toNat % 64))),
      (.sra, fun x y => x.toInt / 2 ^ (y.toNat % 64)), (.slt, fun x y => bit (x.toInt < y.toInt)),
      (.sltu, fun x y => bit (x.toNat < y.toNat)), (.and, fun x y => (x &&& y).toInt), (.or, fun x y => (x ||| y).toInt),
      (.xor, fun x y => (x ^^^ y).toInt), (.andn, fun x y => (x &&& ~~~ y).toInt), (.orn, fun x y => (x ||| ~~~ y).toInt),
      (.xnor, fun x y => (~~~ (x ^^^ y)).toInt), (.max, fun x y => max x.toInt y.toInt),
      (.maxu, fun x y => nat (max x.toNat y.toNat)), (.min, fun x y => min x.toInt y.toInt),
      (.minu, fun x y => nat (min x.toNat y.toNat)),
      (.rol, fun x y => nat (x.toNat * 2 ^ (y.toNat % 64) + x.toNat / 2 ^ (64 - y.toNat % 64))),
      (.ror, fun x y => nat (x.toNat / 2 ^ (y.toNat % 64) + x.toNat * 2 ^ (64 - y.toNat % 64))),
      (.sh1add, fun x y => 2 * x.toInt + y.toInt), (.sh2add, fun x y => 4 * x.toInt + y.toInt),
      (.sh3add, fun x y => 8 * x.toInt + y.toInt), (.adduw, fun x y => nat (x.toNat % 2 ^ 32) + y.toInt),
      (.sh1adduw, fun x y => 2 * nat (x.toNat % 2 ^ 32) + y.toInt), (.sh2adduw, fun x y => 4 * nat (x.toNat % 2 ^ 32) + y.toInt),
      (.sh3adduw, fun x y => 8 * nat (x.toNat % 2 ^ 32) + y.toInt),
      (.slliuw, fun x y => nat (x.toNat % 2 ^ 32 * 2 ^ (y.toNat % 64))), (.mul, fun x y => x.toInt * y.toInt),
      (.mulh, fun x y => x.toInt * y.toInt / 2 ^ 64), (.mulhsu, fun x y => x.toInt * nat y.toNat / 2 ^ 64),
      (.mulhu, fun x y => nat (x.toNat * y.toNat / 2 ^ 64)), (.div, fun x y => if y = 0 then -1 else x.toInt.tdiv y.toInt),
      (.divu, fun x y => if y = 0 then -1 else nat (x.toNat / y.toNat)),
      (.rem, fun x y => if y = 0 then x.toInt else x.toInt.tmod y.toInt),
      (.remu, fun x y => if y = 0 then x.toInt else nat (x.toNat % y.toNat))] : List (AluOp × (Word → Word → Int))),
    gives (.alu p.1 d a b) (BitVec.ofInt 64 (p.2 X Y)) ∧ gives (.aluImm p.1 d a imm) (BitVec.ofInt 64 (p.2 X I)))
  ∧ (∀ p ∈ ([(.addw, fun x y => x.toInt + y.toInt), (.subw, fun x y => x.toInt - y.toInt),
      (.sllw, fun x y => nat (x.toNat * 2 ^ (y.toNat % 32))), (.srlw, fun x y => nat (x.toNat / 2 ^ (y.toNat % 32))),
      (.sraw, fun x y => x.toInt / 2 ^ (y.toNat % 32)),
      (.rolw, fun x y => nat (x.toNat * 2 ^ (y.toNat % 32) + x.toNat / 2 ^ (32 - y.toNat % 32))),
      (.rorw, fun x y => nat (x.toNat / 2 ^ (y.toNat % 32) + x.toNat * 2 ^ (32 - y.toNat % 32))),
      (.mulw, fun x y => x.toInt * y.toInt), (.divw, fun x y => if y = 0 then -1 else x.toInt.tdiv y.toInt),
      (.divuw, fun x y => if y = 0 then -1 else nat (x.toNat / y.toNat)),
      (.remw, fun x y => if y = 0 then x.toInt else x.toInt.tmod y.toInt),
      (.remuw, fun x y => if y = 0 then x.toInt else nat (x.toNat % y.toNat))]
        : List (AluWOp × (BitVec 32 → BitVec 32 → Int))),
    let low (w : Word) : BitVec 32 := w.setWidth 32
    gives (.aluW p.1 d a b) ((BitVec.ofInt 32 (p.2 (low X) (low Y))).signExtend 64)
    ∧ gives (.aluWImm p.1 d a imm) ((BitVec.ofInt 32 (p.2 (low X) (low I))).signExtend 64))
  ∧ (∀ p ∈ ([(.clz, .ctz, .cpop, 64), (.clzw, .ctzw, .cpopw, 32)] : List (UnaryOp × UnaryOp × UnaryOp × Nat)),
      let x := X.toNat % 2 ^ p.2.2.2
      ∃ n m, gives (.unary p.1 d a) (BitVec.ofNat 64 n) ∧ gives (.unary p.2.1 d a) (BitVec.ofNat 64 m)
        ∧ n ≤ p.2.2.2 ∧ x < 2 ^ (p.2.2.2 - n) ∧ (n < p.2.2.2 → 2 ^ (p.2.2.2 - 1 - n) ≤ x)
        ∧ m ≤ p.2.2.2 ∧ x % 2 ^ m = 0 ∧ (m < p.2.2.2 → x.testBit m = true)
        ∧ gives (.unary p.2.2.1 d a) (BitVec.ofNat 64 ((List.range p.2.2.2).filter x.testBit).length))
  ∧ (∀ p ∈ ([(.sextb, fun j => X.getLsbD (min j 7)), (.sexth, fun j => X.getLsbD (min j 15)),
      (.zexth, fun j => decide (j < 16) && X.getLsbD j), (.orcb, fun j => (List.range 8).any fun k => X.getLsbD (8 * (j / 8) + k)),
      (.rev8, fun j => X.getLsbD (56 - 8 * (j / 8) + j % 8))] : List (UnaryOp × (Nat → Bool))),
      ∃ w : Word, gives (.unary p.1 d a) w ∧ ∀ j, j < 64 → w.getLsbD j = p.2 j)
  ∧ (∀ k : BitVec 20, gives (.lui d k) (BitVec.ofInt 64 (k.toInt * 4096))
      ∧ gives (.auipc d k) (h.pc + BitVec.ofInt 64 (k.toInt * 4096)))
  ∧ (∀ o : BitVec 21, done (.jal d o) d next (h.pc + BitVec.ofInt 64 o.toInt))
  ∧ done (.jalr d a imm) d next (BitVec.ofNat 64 ((X + I).toNat / 2 * 2))
  ∧ (∀ p ∈ ([(.eq, decide (X = Y)), (.ne, decide (X ≠ Y)), (.lt, decide (X.toInt < Y.toInt)), (.ge, decide (Y.toInt ≤ X.toInt)),
      (.ltu, decide (X.toNat < Y.toNat)), (.geu, decide (Y.toNat ≤ X.toNat))] : List (BranchOp × Bool)),
      ∀ o : BitVec 13, done (.branch p.1 a b o) 0 0 (if p.2 then h.pc + BitVec.ofInt 64 o.toInt else next))
  ∧ done .fenceI 0 0 next ∧ (s.myCore.det = false → s.hartSettled = true → done .fence 0 0 next)
  ∧ (s.hartSettled = false → exec (.controlHartInstruction .fence c) s = s.hartWaits (.controlHartInstruction .fence c))
  ∧ s.hartSettled = !(s.postedQ.any fun e => e.source = s.senderOf 24)
  ∧ (h.mode = .m ∨ h.mstatus.getLsbD 21 = false → done .wfi 0 0 next)

/-- R61, R90 to R93, R318: loads, stores and atomics of the control hart and their exceptions; exceptions enter M-mode at
`mtvec`, or end the job while it is zero; `mret`; and the control and status registers with their write rules. The trap
fields of `mstatus` and the reservation are the RISC-V architecture's (log 12).
The model's own readings in it: logs 5, 10, 12, 53, 73. -/
def Obligations.HartSystem : Prop := ∀ (s : State) (d a b : Reg) (imm : BitVec 12) (c dbl aq rl : Bool) (sp : Space) (x : Nat),
  let h := s.hart
  let X := h.getX a
  let Y := h.getX b
  let at_ := X + imm.signExtend 64
  let next := h.pc + (if c then 2 else 4)
  let run (i : Rv) : Res := exec (.controlHartInstruction i c) s
  let on (h' : Hart) (pc : Word) : Hart := { h' with pc := pc, instret := h.instret + 1, waiting := none }
  let does (i : Rv) (t : State) (h' : Hart) (pc : Word) : Prop :=
    run i = .next t ∧ t.hart = on h' pc ∧ ∀ p k, (t.core p).strand k = (s.core p).strand k
  let traps (i : Rv) (cause : Nat) (tval : Word) : Prop := run i = s.hartTrapped cause tval
  let found (acc : Access) (va : Word) (n : Nat) : Prop :=
    va.toNat % n = 0 ∧ s.translate s.curCore acc h.machineAccess va.toNat n = .at_ sp x ∧ s.flight s.hartSender = none
      ∧ s.walksHere hartAgent va.toNat n ∧ (∀ m, sp ≠ .remote m)
      ∧ s.unitWaits s.hartSender acc.writes [{ space := sp, addr := x, len := n }] = false
  let stored (t : State) (n v : Nat) : Prop := (∀ k, k < n → (t.memOf sp).get (x + k) = BitVec.ofNat 8 (v / 2 ^ (8 * k)))
    ∧ ∀ sp' y, ¬ (sp' = sp ∧ x ≤ y ∧ y < x + n) → (t.memOf sp').get y = (s.memOf sp').get y
  let n := if dbl then 8 else 4
  let old := leNat (s.peek sp x n)
  let signed (n v : Nat) : Int := if v < 2 ^ (8 * n - 1) then (v : Int) else v - 2 ^ (8 * n)
  let held := s.resvs.any fun r =>
    decide (r.device = 0) && decide (r.core = s.curCore) && decide (r.space = sp) && decide (r.addr ≤ x) && decide (x + n ≤ r.addr + r.size)
  (s.myCore.det = false →
    (∀ n ∈ [1, 2, 4, 8], ∀ u, let v := leNat (s.peek sp x n)
      (found .load at_ n → ∃ t, does (.load n u d a imm) t (h.setX d (if u then BitVec.ofNat 64 v else BitVec.ofInt 64 (signed n v)))
        next ∧ s.sameBytes t)
      ∧ (found .store at_ n → ∃ t, does (.store n a b imm) t h next ∧ stored t n Y.toNat))
    ∧ (found .load X n → (rl = false ∨ s.hartSettled = true) → ∃ t, does (.lr dbl aq rl d a) t (h.setX d (BitVec.ofInt 64 (signed n old))) (h.pc + 4) ∧ s.sameBytes t
        ∧ t.resvs = ({ core := s.curCore, space := sp, addr := x, size := n } : Resv)
          :: s.resvs.filter fun r => !(decide (r.device = 0) && decide (r.core = s.curCore)))
    ∧ (found .rmw X n → (rl = false ∨ s.hartSettled = true) → ∃ t, does (.sc dbl aq rl d a b) t (h.setX d (if held then 0 else 1)) (h.pc + 4)
        ∧ (held = true → stored t n Y.toNat) ∧ (held = false → s.sameBytes t) ∧ ∀ r ∈ t.resvs, r.core = s.curCore → r.device ≠ 0)
    ∧ (found .rmw X n → (rl = false ∨ s.hartSettled = true) → ∀ p ∈ ([(.swap, fun v => v), (.add, fun v => old + v), (.xor, fun v => old ^^^ v), (.and, fun v => old &&& v),
        (.or, fun v => old ||| v), (.min, fun v => if signed n old ≤ signed n v then old else v),
        (.max, fun v => if signed n old ≤ signed n v then v else old), (.minu, fun v => min old v),
        (.maxu, fun v => max old v)] : List (AmoOp × (Nat → Nat))),
        ∃ t, does (.amo p.1 dbl aq rl d a b) t (h.setX d (BitVec.ofInt 64 (signed n old))) (h.pc + 4)
          ∧ stored t n (p.2 (Y.toNat % 2 ^ (8 * n)))))
  ∧ (s.hartSettled = false → ∀ i ∈ [Rv.lr dbl aq true d a, .sc dbl aq true d a b], run i = s.hartWaits (.controlHartInstruction i c))
  ∧ (s.flight s.hartSender = none → s.flight (s.senderOf (walkAgent hartAgent)) = none → ∀ n ∈ [1, 2, 4, 8], ∀ u,
      (at_.toNat % n ≠ 0 → traps (.load n u d a imm) 4 at_ ∧ traps (.store n a b imm) 6 at_)
      ∧ (at_.toNat % n = 0 → s.walksHere hartAgent at_.toNat n → ∀ p ∈ [(Fate.missing, 13, 15), (Fate.forbidden, 5, 7)],
          let s' := if p.1 = .missing then s.forgetPages s.curCore [at_.toNat / 4096] else s
          (s.translate s.curCore .load h.machineAccess at_.toNat n = p.1 →
            run (.load n u d a imm) = s'.hartTrapped p.2.1 at_)
          ∧ (s.translate s.curCore .store h.machineAccess at_.toNat n = p.1 →
            run (.store n a b imm) = s'.hartTrapped p.2.2 at_)))
  ∧ traps .ecall (match h.mode with | .m => 11 | .u => 8) 0 ∧ traps .ebreak 3 h.pc
  ∧ (∀ w : IWord, traps (.illegal w) 2 (w.setWidth 64))
  ∧ (h.mode = .u → traps .mret 2 0x30200073 ∧ ∀ op (k : BitVec 12) src, k.toNat / 256 % 4 ≠ 0 →
      traps (.csr op d k src) 2 (BitVec.ofNat 64 (csrWord op d k src)))
  ∧ (∀ k : BitVec 12, 0xC00 ≤ k.toNat → traps (.csr .rw d k (.reg a)) 2 (BitVec.ofNat 64 (csrWord .rw d k (.reg a))))
  ∧ traps (.csr .rw d 0x180 (.reg a)) 2 (BitVec.ofNat 64 (csrWord .rw d 0x180 (.reg a)))
  ∧ (∀ (cause : Nat) (tval : Word),
      (h.mtvec = 0 → s.hartTrapped cause tval = .next (s.endJob s.myJob .jobFault true cause))
      ∧ (h.mtvec ≠ 0 → ∃ m : Word, s.hartTrapped cause tval = .next (s.setMyCore { s.myCore with hart :=
          { h with mepc := h.pc, mcause := BitVec.ofNat 64 cause, mtval := tval, mstatus := m, mode := .m, waiting := none,
                   pc := h.mtvec &&& ~~~ 3 } })
          ∧ ∀ j, j < 64 → m.getLsbD j = if j = 7 then h.mstatus.getLsbD 3 else if j = 3 then false
              else if j = 11 ∨ j = 12 then decide (h.mode = .m) else h.mstatus.getLsbD j))
  ∧ (h.mode = .m →
    let csr (op : CsrOp) (k : BitVec 12) (r : Reg) (h' : Hart) (f : Core → Core) : Prop :=
      run (.csr op d k (.reg r)) = .next (s.setMyCore { f s.myCore with hart := on h' (h.pc + 4) })
    (∃ m : Word, run .mret = .next (s.setMyCore { s.myCore with hart :=
        { h with mstatus := m, mode := (if h.mstatus.getLsbD 11 then .m else .u), pc := h.mepc, instret := h.instret + 1,
                 waiting := none } })
      ∧ ∀ j, j < 64 → m.getLsbD j = if j = 3 then h.mstatus.getLsbD 7 else if j = 7 then true
          else if j = 11 ∨ j = 12 then false else if j = 17 then h.mstatus.getLsbD 17 && h.mstatus.getLsbD 11
          else h.mstatus.getLsbD j)
    ∧ (∀ p ∈ ([(0x300, h.mstatus), (0x304, h.mie), (0x305, h.mtvec), (0x306, h.mcounteren), (0x340, h.mscratch), (0x341, h.mepc),
        (0x342, h.mcause), (0x343, h.mtval), (0x344, if s.myCore.kpend &&& s.myCore.kie = 0 then 0 else 0x10000),
        (0xF14, BitVec.ofNat 64 s.myTeam), (0xCC0, BitVec.ofNat 64 s.myTeam), (0xCC2, BitVec.ofNat 64 s.myCore.strandCount),
        (0xFC0, s.myCore.kpend), (0x7C0, s.myCore.kie), (0x7C1, s.myCore.kpre.setWidth 64), (0x7C2, s.myCore.kdisc)]
          : List (BitVec 12 × Word)), csr .rs p.1 0 (h.setX d p.2) id)
    ∧ (∀ k : Nat, k < 24 → csr .rs (BitVec.ofNat 12 (0xCD0 + k)) 0 (h.setX d (s.myCore.strand k).sig) id)
    ∧ (s.myCore.det = false → csr .rs 0xC02 0 (h.setX d h.instret) id ∧ csr .rs 0xCC3 0 (h.setX d (BitVec.ofNat 64 s.curCore)) id)
    ∧ (s.myCore.det = true → ∀ k ∈ ([0xC00, 0xB00, 0xC01, 0xC02, 0xB02, 0xCC3] : List (BitVec 12)),
        ∃ t, does (.csr .rs d k (.reg 0)) t (h.setX d 0) (h.pc + 4)
          ∧ ∀ j, s.job s.myJob = some j → t.job s.myJob = some { j with detRead := true })
    ∧ (∀ p ∈ ([(0x304, h.mie, fun w => { h with mie := w &&& 0x10000 }), (0x305, h.mtvec, fun w => { h with mtvec := w &&& ~~~ 2 }),
        (0x306, h.mcounteren, fun w => { h with mcounteren := w &&& 7 }), (0x340, h.mscratch, fun w => { h with mscratch := w }),
        (0x341, h.mepc, fun w => { h with mepc := w &&& ~~~ 1 }), (0x342, h.mcause, fun w => { h with mcause := w }),
        (0x343, h.mtval, fun w => { h with mtval := w })] : List (BitVec 12 × Word × (Word → Hart))),
        csr .rw p.1 a ((p.2.2 X).setX d p.2.1) id
        ∧ (a ≠ 0 → csr .rs p.1 a ((p.2.2 (p.2.1 ||| X)).setX d p.2.1) id
          ∧ csr .rc p.1 a ((p.2.2 (p.2.1 &&& ~~~ X)).setX d p.2.1) id))
    ∧ (∃ m : Word, csr .rw 0x300 a ({ h with mstatus := m }.setX d h.mstatus) id
        ∧ ∀ j, j < 64 → m.getLsbD j = if j = 3 ∨ j = 7 ∨ j = 17 ∨ j = 21 then X.getLsbD j
            else if j = 11 ∨ j = 12 then X.getLsbD 11 && X.getLsbD 12 else h.mstatus.getLsbD j)
    ∧ csr .rw 0x344 a (h.setX d (if s.myCore.kpend &&& s.myCore.kie = 0 then 0 else 0x10000)) id
    ∧ csr .rw 0x7C0 a (h.setX d s.myCore.kie) (fun u => { u with kie := X &&& 0xFFFFFFFFFFFFF })
    ∧ csr .rw 0x7C2 a (h.setX d s.myCore.kdisc) (fun u => { u with kdisc := s.myCore.kdisc &&& ~~~ X })
    ∧ (∃ v : BitVec 24, csr .rw 0x7C1 a (h.setX d (s.myCore.kpre.setWidth 64)) (fun u => { u with kpre := v })
        ∧ ∀ k, k < 24 → v.getLsbD k = if X.getLsbD k && decide (k < s.myCore.strandCount)
            then decide ((s.myCore.strand k).st = .block ∨ (s.myCore.strand k).st = .self) else s.myCore.kpre.getLsbD k))

/-! ## Events of a core -/

/-- R79, R84, R93, R107, R108, R122, R227, R272, R318, R325: the events of strands, links and the matrix unit: what each does
when its condition holds. An event whose condition does not hold changes nothing (log 7).
R96, R99, R103, R230: an instruction of the control hart that waits completes by its event once what it waits for has come
about.
That a stop gives up an access to another device
which only reads, and that none comes between while one may have changed memory there, is the model's choice (log 53).
The model's own readings in it: logs 7, 8, 12, 19, 21, 30, 33, 37, 53, 56, 65, 72, 73, 87. -/
def Obligations.CoreEvents : Prop :=
  (∀ (s : State) (p k : Nat) (word : Word),
    let c := s.core p
    let st := c.strand k
    let h := c.hart
    let u : State := { s with curCore := p }
    let v : State := { s with curCore := p, curStrand := k }
    let flown (t : State) (n : Nat) : State := { t with flights := t.flights.filter fun f => !c.fliesFor n f }
    let changing (src : Sender) : Prop := ∃ f, s.flight src = some f ∧ ∃ a ∈ f.asks, readsOnly a.op = false
    let bars := (st.abandoned ≠ [] ∧ st.partWay = false) ∨ changing v.mySender
    let counts := c.resuming = false ∧ ∀ f ∈ s.flights, c.fliesFor k f = false
    (s.hartRuns p = true → c.interruptDue = true → ¬ changing u.hartSender → ∃ m : Word, exec (.strandEventInterrupt p) s = .next ((flown u 24).setMyCore { c with hart :=
        { h with mepc := h.pc, mcause := 0x8000000000000010, mtval := 0, mstatus := m, mode := .m, waiting := none,
                 pc := (h.mtvec &&& ~~~ 3) + if h.mtvec.getLsbD 0 then 64 else 0 } })
      ∧ ∀ j, j < 64 → m.getLsbD j = if j = 7 then h.mstatus.getLsbD 3 else if j = 3 then false
          else if j = 11 ∨ j = 12 then decide (h.mode = .m) else h.mstatus.getLsbD j)
    ∧ (s.hartRuns p = false ∨ c.interruptDue = false ∨ changing u.hartSender → exec (.strandEventInterrupt p) s = .next s)
    ∧ (s.hartRuns p = true → h.mode = .m → ∃ w : BitVec 24, exec (.kpreWrite p word) s = .next (s.setCore p { c with kpre := w })
        ∧ ∀ j, j < 24 → w.getLsbD j = if word.getLsbD j && decide (j < c.strandCount)
            then decide ((c.strand j).st = .block ∨ (c.strand j).st = .self) else c.kpre.getLsbD j)
    ∧ (c.kpre.getLsbD k = true → s.strandRuns p k = true → ¬ bars →
        exec (.preemptStop p k 0) s = .next (s.trapAt p k { cause := .preempt } st.pc))
    ∧ (c.kpre.getLsbD k = false ∨ s.strandRuns p k = false ∨ bars → ∀ n, exec (.preemptStop p k n) s = .next s)
    ∧ (s.strandRuns p k = true → ¬ bars → counts → c.wdLimit ≠ 0 → c.wdLimit < st.wd →
        (st.waiting = none → exec (.watchdogExpiry p k) s = .next (s.trapAt p k { cause := .watchdog, count := st.wd } st.pc))
        ∧ ∀ w r ch, st.waiting = some w →
          (w.instr = .vpost r ch ∧ ((c.chan ch.toNat).isSome = true ∨ v.postBehind ch = true) ∨ w.instr = .vtake r ch →
            exec (.watchdogExpiry p k) s = .next (s.trapAt p k { cause := .link, count := st.wd } st.pc))
          ∧ (w.instr = .vpost r ch → c.chan ch.toNat = none → v.postBehind ch = false →
            exec (.watchdogExpiry p k) s = .next s)
          ∧ (w.instr = .signal r → st.sigPend = false → exec (.watchdogExpiry p k) s = .next s)
          ∧ (w.instr = .signal r → st.sigPend = true →
            exec (.watchdogExpiry p k) s = .next (s.trapAt p k { cause := .watchdog, count := st.wd } st.pc))
          ∧ (w.instr = .stop → exec (.watchdogExpiry p k) s = .next s))
    ∧ (c.wdLimit = 0 ∨ st.wd ≤ c.wdLimit ∨ bars ∨ ¬ counts → exec (.watchdogExpiry p k) s = .next s)
    ∧ (s.hartRuns p = true → st.st = .idle → ∀ b rest, st.buf = b :: rest → exec (.blockStart p k) s
        = .next (s.setCore p (c.setStrand k { st with st := .block, blk := some b, buf := rest, pc := b.addr })))
    ∧ (s.strandRuns p k = true →
        exec (.issueStarvationPromotion p k) s = .next { s with agenda := .strand p k :: s.agenda })
    ∧ (let held (h : Held) : Prop := c.resuming = true ∨ v.myUnsent = true
          ∨ (∃ cp ∈ c.copies, cp.strand = k ∧ cp.no < h.no ∧ (cp.interval < h.interval ∨ cp.order = .acq ∨ cp.order = .acqRel))
          ∨ ∃ r ∈ v.myReduces, r.no < h.no ∧ r.interval < h.interval
      (∀ h rest, st.storeQ = h :: rest → held h ∨ h.awaiting = true → exec (.memoryResponse p k) s = .next s)
      ∧ (∀ pre q rest (place : Held → Space × Nat), st.storeQ = pre ++ q :: rest → (∀ h ∈ pre, h.more = true) → q.more = false →
        (∀ h, (pre ++ [q]).head? = some h → ¬ held h
          ∧ s.unitWaits h.source true ((pre ++ [q]).map fun g => ({ space := (place g).1, addr := (place g).2, len := g.bytes.length, page := g.page } : Piece)) = false) →
        u.flight (u.senderOf (walkAgent storeAgent)) = none →
        s.tableAsks p (pagesOf (((pre ++ [q]).filter Held.stale).map fun h => (h.va, h.bytes.length))) = [] →
        (∀ h ∈ pre ++ [q], h.awaiting = false ∧ h.key = none ∧ (∀ m, (place h).1 ≠ .remote m)
          ∧ (h.stale = false → place h = (h.space, h.addr))
          ∧ (h.stale = true → s.translate p .store false (h.page * 4096 + h.addr % 4096) h.bytes.length
              = .at_ (place h).1 (place h).2)) →
        ∃ t, exec (.memoryResponse p k) s = .next t
          ∧ (∀ p' k', (t.core p').strand k' = if p' = p ∧ k' = k then { st with storeQ := rest } else (s.core p').strand k')
          ∧ ∀ sp x, (t.memOf sp).get x = (pre ++ [q]).foldl (fun b h => if (place h).1 = sp ∧ (place h).2 ≤ x
              ∧ x < (place h).2 + h.bytes.length then h.bytes.getD (x - (place h).2) 0 else b) ((s.memOf sp).get x))
      ∧ ∀ q rest, let va := q.page * 4096 + q.addr % 4096
        st.storeQ = q :: rest → q.more = false → q.awaiting = false → q.stale = true → ¬ held q →
        u.flight (u.senderOf (walkAgent storeAgent)) = none → s.tableAsks p (pagesOf [(va, q.bytes.length)]) = [] →
        (s.translate p .store false va q.bytes.length = .missing →
          match s.reportFault p k Access.store.kind q.pc [0] [q.page] true with
          | .ok (t, _) => exec (.memoryResponse p k) s = .next (t.setCore p ((t.core p).setStrand k
              { (t.core p).strand k with storeQ := { q with awaiting := true } :: rest }))
          | .error a => exec (.memoryResponse p k) s = .next (s.setCore p (c.setStrand k { st with storeQ := rest, abandoned := st.abandoned
              ++ [{ pc := q.pc, blk := q.blk, addr := BitVec.ofNat 64 a, row := 0 }] })))
        ∧ (s.translate p .store false va q.bytes.length = .forbidden → ∃ t, exec (.memoryResponse p k) s = .next t
          ∧ s.sameBytes t ∧ (t.core p).strand k = { st with storeQ := rest, abandoned := st.abandoned
              ++ [{ pc := q.pc, blk := q.blk, addr := BitVec.ofNat 64 va, row := 0 }] }))
    ∧ (s.strandRuns p k = true → v.offers 0 → ∀ w, st.waiting = some w →
      (∀ a, w.instr = .signal a → st.sigPend = false → v.settled .core = true → exec (.signalLatch p k) s
          = .next (v.setMe (Strand.retire { st with sig := st.getX a, sigPend := true } v.ilen)))
      ∧ (∀ b ch, w.instr = .vpost b ch → st.vabs.getLsbD b.toNat = false → c.chan ch.toNat = none →
          v.postBehind ch = false → v.settled .core = true → ∃ t, exec (.vpostComplete p k) s = .next t
            ∧ t.me = st.retire v.ilen ∧ ∃ chan : Channel, t.myCore.chan ch.toNat = some chan
            ∧ chan.bytes = st.getV b.toNat ∧ chan.tag.toNat = st.tag b.toNat)
      ∧ (∀ d ch chan, w.instr = .vtake d ch → st.vabs.getLsbD d.toNat = false → c.chan ch.toNat = some chan →
          c.takeBehind ch k s.tick = false → ∃ t, exec (.vtakeComplete p k) s = .next t
            ∧ t.me.getV d.toNat = chan.bytes ∧ t.me.tag d.toNat = chan.tag.toNat ∧ t.myCore.chan ch.toNat = none))
    ∧ (∀ (l r : List MatrixEntry) (e : MatrixEntry), c.mq = l ++ e :: r → (∀ q ∈ l, q.started = true) → e.started = false → c.halted = false →
        let beside (q : MatrixEntry) := (e.operands ≠ [] ∧ q.operands ≠ [])
          ∨ (∀ t ∈ q.writes, t ∉ e.reads ∧ t ∉ e.writes) ∧ ∀ t ∈ q.reads, t ∉ e.writes
        ((∀ q ∈ l, beside q) →
          exec (.matrixStart p) s = .next (s.setCore p { c with mq := l ++ { e with started := true } :: r }))
        ∧ ((∃ q ∈ l, ¬ beside q) → exec (.matrixStart p) s = .next (s.setCore p c)))
    ∧ (c.halted = true → exec (.matrixStart p) s = .next s ∧ exec (.matrixComplete p) s = .next s)
    ∧ (∀ e rest, c.mq = e :: rest → e.started = true → c.halted = false →
        exec (.matrixComplete p) s = .next (s.setCore p { c with mq := rest }))
    ∧ (∀ e rest, c.mq = e :: rest → e.started = false → exec (.matrixComplete p) s = .next s))
  ∧ (∀ (s : State) (p : Nat) (a b d : Reg) (since : Nat),
    let c := s.core p
    let h := c.hart
    let x := h.getX a
    let u : State := { s with curCore := p }
    let set (k : Nat) : Bool := decide (k < 24) && x.getLsbD k
    let done (ev i : Instr) (w : Word) : Prop := exec ev s = exec i u ∧ ∃ t, exec ev s = .next t
      ∧ (t.core p).hart = { h.setX d w with pc := h.pc + 4, instret := h.instret + 1, waiting := none }
    s.hartRuns p = true → u.hartClass = true →
    (h.waiting = some ⟨.kjoin a d, since, none⟩ → x.toNat < 2 ^ c.strandCount →
      (∀ k, set k = true → (c.strand k).atRest = true
        ∨ (c.strand k).st = .trapped ∧ ({ u with curStrand := k } : State).settled .core = true) →
      ∃ w, done (.kjoinReturn p) (.kjoin a d) w
        ∧ w.toNat < 2 ^ 24 ∧ ∀ k, k < 24 → w.getLsbD k = (set k && decide ((c.strand k).st = .trapped)))
    ∧ (h.waiting = some ⟨.kwait a d, since, none⟩ → x.toNat < 2 ^ 52 → c.kpend &&& x ≠ 0 →
        done (.kwaitReturn p) (.kwait a d) (c.kpend &&& x))
    ∧ (h.waiting = some ⟨.kbcastw b a d, since, none⟩ → (x &&& ~~~ 0xF000000).toNat < 2 ^ c.strandCount →
        (h.getX b).toNat % 4 = 0 → (∀ k, set k = true → (c.strand k).buf.length < 4) →
        done (.kbcastwDeliver p) (.kbcastw b a d) 0)
    ∧ (h.waiting = some ⟨.kcfgFmtw b a d, since, none⟩ → h.mode = .m → ∀ e, x.toNat = e → 9 ≤ e → e ≤ 15 →
        entryValid (h.getX b) = true → c.entryInUse e = false → done (.fmtwApply p) (.kcfgFmtw b a d) (c.fmt e))
    ∧ (h.mode = .m → ∀ e, x.toNat = e → 9 ≤ e → e ≤ 15 → entryValid (h.getX b) = true → c.entryInUse e = true →
        exec (.kcfgFmtw b a d) u = u.hartWaits (.kcfgFmtw b a d))
    ∧ (∀ e, c.entryInUse e = true ↔ (∃ q ∈ c.mq, e ∈ q.formats) ∨ ∃ k, k < 24 ∧ e ∈ (c.strand k).waitCaptures c)
    ∧ (h.waiting = none → ∀ ev ∈ [Instr.kjoinReturn p, .kwaitReturn p, .kbcastwDeliver p, .fmtwApply p], exec ev s = .next s))


/-! ## The dispatcher -/

/-- R66 to R78, R298, R299, R326, R328, R347: what the dispatcher does in each of its events, and what the end of a job
writes.
That `recordRead` and `jobPlace` change nothing while the power state is not 0 is the model's reading (log 57).
That a ring whose record has no place is not read, and that a job whose contexts have none ends UNCORRECTABLE, is log 72.
The model's own readings in it: logs 3, 7, 11, 14, 27, 30, 32, 33, 37, 53, 54, 57, 72, 80. -/
def Obligations.DispatcherEvents : Prop := ∀ (s : State), (s.jobs.map fun j => j.record.id).Nodup →
  (∀ c a sp o, let q := s.queue c
    let n := leNat (s.peek sp o 128)
    let r := JobRecord.ofNat n
    let u : State := { s.setQueue c { q with cons := q.cons + 1 } with lastJobId := r.id, jobs := s.jobs ++ [Job.fresh r s.now] }
    s.recovery = false → s.starting = false → s.power = 0 → c < 8 → q.en = true → q.prod ≠ q.cons → s.jobs.length < 4096 →
    s.undel.held.length < 4096 → a = q.base.toNat + 128 * (q.cons.toNat % 2 ^ q.k) → s.physicalRange a 128 = some (sp, o) → (∀ m, sp ≠ .remote m) →
    s.flight { s.dispatcherOf 0 with core := c } = none → s.endsHere r → (∀ j ∈ s.jobs, j.record.id ≠ r.id) →
    ∃ t, exec (.recordRead c) s = .next t ∧ (t.queue c).cons = q.cons + 1
      ∧ (recordBad n s.lastJobId = true → t.jobs = s.jobs ∧ t.lastJobId = s.lastJobId ∧ (s.undel.en = false →
          t.undel.held = s.undel.held ++ [completionEntry r.id .badRecord 16 0]))
      ∧ (recordBad n s.lastJobId = false → t.lastJobId = r.id ∧ ∃ j, t.job r.id = some j ∧ j.record = r
          ∧ (u.kernel r = none → j.state = .done .badKernel)
          ∧ ((u.kernel r).isSome = true → u.prereqBad r = true → j.state = .done .badPrereq)
          ∧ ((u.kernel r).isSome = true → u.prereqBad r = false → u.eligible r = false → j.state = .done .noEligibleCore)
          ∧ ((u.kernel r).isSome = true → u.prereqBad r = false → u.eligible r = true → (r.prereq.all u.prereqOk) = true →
              j.state = .waiting ∧ j.eff = r.cls)))
  ∧ (∀ c, s.recovery = true ∨ s.power ≠ 0 ∨ (s.queue c).en = false ∨ (s.queue c).prod = (s.queue c).cons →
      exec (.recordRead c) s = .next s)
  ∧ (∀ c, s.physicalRange ((s.queue c).base.toNat + 128 * ((s.queue c).cons.toNat % 2 ^ (s.queue c).k)) 128 = none →
      exec (.recordRead c) s = .next s)
  ∧ (∀ id j team, s.recovery = false → s.starting = false → s.power = 0 → s.mayPlace id = true → s.job id = some j →
      s.teamFor j.record [] = some team → (j.saved = [] ∨ ∃ sp o, s.physicalRange (contextBase j.record 0) (j.record.team * Config.contextBytes) = some (sp, o)
        ∧ (∀ m, sp ≠ .remote m) ∧ s.flight (s.dispatcherOf id) = none) →
      ∃ t, exec (.jobPlace id) s = .next t
        ∧ t.job id = some { j with state := .placed, cores := team, placedAt := s.now, saved := [], keys := [], syncs := [] }
        ∧ (∀ p, p ∉ team → t.core p = s.core p)
        ∧ ∀ i p, team[i]? = some p → ∃ pl, (t.core p).place = some pl ∧ pl.job = id ∧ pl.team = i ∧ pl.cores = team
          ∧ pl.useMask = j.record.useMask ∧ pl.strands = j.record.strands ∧ (t.core p).capMask = (s.core p).capMask
          ∧ ((t.core p).resuming = true ↔ j.saved ≠ [] ∧ s.outstanding id = true)
          ∧ (j.saved = [] → (t.core p).hart.mode = .m ∧ (t.core p).hart.mtvec = 0 ∧ (t.core p).hart.getX 10 = j.record.args
            ∧ (∀ k, s.kernel j.record = some k → (t.core p).hart.pc = k.entry) ∧ (∀ k, (t.core p).strand k = Strand.reset)
            ∧ ∀ pk e w, s.package j.record.pkg = some pk → pk.info.fmts = [(e, w)] → 9 ≤ e →
                (t.core p).fmt e = if entryValid w then entryHeld w else 0x009A0E34))
  ∧ (∀ id, s.recovery = true ∨ s.power ≠ 0 ∨ s.mayPlace id = false → exec (.jobPlace id) s = .next s)
  ∧ (∀ id j, s.recovery = false → s.starting = false → s.power = 0 → s.mayPlace id = true → s.job id = some j → j.saved ≠ [] →
      j.isOver = false → s.endsHere j.record → j.ending = none →
      s.physicalRange (contextBase j.record 0) (j.record.team * Config.contextBytes) = none →
      ∃ t, exec (.jobPlace id) s = .next t ∧ ∃ j', t.job id = some j' ∧ j'.state = .done .uncorrectable)
  ∧ (∀ id j, s.job id = some j → j.state = .waiting → let due := min 7 (j.record.cls + (s.now - j.waitAt) / 2000000)
      (j.eff < due → ∃ t, exec (.jobAging id) s = .next t ∧ t.job id = some { j with eff := j.eff + 1 } ∧ t.cores = s.cores)
      ∧ (due ≤ j.eff → exec (.jobAging id) s = .next s))
  ∧ (∀ h rest, s.waitingJobs = h :: rest → s.teamFor h.record [] = none →
      (4000000 ≤ s.now - s.headSince → exec .headWaitExpiry s = .next { s with headBlocks := true })
      ∧ (s.now - s.headSince < 4000000 → exec .headWaitExpiry s = .next s)
      ∧ ∀ v ∈ s.jobs, let fits (w : Job) : Prop := w.state = .placed ∧ w.record.cls < h.record.cls ∧ 1000000 ≤ s.now - w.placedAt
          fits v → (∀ w ∈ s.jobs, fits w → w = v) → (∀ w ∈ s.jobs, w.state ≠ .halting) →
          (s.teamFor h.record v.cores).isSome = true → ∃ t, exec .priorityPreempt s = .next t
            ∧ t.job v.record.id = some { v with state := .halting } ∧ (∀ p ∈ v.cores, (t.core p).haltReq = true)
            ∧ ∀ p, p ∉ v.cores → t.core p = s.core p)
  ∧ (∀ h rest, s.waitingJobs = h :: rest → (s.teamFor h.record []).isSome = true → exec .priorityPreempt s = .next s)
  ∧ (∀ p pl j, let c := s.core p
      c.haltReq = true → c.halted = false → c.place = some pl → s.job pl.job = some j →
      (j.ending = none → ∃ t, exec (.haltBoundary p []) s = .next t ∧ (t.core p).halted = true ∧ (∀ p', p' ≠ p → t.core p' = s.core p')
        ∧ ∀ k, k < 24 → let st := c.strand k
            let due := s.strandRuns p k = true ∧ st.abandoned ≠ [] ∧ st.partWay = false
            let u : State := { s with curCore := p, curStrand := k }
            ((∀ f ∈ s.flights, f.source = u.mySender → f.changes = false) →
              (¬ due → (t.core p).strand k = { st with st := .held, heldSt := st.st, waiting := none })
              ∧ (due → ∀ a rest, st.abandoned = a :: rest → let st' := (t.core p).strand k
                  st'.st = .held ∧ st'.heldSt = .trapped ∧ st'.pc = a.pc ∧ st'.abandoned = rest
                    ∧ st'.rec0.toNat % 256 = Cause.access.code ∧ st'.rec1 = a.pc ∧ st'.rec2 = a.addr ∧ st'.rec3 = BitVec.ofNat 64 a.row))
            ∧ (∀ f, u.flight u.mySender = some f → f.changes = true →
                (t.core p).strand k = { st with st := .held, heldSt := st.st, waiting := none }
                ∧ (f.stopped = none → f.instr ≠ none → t.flight u.mySender = some { f with
                    elems := f.elems.filter f.asked ++ f.elems.filter fun e => !f.asked e
                    stopped := some f.asks.length })))
      ∧ (∀ status, j.ending = some status → j.state = .halting → s.endsHere j.record →
          (∀ q ∈ j.cores, q = p ∨ (s.core q).halted = true ∨ (s.core q).finished = true) →
          ∃ t, exec (.haltBoundary p []) s = .next t ∧ ∃ j', t.job pl.job = some j' ∧ j'.state = .done status))
  ∧ (∀ p stops, (s.core p).haltReq = false → exec (.haltBoundary p stops) s = .next s)
  ∧ (∀ id, s.reducesOut id = true → exec (.contextSaveDone id) s = .next s)
  ∧ (∀ id j, s.job id = some j → j.state = .halting → j.ending = none → s.allHalted j = true → s.reducesOut id = false →
      let place := s.physicalRange (contextBase j.record 0) (j.record.team * Config.contextBytes)
      (place = none → s.endsHere j.record → ∃ t, exec (.contextSaveDone id) s = .next t
        ∧ ∃ j', t.job id = some j' ∧ j'.state = .done .uncorrectable)
      ∧ (∀ p, s.finishWaits p = true ↔ ∃ f ∈ s.flights, (s.core p).flies f = true ∧ (∃ a ∈ f.asks, readsOnly a.op = false)
          ∧ ∃ a ∈ f.asks, a.answer = none)
      ∧ ((∃ p ∈ j.cores, s.finishWaits p = true) → place ≠ none → exec (.contextSaveDone id) s = .next s)
      ∧ ((∀ p ∈ j.cores, ∀ f ∈ s.flights, f.source ≠ (s.at_ p s.curStrand).hartSender ∧ ∀ k, f.source ≠ (s.at_ p k).mySender) →
          (∀ p ∈ j.cores, ∀ c rest n lo hi, (s.core p).copies = c :: rest → c.unit = some (n, lo, hi) →
            ∃ e ∈ s.postedQ, lo ≤ e.no ∧ e.no < hi) → s.finishCores j.cores = .next s)
      ∧ ∀ u sp o, place = some (sp, o) → (∀ m, sp ≠ .remote m) → (∀ p ∈ j.cores, s.finishWaits p = false) →
        s.finishCores j.cores = .next u → u.job id = some j → u.eligible j.record = true →
      ∃ t, exec (.contextSaveDone id) s = .next t
        ∧ (∃ j', t.job id = some j' ∧ j'.state = .waiting ∧ j'.preempted = true ∧ j'.cores = [] ∧ j'.eff = j.record.cls
            ∧ j'.waitAt = u.now ∧ j'.saved.length = j.cores.length)
        ∧ (∀ p ∈ j.cores, (t.core p).place = none) ∧ (∀ p, p ∉ j.cores → t.core p = u.core p)
        ∧ ∀ i p x, j.cores[i]? = some p → let at_ (y : Nat) := (t.memOf sp).get (o + i * 0x840000 + y)
            (x < 0x40000 → at_ (0x800000 + x) = (u.core p).sdm.get x)
            ∧ (x < 0x400000 → (∀ pl, (u.core p).place = some pl → ∀ r ∈ pl.discards, x < r.1 ∨ r.1 + r.2 ≤ x) →
                at_ (0x400000 + x) = (u.core p).spad.get x)
            ∧ ((u.core p).finished = false → ∀ n, n < 8 → x < 0x8040 →
                ((∀ e ∈ (u.core p).mq, n ∉ e.writes) → at_ (0x40000 + n * 0x8040 + x) = ((u.core p).tile n).image.getD x 0)
                ∧ ∀ pre e post, (u.core p).mq = pre ++ e :: post → (∀ q ∈ pre, n ∉ q.writes) → n ∈ e.writes →
                    at_ (0x40000 + n * 0x8040 + x) = e.before.image.getD x 0))
  ∧ (∀ p pl code, let c := s.core p
      c.place = some pl → c.exit = some code → c.finished = false → c.halted = false →
      (s.coreBusy p = true → exec (.coreFinish p) s = .next s)
      ∧ (s.coreBusy p = false → (∃ q ∈ pl.cores, q ≠ p ∧ (s.core q).finished = false) →
          exec (.coreFinish p) s = .next (s.setCore p { c with finished := true }))
      ∧ (s.coreBusy p = false → (∀ q ∈ pl.cores, q ≠ p → (s.core q).finished = true) →
          ∀ j, s.job pl.job = some j → j.isOver = false → s.endsHere j.record →
          ∃ t, exec (.coreFinish p) s = .next t ∧ ∃ j', t.job pl.job = some j'
            ∧ (∀ first, j.ending = some first → j'.state = .done first)
            ∧ (j.ending = none → (∀ q ∈ pl.cores, (s.core q).exit = some 0) → j'.state = .done .ok)
            ∧ (j.ending = none → (∃ q ∈ pl.cores, ∃ e, (s.core q).exit = some e ∧ e ≠ 0) → j'.state = .done .jobFault)))
  ∧ (∀ id j (status : JobStatus) code, s.job id = some j → j.isOver = false → j.ending = none → s.unsentLoads id = [] →
      (∃ e ∈ s.postedQ, e.source.job = id ∧ s.cutOff e.device = false) →
      (s.endOne id status false code).job id
        = some { j with state := .draining status false code, cores := [], saved := [], keys := [], syncs := [] })
  ∧ (∀ id j first (status : JobStatus) code, s.job id = some j → j.isOver = false → s.endsHere j.record → j.ending = some first →
      (s.endOne id status false code).job id
        = some { j with state := .done first, cores := [], saved := [], keys := [], syncs := [] })
  ∧ (∀ id j (status : JobStatus) code, s.job id = some j → j.isOver = false → s.endsHere j.record → j.ending = none →
      let t := s.endOne id status false code
      t.job id = some { j with state := .done status, cores := [], saved := [], keys := [], syncs := [] }
      ∧ (j.state = .placed → ∀ p ∈ j.cores, (t.core p).place = none
          ∧ ((s.core p).finished = true → ∀ k, (t.core p).strand k = (s.core p).strand k)
          ∧ ((s.core p).finished = true → (t.core p).spad = (s.core p).spad ∧ (t.core p).sdm = (s.core p).sdm)
          ∧ ((s.core p).finished = false → ∀ k, (t.core p).strand k = Strand.reset))
      ∧ ∀ sp a, s.donePlace j.record.ptRoot j.record.done = some (sp, a) → (∃ l, t.msix = s.msix ++ l ++ [0])
        ∧ ∀ k, k < 16 → (t.memOf sp).get (a + k) = (completionEntry j.record.id status (j.flags false) code).getD k 0)
  ∧ (∀ e rest, s.undel.held = e :: rest → s.undel.en = true → (s.undel.prod - s.undel.cons).toNat < 2 ^ s.undel.k →
      let a := (s.undel.base.toNat + 16 * (s.undel.prod.toNat % 2 ^ s.undel.k)) % 2 ^ 52
      ∃ t, exec .undeliveredEntryWrite s = .next t ∧ t.undel = { s.undel with prod := s.undel.prod + 1, held := rest }
        ∧ t.msix = s.msix ++ [0] ∧ ∀ x, t.hostMem.get x = if a ≤ x ∧ x < a + e.length then e.getD (x - a) 0 else s.hostMem.get x)
  ∧ (s.undel.held = [] ∨ s.undel.en = false → exec .undeliveredEntryWrite s = .next s)

/-! ## The host's side -/

/-- R2, R9, R10, R192, R196, R337, R338, R340 to R343, R346, R347, R349, R362, R366: what host writes of registers and host
accesses to memory do, how the fault merger takes records and writes its ring, and the acknowledgement of a shoot-down.
That a write of a ROUTE whose PORT is 18 or more changes nothing is the model's choice (log 46), and so is what an
acknowledgement waits for (log 56); that a write of RASCONS beyond RASPROD empties the ring is its reading (log 44).
The model's own readings in it: logs 7, 20, 44, 46, 49, 50, 53, 56, 57, 80. -/
def Obligations.HostEvents : Prop := ∀ (s : State) (v : Word) (c : Nat),
  let q := s.queue c
  let m := s.merger
  let count : BitVec 32 := v.setWidth 32
  let newK (k : Nat) (empty : Bool) : Nat :=
    if v.getLsbD 8 = false ∧ empty = true ∧ 4 ≤ v.toNat % 32 ∧ v.toNat % 32 ≤ 16 then v.toNat % 32 else k
  let reg (off : Nat) : Res := exec (.registerWrite off v) s
  (c < 8 →
    let base : Word := if q.en = false ∧ q.prod = q.cons ∧ v.toNat % 4096 = 0 then v else q.base
    exec (.prodWrite c v) s = .next (({ s with wake := s.wake || decide (s.power ≠ 0) } : State).setQueue c
      (if (count - q.cons).toNat ≤ 2 ^ q.k then { q with prod := count } else { q with ovr := true }))
    ∧ exec (.qctlWrite c v) s = .next (s.setQueue c
        { q with k := newK q.k (q.prod = q.cons), en := v.getLsbD 8, ovr := q.ovr && !v.getLsbD 9 })
    ∧ reg (0x1000 + 0x40 * c) = .next (s.setQueue c { q with base := base })
    ∧ reg (0x1008 + 0x40 * c) = exec (.qctlWrite c v) s ∧ reg (0x1010 + 0x40 * c) = exec (.prodWrite c v) s
    ∧ reg (0x1018 + 0x40 * c) = .next s)
  ∧ exec (.fctlWrite v) s = .next { s with merger := { m with k := newK m.k (m.prod = m.cons), en := v.getLsbD 8 } }
  ∧ exec (.cctlWrite v) s = .next { s with undel :=
      { s.undel with k := newK s.undel.k (s.undel.prod = s.undel.cons), en := v.getLsbD 8 } }
  ∧ (∃ w : BitVec 12, exec (.plimitWrite v) s = .next { s with plimit := w } ∧ w.toNat = min (v.toNat % 4096) 1800)
  ∧ (s.anyPlaced = false → reg 0 = .next { s with devid := v.setWidth 6 }) ∧ (s.anyPlaced = true → reg 0 = .next s)
  ∧ (s.mbox.go = false → reg 0x2000 = .next { s with mbox := { s.mbox with op := v.setWidth 8, go := v.getLsbD 8 } }
      ∧ reg 0x2010 = .next { s with mbox := { s.mbox with arg0 := v } }
      ∧ reg 0x2018 = .next { s with mbox := { s.mbox with arg1 := v } }
      ∧ reg 0x2020 = .next { s with mbox := { s.mbox with arg2 := v } }
      ∧ reg 0x2028 = .next { s with mbox := { s.mbox with arg3 := v } })
  ∧ (s.mbox.go = true → ∀ off ∈ [0x2000, 0x2010, 0x2018, 0x2020, 0x2028], reg off = .next s)
  ∧ (let base (b : Word) (en : Bool) (prod cons : BitVec 32) : Word := if en = false ∧ prod = cons ∧ v.toNat % 4096 = 0 then v else b
    reg 0x3000 = .next { s with merger := { m with base := base m.base m.en m.prod m.cons } }
    ∧ reg 0x3020 = .next { s with undel := { s.undel with base := base s.undel.base s.undel.en s.undel.prod s.undel.cons } })
  ∧ (∃ t, reg 0x8018 = .next t ∧ t.rasCons = v ∧ t.ras = s.ras.drop (v - s.rasCons).toNat
      ∧ ({ t with rasCons := 0, ras := [], rasRead := [] } : State) = { s with rasCons := 0, ras := [], rasRead := [] })
  ∧ (∀ a data, a + data.length ≤ 2 ^ 52 → ∃ t, s.takeTurn (.hostStore a data) = .next t
      ∧ (∀ x, t.hostMem.get x = if a ≤ x ∧ x < a + data.length then data.getD (x - a) 0 else s.hostMem.get x)
      ∧ t.devMem = s.devMem ∧ t.cores = s.cores)
  ∧ reg 0x3008 = exec (.fctlWrite v) s ∧ reg 0x3018 = .next { s with merger := { m with cons := count } }
  ∧ reg 0x3028 = exec (.cctlWrite v) s ∧ reg 0x3038 = .next { s with undel := { s.undel with cons := count } }
  ∧ reg 0x6000 = .next { s with lattol := count } ∧ reg 0x6008 = exec (.plimitWrite v) s
  ∧ (∀ n, 1 ≤ n → n ≤ 63 → (s.anyPlaced = false → v.toNat % 32 < 18 →
        ∃ t, reg (0x4000 + 8 * n) = .next t ∧ (∀ k, Table.get 0 t.routes k = if k = n then v.setWidth 6 else Table.get 0 s.routes k)
          ∧ t.cores = s.cores)
      ∧ (s.anyPlaced = true ∨ 18 ≤ v.toNat % 32 → reg (0x4000 + 8 * n) = .next s))
  ∧ (∀ off ∈ [0x2008, 0x3010, 0x3030, 0x5000, 0x7000, 0x8000, 0x8010, 0x9000], reg off = .next s)
  ∧ (∀ a n, a + n ≤ 0x8000000000 → (∃ t, exec (.hostMemAccess (.read a n false)) s = .next t
        ∧ t.hostRead = s.devMem.read a n ∧ s.sameBytes t)
      ∧ ∃ t, exec (.hostMemAccess (.read a n true)) s = .next t ∧ t.hostRead = List.replicate n 0xFF ∧ s.sameBytes t)
  ∧ (∀ a data, a + data.length ≤ 0x8000000000 → ∃ t, exec (.hostMemAccess (.write a data)) s = .next t
      ∧ (∀ x, t.devMem.get x = if a ≤ x ∧ x < a + data.length then data.getD (x - a) 0 else s.devMem.get x)
      ∧ t.hostMem = s.hostMem ∧ t.cores = s.cores)
  ∧ (∀ r rest, m.inbox = r :: rest →
      let fresh := r.pages.filter fun pg => !m.outstanding.contains (r.job, 0, pg)
      ∃ t, exec .faultRecordMerge s = .next t ∧ t.merger.inbox = rest
        ∧ t.merger.outstanding = m.outstanding ++ fresh.map (fun pg => (r.job, 0, pg))
        ∧ (r.engine = false → r ∈ t.merger.open_
            ∧ ∀ q ∈ t.merger.open_, q.job = r.job → q.core = r.core → q.strand = r.strand → q = r)
        ∧ (r.engine = true → t.merger.open_ = m.open_)
        ∧ (fresh ≠ [] → r.job ∈ t.merger.due)
        ∧ (m.en = false → t.merger.held = m.held ++ fresh.map fun pg => ⟨r.job, pg, r.kind, 0, r.asid, 0⟩))
  ∧ (m.inbox = [] → exec .faultRecordMerge s = .next s)
  ∧ (∀ job, (job ∈ m.due ∧ (∀ e ∈ m.held, e.job ≠ job) → exec (.faultNotify job) s
        = .next { s with msix := s.msix ++ [1], merger := { m with due := m.due.filter (· ≠ job) } })
      ∧ (job ∉ m.due ∨ (∃ e ∈ m.held, e.job = job) → exec (.faultNotify job) s = .next s))
  ∧ (∀ e rest, m.held = e :: rest → m.en = true → (m.prod - m.cons).toNat < 2 ^ m.k →
      let a := (m.base.toNat + 32 * (m.prod.toNat % 2 ^ m.k)) % 2 ^ 52
      ∃ t, exec .heldFaultEntryWrite s = .next t ∧ t.merger = { m with prod := m.prod + 1, held := rest }
        ∧ ∀ x, t.hostMem.get x = if a ≤ x ∧ x < a + 32 then e.bytes.getD (x - a) 0 else s.hostMem.get x)
  ∧ (m.held = [] ∨ m.en = false → exec .heldFaultEntryWrite s = .next s)
  ∧ (∀ (h : Shoot) pg, h.names pg = true ↔ h.pages = 0 ∨ (h.base.toNat / 4096 ≤ pg ∧ pg < h.base.toNat / 4096 + h.pages))
  ∧ (∀ p h more, (s.core p).shoots = h :: more →
      let c := s.core p
      let mine (job : BitVec 64) (core : Nat) : Prop := ∃ pl, c.place = some pl ∧ job = pl.job ∧ core = pl.team
      let busy (no : Nat) : Prop :=
        (∃ r ∈ s.nmrQ, r.sent.device = 0 ∧ mine r.sent.job r.sent.core ∧ r.no < no ∧ ∃ pg ∈ r.vpages, h.names pg = true)
        ∨ (∃ e ∈ s.postedQ, mine e.source.job e.source.core ∧ e.no < no ∧ ∃ q ∈ e.unit, h.names q.page = true)
        ∨ ∃ f ∈ s.flights, c.flies f = true ∧ (∃ e ∈ f.elems, ∃ q ∈ e.2, h.names q.page = true)
            ∧ ∃ a ∈ f.asks, a.id < no ∧ a.answer = none ∧ readsOnly a.op = false
      let acks (t : State) : Prop := (t.core p).shoots = more
        ∧ (s.mbox.go = true → s.mbox.sent = true → (∀ e ∈ s.cores, e.1 ≠ p → e.2.shoots = []) → more = [] →
            (∀ r ∈ s.nmrQ, ∀ e, r.slot = some e → e.2 ≠ s.mbox.arg0.toNat) →
            (∀ f ∈ s.flights, f.source.agent = walkAgent importAgent → ∀ w, Table.get none s.imports f.source.core = some w →
              asidOf w.ptRoot ≠ s.mbox.arg0.toNat) → t.mbox = { s.mbox with go := false, sent := false, status := 0 })
      (∀ no stops, h.given = some no → (busy no → exec (.shootdownAck p stops) s = .next s)
        ∧ (¬ busy no → ∃ t, exec (.shootdownAck p stops) s = .next t ∧ acks t
            ∧ (t.core p).tlb = c.tlb ∧ (t.core p).copies = c.copies ∧ (∀ k, (t.core p).strand k = c.strand k)
            ∧ (∀ p', p' ≠ p → t.core p' = s.core p') ∧ s.sameBytes t))
      ∧ (h.given = none → c.place.isSome = true → ∃ t, exec (.shootdownAck p []) s = .next t
          ∧ (t.core p).tlb = c.tlb.filter (fun e => !h.names e.vpage)
          ∧ (∀ k, ((t.core p).strand k).storeQ = (c.strand k).storeQ.map fun w =>
              match w.space with
              | .spad _ | .sdm _ => w
              | _ => if h.names w.page = true then { w with stale := true } else w)
          ∧ (t.core p).copies = c.copies.map (fun cp =>
              if ∃ e ∈ cp.pages, h.names e.1 = true then { cp with suspended := true } else cp)
          ∧ (∀ f, c.flies f = true → (f.elems = [] ∨ ∃ e ∈ f.elems, ∃ q ∈ e.2, h.names q.page = true) → f.changes = false →
              f ∉ t.flights)
          ∧ (∀ p', p' ≠ p → t.core p' = s.core p') ∧ s.sameBytes t
          ∧ (busy s.askId → ∃ agents, (t.core p).shoots = { h with given := some s.askId, stopped := agents } :: more
              ∧ (∀ k, k ∈ agents ↔ ∃ f ∈ s.flights, c.flies f = true ∧ f.instr ≠ none
                  ∧ (∃ e ∈ f.elems, ∃ q ∈ e.2, h.names q.page = true) ∧ f.source.agent = k)
              ∧ (∀ k, k ∈ agents → t.strandRuns p k = false) ∧ (hartAgent ∈ agents → t.hartRuns p = false))
          ∧ (¬ busy s.askId → acks t)))

/-- R192, R281, R330, R343 to R345, R348, R355 to R358, R361: the mailbox commands. A command whose GO is set, whose OP is its
own and which the part serves runs as a whole and answers with a status, on which GO clears and vector 2 is sent; a
shoot-down answers when its last core has acknowledged, and a restart does not answer. The codes and the layouts of the SPDM
messages, and the layout of keys and signatures, are taken from outside the spec (log 15).
That CANCEL of a job which only awaits acknowledgements answers OK and leaves its status is log 79.
The model's own readings in it: logs 14, 15, 27, 42, 45, 56, 79, 85. -/
def Obligations.MailboxCommands : Prop := ∀ (s : State),
  let m := s.mbox
  let a := m.arg0
  let images := (if s.fw.rootImage = [] then Config.deliveredRoot else s.fw.rootImage,
    if s.fw.serviceImage = [] then Config.deliveredService else s.fw.serviceImage)
  let serves (op : Nat) : Prop := m.go = true ∧ m.op.toNat = op ∧ s.power = 0 ∧ s.starting = false
    ∧ s.mailboxLost = false ∧ (s.recovery = true → 16 ≤ op ∧ op ≤ 22)
  let answers (i : Instr) (status : BitVec 8) (u : State → Prop) : Prop := ∃ t, exec i s = .next t
    ∧ t.mbox.go = false ∧ t.mbox.status = status ∧ (∃ l, t.msix = l ++ [2]) ∧ u t
  let refuses (i : Instr) (status : BitVec 8) : Prop := answers i status fun t => t.jobs = s.jobs ∧ t.cores = s.cores ∧ s.sameBytes t
  (serves 1 → (s.job a = none → refuses .retire 2)
    ∧ ∀ j, s.job a = some j → (j.isDone = true → answers .retire 0 fun t => t.job a = none ∧ ∀ k, k ≠ a → t.job k = s.job k)
        ∧ (j.isDone = false → refuses .retire 1))
  ∧ (serves 2 → (s.job a = none → refuses .cancel 2)
    ∧ ∀ j, s.job a = some j → (j.isDone = true → refuses .cancel 2)
        ∧ (j.isOver = true → j.isDone = false → answers .cancel 0 fun t => t.job a = some j)
        ∧ (j.state = .waiting ∨ j.state = .blocked → j.ending = none → s.endsHere j.record → answers .cancel 0 fun t =>
            ∃ j', t.job a = some j' ∧ j'.state = .done .cancelled)
        ∧ (j.state = .placed → answers .cancel 0 fun t => t.job a = some { j with state := .halting, ending := some .cancelled }
            ∧ ∀ p ∈ j.cores, (t.core p).haltReq = true)
        ∧ (j.state = .halting → s.allHalted j = false → answers .cancel 0 fun t =>
            t.job a = some { j with ending := some .cancelled })
        ∧ (j.state = .halting → s.allHalted j = true → j.ending = none → s.endsHere j.record → answers .cancel 0 fun t =>
            ∃ j', t.job a = some j' ∧ j'.state = .done .cancelled))
  ∧ (serves 3 →
    (1 < m.arg2.toNat ∨ (a = 0 ∧ 15 < m.arg3.toNat) ∨ (a ≠ 0 ∧ m.arg3 ≠ 0) → refuses .answer 4)
    ∧ (m.arg2.toNat ≤ 1 → (a = 0 → m.arg3.toNat ≤ 15) → (a ≠ 0 → m.arg3 = 0) →
      ((a, m.arg3.toNat, m.arg1) ∉ s.merger.outstanding → refuses .answer 3)
      ∧ ((a, m.arg3.toNat, m.arg1) ∈ s.merger.outstanding → a ≠ 0 → ∀ j r p, s.job a = some j → j.state = .placed →
          s.merger.open_ = [r] → r.job = a → r.pages = [m.arg1] → j.cores[r.core]? = some p → (∀ q, (s.core q).copies = []) →
          let st := (s.core p).strand r.strand
          st.st = .trapped → st.rec0.toNat % 256 = 5 → st.vrq = 0 → (∀ h ∈ st.storeQ, h.awaiting = false) →
          answers .answer 0 fun t => (a, m.arg3.toNat, m.arg1) ∉ t.merger.outstanding ∧ t.merger.open_ = []
            ∧ (t.core p).strand r.strand = if m.arg2 = 0 then st.resume else { st with rec0 := st.rec0 + 1 })))
  ∧ (serves 4 →
    (2 ^ 16 ≤ a.toNat → refuses .shoot 4)
    ∧ (a.toNat < 2 ^ 16 → m.sent = true ∨ (∃ e ∈ s.cores, e.2.shoots ≠ []) → exec .shoot s = .next s)
    ∧ (a.toNat < 2 ^ 16 → m.sent = false → (∀ e ∈ s.cores, e.2.shoots = []) →
      let mine (c : Core) : Prop := ∃ pl, c.place = some pl ∧ asidOf pl.ptRoot = a.toNat
      let packets := (∃ r ∈ s.nmrQ, ∃ n, r.slot = some (n, a.toNat)) ∨ ∃ f ∈ s.flights, f.source.agent = walkAgent importAgent
        ∧ ∃ w, s.importSlot f.source.core = some w ∧ asidOf w.ptRoot = a.toNat
      ((∀ e ∈ s.cores, ¬ mine e.2) → (packets → exec .shoot s = .next { s with mbox := { m with sent := true } })
        ∧ (¬ packets → refuses .shoot 0))
      ∧ ∀ p, mine (s.core p) → ∃ t, exec .shoot s = .next t ∧ (t.core p).shoots = [{ asid := a.toNat, base := m.arg1, pages := m.arg2.toNat }]
        ∧ t.mbox = { m with sent := true }))
  ∧ (serves 5 →
    let bad := 15 < a.toNat ∨ 2 ^ 60 ≤ m.arg1.toNat ∨ m.arg2.toNat % 4096 ≠ 0 ∨ m.arg3.toNat % 4096 ≠ 0 ∨ m.arg3 = 0
    (bad → refuses .import 4) ∧ (¬ bad → (s.importSlot a.toNat).isSome = true → refuses .import 1)
    ∧ (¬ bad → s.importSlot a.toNat = none → answers .import 0 fun t =>
        t.importSlot a.toNat = some ⟨m.arg1, m.arg2, m.arg3.toNat⟩ ∧ ∀ n, n ≠ a.toNat → t.importSlot n = s.importSlot n))
  ∧ (serves 6 → (15 < a.toNat → refuses .unimport 4)
    ∧ (s.strandedSlots = [] → m.sent = false → s.retakeStranded = s)
    ∧ let u := s.retakeStranded
      let waits := (∃ r ∈ u.nmrQ, ∃ asid, r.slot = some (a.toNat, asid)) ∨ ∃ e ∈ u.heldPkts, e.slot = a.toNat ∧ u.awaitsHost e = false
      (a.toNat ≤ 15 → waits → exec .unimport s = .next u)
      ∧ (a.toNat ≤ 15 → ¬ waits → answers .unimport 0 fun t => t.importSlot a.toNat = none ∧ (∀ n, n ≠ a.toNat → t.importSlot n = s.importSlot n)
        ∧ ∀ e ∈ t.heldPkts, e.slot ≠ a.toNat))
  ∧ (serves 7 → ∀ info, answers (.pkgAdd info) 0 fun t => t.mbox.arg0 = s.nextHandle.setWidth 64
        ∧ t.pkgs = s.pkgs ++ [⟨s.nextHandle, a, m.arg1, info⟩] ∧ t.nextHandle = s.nextHandle + 1)
  ∧ (serves 8 → (2 ^ 32 ≤ a.toNat → refuses .pkgDrop 4)
    ∧ (a.toNat < 2 ^ 32 → (∃ j ∈ s.jobs, j.record.pkg.toNat = a.toNat) → refuses .pkgDrop 1)
    ∧ (a.toNat < 2 ^ 32 → (∀ j ∈ s.jobs, j.record.pkg.toNat ≠ a.toNat) → answers .pkgDrop 0 fun t =>
        ∀ p, p ∈ t.pkgs ↔ p ∈ s.pkgs ∧ p.handle.toNat ≠ a.toNat))
  ∧ (serves 16 → answers .identify 0 fun t => t.mbox.arg1 = Config.serialNumber ∧ t.mbox.arg2 = (Config.imageVersion (images.1.take 128)).setWidth 64
        ∧ t.mbox.arg3 = (Config.imageVersion (images.2.take 128)).setWidth 64 ∧ (Config.moduleForm = true → t.mbox.arg0 = 1)
        ∧ (Config.moduleForm = false → t.mbox.arg0 = 0))
  ∧ (certificateChain = Config.chainBefore ++ publicKey Config.identityKey ++ Config.chainAfter)
  ∧ (serves 17 → (m.arg1 = 0 ∨ 4096 < m.arg1.toNat → refuses .spdm 4)
    ∧ (m.arg1 ≠ 0 → m.arg1.toNat ≤ 4096 → let request := s.hostMem.read (a.toNat % 2 ^ 52) m.arg1.toNat
      let code := request.getD 1 0
      let at_ := s.attest
      let slot := (request.getD 2 0).toNat % 16
      let op := (request.getD 3 0).toNat
      let error (n : Byte) (d : Byte) : List Byte := [0x13, 0x7F, n, d]
      let part (l : List Byte) (o n : Nat) : List Byte := (l.drop o).take n
      let structures := ∃ i, i < (request.getD 2 0).toNat ∧ let l := part request (32 + 4 * i) 4
        (l.getD 1 0).toNat % 16 ≠ 0 ∨ (leNat (part l 2 2) ≠ 0 ∧ ¬ (l.getD 0 0 = 4 ∧ leNat (part l 2 2) = 0x10))
      let served := code ∈ ([0x84, 0xE1, 0xE3, 0x81, 0x82, 0x83, 0xE0] : List Byte)
      let ordered := code = 0x84 ∨ (code = 0xE1 ∧ at_.phase = 1) ∨ (code = 0xE3 ∧ at_.phase = 2)
        ∨ (code ∉ ([0x84, 0xE1, 0xE3] : List Byte) ∧ at_.phase = 3)
      let version := request.getD 0 0 = if code = 0x84 then 0x10 else 0x13
      let inputs := [(images.1 : List Byte), images.2,
        Config.maskBytes ((List.range 192).map fun p => ((s.core p).capMask, (s.core p).prick)),
        Config.startRecordImage (startEntries s.startLeft)]
      ∃ reply : List Byte,
        (¬ version → reply = error 0x41 0)
        ∧ (version → ¬ served → reply = error 7 code)
        ∧ (version → served → ¬ ordered → reply = error 4 0)
        ∧ (version → served → ordered →
          (code = 0xE3 → let other := part request 8 4 ≠ [0x10, 0, 0, 0] ∨ part request 12 4 ≠ [1, 0, 0, 0]
              ∨ request.getD 28 0 ≠ 0 ∨ request.getD 29 0 ≠ 0 ∨ structures
            32 ≤ request.length → (other → reply = error 7 code)
              ∧ (¬ other → part reply 12 4 = [0x10, 0, 0, 0] ∧ part reply 16 4 = [1, 0, 0, 0]))
          ∧ (code = 0xE1 → part reply 8 4 = [0x16, 0, 0, 0])
        ∧ (code = 0x82 → (slot ≠ 0 → reply = error 1 0)
            ∧ (slot = 0 → reply.drop 8 = part certificateChain (leNat (part request 4 2)) (leNat (part request 6 2))))
        ∧ (code = 0x81 → reply.drop 4 = sha256 certificateChain)
        ∧ (code = 0x83 → (slot ≠ 0 → reply = error 1 0) ∧ (slot = 0 → part reply 4 32 = sha256 certificateChain
              ∧ ∃ body, reply = body ++ spdmSignature s.tick "responder-challenge_auth signing" (at_.setup ++ at_.certs ++ request ++ body)))
        ∧ (code = 0xE0 → (request.getD 2 0).getLsbD 0 = true → (request.getD 36 0).toNat % 16 ≠ 0 → reply = error 1 0)
        ∧ (code = 0xE0 → (request.getD 2 0).getLsbD 0 = true → (request.getD 36 0).toNat % 16 = 0 → op ≤ 4 ∨ op = 0xFF →
            ∃ body, reply = body ++ spdmSignature s.tick "responder-measurements signing" (at_.setup ++ at_.measured ++ request ++ body))
        ∧ (code = 0xE0 → ((request.getD 2 0).getLsbD 0 = true → (request.getD 36 0).toNat % 16 = 0) → (op = 0 → reply.getD 2 0 = 4 ∧ reply.getD 4 0 = 0)
            ∧ (op = 0xFF → reply.getD 4 0 = 4 ∧ ∀ k, k < 4 →
                (reply.getD (8 + 39 * k) 0).toNat = k + 1 ∧ part reply (15 + 39 * k) 32 = sha256 (inputs.getD k []))
            ∧ (∀ k, k < 4 → op = k + 1 →
                reply.getD 4 0 = 1 ∧ (reply.getD 8 0).toNat = k + 1 ∧ part reply 15 32 = sha256 (inputs.getD k []))
            ∧ (5 ≤ op → op ≠ 0xFF → reply = error 1 0)))
        ∧ (m.arg3.toNat < reply.length → refuses .spdm 4)
        ∧ (reply.length ≤ m.arg3.toNat → answers .spdm 0 fun t => t.mbox.arg1 = BitVec.ofNat 64 reply.length
          ∧ (reply.getD 1 0 = 0x7F → t.attest = at_)
          ∧ (version → code = 0x84 → t.attest = { phase := 1, setup := request ++ reply, certs := [], measured := [] })
          ∧ (version → ordered → reply.getD 1 0 ≠ 0x7F → (code = 0xE1 → t.attest.phase = 2) ∧ (code = 0xE3 → t.attest.phase = 3))
          ∧ ∀ x, let o := m.arg2.toNat % 2 ^ 52
              t.hostMem.get x = if o ≤ x ∧ x < o + reply.length then reply.getD (x - o) 0 else s.hostMem.get x)))
  ∧ (serves 18 → (0x800000 < m.arg1.toNat → refuses .fwStage 4)
    ∧ (m.arg1.toNat ≤ 0x800000 → answers .fwStage 0 fun t =>
        t.fw = { s.fw with staged := some (s.hostMem.read (a.toNat % 2 ^ 52) m.arg1.toNat) }))
  ∧ (serves 19 → (s.fw.staged = none → refuses .fwCommit 6)
    ∧ ∀ img, s.fw.staged = some img → let h := img.take 128
      let ver := Config.imageVersion h
      let part (l : List Byte) (o n : Nat) : List Byte := (l.drop o).take n
      let genuine := img.length = 128 + Config.imageSize h
        ∧ sha256 Config.verifyingKey = fusedDigest
        ∧ ecdsaVerifies (beNat (part Config.verifyingKey 0 32)) (beNat (Config.verifyingKey.drop 32))
            (sha256 (part img 0 64 ++ img.drop 128)) (beNat (part img 64 32)) (beNat (part img 96 32)) = true
      (¬ genuine → refuses .fwCommit 6)
      ∧ (genuine →
        (Config.imageRoot h = true →
          (ver.toNat < max s.fw.minRoot.toNat (Config.imageVersion (images.1.take 128)).toNat → refuses .fwCommit 7)
          ∧ (max s.fw.minRoot.toNat (Config.imageVersion (images.1.take 128)).toNat ≤ ver.toNat → answers .fwCommit 0 fun t => t.fw = { s.fw with minRoot := ver, nextRootImage := img }))
        ∧ (Config.imageRoot h = false →
          (ver.toNat < max s.fw.minService.toNat (Config.imageVersion (images.2.take 128)).toNat → refuses .fwCommit 7)
          ∧ (max s.fw.minService.toNat (Config.imageVersion (images.2.take 128)).toNat ≤ ver.toNat → answers .fwCommit 0 fun t =>
              t.fw = { s.fw with minService := ver, nextServiceImage := img }))))
  ∧ (serves 20 → (m.arg1.toNat < 4096 → refuses .record 4)
    ∧ (4096 ≤ m.arg1.toNat → answers .record 0 fun t => t.devMem = s.devMem ∧ ∀ x, let o := a.toNat % 2 ^ 52
        (x < o ∨ o + 4096 ≤ x) → t.hostMem.get x = s.hostMem.get x))
  ∧ (serves 21 → answers .recordClear 0 fun t => ∀ e, e ∈ t.startRec ↔
        e ∈ s.startRec ∧ ¬ (a.toNat = e.step ∧ (m.arg1.toNat = 0xFFFF ∨ m.arg1.toNat = e.unit)))
  ∧ (serves 22 → (s.jobs ≠ [] → refuses .restart 1)
    ∧ (s.jobs = [] → ∃ t, exec .restart s = .next t ∧ t.restarts = s.restarts + 1 ∧ t.starting = decide (s.restarts < 4)
        ∧ t.recovery = decide (4 ≤ s.restarts) ∧ t.fences = s.fences ∧ t.startRec = s.startRec ∧ t.hostMem = s.hostMem
        ∧ t.startLeft = s.startRec ∧ t.devMem = [] ∧ (∀ p, ({ t.core p with capMask := 0 } : Core) = { Core.reset with capMask := 0 })
        ∧ (∀ p k, k < 64 → (t.core p).capMask.getLsbD k = (Core.reset.capMask.getLsbD k && !s.fences.contains (p, k)))
        ∧ t.fw.rootImage = s.fw.nextRootImage ∧ t.fw.serviceImage = s.fw.nextServiceImage ∧ t.fw.staged = none
        ∧ t.fw.root = Config.imageVersion ((if s.fw.nextRootImage = [] then Config.deliveredRoot else s.fw.nextRootImage).take 128)
        ∧ t.fw.service = Config.imageVersion
            ((if s.fw.nextServiceImage = [] then Config.deliveredService else s.fw.nextServiceImage).take 128)))
  ∧ (serves 23 → (192 ≤ a.toNat ∨ classBit m.arg1.toNat = false → refuses .fenceCommand 4)
    ∧ (a.toNat < 192 → classBit m.arg1.toNat = true → answers .fenceCommand 0 fun t =>
        (t.core a.toNat).capMask.getLsbD m.arg1.toNat = false ∧ (a.toNat, m.arg1.toNat) ∈ t.fences
        ∧ ∀ p, p ≠ a.toNat → (t.core p).capMask = (s.core p).capMask))
  ∧ (m.go = true → s.power = 0 → s.starting = false → s.mailboxLost = false →
      (m.op = 0 ∨ (9 ≤ m.op.toNat ∧ m.op.toNat ≤ 15) ∨ 24 ≤ m.op.toNat ∨ (s.recovery = true ∧ (m.op.toNat < 16 ∨ m.op.toNat = 23)) →
        refuses .mailboxBadOp 5))
  ∧ (s.mailboxLost = true ↔ ∃ e ∈ s.startRec, e.step ≤ 3 ∧ (e.result = .failed ∨ e.result = .held))
  ∧ (m.go = false ∨ s.mailboxLost = true → ∀ i ∈ [Instr.retire, .cancel, .answer, .shoot, .import, .unimport, .pkgDrop, .identify, .spdm, .fwStage,
      .fwCommit, .record, .recordClear, .restart, .fenceCommand, .mailboxBadOp], exec i s = .next s)

/-! ## Links, reduces and the system management controller -/

/-- R18, R202, R297, R340, R348 to R352: flits, reduce packets, near-memory additions, and the widths of a link port. Which
packets a releasing one waits for, those of its sender that arrived before it, is the model's reading (log 29); so is that
writes, requests and answers wait behind a reduce of their device that is not applied (log 46), and the reservation of another
device's hart (log 12). A unit on several devices has its bytes of this device read with its last answer (log 73).
The model's own readings in it: logs 7, 12, 23, 29, 46, 53, 73. -/
def Obligations.LinkEvents : Prop := ∀ (s : State) (k : Nat),
  let q := s.port k
  let quiet : Prop := (∀ j, j < 18 → (s.port j).st = .down → (s.port j).replay = [] ∧ (s.port j).queue = []) ∧ s.cutJobs = [] ∧ s.strandedSlots = []
  (k < 18 → q.st = .up → quiet → ∀ f : Flit,
    (f.crcOk = false → ∃ t, exec (.flitReceive k f) s = .next t ∧ (t.port k).recvSeq = q.recvSeq ∧ s.sameBytes t)
    ∧ (f.crcOk = true → f.seq ≠ q.recvSeq → ∃ t, exec (.flitReceive k f) s = .next t ∧ (t.port k).recvSeq = q.recvSeq ∧ s.sameBytes t
        ∧ (q.queue = [] → (t.port k).used = q.used ∧ (t.port k).owed = q.owed))
    ∧ (f.crcOk = true → f.seq = q.recvSeq → s.linksUp → (∀ j, j < 18 → (s.port j).inbox = []) → s.devid ≠ 0 →
        ∀ n (src : Sender), n = s.devid.toNat →
        let accepts (u : State → Prop) : Prop := ∃ t, exec (.flitReceive k f) s = .next t ∧ (t.port k).recvSeq = q.recvSeq + 1 ∧ u t
        let waiting (d : Nat) : Prop := (∃ r ∈ s.nmrQ, r.sent.device = d) ∨ ∃ e ∈ s.heldPkts, e.packet.device = d
        let answered (t : State) (i : Nat) (bs : List Byte) : Prop := ∀ j, s.route src.device = some j →
          ∃ g ∈ (t.port j).replay ++ (t.port j).queue, ∃ l, g.load = .response src.device src n i bs l
        (∀ a next data key sync, f.load = .write n src a next data key sync →
          let at_ (i : Nat) : Nat := if i < 4096 - a % 4096 then a + i else next + (i - (4096 - a % 4096))
          (waiting src.device → accepts fun t => (t.port k).inbox = [f.load] ∧ s.sameBytes t)
          ∧ (¬ waiting src.device → key = none → (∀ i, i < data.length → at_ i < 0x8000000000) → accepts fun t =>
            (∀ i, i < data.length → (∀ j, i < j → j < data.length → at_ j ≠ at_ i) → t.devMem.get (at_ i) = data.getD i 0)
            ∧ ∀ x, (∀ i, i < data.length → at_ i ≠ x) → t.devMem.get x = s.devMem.get x))
        ∧ (∀ d, f.load = .writeAck n src d → s.awaitsOthers src.job = false → accepts fun t =>
            t.postedQ = s.postedQ.eraseP (fun e => decide (e.device = d) && decide (e.source = src)) ∧ s.sameBytes t)
        ∧ (∀ d i data syncs, f.load = .response n src d i data syncs → src.agent = walkAgent importAgent →
            (∃ r ∈ s.nmrQ, r.sent.device = d ∧ r.sent.release = false)
              ∨ (∃ e ∈ s.heldPkts, e.packet.device = d ∧ s.awaitsHost e = true) →
            accepts fun t => (t.port k).inbox = [f.load] ∧ s.sameBytes t ∧ t.flights = s.flights)
        ∧ (∀ d i data syncs, f.load = .response n src d i data syncs → src.agent ≠ walkAgent importAgent → waiting d →
            accepts fun t => (t.port k).inbox = [f.load] ∧ s.sameBytes t ∧ t.flights = s.flights)
        ∧ (∀ d i data syncs, f.load = .response n src d i data syncs → src.agent ≠ walkAgent importAgent → ¬ waiting d → s.awaitsOthers src.job = false →
            accepts fun t => s.sameBytes t ∧ t.flights = s.flights.map fun g => if g.source = src then
              ({ g with asks := g.asks.map fun a => if a.id = i then { a with answer := some (data, syncs) } else a }
                : Flight).readHere s.pieceBytes else g)
        ∧ (∀ i a next len op sync, f.load = .request n src i a next len op sync → a % 4096 + len ≤ 4096 →
          (waiting src.device → accepts fun t => (t.port k).inbox = [f.load] ∧ s.sameBytes t)
          ∧ (¬ waiting src.device →
            (op = .load → accepts fun t => s.sameBytes t ∧ answered t i (s.devMem.read a len))
            ∧ (∀ v, op = .amo .add v → accepts fun t =>
              leNat (t.devMem.read a len) = (leNat (s.devMem.read a len) + v) % 2 ^ (8 * len)
              ∧ (∀ x, x < a ∨ a + len ≤ x → t.devMem.get x = s.devMem.get x) ∧ t.hostMem = s.hostMem
              ∧ answered t i (s.devMem.read a len))
            ∧ (∀ v, op = .sc v → len ≠ 0 →
              let holds := ∃ r ∈ s.resvs, r.device = src.device ∧ r.job = src.job ∧ r.core = src.core ∧ r.space = .device
                ∧ r.addr ≤ a ∧ a + len ≤ r.addr + r.size
              (holds → accepts fun t => leNat (t.devMem.read a len) = v % 2 ^ (8 * len) ∧ answered t i (leBytes len 1))
              ∧ (¬ holds → accepts fun t => s.sameBytes t ∧ answered t i (leBytes len 0)))))))
  ∧ (∀ f : Flight, ((∀ e ∈ f.elems, acrossPieces e.2 = false) → f.readHere s.pieceBytes = f)
      ∧ ∀ e q, e ∈ f.elems → q ∈ e.2 → acrossPieces e.2 = true →
        (∀ a ∈ f.asks, a.elem = f.askedAs e.1 → a.answer ≠ none ∧ a.op = .load) → q.device = none → q.data = none →
        ∃ e' ∈ (f.readHere s.pieceBytes).elems, e'.1 = e.1
          ∧ ({ q with data := some ((s.memOf q.space).read q.addr q.len) } : Piece) ∈ e'.2)
  ∧ (∀ n l, s.devid = 0 → s.queueFlit n l = s)
  ∧ (∀ n l, s.devid ≠ 0 → s.route n = some k → q.st = .up → q.queue = [] → q.replay.length < 256 → flitBytes l ≤ 240 →
      creditRoom q.used (flitCredit l) = true →
      ((s.queueFlit n l).port k).replay = q.replay ++ [⟨q.sendSeq, true, q.recvSeq - 1, false,
        if 64 ≤ s.heldPkts.length then { q.owed with reduce := 0 } else q.owed, l⟩])
  ∧ (∀ n l, s.devid ≠ 0 → s.route n = some k → q.st = .retraining → ∃ (fs : List Flit) (f : Flit), f.load = l
      ∧ (∀ g ∈ fs, ∃ t d job c, g.load = .part t d job c)
      ∧ ((flitTarget l).isSome = true → (flitOwner l).isSome = true → fs.length = (flitBytes l - 1) / 240)
      ∧ ((s.queueFlit n l).port k).queue = q.queue ++ fs ++ [f] ∧ ((s.queueFlit n l).port k).replay = q.replay)
  ∧ (18 ≤ k ∨ q.st ≠ .up → ∀ f, exec (.flitReceive k f) s = .next s)
  ∧ (∀ pkt n w, s.devid ≠ 0 → s.heldPkts.length < 64 → (∀ j, j < 18 → (s.port j).inbox = []) → quiet →
      s.matchSlot pkt.page = some (n, w) → s.flight (s.importer n) = none → s.importAsks w pkt = [] →
      ((∀ pg ∈ packetPages pkt, ∃ sp a, s.importFate w pg = .at_ sp a) → ∃ t r, exec (.reducePacketReceive pkt) s = .next t
          ∧ t.nmrQ = s.nmrQ ++ [r] ∧ r.sent = pkt ∧ r.adds.length = pkt.adds.length ∧ t.heldPkts = s.heldPkts
          ∧ t.cores = s.cores ∧ s.sameBytes t)
      ∧ ((∀ pg ∈ packetPages pkt, s.importFate w pg ≠ .forbidden) → (∃ pg ∈ packetPages pkt, s.importFate w pg = .missing) →
          ∃ t, exec (.reducePacketReceive pkt) s = .next t ∧ t.heldPkts = s.heldPkts ++ [{ slot := n, packet := pkt, no := s.askId }] ∧ t.nmrQ = s.nmrQ
            ∧ ∀ pg ∈ packetPages pkt, s.importFate w pg = .missing → (0, n, BitVec.ofNat 64 (pg * 4096)) ∈ t.merger.outstanding))
  ∧ (∀ pkt, s.devid = 0 ∨ 64 ≤ s.heldPkts.length → exec (.reducePacketReceive pkt) s = .next s)
  ∧ (∀ r rest addr bytes v, s.nmrQ = r :: rest → r.page / 4096 % 8 = k → r.sent.device = 0 →
      (r.sent.release = true → (∀ e ∈ s.heldPkts, e.packet.device ≠ 0 ∨ r.no ≤ e.no) ∧ ∀ e ∈ rest, e.sent.device ≠ 0 ∨ r.no ≤ e.no) → r.adds = [.int addr bytes v] →
      ∃ t, exec (.nmrReduceApply k) s = .next t ∧ t.nmrQ = rest
        ∧ leNat (t.devMem.read addr.toNat bytes) = (leNat (s.devMem.read addr.toNat bytes) + v) % 2 ^ (8 * bytes)
        ∧ (∀ x, x < addr.toNat ∨ addr.toNat + bytes ≤ x → t.devMem.get x = s.devMem.get x) ∧ t.hostMem = s.hostMem)
  ∧ ((∀ r ∈ s.nmrQ, r.page / 4096 % 8 ≠ k ∨ r.sent.release = true
      ∧ ((∃ e ∈ s.heldPkts, e.packet.device = r.sent.device ∧ e.no < r.no)
        ∨ ∃ e ∈ s.nmrQ, e.sent.device = r.sent.device ∧ e.no < r.no)) → exec (.nmrReduceApply k) s = .next s)
  ∧ (k < 18 → ∀ w, 1 ≤ w → w ≤ 3 →
      (q.st = .up → exec (.linkWidthChange k w) s = .next (s.setPort k { q with st := .retraining, fails := 0, tryWidth := w }))
      ∧ (q.st ≠ .up → exec (.linkWidthChange k w) s = .next s))
  ∧ (k < 18 → q.st = .retraining →
      (∃ t, exec (.retrainAttemptEnd k true) s = .next t ∧ (t.port k).st = .up ∧ (t.port k).width = q.tryWidth
        ∧ (t.port k).sheds = (if q.width = q.tryWidth then q.sheds else q.sheds + 1))
      ∧ (q.fails < 2 → exec (.retrainAttemptEnd k false) s
          = .next (s.setPort k { q with fails := q.fails + 1, tryWidth := max 1 (q.tryWidth - 1) }))
      ∧ (2 ≤ q.fails → ∃ t, exec (.retrainAttemptEnd k false) s = .next t ∧ (t.port k).st = .down
          ∧ (t.port k).replay = [] ∧ (t.port k).queue = []
          ∧ ∀ n, n < 64 → t.route n = if (Table.get 0 s.routes n).toNat % 32 = k then none else s.route n))

/-- R143, R321, R354, R358 to R366: the start, in-field tests, fences, power and errors.
The model's own readings in it: logs 7, 15, 43, 44, 45, 47, 48, 57. -/
def Obligations.ControllerEvents : Prop := ∀ (s : State) (p cls g : Nat) (unit : BitVec 16) (addr : Word) (id : BitVec 64),
  let c := s.core p
  let logged (t : State) (kind : RasKind) (job : BitVec 64) : Prop := s.ras.length < 256 → s.rasStalled = [] →
    t.rasProd = s.rasProd + 1 ∧ (∃ e, t.ras = s.ras ++ [e] ∧ e.kind = kind ∧ e.unit = unit ∧ e.addr = addr ∧ e.job = job)
  let fenced (t : State) : Prop := (t.core p).capMask.getLsbD cls = false ∧ (p, cls) ∈ t.fences
    ∧ ∀ b, b ≠ cls → (t.core p).capMask.getLsbD b = c.capMask.getLsbD b
  (s.starting = true → (∀ e ∈ s.startRec, e.result = .ok) →
      let root := s.fw.accepts true s.fw.rootRuns
      let service := s.fw.accepts false s.fw.serviceRuns
      ∃ t, exec (.partStart []) s = .next t ∧ t.startLeft = t.startRec
        ∧ (root = true → service = true → t.starting = false ∧ t.recovery = s.recovery
          ∧ t.fw.minRoot = Config.imageVersion (s.fw.rootRuns.take 128) ∧ t.fw.minService = Config.imageVersion (s.fw.serviceRuns.take 128)
          ∧ t.fw.root = t.fw.minRoot ∧ t.fw.service = t.fw.minService
          ∧ (∀ k, k < 18 → (t.port k).st = .up) ∧ ∀ n, n < 192 → (t.core n).capMask = allClasses &&& ~~~ t.fencedClasses n)
        ∧ (root = false → t.restarts = s.restarts + 1 ∧ ⟨1, 0, .failed, 0, false⟩ ∈ t.startRec)
        ∧ (root = true → service = false → t.restarts = s.restarts + 1 ∧ ⟨2, 0, .failed, 0, false⟩ ∈ t.startRec))
  ∧ (s.starting = true → s.startRec = [] → ∀ u : UnitTest, u.step = 1 → u.unit = 0 → u.ok = false ∨ s.fw.accepts true s.fw.rootRuns = false →
      ∃ t, exec (.partStart [u]) s = .next t ∧ t.restarts = s.restarts + 1 ∧ t.startRec = [⟨1, 0, .failed, u.cause, false⟩])
  ∧ (s.starting = false → ∀ l, exec (.partStart l) s = .next s)
  ∧ (p < 192 → classBit cls = true → ∀ run,
      (c.place.isSome = true → exec (.inFieldTest p cls run) s = .next s)
      ∧ (c.place = none → c.withheld = false → exec (.inFieldTest p cls run) s = .next (s.setCore p { c with withheld := true }))
      ∧ (c.place = none → c.withheld = true →
        let bad := run.mismatch = true ∧ run.reduced = false
          ∧ 2 ≤ (([run.rerun0, run.rerun1, run.rerun2] : List Bool).filter (· = true)).length
        (¬ bad → exec (.inFieldTest p cls run) s = .next (s.setCore p { c with
            withheld := false
            margin := c.margin + if run.mismatch = true ∧ run.reduced = true then 1 else 0 }))
        ∧ (bad → ∃ t, exec (.inFieldTest p cls run) s = .next t ∧ fenced t ∧ (t.core p).withheld = false
            ∧ (t.core p).margin = c.margin)))
  ∧ (p < 192 → classBit cls = true → ∃ t, exec (.classFence p cls) s = .next t ∧ fenced t)
  ∧ (p < 4 → (g < Table.get 16 s.phases p → ∃ t, exec (.phaseLoss p g) s = .next t ∧ t.derated = true
        ∧ (∀ d, Table.get 16 t.phases d = if d = p then g else Table.get 16 s.phases d)
        ∧ (8 ≤ g → t.cores = s.cores)
        ∧ (g < 8 → ∀ n b, 48 * p ≤ n → n < 48 * p + 48 → classBit b = true →
            (t.core n).capMask.getLsbD b = false ∧ (n, b) ∈ t.fences))
      ∧ (Table.get 16 s.phases p ≤ g → exec (.phaseLoss p g) s = .next s))
  ∧ ((875 < s.mhz.toNat → exec (.throttleStep true) s = .next { s with mhz := s.mhz - 25 })
    ∧ (s.mhz.toNat ≤ 875 → exec (.throttleStep true) s = .next { s with alccap := min 2 (s.alccap + 1) })
    ∧ (0 < s.alccap → exec (.throttleStep false) s = .next { s with alccap := s.alccap - 1 })
    ∧ (s.alccap = 0 → s.mhz.toNat < 1750 → exec (.throttleStep false) s = .next { s with mhz := s.mhz + 25 }))
  ∧ (let ns := s.lattol.toNat
    let deep := if 200000 ≤ ns then 3 else if 20000 ≤ ns then 2 else if 2000 ≤ ns then 1 else 0
    (s.idle = true → s.wake = false → s.power ≠ deep → exec .powerStateEntry s = .next { s with power := deep, msix := s.msix ++ [3] })
    ∧ (s.idle = false ∨ s.wake = true → exec .powerStateEntry s = .next s)
    ∧ (s.idle = true ↔ s.anyPlaced = false ∧ s.mbox.go = false ∧ ∀ n, n < 8 → (s.queue n).prod = (s.queue n).cons)
    ∧ (s.power ≠ 0 → (s.idle = false ∨ s.linkTraffic = true ∨ s.wake = true) →
        exec .powerStateExit s = .next { s with power := 0, msix := s.msix ++ [3], wake := false })
    ∧ ((s.power = 0 ∨ s.idle = true ∧ s.linkTraffic = false) → s.wake = false → exec .powerStateExit s = .next s)
    ∧ (s.power ≠ 0 → ∀ q v, q < 8 → ∃ t, exec (.prodWrite q v) s = .next t ∧ t.power = s.power ∧ t.wake = true))
  ∧ (c.place.isSome = true → g < 4 → ∃ w : BitVec 4, exec (.laneGroupGate p g) s = .next (s.setCore p { c with gated := w })
      ∧ ∀ j, j < 4 → w.getLsbD j = (c.gated.getLsbD j || decide (j = g)))
  ∧ (∃ w : BitVec 4, exec (.laneGroupUngate p g) s = .next (s.setCore p { c with gated := w })
      ∧ ∀ j, j < 4 → w.getLsbD j = (c.gated.getLsbD j && decide (j ≠ g)))
  ∧ (p < 192 → g ∈ c.prick → ∃ t, exec (.laneGroupRetire p g) s = .next t ∧ g ∉ (t.core p).prick
      ∧ (∀ j, j < 4 → (t.core p).usable.getLsbD j = (c.usable.getLsbD j && decide (j ≠ g)))
      ∧ (∀ h, h < 4 → c.usable.getLsbD h = true → h ∉ c.prick → (t.core p).prick.length = c.prick.length)
      ∧ ((t.core p).usable = 0 → (t.core p).capMask &&& 0xFE = 0) ∧ ((t.core p).usable ≠ 0 → (t.core p).capMask = c.capMask)
      ∧ ((t.core p).usable = 0 → (s.jobs.map fun j => j.record.id).Nodup →
          ∀ j ∈ t.jobs, j.state = .waiting → t.eligible j.record = true)
      ∧ ∀ n, n ≠ p → t.core n = s.core n)
  ∧ (g ∉ c.prick → exec (.laneGroupRetire p g) s = .next s)
  ∧ (((s.ceHbm + 1).toNat % 1024 ≠ 0 → exec (.correctedError true unit addr) s = .next { s with ceHbm := s.ceHbm + 1 })
    ∧ ((s.ceSram + 1).toNat % 1024 ≠ 0 → exec (.correctedError false unit addr) s = .next { s with ceSram := s.ceSram + 1 })
    ∧ ((s.ceHbm + 1).toNat % 1024 = 0 → ∃ t, exec (.correctedError true unit addr) s = .next t ∧ t.ceHbm = s.ceHbm + 1
        ∧ logged t .corrected 0))
  ∧ (s.job id = none → ∃ t, exec (.uncorrectableError id unit addr) s = .next t ∧ t.jobs = s.jobs ∧ logged t .uncorrectable id)
  ∧ (∀ j, s.job id = some j → j.state = .placed → j.ending = none → s.endsHere j.record → ∃ t, exec (.uncorrectableError id unit addr) s = .next t
      ∧ ∃ j', t.job id = some j' ∧ j'.state = .done .uncorrectable)
  ∧ (∃ t, exec (.sandboxViolation unit addr) s = .next t ∧ logged t .sandbox 0 ∧ t.jobs = s.jobs ∧ t.cores = s.cores)
  ∧ (∀ e rest, s.rasStalled = e :: rest → s.ras.length < 256 → exec .stalledRasEntryWrite s
      = .next { s with rasStalled := rest, ras := s.ras ++ [e], rasProd := s.rasProd + 1, msix := s.msix ++ [3] })
  ∧ (s.rasStalled = [] ∨ 256 ≤ s.ras.length → exec .stalledRasEntryWrite s = .next s)
end

