-- ==== Sys2Proof/Laws/Table.lean ====
section
/-! SUPPORT. Tables and memories: reading after writing, and the canonical form that every write keeps. -/

namespace Sys2Proof.Machine

section Tables

variable {α : Type} (d : α)

theorem Table.get_append (l r : Table α) (k : Nat) (h : ∀ e ∈ l, e.1 ≠ k) :
    Table.get d (l ++ r) k = Table.get d r k := by
  induction l with
  | nil => rfl
  | cons e l ih =>
    have h1 : k ≠ e.1 := fun h' => h e (by simp) h'.symm
    simp only [List.cons_append, Table.get, if_neg h1]
    exact ih fun e' he => h e' (by simp [he])

theorem Table.get_eq_default (l : Table α) (k : Nat) (h : ∀ e ∈ l, e.1 ≠ k) : Table.get d l k = d := by
  have := Table.get_append d l [] k h
  rw [List.append_nil] at this
  exact this

theorem Table.get_filter_append (l r : Table α) (k : Nat) (p : Nat → Bool) (hp : p k = true)
    (hr : ∀ e ∈ r, e.1 ≠ k) : Table.get d (l.filter (fun e => p e.1) ++ r) k = Table.get d l k := by
  induction l with
  | nil => exact Table.get_eq_default d r k hr
  | cons e l ih =>
    by_cases he : k = e.1
    · subst he
      simp [List.filter, hp, Table.get]
    · by_cases hpe : p e.1
      · simp [List.filter, hpe, Table.get, he, ih]
      · simp [List.filter, hpe, Table.get, he, ih]

theorem Table.get_filter (l : Table α) (k : Nat) (p : Nat → Bool) (hp : p k = true) :
    Table.get d (l.filter (fun e => p e.1)) k = Table.get d l k := by
  have := Table.get_filter_append d l [] k p hp (by simp)
  rwa [List.append_nil] at this

variable [DecidableEq α]

/-- A number reads as it was written. -/
@[simp] theorem Table.get_set_same (t : Table α) (k : Nat) (v : α) : Table.get d (Table.set d t k v) k = v := by
  have h1 : ∀ e ∈ t.filter (fun e => e.1 < k), e.1 ≠ k := by
    intro e he
    have := (List.mem_filter.mp he).2
    simp at this
    omega
  have h2 : ∀ e ∈ t.filter (fun e => k < e.1), e.1 ≠ k := by
    intro e he
    have := (List.mem_filter.mp he).2
    simp at this
    omega
  unfold Table.set
  rw [List.append_assoc, Table.get_append d _ _ k h1]
  by_cases hv : v = d
  · simp [hv, Table.get_eq_default d _ k h2]
  · simp [hv, Table.get]

/-- Every other number reads as before. -/
theorem Table.get_set_ne (t : Table α) (k k' : Nat) (v : α) (h : k' ≠ k) :
    Table.get d (Table.set d t k v) k' = Table.get d t k' := by
  have hm : ∀ e ∈ (if v = d then ([] : Table α) else [(k, v)]), e.1 ≠ k' := by
    intro e he
    split at he
    · simp at he
    · simp at he
      simp [he]
      omega
  unfold Table.set
  by_cases hlt : k' < k
  · rw [List.append_assoc, Table.get_filter_append d t _ k' (fun n => n < k) (by simpa using hlt)]
    intro e he
    rcases List.mem_append.mp he with he | he
    · exact hm e he
    · have := (List.mem_filter.mp he).2
      simp at this
      omega
  · rw [Table.get_append, Table.get_filter d t k' (fun n => k < n) (by simp; omega)]
    intro e he
    rcases List.mem_append.mp he with he | he
    · have := (List.mem_filter.mp he).2
      simp at this
      omega
    · exact hm e he

/-- Reading a written table. -/
theorem Table.get_set (t : Table α) (k k' : Nat) (v : α) :
    Table.get d (Table.set d t k v) k' = if k' = k then v else Table.get d t k' := by
  split
  · subst k'
    exact Table.get_set_same d t k v
  · rename_i h
    exact Table.get_set_ne d t k k' v h

/-- The last write of a number stands. -/
@[simp] theorem Table.set_set (t : Table α) (k : Nat) (v w : α) :
    Table.set d (Table.set d t k v) k w = Table.set d t k w := by
  unfold Table.set
  have hf : ∀ (p : Nat × α → Bool), (∀ e ∈ (if v = d then ([] : Table α) else [(k, v)]), p e = false) →
      (if v = d then ([] : Table α) else [(k, v)]).filter p = [] := fun p hp => List.filter_eq_nil_iff.mpr fun e he => by simp [hp e he]
  have hk : ∀ e ∈ (if v = d then ([] : Table α) else [(k, v)]), e.1 = k := by
    intro e he
    split at he <;> simp at he
    simp [he]
  rw [List.filter_append, List.filter_append, List.filter_append, List.filter_append,
    hf _ fun e he => by simp [hk e he], hf _ fun e he => by simp [hk e he]]
  simp only [List.filter_filter, List.append_nil, Bool.and_self]
  have h1 : t.filter (fun e => decide (e.1 < k) && decide (k < e.1)) = [] :=
    List.filter_eq_nil_iff.mpr fun e _ => by simp; omega
  have h2 : t.filter (fun e => decide (k < e.1) && decide (e.1 < k)) = [] :=
    List.filter_eq_nil_iff.mpr fun e _ => by simp; omega
  rw [h1, h2]
  simp

/-- The canonical form as a condition on every entry and every pair of entries in order. -/
theorem Table.wf_iff (t : Table α) :
    Table.wf d t = true ↔ (∀ e ∈ t, e.2 ≠ d) ∧ t.Pairwise (fun a b => a.1 < b.1) := by
  induction t with
  | nil => simp [Table.wf]
  | cons e t ih =>
    cases t with
    | nil => simp [Table.wf]
    | cons e' t =>
      simp only [Table.wf, Bool.and_eq_true, decide_eq_true_eq, ih, List.pairwise_cons, List.forall_mem_cons]
      exact ⟨fun h => ⟨⟨h.1.1, h.2.1⟩, ⟨h.1.2, fun x hx => Nat.lt_trans h.1.2 (h.2.2.1 x hx)⟩, h.2.2⟩,
        fun h => ⟨⟨h.1.1, h.2.1.1⟩, h.1.2, h.2.2⟩⟩

/-- Writing keeps the canonical form. -/
theorem Table.wf_set (t : Table α) (k : Nat) (v : α) (h : Table.wf d t = true) :
    Table.wf d (Table.set d t k v) = true := by
  rw [Table.wf_iff] at *
  obtain ⟨hd, hp⟩ := h
  unfold Table.set
  constructor
  · intro e he
    rcases List.mem_append.mp he with he | he
    · rcases List.mem_append.mp he with he | he
      · exact hd e (List.mem_filter.mp he).1
      · split at he <;> simp at he
        rename_i hv
        simpa [he] using hv
    · exact hd e (List.mem_filter.mp he).1
  · rw [List.pairwise_append, List.pairwise_append]
    refine ⟨⟨hp.filter _, ?_, ?_⟩, hp.filter _, ?_⟩
    · split <;> simp
    · intro a ha b hb
      have := (List.mem_filter.mp ha).2
      split at hb <;> simp at hb
      simp [hb] at *
      omega
    · intro a ha b hb
      have hb := (List.mem_filter.mp hb).2
      simp at hb
      rcases List.mem_append.mp ha with ha | ha
      · have := (List.mem_filter.mp ha).2
        simp at this
        omega
      · split at ha <;> simp at ha
        simp [ha]
        omega

end Tables

/-! ## Memory -/

theorem Mem.cellsAt_fst (a : Nat) (bs : List Byte) :
    ∀ e ∈ Mem.cellsAt a bs, a ≤ e.1 ∧ e.1 < a + bs.length ∧ e.2 ≠ 0 := by
  induction bs generalizing a with
  | nil => simp [Mem.cellsAt]
  | cons b bs ih =>
    intro e he
    unfold Mem.cellsAt at he
    split at he
    · have := ih (a + 1) e he
      simp only [List.length_cons]
      exact ⟨by omega, by omega, this.2.2⟩
    · rename_i hb
      simp only [List.mem_cons] at he
      rcases he with rfl | he
      · exact ⟨by simp, by simp, hb⟩
      · have := ih (a + 1) e he
        simp only [List.length_cons]
        exact ⟨by omega, by omega, this.2.2⟩

theorem Mem.get_cellsAt (a : Nat) (bs : List Byte) (x : Nat) :
    Table.get 0 (Mem.cellsAt a bs) x = if a ≤ x then bs.getD (x - a) 0 else 0 := by
  induction bs generalizing a with
  | nil => simp [Mem.cellsAt, Table.get]
  | cons b bs ih =>
    unfold Mem.cellsAt
    by_cases hx : x = a
    · subst hx
      split
      · rename_i hb
        rw [ih, if_neg (by omega)]
        simp [hb]
      · simp [Table.get]
    · have hs : (if a ≤ x then (b :: bs).getD (x - a) 0 else 0) = if a + 1 ≤ x then bs.getD (x - (a + 1)) 0 else 0 := by
        rcases Nat.lt_trichotomy a x with hlt | heq | hgt
        · obtain ⟨k, rfl⟩ := Nat.exists_eq_add_of_lt hlt
          simp [Nat.add_assoc, Nat.add_sub_add_left]
        · exact absurd heq.symm hx
        · simp [Nat.not_le.2 hgt, Nat.not_le.2 (Nat.lt_succ_of_lt hgt)]
      split
      · rw [ih, hs]
      · rw [Table.get, if_neg hx, ih, hs]

/-- What an address reads as after a store. -/
theorem Mem.get_write (m : Mem) (a : Nat) (bs : List Byte) (x : Nat) :
    (m.write a bs).get x = if a ≤ x ∧ x < a + bs.length then bs.getD (x - a) 0 else m.get x := by
  unfold Mem.get Mem.write
  have hc := Mem.cellsAt_fst a bs
  by_cases hlt : x < a
  · rw [if_neg (by omega), List.append_assoc, Table.get_filter_append 0 m _ x (fun n => n < a) (by simpa using hlt)]
    intro e he
    rcases List.mem_append.mp he with he | he
    · have := hc e he
      omega
    · have := (List.mem_filter.mp he).2
      simp at this
      omega
  · have h1 : ∀ e ∈ m.filter (fun e => decide (e.1 < a)), e.1 ≠ x := by
      intro e he
      have := (List.mem_filter.mp he).2
      simp at this
      omega
    rw [List.append_assoc, Table.get_append 0 _ _ x h1]
    by_cases hin : x < a + bs.length
    · rw [if_pos ⟨by omega, hin⟩]
      have h2 : ∀ e ∈ m.filter (fun e => decide (a + bs.length ≤ e.1)), e.1 ≠ x := by
        intro e he
        have := (List.mem_filter.mp he).2
        simp at this
        omega
      have key : ∀ (l r : Table Byte), (∀ e ∈ r, e.1 ≠ x) → Table.get 0 (l ++ r) x = Table.get 0 l x := by
        intro l r hr
        have := Table.get_filter_append (0 : Byte) l r x (fun _ => true) rfl hr
        rwa [List.filter_eq_self.mpr (by simp)] at this
      rw [key _ _ h2, Mem.get_cellsAt, if_pos (by omega)]
    · rw [if_neg (by omega), Table.get_append, Table.get_filter 0 m x (fun n => a + bs.length ≤ n) (by simp; omega)]
      intro e he
      have := hc e he
      omega

/-- A store keeps the canonical form. -/
theorem Mem.wf_write (m : Mem) (a : Nat) (bs : List Byte) (h : m.wf = true) : (m.write a bs).wf = true := by
  have hc := Mem.cellsAt_fst a bs
  have hcp : ∀ (bs : List Byte) (a : Nat), (Mem.cellsAt a bs).Pairwise (fun x y => x.1 < y.1) := by
    intro bs
    induction bs with
    | nil => intro a; exact List.Pairwise.nil
    | cons b bs ih =>
      intro a
      unfold Mem.cellsAt
      split
      · exact ih (a + 1)
      · refine List.pairwise_cons.mpr ⟨?_, ih (a + 1)⟩
        intro e he
        have := Mem.cellsAt_fst (a + 1) bs e he
        simp
        omega
  unfold Mem.wf at *
  rw [Table.wf_iff] at *
  obtain ⟨hd, hp⟩ := h
  unfold Mem.write
  constructor
  · intro e he
    rcases List.mem_append.mp he with he | he
    · rcases List.mem_append.mp he with he | he
      · exact hd e (List.mem_filter.mp he).1
      · exact (hc e he).2.2
    · exact hd e (List.mem_filter.mp he).1
  · rw [List.pairwise_append, List.pairwise_append]
    refine ⟨⟨hp.filter _, hcp bs a, ?_⟩, hp.filter _, ?_⟩
    · intro x hx y hy
      have h1 := (List.mem_filter.mp hx).2
      have h2 := hc y hy
      simp at h1
      omega
    · intro x hx y hy
      have h2 := (List.mem_filter.mp hy).2
      simp at h2
      rcases List.mem_append.mp hx with hx | hx
      · have h1 := (List.mem_filter.mp hx).2
        simp at h1
        omega
      · have h1 := hc x hx
        omega

/-- A read gives the bytes at consecutive addresses. -/
theorem Mem.read_length (m : Mem) (a n : Nat) : (m.read a n).length = n := by simp [Mem.read]

/-- Reading back what was stored. -/
theorem Mem.read_write (m : Mem) (a : Nat) (bs : List Byte) : (m.write a bs).read a bs.length = bs := by
  unfold Mem.read
  apply List.ext_getElem
  · simp
  · intro i h1 h2
    simp at h1
    simp [Mem.get_write, h1]

end Sys2Proof.Machine
end

