-- ==== Sys2Proof/Laws/State.lean ====
section
/-! SUPPORT. What each update of the state leaves as it was, field by field, and what reading after an update gives. -/

namespace Sys2Proof.Machine

/-! ## What an update leaves -/

@[simp] theorem State.setCore_devMem (s : State) (p : Nat) (c : Core) : (s.setCore p c).devMem = s.devMem := rfl
@[simp] theorem State.setCore_hostMem (s : State) (p : Nat) (c : Core) : (s.setCore p c).hostMem = s.hostMem := rfl
@[simp] theorem State.setCore_remotes (s : State) (p : Nat) (c : Core) : (s.setCore p c).remotes = s.remotes := rfl
@[simp] theorem State.setCore_hostLines (s : State) (p : Nat) (c : Core) : (s.setCore p c).hostLines = s.hostLines := rfl
@[simp] theorem State.setCore_hostRead (s : State) (p : Nat) (c : Core) : (s.setCore p c).hostRead = s.hostRead := rfl
@[simp] theorem State.setCore_keys (s : State) (p : Nat) (c : Core) : (s.setCore p c).keys = s.keys := rfl
@[simp] theorem State.setCore_syncs (s : State) (p : Nat) (c : Core) : (s.setCore p c).syncs = s.syncs := rfl
@[simp] theorem State.setCore_resvs (s : State) (p : Nat) (c : Core) : (s.setCore p c).resvs = s.resvs := rfl
@[simp] theorem State.setCore_devid (s : State) (p : Nat) (c : Core) : (s.setCore p c).devid = s.devid := rfl
@[simp] theorem State.setCore_queues (s : State) (p : Nat) (c : Core) : (s.setCore p c).queues = s.queues := rfl
@[simp] theorem State.setCore_jobs (s : State) (p : Nat) (c : Core) : (s.setCore p c).jobs = s.jobs := rfl
@[simp] theorem State.setCore_lastJobId (s : State) (p : Nat) (c : Core) : (s.setCore p c).lastJobId = s.lastJobId := rfl
@[simp] theorem State.setCore_headJob (s : State) (p : Nat) (c : Core) : (s.setCore p c).headJob = s.headJob := rfl
@[simp] theorem State.setCore_headSince (s : State) (p : Nat) (c : Core) : (s.setCore p c).headSince = s.headSince := rfl
@[simp] theorem State.setCore_headBlocks (s : State) (p : Nat) (c : Core) : (s.setCore p c).headBlocks = s.headBlocks := rfl
@[simp] theorem State.setCore_pkgs (s : State) (p : Nat) (c : Core) : (s.setCore p c).pkgs = s.pkgs := rfl
@[simp] theorem State.setCore_nextHandle (s : State) (p : Nat) (c : Core) : (s.setCore p c).nextHandle = s.nextHandle := rfl
@[simp] theorem State.setCore_mbox (s : State) (p : Nat) (c : Core) : (s.setCore p c).mbox = s.mbox := rfl
@[simp] theorem State.setCore_merger (s : State) (p : Nat) (c : Core) : (s.setCore p c).merger = s.merger := rfl
@[simp] theorem State.setCore_undel (s : State) (p : Nat) (c : Core) : (s.setCore p c).undel = s.undel := rfl
@[simp] theorem State.setCore_imports (s : State) (p : Nat) (c : Core) : (s.setCore p c).imports = s.imports := rfl
@[simp] theorem State.setCore_heldPkts (s : State) (p : Nat) (c : Core) : (s.setCore p c).heldPkts = s.heldPkts := rfl
@[simp] theorem State.setCore_nmrQ (s : State) (p : Nat) (c : Core) : (s.setCore p c).nmrQ = s.nmrQ := rfl
@[simp] theorem State.setCore_remoteQ (s : State) (p : Nat) (c : Core) : (s.setCore p c).remoteQ = s.remoteQ := rfl
@[simp] theorem State.setCore_postedQ (s : State) (p : Nat) (c : Core) : (s.setCore p c).postedQ = s.postedQ := rfl
@[simp] theorem State.setCore_flights (s : State) (p : Nat) (c : Core) : (s.setCore p c).flights = s.flights := rfl
@[simp] theorem State.setCore_askId (s : State) (p : Nat) (c : Core) : (s.setCore p c).askId = s.askId := rfl
@[simp] theorem State.setCore_routes (s : State) (p : Nat) (c : Core) : (s.setCore p c).routes = s.routes := rfl
@[simp] theorem State.setCore_ports (s : State) (p : Nat) (c : Core) : (s.setCore p c).ports = s.ports := rfl
@[simp] theorem State.setCore_msix (s : State) (p : Nat) (c : Core) : (s.setCore p c).msix = s.msix := rfl
@[simp] theorem State.setCore_lattol (s : State) (p : Nat) (c : Core) : (s.setCore p c).lattol = s.lattol := rfl
@[simp] theorem State.setCore_plimit (s : State) (p : Nat) (c : Core) : (s.setCore p c).plimit = s.plimit := rfl
@[simp] theorem State.setCore_mhz (s : State) (p : Nat) (c : Core) : (s.setCore p c).mhz = s.mhz := rfl
@[simp] theorem State.setCore_alccap (s : State) (p : Nat) (c : Core) : (s.setCore p c).alccap = s.alccap := rfl
@[simp] theorem State.setCore_power (s : State) (p : Nat) (c : Core) : (s.setCore p c).power = s.power := rfl
@[simp] theorem State.setCore_wake (s : State) (p : Nat) (c : Core) : (s.setCore p c).wake = s.wake := rfl
@[simp] theorem State.setCore_derated (s : State) (p : Nat) (c : Core) : (s.setCore p c).derated = s.derated := rfl
@[simp] theorem State.setCore_phases (s : State) (p : Nat) (c : Core) : (s.setCore p c).phases = s.phases := rfl
@[simp] theorem State.setCore_fences (s : State) (p : Nat) (c : Core) : (s.setCore p c).fences = s.fences := rfl
@[simp] theorem State.setCore_startRec (s : State) (p : Nat) (c : Core) : (s.setCore p c).startRec = s.startRec := rfl
@[simp] theorem State.setCore_startLeft (s : State) (p : Nat) (c : Core) : (s.setCore p c).startLeft = s.startLeft := rfl
@[simp] theorem State.setCore_restarts (s : State) (p : Nat) (c : Core) : (s.setCore p c).restarts = s.restarts := rfl
@[simp] theorem State.setCore_recovery (s : State) (p : Nat) (c : Core) : (s.setCore p c).recovery = s.recovery := rfl
@[simp] theorem State.setCore_starting (s : State) (p : Nat) (c : Core) : (s.setCore p c).starting = s.starting := rfl
@[simp] theorem State.setCore_fw (s : State) (p : Nat) (c : Core) : (s.setCore p c).fw = s.fw := rfl
@[simp] theorem State.setCore_attest (s : State) (p : Nat) (c : Core) : (s.setCore p c).attest = s.attest := rfl
@[simp] theorem State.setCore_ceSram (s : State) (p : Nat) (c : Core) : (s.setCore p c).ceSram = s.ceSram := rfl
@[simp] theorem State.setCore_ceHbm (s : State) (p : Nat) (c : Core) : (s.setCore p c).ceHbm = s.ceHbm := rfl
@[simp] theorem State.setCore_ras (s : State) (p : Nat) (c : Core) : (s.setCore p c).ras = s.ras := rfl
@[simp] theorem State.setCore_rasRead (s : State) (p : Nat) (c : Core) : (s.setCore p c).rasRead = s.rasRead := rfl
@[simp] theorem State.setCore_rasStalled (s : State) (p : Nat) (c : Core) : (s.setCore p c).rasStalled = s.rasStalled := rfl
@[simp] theorem State.setCore_rasProd (s : State) (p : Nat) (c : Core) : (s.setCore p c).rasProd = s.rasProd := rfl
@[simp] theorem State.setCore_rasCons (s : State) (p : Nat) (c : Core) : (s.setCore p c).rasCons = s.rasCons := rfl
@[simp] theorem State.setCore_now (s : State) (p : Nat) (c : Core) : (s.setCore p c).now = s.now := rfl
@[simp] theorem State.setCore_curCore (s : State) (p : Nat) (c : Core) : (s.setCore p c).curCore = s.curCore := rfl
@[simp] theorem State.setCore_curStrand (s : State) (p : Nat) (c : Core) : (s.setCore p c).curStrand = s.curStrand := rfl
@[simp] theorem State.setCore_attr (s : State) (p : Nat) (c : Core) : (s.setCore p c).attr = s.attr := rfl
@[simp] theorem State.setCore_cut (s : State) (p : Nat) (c : Core) : (s.setCore p c).cut = s.cut := rfl
@[simp] theorem State.setCore_agenda (s : State) (p : Nat) (c : Core) : (s.setCore p c).agenda = s.agenda := rfl
@[simp] theorem State.setCore_tick (s : State) (p : Nat) (c : Core) : (s.setCore p c).tick = s.tick := rfl

@[simp] theorem State.setMyCore_devMem (s : State) (c : Core) : (s.setMyCore c).devMem = s.devMem := rfl
@[simp] theorem State.setMyCore_hostMem (s : State) (c : Core) : (s.setMyCore c).hostMem = s.hostMem := rfl
@[simp] theorem State.setMyCore_remotes (s : State) (c : Core) : (s.setMyCore c).remotes = s.remotes := rfl
@[simp] theorem State.setMyCore_hostLines (s : State) (c : Core) : (s.setMyCore c).hostLines = s.hostLines := rfl
@[simp] theorem State.setMyCore_hostRead (s : State) (c : Core) : (s.setMyCore c).hostRead = s.hostRead := rfl
@[simp] theorem State.setMyCore_keys (s : State) (c : Core) : (s.setMyCore c).keys = s.keys := rfl
@[simp] theorem State.setMyCore_syncs (s : State) (c : Core) : (s.setMyCore c).syncs = s.syncs := rfl
@[simp] theorem State.setMyCore_resvs (s : State) (c : Core) : (s.setMyCore c).resvs = s.resvs := rfl
@[simp] theorem State.setMyCore_devid (s : State) (c : Core) : (s.setMyCore c).devid = s.devid := rfl
@[simp] theorem State.setMyCore_queues (s : State) (c : Core) : (s.setMyCore c).queues = s.queues := rfl
@[simp] theorem State.setMyCore_jobs (s : State) (c : Core) : (s.setMyCore c).jobs = s.jobs := rfl
@[simp] theorem State.setMyCore_lastJobId (s : State) (c : Core) : (s.setMyCore c).lastJobId = s.lastJobId := rfl
@[simp] theorem State.setMyCore_headJob (s : State) (c : Core) : (s.setMyCore c).headJob = s.headJob := rfl
@[simp] theorem State.setMyCore_headSince (s : State) (c : Core) : (s.setMyCore c).headSince = s.headSince := rfl
@[simp] theorem State.setMyCore_headBlocks (s : State) (c : Core) : (s.setMyCore c).headBlocks = s.headBlocks := rfl
@[simp] theorem State.setMyCore_pkgs (s : State) (c : Core) : (s.setMyCore c).pkgs = s.pkgs := rfl
@[simp] theorem State.setMyCore_nextHandle (s : State) (c : Core) : (s.setMyCore c).nextHandle = s.nextHandle := rfl
@[simp] theorem State.setMyCore_mbox (s : State) (c : Core) : (s.setMyCore c).mbox = s.mbox := rfl
@[simp] theorem State.setMyCore_merger (s : State) (c : Core) : (s.setMyCore c).merger = s.merger := rfl
@[simp] theorem State.setMyCore_undel (s : State) (c : Core) : (s.setMyCore c).undel = s.undel := rfl
@[simp] theorem State.setMyCore_imports (s : State) (c : Core) : (s.setMyCore c).imports = s.imports := rfl
@[simp] theorem State.setMyCore_heldPkts (s : State) (c : Core) : (s.setMyCore c).heldPkts = s.heldPkts := rfl
@[simp] theorem State.setMyCore_nmrQ (s : State) (c : Core) : (s.setMyCore c).nmrQ = s.nmrQ := rfl
@[simp] theorem State.setMyCore_remoteQ (s : State) (c : Core) : (s.setMyCore c).remoteQ = s.remoteQ := rfl
@[simp] theorem State.setMyCore_postedQ (s : State) (c : Core) : (s.setMyCore c).postedQ = s.postedQ := rfl
@[simp] theorem State.setMyCore_flights (s : State) (c : Core) : (s.setMyCore c).flights = s.flights := rfl
@[simp] theorem State.setMyCore_askId (s : State) (c : Core) : (s.setMyCore c).askId = s.askId := rfl
@[simp] theorem State.setMyCore_routes (s : State) (c : Core) : (s.setMyCore c).routes = s.routes := rfl
@[simp] theorem State.setMyCore_ports (s : State) (c : Core) : (s.setMyCore c).ports = s.ports := rfl
@[simp] theorem State.setMyCore_msix (s : State) (c : Core) : (s.setMyCore c).msix = s.msix := rfl
@[simp] theorem State.setMyCore_lattol (s : State) (c : Core) : (s.setMyCore c).lattol = s.lattol := rfl
@[simp] theorem State.setMyCore_plimit (s : State) (c : Core) : (s.setMyCore c).plimit = s.plimit := rfl
@[simp] theorem State.setMyCore_mhz (s : State) (c : Core) : (s.setMyCore c).mhz = s.mhz := rfl
@[simp] theorem State.setMyCore_alccap (s : State) (c : Core) : (s.setMyCore c).alccap = s.alccap := rfl
@[simp] theorem State.setMyCore_power (s : State) (c : Core) : (s.setMyCore c).power = s.power := rfl
@[simp] theorem State.setMyCore_wake (s : State) (c : Core) : (s.setMyCore c).wake = s.wake := rfl
@[simp] theorem State.setMyCore_derated (s : State) (c : Core) : (s.setMyCore c).derated = s.derated := rfl
@[simp] theorem State.setMyCore_phases (s : State) (c : Core) : (s.setMyCore c).phases = s.phases := rfl
@[simp] theorem State.setMyCore_fences (s : State) (c : Core) : (s.setMyCore c).fences = s.fences := rfl
@[simp] theorem State.setMyCore_startRec (s : State) (c : Core) : (s.setMyCore c).startRec = s.startRec := rfl
@[simp] theorem State.setMyCore_startLeft (s : State) (c : Core) : (s.setMyCore c).startLeft = s.startLeft := rfl
@[simp] theorem State.setMyCore_restarts (s : State) (c : Core) : (s.setMyCore c).restarts = s.restarts := rfl
@[simp] theorem State.setMyCore_recovery (s : State) (c : Core) : (s.setMyCore c).recovery = s.recovery := rfl
@[simp] theorem State.setMyCore_starting (s : State) (c : Core) : (s.setMyCore c).starting = s.starting := rfl
@[simp] theorem State.setMyCore_fw (s : State) (c : Core) : (s.setMyCore c).fw = s.fw := rfl
@[simp] theorem State.setMyCore_attest (s : State) (c : Core) : (s.setMyCore c).attest = s.attest := rfl
@[simp] theorem State.setMyCore_ceSram (s : State) (c : Core) : (s.setMyCore c).ceSram = s.ceSram := rfl
@[simp] theorem State.setMyCore_ceHbm (s : State) (c : Core) : (s.setMyCore c).ceHbm = s.ceHbm := rfl
@[simp] theorem State.setMyCore_ras (s : State) (c : Core) : (s.setMyCore c).ras = s.ras := rfl
@[simp] theorem State.setMyCore_rasRead (s : State) (c : Core) : (s.setMyCore c).rasRead = s.rasRead := rfl
@[simp] theorem State.setMyCore_rasStalled (s : State) (c : Core) : (s.setMyCore c).rasStalled = s.rasStalled := rfl
@[simp] theorem State.setMyCore_rasProd (s : State) (c : Core) : (s.setMyCore c).rasProd = s.rasProd := rfl
@[simp] theorem State.setMyCore_rasCons (s : State) (c : Core) : (s.setMyCore c).rasCons = s.rasCons := rfl
@[simp] theorem State.setMyCore_now (s : State) (c : Core) : (s.setMyCore c).now = s.now := rfl
@[simp] theorem State.setMyCore_curCore (s : State) (c : Core) : (s.setMyCore c).curCore = s.curCore := rfl
@[simp] theorem State.setMyCore_curStrand (s : State) (c : Core) : (s.setMyCore c).curStrand = s.curStrand := rfl
@[simp] theorem State.setMyCore_attr (s : State) (c : Core) : (s.setMyCore c).attr = s.attr := rfl
@[simp] theorem State.setMyCore_cut (s : State) (c : Core) : (s.setMyCore c).cut = s.cut := rfl
@[simp] theorem State.setMyCore_agenda (s : State) (c : Core) : (s.setMyCore c).agenda = s.agenda := rfl
@[simp] theorem State.setMyCore_tick (s : State) (c : Core) : (s.setMyCore c).tick = s.tick := rfl

@[simp] theorem State.setMe_devMem (s : State) (st : Strand) : (s.setMe st).devMem = s.devMem := rfl
@[simp] theorem State.setMe_hostMem (s : State) (st : Strand) : (s.setMe st).hostMem = s.hostMem := rfl
@[simp] theorem State.setMe_remotes (s : State) (st : Strand) : (s.setMe st).remotes = s.remotes := rfl
@[simp] theorem State.setMe_hostLines (s : State) (st : Strand) : (s.setMe st).hostLines = s.hostLines := rfl
@[simp] theorem State.setMe_hostRead (s : State) (st : Strand) : (s.setMe st).hostRead = s.hostRead := rfl
@[simp] theorem State.setMe_keys (s : State) (st : Strand) : (s.setMe st).keys = s.keys := rfl
@[simp] theorem State.setMe_syncs (s : State) (st : Strand) : (s.setMe st).syncs = s.syncs := rfl
@[simp] theorem State.setMe_resvs (s : State) (st : Strand) : (s.setMe st).resvs = s.resvs := rfl
@[simp] theorem State.setMe_devid (s : State) (st : Strand) : (s.setMe st).devid = s.devid := rfl
@[simp] theorem State.setMe_queues (s : State) (st : Strand) : (s.setMe st).queues = s.queues := rfl
@[simp] theorem State.setMe_jobs (s : State) (st : Strand) : (s.setMe st).jobs = s.jobs := rfl
@[simp] theorem State.setMe_lastJobId (s : State) (st : Strand) : (s.setMe st).lastJobId = s.lastJobId := rfl
@[simp] theorem State.setMe_headJob (s : State) (st : Strand) : (s.setMe st).headJob = s.headJob := rfl
@[simp] theorem State.setMe_headSince (s : State) (st : Strand) : (s.setMe st).headSince = s.headSince := rfl
@[simp] theorem State.setMe_headBlocks (s : State) (st : Strand) : (s.setMe st).headBlocks = s.headBlocks := rfl
@[simp] theorem State.setMe_pkgs (s : State) (st : Strand) : (s.setMe st).pkgs = s.pkgs := rfl
@[simp] theorem State.setMe_nextHandle (s : State) (st : Strand) : (s.setMe st).nextHandle = s.nextHandle := rfl
@[simp] theorem State.setMe_mbox (s : State) (st : Strand) : (s.setMe st).mbox = s.mbox := rfl
@[simp] theorem State.setMe_merger (s : State) (st : Strand) : (s.setMe st).merger = s.merger := rfl
@[simp] theorem State.setMe_undel (s : State) (st : Strand) : (s.setMe st).undel = s.undel := rfl
@[simp] theorem State.setMe_imports (s : State) (st : Strand) : (s.setMe st).imports = s.imports := rfl
@[simp] theorem State.setMe_heldPkts (s : State) (st : Strand) : (s.setMe st).heldPkts = s.heldPkts := rfl
@[simp] theorem State.setMe_nmrQ (s : State) (st : Strand) : (s.setMe st).nmrQ = s.nmrQ := rfl
@[simp] theorem State.setMe_remoteQ (s : State) (st : Strand) : (s.setMe st).remoteQ = s.remoteQ := rfl
@[simp] theorem State.setMe_postedQ (s : State) (st : Strand) : (s.setMe st).postedQ = s.postedQ := rfl
@[simp] theorem State.setMe_flights (s : State) (st : Strand) : (s.setMe st).flights = s.flights := rfl
@[simp] theorem State.setMe_askId (s : State) (st : Strand) : (s.setMe st).askId = s.askId := rfl
@[simp] theorem State.setMe_routes (s : State) (st : Strand) : (s.setMe st).routes = s.routes := rfl
@[simp] theorem State.setMe_ports (s : State) (st : Strand) : (s.setMe st).ports = s.ports := rfl
@[simp] theorem State.setMe_msix (s : State) (st : Strand) : (s.setMe st).msix = s.msix := rfl
@[simp] theorem State.setMe_lattol (s : State) (st : Strand) : (s.setMe st).lattol = s.lattol := rfl
@[simp] theorem State.setMe_plimit (s : State) (st : Strand) : (s.setMe st).plimit = s.plimit := rfl
@[simp] theorem State.setMe_mhz (s : State) (st : Strand) : (s.setMe st).mhz = s.mhz := rfl
@[simp] theorem State.setMe_alccap (s : State) (st : Strand) : (s.setMe st).alccap = s.alccap := rfl
@[simp] theorem State.setMe_power (s : State) (st : Strand) : (s.setMe st).power = s.power := rfl
@[simp] theorem State.setMe_wake (s : State) (st : Strand) : (s.setMe st).wake = s.wake := rfl
@[simp] theorem State.setMe_derated (s : State) (st : Strand) : (s.setMe st).derated = s.derated := rfl
@[simp] theorem State.setMe_phases (s : State) (st : Strand) : (s.setMe st).phases = s.phases := rfl
@[simp] theorem State.setMe_fences (s : State) (st : Strand) : (s.setMe st).fences = s.fences := rfl
@[simp] theorem State.setMe_startRec (s : State) (st : Strand) : (s.setMe st).startRec = s.startRec := rfl
@[simp] theorem State.setMe_startLeft (s : State) (st : Strand) : (s.setMe st).startLeft = s.startLeft := rfl
@[simp] theorem State.setMe_restarts (s : State) (st : Strand) : (s.setMe st).restarts = s.restarts := rfl
@[simp] theorem State.setMe_recovery (s : State) (st : Strand) : (s.setMe st).recovery = s.recovery := rfl
@[simp] theorem State.setMe_starting (s : State) (st : Strand) : (s.setMe st).starting = s.starting := rfl
@[simp] theorem State.setMe_fw (s : State) (st : Strand) : (s.setMe st).fw = s.fw := rfl
@[simp] theorem State.setMe_attest (s : State) (st : Strand) : (s.setMe st).attest = s.attest := rfl
@[simp] theorem State.setMe_ceSram (s : State) (st : Strand) : (s.setMe st).ceSram = s.ceSram := rfl
@[simp] theorem State.setMe_ceHbm (s : State) (st : Strand) : (s.setMe st).ceHbm = s.ceHbm := rfl
@[simp] theorem State.setMe_ras (s : State) (st : Strand) : (s.setMe st).ras = s.ras := rfl
@[simp] theorem State.setMe_rasRead (s : State) (st : Strand) : (s.setMe st).rasRead = s.rasRead := rfl
@[simp] theorem State.setMe_rasStalled (s : State) (st : Strand) : (s.setMe st).rasStalled = s.rasStalled := rfl
@[simp] theorem State.setMe_rasProd (s : State) (st : Strand) : (s.setMe st).rasProd = s.rasProd := rfl
@[simp] theorem State.setMe_rasCons (s : State) (st : Strand) : (s.setMe st).rasCons = s.rasCons := rfl
@[simp] theorem State.setMe_now (s : State) (st : Strand) : (s.setMe st).now = s.now := rfl
@[simp] theorem State.setMe_curCore (s : State) (st : Strand) : (s.setMe st).curCore = s.curCore := rfl
@[simp] theorem State.setMe_curStrand (s : State) (st : Strand) : (s.setMe st).curStrand = s.curStrand := rfl
@[simp] theorem State.setMe_attr (s : State) (st : Strand) : (s.setMe st).attr = s.attr := rfl
@[simp] theorem State.setMe_cut (s : State) (st : Strand) : (s.setMe st).cut = s.cut := rfl
@[simp] theorem State.setMe_agenda (s : State) (st : Strand) : (s.setMe st).agenda = s.agenda := rfl
@[simp] theorem State.setMe_tick (s : State) (st : Strand) : (s.setMe st).tick = s.tick := rfl

@[simp] theorem State.at__devMem (s : State) (p k : Nat) : (s.at_ p k).devMem = s.devMem := rfl
@[simp] theorem State.at__hostMem (s : State) (p k : Nat) : (s.at_ p k).hostMem = s.hostMem := rfl
@[simp] theorem State.at__remotes (s : State) (p k : Nat) : (s.at_ p k).remotes = s.remotes := rfl
@[simp] theorem State.at__hostLines (s : State) (p k : Nat) : (s.at_ p k).hostLines = s.hostLines := rfl
@[simp] theorem State.at__hostRead (s : State) (p k : Nat) : (s.at_ p k).hostRead = s.hostRead := rfl
@[simp] theorem State.at__keys (s : State) (p k : Nat) : (s.at_ p k).keys = s.keys := rfl
@[simp] theorem State.at__syncs (s : State) (p k : Nat) : (s.at_ p k).syncs = s.syncs := rfl
@[simp] theorem State.at__resvs (s : State) (p k : Nat) : (s.at_ p k).resvs = s.resvs := rfl
@[simp] theorem State.at__cores (s : State) (p k : Nat) : (s.at_ p k).cores = s.cores := rfl
@[simp] theorem State.at__devid (s : State) (p k : Nat) : (s.at_ p k).devid = s.devid := rfl
@[simp] theorem State.at__queues (s : State) (p k : Nat) : (s.at_ p k).queues = s.queues := rfl
@[simp] theorem State.at__jobs (s : State) (p k : Nat) : (s.at_ p k).jobs = s.jobs := rfl
@[simp] theorem State.at__lastJobId (s : State) (p k : Nat) : (s.at_ p k).lastJobId = s.lastJobId := rfl
@[simp] theorem State.at__headJob (s : State) (p k : Nat) : (s.at_ p k).headJob = s.headJob := rfl
@[simp] theorem State.at__headSince (s : State) (p k : Nat) : (s.at_ p k).headSince = s.headSince := rfl
@[simp] theorem State.at__headBlocks (s : State) (p k : Nat) : (s.at_ p k).headBlocks = s.headBlocks := rfl
@[simp] theorem State.at__pkgs (s : State) (p k : Nat) : (s.at_ p k).pkgs = s.pkgs := rfl
@[simp] theorem State.at__nextHandle (s : State) (p k : Nat) : (s.at_ p k).nextHandle = s.nextHandle := rfl
@[simp] theorem State.at__mbox (s : State) (p k : Nat) : (s.at_ p k).mbox = s.mbox := rfl
@[simp] theorem State.at__merger (s : State) (p k : Nat) : (s.at_ p k).merger = s.merger := rfl
@[simp] theorem State.at__undel (s : State) (p k : Nat) : (s.at_ p k).undel = s.undel := rfl
@[simp] theorem State.at__imports (s : State) (p k : Nat) : (s.at_ p k).imports = s.imports := rfl
@[simp] theorem State.at__heldPkts (s : State) (p k : Nat) : (s.at_ p k).heldPkts = s.heldPkts := rfl
@[simp] theorem State.at__nmrQ (s : State) (p k : Nat) : (s.at_ p k).nmrQ = s.nmrQ := rfl
@[simp] theorem State.at__remoteQ (s : State) (p k : Nat) : (s.at_ p k).remoteQ = s.remoteQ := rfl
@[simp] theorem State.at__postedQ (s : State) (p k : Nat) : (s.at_ p k).postedQ = s.postedQ := rfl
@[simp] theorem State.at__flights (s : State) (p k : Nat) : (s.at_ p k).flights = s.flights := rfl
@[simp] theorem State.at__askId (s : State) (p k : Nat) : (s.at_ p k).askId = s.askId := rfl
@[simp] theorem State.at__routes (s : State) (p k : Nat) : (s.at_ p k).routes = s.routes := rfl
@[simp] theorem State.at__ports (s : State) (p k : Nat) : (s.at_ p k).ports = s.ports := rfl
@[simp] theorem State.at__msix (s : State) (p k : Nat) : (s.at_ p k).msix = s.msix := rfl
@[simp] theorem State.at__lattol (s : State) (p k : Nat) : (s.at_ p k).lattol = s.lattol := rfl
@[simp] theorem State.at__plimit (s : State) (p k : Nat) : (s.at_ p k).plimit = s.plimit := rfl
@[simp] theorem State.at__mhz (s : State) (p k : Nat) : (s.at_ p k).mhz = s.mhz := rfl
@[simp] theorem State.at__alccap (s : State) (p k : Nat) : (s.at_ p k).alccap = s.alccap := rfl
@[simp] theorem State.at__power (s : State) (p k : Nat) : (s.at_ p k).power = s.power := rfl
@[simp] theorem State.at__wake (s : State) (p k : Nat) : (s.at_ p k).wake = s.wake := rfl
@[simp] theorem State.at__derated (s : State) (p k : Nat) : (s.at_ p k).derated = s.derated := rfl
@[simp] theorem State.at__phases (s : State) (p k : Nat) : (s.at_ p k).phases = s.phases := rfl
@[simp] theorem State.at__fences (s : State) (p k : Nat) : (s.at_ p k).fences = s.fences := rfl
@[simp] theorem State.at__startRec (s : State) (p k : Nat) : (s.at_ p k).startRec = s.startRec := rfl
@[simp] theorem State.at__startLeft (s : State) (p k : Nat) : (s.at_ p k).startLeft = s.startLeft := rfl
@[simp] theorem State.at__restarts (s : State) (p k : Nat) : (s.at_ p k).restarts = s.restarts := rfl
@[simp] theorem State.at__recovery (s : State) (p k : Nat) : (s.at_ p k).recovery = s.recovery := rfl
@[simp] theorem State.at__starting (s : State) (p k : Nat) : (s.at_ p k).starting = s.starting := rfl
@[simp] theorem State.at__fw (s : State) (p k : Nat) : (s.at_ p k).fw = s.fw := rfl
@[simp] theorem State.at__attest (s : State) (p k : Nat) : (s.at_ p k).attest = s.attest := rfl
@[simp] theorem State.at__ceSram (s : State) (p k : Nat) : (s.at_ p k).ceSram = s.ceSram := rfl
@[simp] theorem State.at__ceHbm (s : State) (p k : Nat) : (s.at_ p k).ceHbm = s.ceHbm := rfl
@[simp] theorem State.at__ras (s : State) (p k : Nat) : (s.at_ p k).ras = s.ras := rfl
@[simp] theorem State.at__rasRead (s : State) (p k : Nat) : (s.at_ p k).rasRead = s.rasRead := rfl
@[simp] theorem State.at__rasStalled (s : State) (p k : Nat) : (s.at_ p k).rasStalled = s.rasStalled := rfl
@[simp] theorem State.at__rasProd (s : State) (p k : Nat) : (s.at_ p k).rasProd = s.rasProd := rfl
@[simp] theorem State.at__rasCons (s : State) (p k : Nat) : (s.at_ p k).rasCons = s.rasCons := rfl
@[simp] theorem State.at__now (s : State) (p k : Nat) : (s.at_ p k).now = s.now := rfl
@[simp] theorem State.at__attr (s : State) (p k : Nat) : (s.at_ p k).attr = s.attr := rfl
@[simp] theorem State.at__cut (s : State) (p k : Nat) : (s.at_ p k).cut = s.cut := rfl
@[simp] theorem State.at__agenda (s : State) (p k : Nat) : (s.at_ p k).agenda = s.agenda := rfl
@[simp] theorem State.at__tick (s : State) (p k : Nat) : (s.at_ p k).tick = s.tick := rfl

@[simp] theorem Core.setStrand_capMask (c : Core) (k : Nat) (st : Strand) : (c.setStrand k st).capMask = c.capMask := rfl
@[simp] theorem Core.setStrand_spadUsable (c : Core) (k : Nat) (st : Strand) : (c.setStrand k st).spadUsable = c.spadUsable := rfl
@[simp] theorem Core.setStrand_usable (c : Core) (k : Nat) (st : Strand) : (c.setStrand k st).usable = c.usable := rfl
@[simp] theorem Core.setStrand_prick (c : Core) (k : Nat) (st : Strand) : (c.setStrand k st).prick = c.prick := rfl
@[simp] theorem Core.setStrand_gated (c : Core) (k : Nat) (st : Strand) : (c.setStrand k st).gated = c.gated := rfl
@[simp] theorem Core.setStrand_withheld (c : Core) (k : Nat) (st : Strand) : (c.setStrand k st).withheld = c.withheld := rfl
@[simp] theorem Core.setStrand_margin (c : Core) (k : Nat) (st : Strand) : (c.setStrand k st).margin = c.margin := rfl
@[simp] theorem Core.setStrand_place (c : Core) (k : Nat) (st : Strand) : (c.setStrand k st).place = c.place := rfl
@[simp] theorem Core.setStrand_hart (c : Core) (k : Nat) (st : Strand) : (c.setStrand k st).hart = c.hart := rfl
@[simp] theorem Core.setStrand_spad (c : Core) (k : Nat) (st : Strand) : (c.setStrand k st).spad = c.spad := rfl
@[simp] theorem Core.setStrand_sdm (c : Core) (k : Nat) (st : Strand) : (c.setStrand k st).sdm = c.sdm := rfl
@[simp] theorem Core.setStrand_chans (c : Core) (k : Nat) (st : Strand) : (c.setStrand k st).chans = c.chans := rfl
@[simp] theorem Core.setStrand_tiles (c : Core) (k : Nat) (st : Strand) : (c.setStrand k st).tiles = c.tiles := rfl
@[simp] theorem Core.setStrand_fmts (c : Core) (k : Nat) (st : Strand) : (c.setStrand k st).fmts = c.fmts := rfl
@[simp] theorem Core.setStrand_farms (c : Core) (k : Nat) (st : Strand) : (c.setStrand k st).farms = c.farms := rfl
@[simp] theorem Core.setStrand_farmEnd (c : Core) (k : Nat) (st : Strand) : (c.setStrand k st).farmEnd = c.farmEnd := rfl
@[simp] theorem Core.setStrand_kie (c : Core) (k : Nat) (st : Strand) : (c.setStrand k st).kie = c.kie := rfl
@[simp] theorem Core.setStrand_kdisc (c : Core) (k : Nat) (st : Strand) : (c.setStrand k st).kdisc = c.kdisc := rfl
@[simp] theorem Core.setStrand_wdLimit (c : Core) (k : Nat) (st : Strand) : (c.setStrand k st).wdLimit = c.wdLimit := rfl
@[simp] theorem Core.setStrand_mq (c : Core) (k : Nat) (st : Strand) : (c.setStrand k st).mq = c.mq := rfl
@[simp] theorem Core.setStrand_copies (c : Core) (k : Nat) (st : Strand) : (c.setStrand k st).copies = c.copies := rfl
@[simp] theorem Core.setStrand_tlb (c : Core) (k : Nat) (st : Strand) : (c.setStrand k st).tlb = c.tlb := rfl
@[simp] theorem Core.setStrand_epoch (c : Core) (k : Nat) (st : Strand) : (c.setStrand k st).epoch = c.epoch := rfl
@[simp] theorem Core.setStrand_cyc (c : Core) (k : Nat) (st : Strand) : (c.setStrand k st).cyc = c.cyc := rfl
@[simp] theorem Core.setStrand_exit (c : Core) (k : Nat) (st : Strand) : (c.setStrand k st).exit = c.exit := rfl
@[simp] theorem Core.setStrand_finished (c : Core) (k : Nat) (st : Strand) : (c.setStrand k st).finished = c.finished := rfl
@[simp] theorem Core.setStrand_haltReq (c : Core) (k : Nat) (st : Strand) : (c.setStrand k st).haltReq = c.haltReq := rfl
@[simp] theorem Core.setStrand_halted (c : Core) (k : Nat) (st : Strand) : (c.setStrand k st).halted = c.halted := rfl
@[simp] theorem Core.setStrand_resuming (c : Core) (k : Nat) (st : Strand) : (c.setStrand k st).resuming = c.resuming := rfl
@[simp] theorem Core.setStrand_shoots (c : Core) (k : Nat) (st : Strand) : (c.setStrand k st).shoots = c.shoots := rfl

@[simp] theorem State.setPort_devMem (s : State) (p : Nat) (q : Port) : (s.setPort p q).devMem = s.devMem := rfl
@[simp] theorem State.setPort_hostMem (s : State) (p : Nat) (q : Port) : (s.setPort p q).hostMem = s.hostMem := rfl
@[simp] theorem State.setPort_remotes (s : State) (p : Nat) (q : Port) : (s.setPort p q).remotes = s.remotes := rfl
@[simp] theorem State.setPort_hostLines (s : State) (p : Nat) (q : Port) : (s.setPort p q).hostLines = s.hostLines := rfl
@[simp] theorem State.setPort_hostRead (s : State) (p : Nat) (q : Port) : (s.setPort p q).hostRead = s.hostRead := rfl
@[simp] theorem State.setPort_keys (s : State) (p : Nat) (q : Port) : (s.setPort p q).keys = s.keys := rfl
@[simp] theorem State.setPort_syncs (s : State) (p : Nat) (q : Port) : (s.setPort p q).syncs = s.syncs := rfl
@[simp] theorem State.setPort_resvs (s : State) (p : Nat) (q : Port) : (s.setPort p q).resvs = s.resvs := rfl
@[simp] theorem State.setPort_cores (s : State) (p : Nat) (q : Port) : (s.setPort p q).cores = s.cores := rfl
@[simp] theorem State.setPort_devid (s : State) (p : Nat) (q : Port) : (s.setPort p q).devid = s.devid := rfl
@[simp] theorem State.setPort_queues (s : State) (p : Nat) (q : Port) : (s.setPort p q).queues = s.queues := rfl
@[simp] theorem State.setPort_jobs (s : State) (p : Nat) (q : Port) : (s.setPort p q).jobs = s.jobs := rfl
@[simp] theorem State.setPort_lastJobId (s : State) (p : Nat) (q : Port) : (s.setPort p q).lastJobId = s.lastJobId := rfl
@[simp] theorem State.setPort_headJob (s : State) (p : Nat) (q : Port) : (s.setPort p q).headJob = s.headJob := rfl
@[simp] theorem State.setPort_headSince (s : State) (p : Nat) (q : Port) : (s.setPort p q).headSince = s.headSince := rfl
@[simp] theorem State.setPort_headBlocks (s : State) (p : Nat) (q : Port) : (s.setPort p q).headBlocks = s.headBlocks := rfl
@[simp] theorem State.setPort_pkgs (s : State) (p : Nat) (q : Port) : (s.setPort p q).pkgs = s.pkgs := rfl
@[simp] theorem State.setPort_nextHandle (s : State) (p : Nat) (q : Port) : (s.setPort p q).nextHandle = s.nextHandle := rfl
@[simp] theorem State.setPort_mbox (s : State) (p : Nat) (q : Port) : (s.setPort p q).mbox = s.mbox := rfl
@[simp] theorem State.setPort_merger (s : State) (p : Nat) (q : Port) : (s.setPort p q).merger = s.merger := rfl
@[simp] theorem State.setPort_undel (s : State) (p : Nat) (q : Port) : (s.setPort p q).undel = s.undel := rfl
@[simp] theorem State.setPort_imports (s : State) (p : Nat) (q : Port) : (s.setPort p q).imports = s.imports := rfl
@[simp] theorem State.setPort_heldPkts (s : State) (p : Nat) (q : Port) : (s.setPort p q).heldPkts = s.heldPkts := rfl
@[simp] theorem State.setPort_nmrQ (s : State) (p : Nat) (q : Port) : (s.setPort p q).nmrQ = s.nmrQ := rfl
@[simp] theorem State.setPort_remoteQ (s : State) (p : Nat) (q : Port) : (s.setPort p q).remoteQ = s.remoteQ := rfl
@[simp] theorem State.setPort_postedQ (s : State) (p : Nat) (q : Port) : (s.setPort p q).postedQ = s.postedQ := rfl
@[simp] theorem State.setPort_flights (s : State) (p : Nat) (q : Port) : (s.setPort p q).flights = s.flights := rfl
@[simp] theorem State.setPort_askId (s : State) (p : Nat) (q : Port) : (s.setPort p q).askId = s.askId := rfl
@[simp] theorem State.setPort_routes (s : State) (p : Nat) (q : Port) : (s.setPort p q).routes = s.routes := rfl
@[simp] theorem State.setPort_msix (s : State) (p : Nat) (q : Port) : (s.setPort p q).msix = s.msix := rfl
@[simp] theorem State.setPort_lattol (s : State) (p : Nat) (q : Port) : (s.setPort p q).lattol = s.lattol := rfl
@[simp] theorem State.setPort_plimit (s : State) (p : Nat) (q : Port) : (s.setPort p q).plimit = s.plimit := rfl
@[simp] theorem State.setPort_mhz (s : State) (p : Nat) (q : Port) : (s.setPort p q).mhz = s.mhz := rfl
@[simp] theorem State.setPort_alccap (s : State) (p : Nat) (q : Port) : (s.setPort p q).alccap = s.alccap := rfl
@[simp] theorem State.setPort_power (s : State) (p : Nat) (q : Port) : (s.setPort p q).power = s.power := rfl
@[simp] theorem State.setPort_wake (s : State) (p : Nat) (q : Port) : (s.setPort p q).wake = s.wake := rfl
@[simp] theorem State.setPort_derated (s : State) (p : Nat) (q : Port) : (s.setPort p q).derated = s.derated := rfl
@[simp] theorem State.setPort_phases (s : State) (p : Nat) (q : Port) : (s.setPort p q).phases = s.phases := rfl
@[simp] theorem State.setPort_fences (s : State) (p : Nat) (q : Port) : (s.setPort p q).fences = s.fences := rfl
@[simp] theorem State.setPort_startRec (s : State) (p : Nat) (q : Port) : (s.setPort p q).startRec = s.startRec := rfl
@[simp] theorem State.setPort_startLeft (s : State) (p : Nat) (q : Port) : (s.setPort p q).startLeft = s.startLeft := rfl
@[simp] theorem State.setPort_restarts (s : State) (p : Nat) (q : Port) : (s.setPort p q).restarts = s.restarts := rfl
@[simp] theorem State.setPort_recovery (s : State) (p : Nat) (q : Port) : (s.setPort p q).recovery = s.recovery := rfl
@[simp] theorem State.setPort_starting (s : State) (p : Nat) (q : Port) : (s.setPort p q).starting = s.starting := rfl
@[simp] theorem State.setPort_fw (s : State) (p : Nat) (q : Port) : (s.setPort p q).fw = s.fw := rfl
@[simp] theorem State.setPort_attest (s : State) (p : Nat) (q : Port) : (s.setPort p q).attest = s.attest := rfl
@[simp] theorem State.setPort_ceSram (s : State) (p : Nat) (q : Port) : (s.setPort p q).ceSram = s.ceSram := rfl
@[simp] theorem State.setPort_ceHbm (s : State) (p : Nat) (q : Port) : (s.setPort p q).ceHbm = s.ceHbm := rfl
@[simp] theorem State.setPort_ras (s : State) (p : Nat) (q : Port) : (s.setPort p q).ras = s.ras := rfl
@[simp] theorem State.setPort_rasRead (s : State) (p : Nat) (q : Port) : (s.setPort p q).rasRead = s.rasRead := rfl
@[simp] theorem State.setPort_rasStalled (s : State) (p : Nat) (q : Port) : (s.setPort p q).rasStalled = s.rasStalled := rfl
@[simp] theorem State.setPort_rasProd (s : State) (p : Nat) (q : Port) : (s.setPort p q).rasProd = s.rasProd := rfl
@[simp] theorem State.setPort_rasCons (s : State) (p : Nat) (q : Port) : (s.setPort p q).rasCons = s.rasCons := rfl
@[simp] theorem State.setPort_now (s : State) (p : Nat) (q : Port) : (s.setPort p q).now = s.now := rfl
@[simp] theorem State.setPort_curCore (s : State) (p : Nat) (q : Port) : (s.setPort p q).curCore = s.curCore := rfl
@[simp] theorem State.setPort_curStrand (s : State) (p : Nat) (q : Port) : (s.setPort p q).curStrand = s.curStrand := rfl
@[simp] theorem State.setPort_attr (s : State) (p : Nat) (q : Port) : (s.setPort p q).attr = s.attr := rfl
@[simp] theorem State.setPort_cut (s : State) (p : Nat) (q : Port) : (s.setPort p q).cut = s.cut := rfl
@[simp] theorem State.setPort_agenda (s : State) (p : Nat) (q : Port) : (s.setPort p q).agenda = s.agenda := rfl
@[simp] theorem State.setPort_tick (s : State) (p : Nat) (q : Port) : (s.setPort p q).tick = s.tick := rfl

@[simp] theorem Core.setTile_capMask (c : Core) (t : Nat) (v : Tile) : (c.setTile t v).capMask = c.capMask := rfl
@[simp] theorem Core.setTile_spadUsable (c : Core) (t : Nat) (v : Tile) : (c.setTile t v).spadUsable = c.spadUsable := rfl
@[simp] theorem Core.setTile_usable (c : Core) (t : Nat) (v : Tile) : (c.setTile t v).usable = c.usable := rfl
@[simp] theorem Core.setTile_prick (c : Core) (t : Nat) (v : Tile) : (c.setTile t v).prick = c.prick := rfl
@[simp] theorem Core.setTile_gated (c : Core) (t : Nat) (v : Tile) : (c.setTile t v).gated = c.gated := rfl
@[simp] theorem Core.setTile_withheld (c : Core) (t : Nat) (v : Tile) : (c.setTile t v).withheld = c.withheld := rfl
@[simp] theorem Core.setTile_margin (c : Core) (t : Nat) (v : Tile) : (c.setTile t v).margin = c.margin := rfl
@[simp] theorem Core.setTile_place (c : Core) (t : Nat) (v : Tile) : (c.setTile t v).place = c.place := rfl
@[simp] theorem Core.setTile_hart (c : Core) (t : Nat) (v : Tile) : (c.setTile t v).hart = c.hart := rfl
@[simp] theorem Core.setTile_strands (c : Core) (t : Nat) (v : Tile) : (c.setTile t v).strands = c.strands := rfl
@[simp] theorem Core.setTile_spad (c : Core) (t : Nat) (v : Tile) : (c.setTile t v).spad = c.spad := rfl
@[simp] theorem Core.setTile_sdm (c : Core) (t : Nat) (v : Tile) : (c.setTile t v).sdm = c.sdm := rfl
@[simp] theorem Core.setTile_chans (c : Core) (t : Nat) (v : Tile) : (c.setTile t v).chans = c.chans := rfl
@[simp] theorem Core.setTile_fmts (c : Core) (t : Nat) (v : Tile) : (c.setTile t v).fmts = c.fmts := rfl
@[simp] theorem Core.setTile_farms (c : Core) (t : Nat) (v : Tile) : (c.setTile t v).farms = c.farms := rfl
@[simp] theorem Core.setTile_farmEnd (c : Core) (t : Nat) (v : Tile) : (c.setTile t v).farmEnd = c.farmEnd := rfl
@[simp] theorem Core.setTile_kie (c : Core) (t : Nat) (v : Tile) : (c.setTile t v).kie = c.kie := rfl
@[simp] theorem Core.setTile_kpre (c : Core) (t : Nat) (v : Tile) : (c.setTile t v).kpre = c.kpre := rfl
@[simp] theorem Core.setTile_kdisc (c : Core) (t : Nat) (v : Tile) : (c.setTile t v).kdisc = c.kdisc := rfl
@[simp] theorem Core.setTile_wdLimit (c : Core) (t : Nat) (v : Tile) : (c.setTile t v).wdLimit = c.wdLimit := rfl
@[simp] theorem Core.setTile_mq (c : Core) (t : Nat) (v : Tile) : (c.setTile t v).mq = c.mq := rfl
@[simp] theorem Core.setTile_copies (c : Core) (t : Nat) (v : Tile) : (c.setTile t v).copies = c.copies := rfl
@[simp] theorem Core.setTile_tlb (c : Core) (t : Nat) (v : Tile) : (c.setTile t v).tlb = c.tlb := rfl
@[simp] theorem Core.setTile_epoch (c : Core) (t : Nat) (v : Tile) : (c.setTile t v).epoch = c.epoch := rfl
@[simp] theorem Core.setTile_cyc (c : Core) (t : Nat) (v : Tile) : (c.setTile t v).cyc = c.cyc := rfl
@[simp] theorem Core.setTile_exit (c : Core) (t : Nat) (v : Tile) : (c.setTile t v).exit = c.exit := rfl
@[simp] theorem Core.setTile_finished (c : Core) (t : Nat) (v : Tile) : (c.setTile t v).finished = c.finished := rfl
@[simp] theorem Core.setTile_haltReq (c : Core) (t : Nat) (v : Tile) : (c.setTile t v).haltReq = c.haltReq := rfl
@[simp] theorem Core.setTile_halted (c : Core) (t : Nat) (v : Tile) : (c.setTile t v).halted = c.halted := rfl
@[simp] theorem Core.setTile_resuming (c : Core) (t : Nat) (v : Tile) : (c.setTile t v).resuming = c.resuming := rfl
@[simp] theorem Core.setTile_shoots (c : Core) (t : Nat) (v : Tile) : (c.setTile t v).shoots = c.shoots := rfl

@[simp] theorem Core.setChan_capMask (c : Core) (n : Nat) (v : Option Channel) : (c.setChan n v).capMask = c.capMask := rfl
@[simp] theorem Core.setChan_spadUsable (c : Core) (n : Nat) (v : Option Channel) : (c.setChan n v).spadUsable = c.spadUsable := rfl
@[simp] theorem Core.setChan_usable (c : Core) (n : Nat) (v : Option Channel) : (c.setChan n v).usable = c.usable := rfl
@[simp] theorem Core.setChan_prick (c : Core) (n : Nat) (v : Option Channel) : (c.setChan n v).prick = c.prick := rfl
@[simp] theorem Core.setChan_gated (c : Core) (n : Nat) (v : Option Channel) : (c.setChan n v).gated = c.gated := rfl
@[simp] theorem Core.setChan_withheld (c : Core) (n : Nat) (v : Option Channel) : (c.setChan n v).withheld = c.withheld := rfl
@[simp] theorem Core.setChan_margin (c : Core) (n : Nat) (v : Option Channel) : (c.setChan n v).margin = c.margin := rfl
@[simp] theorem Core.setChan_place (c : Core) (n : Nat) (v : Option Channel) : (c.setChan n v).place = c.place := rfl
@[simp] theorem Core.setChan_hart (c : Core) (n : Nat) (v : Option Channel) : (c.setChan n v).hart = c.hart := rfl
@[simp] theorem Core.setChan_strands (c : Core) (n : Nat) (v : Option Channel) : (c.setChan n v).strands = c.strands := rfl
@[simp] theorem Core.setChan_spad (c : Core) (n : Nat) (v : Option Channel) : (c.setChan n v).spad = c.spad := rfl
@[simp] theorem Core.setChan_sdm (c : Core) (n : Nat) (v : Option Channel) : (c.setChan n v).sdm = c.sdm := rfl
@[simp] theorem Core.setChan_tiles (c : Core) (n : Nat) (v : Option Channel) : (c.setChan n v).tiles = c.tiles := rfl
@[simp] theorem Core.setChan_fmts (c : Core) (n : Nat) (v : Option Channel) : (c.setChan n v).fmts = c.fmts := rfl
@[simp] theorem Core.setChan_farms (c : Core) (n : Nat) (v : Option Channel) : (c.setChan n v).farms = c.farms := rfl
@[simp] theorem Core.setChan_farmEnd (c : Core) (n : Nat) (v : Option Channel) : (c.setChan n v).farmEnd = c.farmEnd := rfl
@[simp] theorem Core.setChan_kie (c : Core) (n : Nat) (v : Option Channel) : (c.setChan n v).kie = c.kie := rfl
@[simp] theorem Core.setChan_kpre (c : Core) (n : Nat) (v : Option Channel) : (c.setChan n v).kpre = c.kpre := rfl
@[simp] theorem Core.setChan_kdisc (c : Core) (n : Nat) (v : Option Channel) : (c.setChan n v).kdisc = c.kdisc := rfl
@[simp] theorem Core.setChan_wdLimit (c : Core) (n : Nat) (v : Option Channel) : (c.setChan n v).wdLimit = c.wdLimit := rfl
@[simp] theorem Core.setChan_mq (c : Core) (n : Nat) (v : Option Channel) : (c.setChan n v).mq = c.mq := rfl
@[simp] theorem Core.setChan_copies (c : Core) (n : Nat) (v : Option Channel) : (c.setChan n v).copies = c.copies := rfl
@[simp] theorem Core.setChan_tlb (c : Core) (n : Nat) (v : Option Channel) : (c.setChan n v).tlb = c.tlb := rfl
@[simp] theorem Core.setChan_epoch (c : Core) (n : Nat) (v : Option Channel) : (c.setChan n v).epoch = c.epoch := rfl
@[simp] theorem Core.setChan_cyc (c : Core) (n : Nat) (v : Option Channel) : (c.setChan n v).cyc = c.cyc := rfl
@[simp] theorem Core.setChan_exit (c : Core) (n : Nat) (v : Option Channel) : (c.setChan n v).exit = c.exit := rfl
@[simp] theorem Core.setChan_finished (c : Core) (n : Nat) (v : Option Channel) : (c.setChan n v).finished = c.finished := rfl
@[simp] theorem Core.setChan_haltReq (c : Core) (n : Nat) (v : Option Channel) : (c.setChan n v).haltReq = c.haltReq := rfl
@[simp] theorem Core.setChan_halted (c : Core) (n : Nat) (v : Option Channel) : (c.setChan n v).halted = c.halted := rfl
@[simp] theorem Core.setChan_resuming (c : Core) (n : Nat) (v : Option Channel) : (c.setChan n v).resuming = c.resuming := rfl
@[simp] theorem Core.setChan_shoots (c : Core) (n : Nat) (v : Option Channel) : (c.setChan n v).shoots = c.shoots := rfl

@[simp] theorem Core.setFarm_capMask (c : Core) (f : Nat) (v : Option Farm) : (c.setFarm f v).capMask = c.capMask := rfl
@[simp] theorem Core.setFarm_spadUsable (c : Core) (f : Nat) (v : Option Farm) : (c.setFarm f v).spadUsable = c.spadUsable := rfl
@[simp] theorem Core.setFarm_usable (c : Core) (f : Nat) (v : Option Farm) : (c.setFarm f v).usable = c.usable := rfl
@[simp] theorem Core.setFarm_prick (c : Core) (f : Nat) (v : Option Farm) : (c.setFarm f v).prick = c.prick := rfl
@[simp] theorem Core.setFarm_gated (c : Core) (f : Nat) (v : Option Farm) : (c.setFarm f v).gated = c.gated := rfl
@[simp] theorem Core.setFarm_withheld (c : Core) (f : Nat) (v : Option Farm) : (c.setFarm f v).withheld = c.withheld := rfl
@[simp] theorem Core.setFarm_margin (c : Core) (f : Nat) (v : Option Farm) : (c.setFarm f v).margin = c.margin := rfl
@[simp] theorem Core.setFarm_place (c : Core) (f : Nat) (v : Option Farm) : (c.setFarm f v).place = c.place := rfl
@[simp] theorem Core.setFarm_hart (c : Core) (f : Nat) (v : Option Farm) : (c.setFarm f v).hart = c.hart := rfl
@[simp] theorem Core.setFarm_strands (c : Core) (f : Nat) (v : Option Farm) : (c.setFarm f v).strands = c.strands := rfl
@[simp] theorem Core.setFarm_spad (c : Core) (f : Nat) (v : Option Farm) : (c.setFarm f v).spad = c.spad := rfl
@[simp] theorem Core.setFarm_sdm (c : Core) (f : Nat) (v : Option Farm) : (c.setFarm f v).sdm = c.sdm := rfl
@[simp] theorem Core.setFarm_chans (c : Core) (f : Nat) (v : Option Farm) : (c.setFarm f v).chans = c.chans := rfl
@[simp] theorem Core.setFarm_tiles (c : Core) (f : Nat) (v : Option Farm) : (c.setFarm f v).tiles = c.tiles := rfl
@[simp] theorem Core.setFarm_fmts (c : Core) (f : Nat) (v : Option Farm) : (c.setFarm f v).fmts = c.fmts := rfl
@[simp] theorem Core.setFarm_farmEnd (c : Core) (f : Nat) (v : Option Farm) : (c.setFarm f v).farmEnd = c.farmEnd := rfl
@[simp] theorem Core.setFarm_kie (c : Core) (f : Nat) (v : Option Farm) : (c.setFarm f v).kie = c.kie := rfl
@[simp] theorem Core.setFarm_kpre (c : Core) (f : Nat) (v : Option Farm) : (c.setFarm f v).kpre = c.kpre := rfl
@[simp] theorem Core.setFarm_kdisc (c : Core) (f : Nat) (v : Option Farm) : (c.setFarm f v).kdisc = c.kdisc := rfl
@[simp] theorem Core.setFarm_wdLimit (c : Core) (f : Nat) (v : Option Farm) : (c.setFarm f v).wdLimit = c.wdLimit := rfl
@[simp] theorem Core.setFarm_mq (c : Core) (f : Nat) (v : Option Farm) : (c.setFarm f v).mq = c.mq := rfl
@[simp] theorem Core.setFarm_copies (c : Core) (f : Nat) (v : Option Farm) : (c.setFarm f v).copies = c.copies := rfl
@[simp] theorem Core.setFarm_tlb (c : Core) (f : Nat) (v : Option Farm) : (c.setFarm f v).tlb = c.tlb := rfl
@[simp] theorem Core.setFarm_epoch (c : Core) (f : Nat) (v : Option Farm) : (c.setFarm f v).epoch = c.epoch := rfl
@[simp] theorem Core.setFarm_cyc (c : Core) (f : Nat) (v : Option Farm) : (c.setFarm f v).cyc = c.cyc := rfl
@[simp] theorem Core.setFarm_exit (c : Core) (f : Nat) (v : Option Farm) : (c.setFarm f v).exit = c.exit := rfl
@[simp] theorem Core.setFarm_finished (c : Core) (f : Nat) (v : Option Farm) : (c.setFarm f v).finished = c.finished := rfl
@[simp] theorem Core.setFarm_haltReq (c : Core) (f : Nat) (v : Option Farm) : (c.setFarm f v).haltReq = c.haltReq := rfl
@[simp] theorem Core.setFarm_halted (c : Core) (f : Nat) (v : Option Farm) : (c.setFarm f v).halted = c.halted := rfl
@[simp] theorem Core.setFarm_resuming (c : Core) (f : Nat) (v : Option Farm) : (c.setFarm f v).resuming = c.resuming := rfl
@[simp] theorem Core.setFarm_shoots (c : Core) (f : Nat) (v : Option Farm) : (c.setFarm f v).shoots = c.shoots := rfl

@[simp] theorem Strand.setX_st (st : Strand) (r : Reg) (w : Word) : (st.setX r w).st = st.st := by unfold Strand.setX; split <;> rfl
@[simp] theorem Strand.setX_fromSt (st : Strand) (r : Reg) (w : Word) : (st.setX r w).fromSt = st.fromSt := by unfold Strand.setX; split <;> rfl
@[simp] theorem Strand.setX_heldSt (st : Strand) (r : Reg) (w : Word) : (st.setX r w).heldSt = st.heldSt := by unfold Strand.setX; split <;> rfl
@[simp] theorem Strand.setX_pc (st : Strand) (r : Reg) (w : Word) : (st.setX r w).pc = st.pc := by unfold Strand.setX; split <;> rfl
@[simp] theorem Strand.setX_pcWritten (st : Strand) (r : Reg) (w : Word) : (st.setX r w).pcWritten = st.pcWritten := by unfold Strand.setX; split <;> rfl
@[simp] theorem Strand.setX_blk (st : Strand) (r : Reg) (w : Word) : (st.setX r w).blk = st.blk := by unfold Strand.setX; split <;> rfl
@[simp] theorem Strand.setX_buf (st : Strand) (r : Reg) (w : Word) : (st.setX r w).buf = st.buf := by unfold Strand.setX; split <;> rfl
@[simp] theorem Strand.setX_farm (st : Strand) (r : Reg) (w : Word) : (st.setX r w).farm = st.farm := by unfold Strand.setX; split <;> rfl
@[simp] theorem Strand.setX_v (st : Strand) (r : Reg) (w : Word) : (st.setX r w).v = st.v := by unfold Strand.setX; split <;> rfl
@[simp] theorem Strand.setX_m (st : Strand) (r : Reg) (w : Word) : (st.setX r w).m = st.m := by unfold Strand.setX; split <;> rfl
@[simp] theorem Strand.setX_tags (st : Strand) (r : Reg) (w : Word) : (st.setX r w).tags = st.tags := by unfold Strand.setX; split <;> rfl
@[simp] theorem Strand.setX_sbound (st : Strand) (r : Reg) (w : Word) : (st.setX r w).sbound = st.sbound := by unfold Strand.setX; split <;> rfl
@[simp] theorem Strand.setX_vgrp (st : Strand) (r : Reg) (w : Word) : (st.setX r w).vgrp = st.vgrp := by unfold Strand.setX; split <;> rfl
@[simp] theorem Strand.setX_vstart (st : Strand) (r : Reg) (w : Word) : (st.setX r w).vstart = st.vstart := by unfold Strand.setX; split <;> rfl
@[simp] theorem Strand.setX_vffi (st : Strand) (r : Reg) (w : Word) : (st.setX r w).vffi = st.vffi := by unfold Strand.setX; split <;> rfl
@[simp] theorem Strand.setX_vfill (st : Strand) (r : Reg) (w : Word) : (st.setX r w).vfill = st.vfill := by unfold Strand.setX; split <;> rfl
@[simp] theorem Strand.setX_vdValid (st : Strand) (r : Reg) (w : Word) : (st.setX r w).vdValid = st.vdValid := by unfold Strand.setX; split <;> rfl
@[simp] theorem Strand.setX_vdone (st : Strand) (r : Reg) (w : Word) : (st.setX r w).vdone = st.vdone := by unfold Strand.setX; split <;> rfl
@[simp] theorem Strand.setX_fstat (st : Strand) (r : Reg) (w : Word) : (st.setX r w).fstat = st.fstat := by unfold Strand.setX; split <;> rfl
@[simp] theorem Strand.setX_mext (st : Strand) (r : Reg) (w : Word) : (st.setX r w).mext = st.mext := by unfold Strand.setX; split <;> rfl
@[simp] theorem Strand.setX_mfmt (st : Strand) (r : Reg) (w : Word) : (st.setX r w).mfmt = st.mfmt := by unfold Strand.setX; split <;> rfl
@[simp] theorem Strand.setX_cwidth (st : Strand) (r : Reg) (w : Word) : (st.setX r w).cwidth = st.cwidth := by unfold Strand.setX; split <;> rfl
@[simp] theorem Strand.setX_cspec (st : Strand) (r : Reg) (w : Word) : (st.setX r w).cspec = st.cspec := by unfold Strand.setX; split <;> rfl
@[simp] theorem Strand.setX_cgeom (st : Strand) (r : Reg) (w : Word) : (st.setX r w).cgeom = st.cgeom := by unfold Strand.setX; split <;> rfl
@[simp] theorem Strand.setX_dseed (st : Strand) (r : Reg) (w : Word) : (st.setX r w).dseed = st.dseed := by unfold Strand.setX; split <;> rfl
@[simp] theorem Strand.setX_dmode (st : Strand) (r : Reg) (w : Word) : (st.setX r w).dmode = st.dmode := by unfold Strand.setX; split <;> rfl
@[simp] theorem Strand.setX_dtab (st : Strand) (r : Reg) (w : Word) : (st.setX r w).dtab = st.dtab := by unfold Strand.setX; split <;> rfl
@[simp] theorem Strand.setX_dpos (st : Strand) (r : Reg) (w : Word) : (st.setX r w).dpos = st.dpos := by unfold Strand.setX; split <;> rfl
@[simp] theorem Strand.setX_detf (st : Strand) (r : Reg) (w : Word) : (st.setX r w).detf = st.detf := by unfold Strand.setX; split <;> rfl
@[simp] theorem Strand.setX_vabs (st : Strand) (r : Reg) (w : Word) : (st.setX r w).vabs = st.vabs := by unfold Strand.setX; split <;> rfl
@[simp] theorem Strand.setX_vimg (st : Strand) (r : Reg) (w : Word) : (st.setX r w).vimg = st.vimg := by unfold Strand.setX; split <;> rfl
@[simp] theorem Strand.setX_vrq (st : Strand) (r : Reg) (w : Word) : (st.setX r w).vrq = st.vrq := by unfold Strand.setX; split <;> rfl
@[simp] theorem Strand.setX_tpc (st : Strand) (r : Reg) (w : Word) : (st.setX r w).tpc = st.tpc := by unfold Strand.setX; split <;> rfl
@[simp] theorem Strand.setX_dirty (st : Strand) (r : Reg) (w : Word) : (st.setX r w).dirty = st.dirty := by unfold Strand.setX; split <;> rfl
@[simp] theorem Strand.setX_rec0 (st : Strand) (r : Reg) (w : Word) : (st.setX r w).rec0 = st.rec0 := by unfold Strand.setX; split <;> rfl
@[simp] theorem Strand.setX_rec1 (st : Strand) (r : Reg) (w : Word) : (st.setX r w).rec1 = st.rec1 := by unfold Strand.setX; split <;> rfl
@[simp] theorem Strand.setX_rec2 (st : Strand) (r : Reg) (w : Word) : (st.setX r w).rec2 = st.rec2 := by unfold Strand.setX; split <;> rfl
@[simp] theorem Strand.setX_rec3 (st : Strand) (r : Reg) (w : Word) : (st.setX r w).rec3 = st.rec3 := by unfold Strand.setX; split <;> rfl
@[simp] theorem Strand.setX_rec4 (st : Strand) (r : Reg) (w : Word) : (st.setX r w).rec4 = st.rec4 := by unfold Strand.setX; split <;> rfl
@[simp] theorem Strand.setX_sig (st : Strand) (r : Reg) (w : Word) : (st.setX r w).sig = st.sig := by unfold Strand.setX; split <;> rfl
@[simp] theorem Strand.setX_sigPend (st : Strand) (r : Reg) (w : Word) : (st.setX r w).sigPend = st.sigPend := by unfold Strand.setX; split <;> rfl
@[simp] theorem Strand.setX_wd (st : Strand) (r : Reg) (w : Word) : (st.setX r w).wd = st.wd := by unfold Strand.setX; split <;> rfl
@[simp] theorem Strand.setX_waiting (st : Strand) (r : Reg) (w : Word) : (st.setX r w).waiting = st.waiting := by unfold Strand.setX; split <;> rfl
@[simp] theorem Strand.setX_interval (st : Strand) (r : Reg) (w : Word) : (st.setX r w).interval = st.interval := by unfold Strand.setX; split <;> rfl
@[simp] theorem Strand.setX_storeQ (st : Strand) (r : Reg) (w : Word) : (st.setX r w).storeQ = st.storeQ := by unfold Strand.setX; split <;> rfl
@[simp] theorem Strand.setX_fep (st : Strand) (r : Reg) (w : Word) : (st.setX r w).fep = st.fep := by unfold Strand.setX; split <;> rfl
@[simp] theorem Strand.setX_fepDie (st : Strand) (r : Reg) (w : Word) : (st.setX r w).fepDie = st.fepDie := by unfold Strand.setX; split <;> rfl
@[simp] theorem Strand.setX_seen (st : Strand) (r : Reg) (w : Word) : (st.setX r w).seen = st.seen := by unfold Strand.setX; split <;> rfl
@[simp] theorem Strand.setX_restore (st : Strand) (r : Reg) (w : Word) : (st.setX r w).restore = st.restore := by unfold Strand.setX; split <;> rfl
@[simp] theorem Strand.setX_abandoned (st : Strand) (r : Reg) (w : Word) : (st.setX r w).abandoned = st.abandoned := by unfold Strand.setX; split <;> rfl
@[simp] theorem Strand.setX_partWay (st : Strand) (r : Reg) (w : Word) : (st.setX r w).partWay = st.partWay := by unfold Strand.setX; split <;> rfl

@[simp] theorem Strand.setV_st (st : Strand) (n : Nat) (w : VReg) : (st.setV n w).st = st.st := rfl
@[simp] theorem Strand.setV_fromSt (st : Strand) (n : Nat) (w : VReg) : (st.setV n w).fromSt = st.fromSt := rfl
@[simp] theorem Strand.setV_heldSt (st : Strand) (n : Nat) (w : VReg) : (st.setV n w).heldSt = st.heldSt := rfl
@[simp] theorem Strand.setV_x (st : Strand) (n : Nat) (w : VReg) : (st.setV n w).x = st.x := rfl
@[simp] theorem Strand.setV_pc (st : Strand) (n : Nat) (w : VReg) : (st.setV n w).pc = st.pc := rfl
@[simp] theorem Strand.setV_pcWritten (st : Strand) (n : Nat) (w : VReg) : (st.setV n w).pcWritten = st.pcWritten := rfl
@[simp] theorem Strand.setV_blk (st : Strand) (n : Nat) (w : VReg) : (st.setV n w).blk = st.blk := rfl
@[simp] theorem Strand.setV_buf (st : Strand) (n : Nat) (w : VReg) : (st.setV n w).buf = st.buf := rfl
@[simp] theorem Strand.setV_farm (st : Strand) (n : Nat) (w : VReg) : (st.setV n w).farm = st.farm := rfl
@[simp] theorem Strand.setV_m (st : Strand) (n : Nat) (w : VReg) : (st.setV n w).m = st.m := rfl
@[simp] theorem Strand.setV_tags (st : Strand) (n : Nat) (w : VReg) : (st.setV n w).tags = st.tags := rfl
@[simp] theorem Strand.setV_sbound (st : Strand) (n : Nat) (w : VReg) : (st.setV n w).sbound = st.sbound := rfl
@[simp] theorem Strand.setV_vgrp (st : Strand) (n : Nat) (w : VReg) : (st.setV n w).vgrp = st.vgrp := rfl
@[simp] theorem Strand.setV_vstart (st : Strand) (n : Nat) (w : VReg) : (st.setV n w).vstart = st.vstart := rfl
@[simp] theorem Strand.setV_vffi (st : Strand) (n : Nat) (w : VReg) : (st.setV n w).vffi = st.vffi := rfl
@[simp] theorem Strand.setV_vfill (st : Strand) (n : Nat) (w : VReg) : (st.setV n w).vfill = st.vfill := rfl
@[simp] theorem Strand.setV_vdValid (st : Strand) (n : Nat) (w : VReg) : (st.setV n w).vdValid = st.vdValid := rfl
@[simp] theorem Strand.setV_vdone (st : Strand) (n : Nat) (w : VReg) : (st.setV n w).vdone = st.vdone := rfl
@[simp] theorem Strand.setV_fstat (st : Strand) (n : Nat) (w : VReg) : (st.setV n w).fstat = st.fstat := rfl
@[simp] theorem Strand.setV_mext (st : Strand) (n : Nat) (w : VReg) : (st.setV n w).mext = st.mext := rfl
@[simp] theorem Strand.setV_mfmt (st : Strand) (n : Nat) (w : VReg) : (st.setV n w).mfmt = st.mfmt := rfl
@[simp] theorem Strand.setV_cwidth (st : Strand) (n : Nat) (w : VReg) : (st.setV n w).cwidth = st.cwidth := rfl
@[simp] theorem Strand.setV_cspec (st : Strand) (n : Nat) (w : VReg) : (st.setV n w).cspec = st.cspec := rfl
@[simp] theorem Strand.setV_cgeom (st : Strand) (n : Nat) (w : VReg) : (st.setV n w).cgeom = st.cgeom := rfl
@[simp] theorem Strand.setV_dseed (st : Strand) (n : Nat) (w : VReg) : (st.setV n w).dseed = st.dseed := rfl
@[simp] theorem Strand.setV_dmode (st : Strand) (n : Nat) (w : VReg) : (st.setV n w).dmode = st.dmode := rfl
@[simp] theorem Strand.setV_dtab (st : Strand) (n : Nat) (w : VReg) : (st.setV n w).dtab = st.dtab := rfl
@[simp] theorem Strand.setV_dpos (st : Strand) (n : Nat) (w : VReg) : (st.setV n w).dpos = st.dpos := rfl
@[simp] theorem Strand.setV_detf (st : Strand) (n : Nat) (w : VReg) : (st.setV n w).detf = st.detf := rfl
@[simp] theorem Strand.setV_vabs (st : Strand) (n : Nat) (w : VReg) : (st.setV n w).vabs = st.vabs := rfl
@[simp] theorem Strand.setV_vimg (st : Strand) (n : Nat) (w : VReg) : (st.setV n w).vimg = st.vimg := rfl
@[simp] theorem Strand.setV_vrq (st : Strand) (n : Nat) (w : VReg) : (st.setV n w).vrq = st.vrq := rfl
@[simp] theorem Strand.setV_tpc (st : Strand) (n : Nat) (w : VReg) : (st.setV n w).tpc = st.tpc := rfl
@[simp] theorem Strand.setV_rec0 (st : Strand) (n : Nat) (w : VReg) : (st.setV n w).rec0 = st.rec0 := rfl
@[simp] theorem Strand.setV_rec1 (st : Strand) (n : Nat) (w : VReg) : (st.setV n w).rec1 = st.rec1 := rfl
@[simp] theorem Strand.setV_rec2 (st : Strand) (n : Nat) (w : VReg) : (st.setV n w).rec2 = st.rec2 := rfl
@[simp] theorem Strand.setV_rec3 (st : Strand) (n : Nat) (w : VReg) : (st.setV n w).rec3 = st.rec3 := rfl
@[simp] theorem Strand.setV_rec4 (st : Strand) (n : Nat) (w : VReg) : (st.setV n w).rec4 = st.rec4 := rfl
@[simp] theorem Strand.setV_sig (st : Strand) (n : Nat) (w : VReg) : (st.setV n w).sig = st.sig := rfl
@[simp] theorem Strand.setV_sigPend (st : Strand) (n : Nat) (w : VReg) : (st.setV n w).sigPend = st.sigPend := rfl
@[simp] theorem Strand.setV_wd (st : Strand) (n : Nat) (w : VReg) : (st.setV n w).wd = st.wd := rfl
@[simp] theorem Strand.setV_waiting (st : Strand) (n : Nat) (w : VReg) : (st.setV n w).waiting = st.waiting := rfl
@[simp] theorem Strand.setV_interval (st : Strand) (n : Nat) (w : VReg) : (st.setV n w).interval = st.interval := rfl
@[simp] theorem Strand.setV_storeQ (st : Strand) (n : Nat) (w : VReg) : (st.setV n w).storeQ = st.storeQ := rfl
@[simp] theorem Strand.setV_fep (st : Strand) (n : Nat) (w : VReg) : (st.setV n w).fep = st.fep := rfl
@[simp] theorem Strand.setV_fepDie (st : Strand) (n : Nat) (w : VReg) : (st.setV n w).fepDie = st.fepDie := rfl
@[simp] theorem Strand.setV_seen (st : Strand) (n : Nat) (w : VReg) : (st.setV n w).seen = st.seen := rfl
@[simp] theorem Strand.setV_restore (st : Strand) (n : Nat) (w : VReg) : (st.setV n w).restore = st.restore := rfl
@[simp] theorem Strand.setV_abandoned (st : Strand) (n : Nat) (w : VReg) : (st.setV n w).abandoned = st.abandoned := rfl
@[simp] theorem Strand.setV_partWay (st : Strand) (n : Nat) (w : VReg) : (st.setV n w).partWay = st.partWay := rfl

@[simp] theorem Strand.setM_st (st : Strand) (n : Nat) (w : MReg) : (st.setM n w).st = st.st := rfl
@[simp] theorem Strand.setM_fromSt (st : Strand) (n : Nat) (w : MReg) : (st.setM n w).fromSt = st.fromSt := rfl
@[simp] theorem Strand.setM_heldSt (st : Strand) (n : Nat) (w : MReg) : (st.setM n w).heldSt = st.heldSt := rfl
@[simp] theorem Strand.setM_x (st : Strand) (n : Nat) (w : MReg) : (st.setM n w).x = st.x := rfl
@[simp] theorem Strand.setM_pc (st : Strand) (n : Nat) (w : MReg) : (st.setM n w).pc = st.pc := rfl
@[simp] theorem Strand.setM_pcWritten (st : Strand) (n : Nat) (w : MReg) : (st.setM n w).pcWritten = st.pcWritten := rfl
@[simp] theorem Strand.setM_blk (st : Strand) (n : Nat) (w : MReg) : (st.setM n w).blk = st.blk := rfl
@[simp] theorem Strand.setM_buf (st : Strand) (n : Nat) (w : MReg) : (st.setM n w).buf = st.buf := rfl
@[simp] theorem Strand.setM_farm (st : Strand) (n : Nat) (w : MReg) : (st.setM n w).farm = st.farm := rfl
@[simp] theorem Strand.setM_v (st : Strand) (n : Nat) (w : MReg) : (st.setM n w).v = st.v := rfl
@[simp] theorem Strand.setM_tags (st : Strand) (n : Nat) (w : MReg) : (st.setM n w).tags = st.tags := rfl
@[simp] theorem Strand.setM_sbound (st : Strand) (n : Nat) (w : MReg) : (st.setM n w).sbound = st.sbound := rfl
@[simp] theorem Strand.setM_vgrp (st : Strand) (n : Nat) (w : MReg) : (st.setM n w).vgrp = st.vgrp := rfl
@[simp] theorem Strand.setM_vstart (st : Strand) (n : Nat) (w : MReg) : (st.setM n w).vstart = st.vstart := rfl
@[simp] theorem Strand.setM_vffi (st : Strand) (n : Nat) (w : MReg) : (st.setM n w).vffi = st.vffi := rfl
@[simp] theorem Strand.setM_vfill (st : Strand) (n : Nat) (w : MReg) : (st.setM n w).vfill = st.vfill := rfl
@[simp] theorem Strand.setM_vdValid (st : Strand) (n : Nat) (w : MReg) : (st.setM n w).vdValid = st.vdValid := rfl
@[simp] theorem Strand.setM_vdone (st : Strand) (n : Nat) (w : MReg) : (st.setM n w).vdone = st.vdone := rfl
@[simp] theorem Strand.setM_fstat (st : Strand) (n : Nat) (w : MReg) : (st.setM n w).fstat = st.fstat := rfl
@[simp] theorem Strand.setM_mext (st : Strand) (n : Nat) (w : MReg) : (st.setM n w).mext = st.mext := rfl
@[simp] theorem Strand.setM_mfmt (st : Strand) (n : Nat) (w : MReg) : (st.setM n w).mfmt = st.mfmt := rfl
@[simp] theorem Strand.setM_cwidth (st : Strand) (n : Nat) (w : MReg) : (st.setM n w).cwidth = st.cwidth := rfl
@[simp] theorem Strand.setM_cspec (st : Strand) (n : Nat) (w : MReg) : (st.setM n w).cspec = st.cspec := rfl
@[simp] theorem Strand.setM_cgeom (st : Strand) (n : Nat) (w : MReg) : (st.setM n w).cgeom = st.cgeom := rfl
@[simp] theorem Strand.setM_dseed (st : Strand) (n : Nat) (w : MReg) : (st.setM n w).dseed = st.dseed := rfl
@[simp] theorem Strand.setM_dmode (st : Strand) (n : Nat) (w : MReg) : (st.setM n w).dmode = st.dmode := rfl
@[simp] theorem Strand.setM_dtab (st : Strand) (n : Nat) (w : MReg) : (st.setM n w).dtab = st.dtab := rfl
@[simp] theorem Strand.setM_dpos (st : Strand) (n : Nat) (w : MReg) : (st.setM n w).dpos = st.dpos := rfl
@[simp] theorem Strand.setM_detf (st : Strand) (n : Nat) (w : MReg) : (st.setM n w).detf = st.detf := rfl
@[simp] theorem Strand.setM_vabs (st : Strand) (n : Nat) (w : MReg) : (st.setM n w).vabs = st.vabs := rfl
@[simp] theorem Strand.setM_vimg (st : Strand) (n : Nat) (w : MReg) : (st.setM n w).vimg = st.vimg := rfl
@[simp] theorem Strand.setM_vrq (st : Strand) (n : Nat) (w : MReg) : (st.setM n w).vrq = st.vrq := rfl
@[simp] theorem Strand.setM_tpc (st : Strand) (n : Nat) (w : MReg) : (st.setM n w).tpc = st.tpc := rfl
@[simp] theorem Strand.setM_rec0 (st : Strand) (n : Nat) (w : MReg) : (st.setM n w).rec0 = st.rec0 := rfl
@[simp] theorem Strand.setM_rec1 (st : Strand) (n : Nat) (w : MReg) : (st.setM n w).rec1 = st.rec1 := rfl
@[simp] theorem Strand.setM_rec2 (st : Strand) (n : Nat) (w : MReg) : (st.setM n w).rec2 = st.rec2 := rfl
@[simp] theorem Strand.setM_rec3 (st : Strand) (n : Nat) (w : MReg) : (st.setM n w).rec3 = st.rec3 := rfl
@[simp] theorem Strand.setM_rec4 (st : Strand) (n : Nat) (w : MReg) : (st.setM n w).rec4 = st.rec4 := rfl
@[simp] theorem Strand.setM_sig (st : Strand) (n : Nat) (w : MReg) : (st.setM n w).sig = st.sig := rfl
@[simp] theorem Strand.setM_sigPend (st : Strand) (n : Nat) (w : MReg) : (st.setM n w).sigPend = st.sigPend := rfl
@[simp] theorem Strand.setM_wd (st : Strand) (n : Nat) (w : MReg) : (st.setM n w).wd = st.wd := rfl
@[simp] theorem Strand.setM_waiting (st : Strand) (n : Nat) (w : MReg) : (st.setM n w).waiting = st.waiting := rfl
@[simp] theorem Strand.setM_interval (st : Strand) (n : Nat) (w : MReg) : (st.setM n w).interval = st.interval := rfl
@[simp] theorem Strand.setM_storeQ (st : Strand) (n : Nat) (w : MReg) : (st.setM n w).storeQ = st.storeQ := rfl
@[simp] theorem Strand.setM_fep (st : Strand) (n : Nat) (w : MReg) : (st.setM n w).fep = st.fep := rfl
@[simp] theorem Strand.setM_fepDie (st : Strand) (n : Nat) (w : MReg) : (st.setM n w).fepDie = st.fepDie := rfl
@[simp] theorem Strand.setM_seen (st : Strand) (n : Nat) (w : MReg) : (st.setM n w).seen = st.seen := rfl
@[simp] theorem Strand.setM_restore (st : Strand) (n : Nat) (w : MReg) : (st.setM n w).restore = st.restore := rfl
@[simp] theorem Strand.setM_abandoned (st : Strand) (n : Nat) (w : MReg) : (st.setM n w).abandoned = st.abandoned := rfl
@[simp] theorem Strand.setM_partWay (st : Strand) (n : Nat) (w : MReg) : (st.setM n w).partWay = st.partWay := rfl

@[simp] theorem Strand.setTag_st (st : Strand) (n t : Nat) : (st.setTag n t).st = st.st := rfl
@[simp] theorem Strand.setTag_fromSt (st : Strand) (n t : Nat) : (st.setTag n t).fromSt = st.fromSt := rfl
@[simp] theorem Strand.setTag_heldSt (st : Strand) (n t : Nat) : (st.setTag n t).heldSt = st.heldSt := rfl
@[simp] theorem Strand.setTag_x (st : Strand) (n t : Nat) : (st.setTag n t).x = st.x := rfl
@[simp] theorem Strand.setTag_pc (st : Strand) (n t : Nat) : (st.setTag n t).pc = st.pc := rfl
@[simp] theorem Strand.setTag_pcWritten (st : Strand) (n t : Nat) : (st.setTag n t).pcWritten = st.pcWritten := rfl
@[simp] theorem Strand.setTag_blk (st : Strand) (n t : Nat) : (st.setTag n t).blk = st.blk := rfl
@[simp] theorem Strand.setTag_buf (st : Strand) (n t : Nat) : (st.setTag n t).buf = st.buf := rfl
@[simp] theorem Strand.setTag_farm (st : Strand) (n t : Nat) : (st.setTag n t).farm = st.farm := rfl
@[simp] theorem Strand.setTag_v (st : Strand) (n t : Nat) : (st.setTag n t).v = st.v := rfl
@[simp] theorem Strand.setTag_m (st : Strand) (n t : Nat) : (st.setTag n t).m = st.m := rfl
@[simp] theorem Strand.setTag_sbound (st : Strand) (n t : Nat) : (st.setTag n t).sbound = st.sbound := rfl
@[simp] theorem Strand.setTag_vgrp (st : Strand) (n t : Nat) : (st.setTag n t).vgrp = st.vgrp := rfl
@[simp] theorem Strand.setTag_vstart (st : Strand) (n t : Nat) : (st.setTag n t).vstart = st.vstart := rfl
@[simp] theorem Strand.setTag_vffi (st : Strand) (n t : Nat) : (st.setTag n t).vffi = st.vffi := rfl
@[simp] theorem Strand.setTag_vfill (st : Strand) (n t : Nat) : (st.setTag n t).vfill = st.vfill := rfl
@[simp] theorem Strand.setTag_vdValid (st : Strand) (n t : Nat) : (st.setTag n t).vdValid = st.vdValid := rfl
@[simp] theorem Strand.setTag_vdone (st : Strand) (n t : Nat) : (st.setTag n t).vdone = st.vdone := rfl
@[simp] theorem Strand.setTag_fstat (st : Strand) (n t : Nat) : (st.setTag n t).fstat = st.fstat := rfl
@[simp] theorem Strand.setTag_mext (st : Strand) (n t : Nat) : (st.setTag n t).mext = st.mext := rfl
@[simp] theorem Strand.setTag_mfmt (st : Strand) (n t : Nat) : (st.setTag n t).mfmt = st.mfmt := rfl
@[simp] theorem Strand.setTag_cwidth (st : Strand) (n t : Nat) : (st.setTag n t).cwidth = st.cwidth := rfl
@[simp] theorem Strand.setTag_cspec (st : Strand) (n t : Nat) : (st.setTag n t).cspec = st.cspec := rfl
@[simp] theorem Strand.setTag_cgeom (st : Strand) (n t : Nat) : (st.setTag n t).cgeom = st.cgeom := rfl
@[simp] theorem Strand.setTag_dseed (st : Strand) (n t : Nat) : (st.setTag n t).dseed = st.dseed := rfl
@[simp] theorem Strand.setTag_dmode (st : Strand) (n t : Nat) : (st.setTag n t).dmode = st.dmode := rfl
@[simp] theorem Strand.setTag_dtab (st : Strand) (n t : Nat) : (st.setTag n t).dtab = st.dtab := rfl
@[simp] theorem Strand.setTag_dpos (st : Strand) (n t : Nat) : (st.setTag n t).dpos = st.dpos := rfl
@[simp] theorem Strand.setTag_detf (st : Strand) (n t : Nat) : (st.setTag n t).detf = st.detf := rfl
@[simp] theorem Strand.setTag_vabs (st : Strand) (n t : Nat) : (st.setTag n t).vabs = st.vabs := rfl
@[simp] theorem Strand.setTag_vimg (st : Strand) (n t : Nat) : (st.setTag n t).vimg = st.vimg := rfl
@[simp] theorem Strand.setTag_vrq (st : Strand) (n t : Nat) : (st.setTag n t).vrq = st.vrq := rfl
@[simp] theorem Strand.setTag_tpc (st : Strand) (n t : Nat) : (st.setTag n t).tpc = st.tpc := rfl
@[simp] theorem Strand.setTag_dirty (st : Strand) (n t : Nat) : (st.setTag n t).dirty = st.dirty := rfl
@[simp] theorem Strand.setTag_rec0 (st : Strand) (n t : Nat) : (st.setTag n t).rec0 = st.rec0 := rfl
@[simp] theorem Strand.setTag_rec1 (st : Strand) (n t : Nat) : (st.setTag n t).rec1 = st.rec1 := rfl
@[simp] theorem Strand.setTag_rec2 (st : Strand) (n t : Nat) : (st.setTag n t).rec2 = st.rec2 := rfl
@[simp] theorem Strand.setTag_rec3 (st : Strand) (n t : Nat) : (st.setTag n t).rec3 = st.rec3 := rfl
@[simp] theorem Strand.setTag_rec4 (st : Strand) (n t : Nat) : (st.setTag n t).rec4 = st.rec4 := rfl
@[simp] theorem Strand.setTag_sig (st : Strand) (n t : Nat) : (st.setTag n t).sig = st.sig := rfl
@[simp] theorem Strand.setTag_sigPend (st : Strand) (n t : Nat) : (st.setTag n t).sigPend = st.sigPend := rfl
@[simp] theorem Strand.setTag_wd (st : Strand) (n t : Nat) : (st.setTag n t).wd = st.wd := rfl
@[simp] theorem Strand.setTag_waiting (st : Strand) (n t : Nat) : (st.setTag n t).waiting = st.waiting := rfl
@[simp] theorem Strand.setTag_interval (st : Strand) (n t : Nat) : (st.setTag n t).interval = st.interval := rfl
@[simp] theorem Strand.setTag_storeQ (st : Strand) (n t : Nat) : (st.setTag n t).storeQ = st.storeQ := rfl
@[simp] theorem Strand.setTag_fep (st : Strand) (n t : Nat) : (st.setTag n t).fep = st.fep := rfl
@[simp] theorem Strand.setTag_fepDie (st : Strand) (n t : Nat) : (st.setTag n t).fepDie = st.fepDie := rfl
@[simp] theorem Strand.setTag_seen (st : Strand) (n t : Nat) : (st.setTag n t).seen = st.seen := rfl
@[simp] theorem Strand.setTag_restore (st : Strand) (n t : Nat) : (st.setTag n t).restore = st.restore := rfl
@[simp] theorem Strand.setTag_abandoned (st : Strand) (n t : Nat) : (st.setTag n t).abandoned = st.abandoned := rfl
@[simp] theorem Strand.setTag_partWay (st : Strand) (n t : Nat) : (st.setTag n t).partWay = st.partWay := rfl

@[simp] theorem Strand.endBlock_fromSt (st : Strand) : (st.endBlock).fromSt = st.fromSt := by unfold Strand.endBlock; split <;> rfl
@[simp] theorem Strand.endBlock_heldSt (st : Strand) : (st.endBlock).heldSt = st.heldSt := by unfold Strand.endBlock; split <;> rfl
@[simp] theorem Strand.endBlock_x (st : Strand) : (st.endBlock).x = st.x := by unfold Strand.endBlock; split <;> rfl
@[simp] theorem Strand.endBlock_pcWritten (st : Strand) : (st.endBlock).pcWritten = st.pcWritten := by unfold Strand.endBlock; split <;> rfl
@[simp] theorem Strand.endBlock_farm (st : Strand) : (st.endBlock).farm = st.farm := by unfold Strand.endBlock; split <;> rfl
@[simp] theorem Strand.endBlock_v (st : Strand) : (st.endBlock).v = st.v := by unfold Strand.endBlock; split <;> rfl
@[simp] theorem Strand.endBlock_m (st : Strand) : (st.endBlock).m = st.m := by unfold Strand.endBlock; split <;> rfl
@[simp] theorem Strand.endBlock_tags (st : Strand) : (st.endBlock).tags = st.tags := by unfold Strand.endBlock; split <;> rfl
@[simp] theorem Strand.endBlock_sbound (st : Strand) : (st.endBlock).sbound = st.sbound := by unfold Strand.endBlock; split <;> rfl
@[simp] theorem Strand.endBlock_vgrp (st : Strand) : (st.endBlock).vgrp = st.vgrp := by unfold Strand.endBlock; split <;> rfl
@[simp] theorem Strand.endBlock_vstart (st : Strand) : (st.endBlock).vstart = st.vstart := by unfold Strand.endBlock; split <;> rfl
@[simp] theorem Strand.endBlock_vffi (st : Strand) : (st.endBlock).vffi = st.vffi := by unfold Strand.endBlock; split <;> rfl
@[simp] theorem Strand.endBlock_vfill (st : Strand) : (st.endBlock).vfill = st.vfill := by unfold Strand.endBlock; split <;> rfl
@[simp] theorem Strand.endBlock_vdValid (st : Strand) : (st.endBlock).vdValid = st.vdValid := by unfold Strand.endBlock; split <;> rfl
@[simp] theorem Strand.endBlock_vdone (st : Strand) : (st.endBlock).vdone = st.vdone := by unfold Strand.endBlock; split <;> rfl
@[simp] theorem Strand.endBlock_fstat (st : Strand) : (st.endBlock).fstat = st.fstat := by unfold Strand.endBlock; split <;> rfl
@[simp] theorem Strand.endBlock_mext (st : Strand) : (st.endBlock).mext = st.mext := by unfold Strand.endBlock; split <;> rfl
@[simp] theorem Strand.endBlock_mfmt (st : Strand) : (st.endBlock).mfmt = st.mfmt := by unfold Strand.endBlock; split <;> rfl
@[simp] theorem Strand.endBlock_cwidth (st : Strand) : (st.endBlock).cwidth = st.cwidth := by unfold Strand.endBlock; split <;> rfl
@[simp] theorem Strand.endBlock_cspec (st : Strand) : (st.endBlock).cspec = st.cspec := by unfold Strand.endBlock; split <;> rfl
@[simp] theorem Strand.endBlock_cgeom (st : Strand) : (st.endBlock).cgeom = st.cgeom := by unfold Strand.endBlock; split <;> rfl
@[simp] theorem Strand.endBlock_dseed (st : Strand) : (st.endBlock).dseed = st.dseed := by unfold Strand.endBlock; split <;> rfl
@[simp] theorem Strand.endBlock_dmode (st : Strand) : (st.endBlock).dmode = st.dmode := by unfold Strand.endBlock; split <;> rfl
@[simp] theorem Strand.endBlock_dtab (st : Strand) : (st.endBlock).dtab = st.dtab := by unfold Strand.endBlock; split <;> rfl
@[simp] theorem Strand.endBlock_dpos (st : Strand) : (st.endBlock).dpos = st.dpos := by unfold Strand.endBlock; split <;> rfl
@[simp] theorem Strand.endBlock_detf (st : Strand) : (st.endBlock).detf = st.detf := by unfold Strand.endBlock; split <;> rfl
@[simp] theorem Strand.endBlock_vabs (st : Strand) : (st.endBlock).vabs = st.vabs := by unfold Strand.endBlock; split <;> rfl
@[simp] theorem Strand.endBlock_vimg (st : Strand) : (st.endBlock).vimg = st.vimg := by unfold Strand.endBlock; split <;> rfl
@[simp] theorem Strand.endBlock_vrq (st : Strand) : (st.endBlock).vrq = st.vrq := by unfold Strand.endBlock; split <;> rfl
@[simp] theorem Strand.endBlock_tpc (st : Strand) : (st.endBlock).tpc = st.tpc := by unfold Strand.endBlock; split <;> rfl
@[simp] theorem Strand.endBlock_dirty (st : Strand) : (st.endBlock).dirty = st.dirty := by unfold Strand.endBlock; split <;> rfl
@[simp] theorem Strand.endBlock_rec0 (st : Strand) : (st.endBlock).rec0 = st.rec0 := by unfold Strand.endBlock; split <;> rfl
@[simp] theorem Strand.endBlock_rec1 (st : Strand) : (st.endBlock).rec1 = st.rec1 := by unfold Strand.endBlock; split <;> rfl
@[simp] theorem Strand.endBlock_rec2 (st : Strand) : (st.endBlock).rec2 = st.rec2 := by unfold Strand.endBlock; split <;> rfl
@[simp] theorem Strand.endBlock_rec3 (st : Strand) : (st.endBlock).rec3 = st.rec3 := by unfold Strand.endBlock; split <;> rfl
@[simp] theorem Strand.endBlock_rec4 (st : Strand) : (st.endBlock).rec4 = st.rec4 := by unfold Strand.endBlock; split <;> rfl
@[simp] theorem Strand.endBlock_sig (st : Strand) : (st.endBlock).sig = st.sig := by unfold Strand.endBlock; split <;> rfl
@[simp] theorem Strand.endBlock_sigPend (st : Strand) : (st.endBlock).sigPend = st.sigPend := by unfold Strand.endBlock; split <;> rfl
@[simp] theorem Strand.endBlock_wd (st : Strand) : (st.endBlock).wd = st.wd := by unfold Strand.endBlock; split <;> rfl
@[simp] theorem Strand.endBlock_waiting (st : Strand) : (st.endBlock).waiting = st.waiting := by unfold Strand.endBlock; split <;> rfl
@[simp] theorem Strand.endBlock_interval (st : Strand) : (st.endBlock).interval = st.interval := by unfold Strand.endBlock; split <;> rfl
@[simp] theorem Strand.endBlock_storeQ (st : Strand) : (st.endBlock).storeQ = st.storeQ := by unfold Strand.endBlock; split <;> rfl
@[simp] theorem Strand.endBlock_fep (st : Strand) : (st.endBlock).fep = st.fep := by unfold Strand.endBlock; split <;> rfl
@[simp] theorem Strand.endBlock_fepDie (st : Strand) : (st.endBlock).fepDie = st.fepDie := by unfold Strand.endBlock; split <;> rfl
@[simp] theorem Strand.endBlock_seen (st : Strand) : (st.endBlock).seen = st.seen := by unfold Strand.endBlock; split <;> rfl
@[simp] theorem Strand.endBlock_restore (st : Strand) : (st.endBlock).restore = st.restore := by unfold Strand.endBlock; split <;> rfl
@[simp] theorem Strand.endBlock_abandoned (st : Strand) : (st.endBlock).abandoned = st.abandoned := by unfold Strand.endBlock; split <;> rfl
@[simp] theorem Strand.endBlock_partWay (st : Strand) : (st.endBlock).partWay = st.partWay := by unfold Strand.endBlock; split <;> rfl

@[simp] theorem Strand.goOn_fromSt (st : Strand) (n : Word) : (st.goOn n).fromSt = st.fromSt := by unfold Strand.goOn; split <;> (try split) <;> simp
@[simp] theorem Strand.goOn_heldSt (st : Strand) (n : Word) : (st.goOn n).heldSt = st.heldSt := by unfold Strand.goOn; split <;> (try split) <;> simp
@[simp] theorem Strand.goOn_x (st : Strand) (n : Word) : (st.goOn n).x = st.x := by unfold Strand.goOn; split <;> (try split) <;> simp
@[simp] theorem Strand.goOn_pcWritten (st : Strand) (n : Word) : (st.goOn n).pcWritten = st.pcWritten := by unfold Strand.goOn; split <;> (try split) <;> simp
@[simp] theorem Strand.goOn_farm (st : Strand) (n : Word) : (st.goOn n).farm = st.farm := by unfold Strand.goOn; split <;> (try split) <;> simp
@[simp] theorem Strand.goOn_v (st : Strand) (n : Word) : (st.goOn n).v = st.v := by unfold Strand.goOn; split <;> (try split) <;> simp
@[simp] theorem Strand.goOn_m (st : Strand) (n : Word) : (st.goOn n).m = st.m := by unfold Strand.goOn; split <;> (try split) <;> simp
@[simp] theorem Strand.goOn_tags (st : Strand) (n : Word) : (st.goOn n).tags = st.tags := by unfold Strand.goOn; split <;> (try split) <;> simp
@[simp] theorem Strand.goOn_sbound (st : Strand) (n : Word) : (st.goOn n).sbound = st.sbound := by unfold Strand.goOn; split <;> (try split) <;> simp
@[simp] theorem Strand.goOn_vgrp (st : Strand) (n : Word) : (st.goOn n).vgrp = st.vgrp := by unfold Strand.goOn; split <;> (try split) <;> simp
@[simp] theorem Strand.goOn_vstart (st : Strand) (n : Word) : (st.goOn n).vstart = st.vstart := by unfold Strand.goOn; split <;> (try split) <;> simp
@[simp] theorem Strand.goOn_vffi (st : Strand) (n : Word) : (st.goOn n).vffi = st.vffi := by unfold Strand.goOn; split <;> (try split) <;> simp
@[simp] theorem Strand.goOn_vfill (st : Strand) (n : Word) : (st.goOn n).vfill = st.vfill := by unfold Strand.goOn; split <;> (try split) <;> simp
@[simp] theorem Strand.goOn_vdValid (st : Strand) (n : Word) : (st.goOn n).vdValid = st.vdValid := by unfold Strand.goOn; split <;> (try split) <;> simp
@[simp] theorem Strand.goOn_vdone (st : Strand) (n : Word) : (st.goOn n).vdone = st.vdone := by unfold Strand.goOn; split <;> (try split) <;> simp
@[simp] theorem Strand.goOn_fstat (st : Strand) (n : Word) : (st.goOn n).fstat = st.fstat := by unfold Strand.goOn; split <;> (try split) <;> simp
@[simp] theorem Strand.goOn_mext (st : Strand) (n : Word) : (st.goOn n).mext = st.mext := by unfold Strand.goOn; split <;> (try split) <;> simp
@[simp] theorem Strand.goOn_mfmt (st : Strand) (n : Word) : (st.goOn n).mfmt = st.mfmt := by unfold Strand.goOn; split <;> (try split) <;> simp
@[simp] theorem Strand.goOn_cwidth (st : Strand) (n : Word) : (st.goOn n).cwidth = st.cwidth := by unfold Strand.goOn; split <;> (try split) <;> simp
@[simp] theorem Strand.goOn_cspec (st : Strand) (n : Word) : (st.goOn n).cspec = st.cspec := by unfold Strand.goOn; split <;> (try split) <;> simp
@[simp] theorem Strand.goOn_cgeom (st : Strand) (n : Word) : (st.goOn n).cgeom = st.cgeom := by unfold Strand.goOn; split <;> (try split) <;> simp
@[simp] theorem Strand.goOn_dseed (st : Strand) (n : Word) : (st.goOn n).dseed = st.dseed := by unfold Strand.goOn; split <;> (try split) <;> simp
@[simp] theorem Strand.goOn_dmode (st : Strand) (n : Word) : (st.goOn n).dmode = st.dmode := by unfold Strand.goOn; split <;> (try split) <;> simp
@[simp] theorem Strand.goOn_dtab (st : Strand) (n : Word) : (st.goOn n).dtab = st.dtab := by unfold Strand.goOn; split <;> (try split) <;> simp
@[simp] theorem Strand.goOn_dpos (st : Strand) (n : Word) : (st.goOn n).dpos = st.dpos := by unfold Strand.goOn; split <;> (try split) <;> simp
@[simp] theorem Strand.goOn_detf (st : Strand) (n : Word) : (st.goOn n).detf = st.detf := by unfold Strand.goOn; split <;> (try split) <;> simp
@[simp] theorem Strand.goOn_vabs (st : Strand) (n : Word) : (st.goOn n).vabs = st.vabs := by unfold Strand.goOn; split <;> (try split) <;> simp
@[simp] theorem Strand.goOn_vimg (st : Strand) (n : Word) : (st.goOn n).vimg = st.vimg := by unfold Strand.goOn; split <;> (try split) <;> simp
@[simp] theorem Strand.goOn_vrq (st : Strand) (n : Word) : (st.goOn n).vrq = st.vrq := by unfold Strand.goOn; split <;> (try split) <;> simp
@[simp] theorem Strand.goOn_tpc (st : Strand) (n : Word) : (st.goOn n).tpc = st.tpc := by unfold Strand.goOn; split <;> (try split) <;> simp
@[simp] theorem Strand.goOn_dirty (st : Strand) (n : Word) : (st.goOn n).dirty = st.dirty := by unfold Strand.goOn; split <;> (try split) <;> simp
@[simp] theorem Strand.goOn_rec0 (st : Strand) (n : Word) : (st.goOn n).rec0 = st.rec0 := by unfold Strand.goOn; split <;> (try split) <;> simp
@[simp] theorem Strand.goOn_rec1 (st : Strand) (n : Word) : (st.goOn n).rec1 = st.rec1 := by unfold Strand.goOn; split <;> (try split) <;> simp
@[simp] theorem Strand.goOn_rec2 (st : Strand) (n : Word) : (st.goOn n).rec2 = st.rec2 := by unfold Strand.goOn; split <;> (try split) <;> simp
@[simp] theorem Strand.goOn_rec3 (st : Strand) (n : Word) : (st.goOn n).rec3 = st.rec3 := by unfold Strand.goOn; split <;> (try split) <;> simp
@[simp] theorem Strand.goOn_rec4 (st : Strand) (n : Word) : (st.goOn n).rec4 = st.rec4 := by unfold Strand.goOn; split <;> (try split) <;> simp
@[simp] theorem Strand.goOn_sig (st : Strand) (n : Word) : (st.goOn n).sig = st.sig := by unfold Strand.goOn; split <;> (try split) <;> simp
@[simp] theorem Strand.goOn_sigPend (st : Strand) (n : Word) : (st.goOn n).sigPend = st.sigPend := by unfold Strand.goOn; split <;> (try split) <;> simp
@[simp] theorem Strand.goOn_wd (st : Strand) (n : Word) : (st.goOn n).wd = st.wd := by unfold Strand.goOn; split <;> (try split) <;> simp
@[simp] theorem Strand.goOn_waiting (st : Strand) (n : Word) : (st.goOn n).waiting = st.waiting := by unfold Strand.goOn; split <;> (try split) <;> simp
@[simp] theorem Strand.goOn_interval (st : Strand) (n : Word) : (st.goOn n).interval = st.interval := by unfold Strand.goOn; split <;> (try split) <;> simp
@[simp] theorem Strand.goOn_storeQ (st : Strand) (n : Word) : (st.goOn n).storeQ = st.storeQ := by unfold Strand.goOn; split <;> (try split) <;> simp
@[simp] theorem Strand.goOn_fep (st : Strand) (n : Word) : (st.goOn n).fep = st.fep := by unfold Strand.goOn; split <;> (try split) <;> simp
@[simp] theorem Strand.goOn_fepDie (st : Strand) (n : Word) : (st.goOn n).fepDie = st.fepDie := by unfold Strand.goOn; split <;> (try split) <;> simp
@[simp] theorem Strand.goOn_seen (st : Strand) (n : Word) : (st.goOn n).seen = st.seen := by unfold Strand.goOn; split <;> (try split) <;> simp
@[simp] theorem Strand.goOn_restore (st : Strand) (n : Word) : (st.goOn n).restore = st.restore := by unfold Strand.goOn; split <;> (try split) <;> simp
@[simp] theorem Strand.goOn_abandoned (st : Strand) (n : Word) : (st.goOn n).abandoned = st.abandoned := by unfold Strand.goOn; split <;> (try split) <;> simp
@[simp] theorem Strand.goOn_partWay (st : Strand) (n : Word) : (st.goOn n).partWay = st.partWay := by unfold Strand.goOn; split <;> (try split) <;> simp

@[simp] theorem Strand.retire_fromSt (st : Strand) (n : Nat) : (st.retire n).fromSt = st.fromSt := by simp [Strand.retire]
@[simp] theorem Strand.retire_heldSt (st : Strand) (n : Nat) : (st.retire n).heldSt = st.heldSt := by simp [Strand.retire]
@[simp] theorem Strand.retire_x (st : Strand) (n : Nat) : (st.retire n).x = st.x := by simp [Strand.retire]
@[simp] theorem Strand.retire_pcWritten (st : Strand) (n : Nat) : (st.retire n).pcWritten = st.pcWritten := by simp [Strand.retire]
@[simp] theorem Strand.retire_farm (st : Strand) (n : Nat) : (st.retire n).farm = st.farm := by simp [Strand.retire]
@[simp] theorem Strand.retire_v (st : Strand) (n : Nat) : (st.retire n).v = st.v := by simp [Strand.retire]
@[simp] theorem Strand.retire_m (st : Strand) (n : Nat) : (st.retire n).m = st.m := by simp [Strand.retire]
@[simp] theorem Strand.retire_tags (st : Strand) (n : Nat) : (st.retire n).tags = st.tags := by simp [Strand.retire]
@[simp] theorem Strand.retire_sbound (st : Strand) (n : Nat) : (st.retire n).sbound = st.sbound := by simp [Strand.retire]
@[simp] theorem Strand.retire_vgrp (st : Strand) (n : Nat) : (st.retire n).vgrp = st.vgrp := by simp [Strand.retire]
@[simp] theorem Strand.retire_vstart (st : Strand) (n : Nat) : (st.retire n).vstart = st.vstart := by simp [Strand.retire]
@[simp] theorem Strand.retire_vffi (st : Strand) (n : Nat) : (st.retire n).vffi = st.vffi := by simp [Strand.retire]
@[simp] theorem Strand.retire_vfill (st : Strand) (n : Nat) : (st.retire n).vfill = st.vfill := by simp [Strand.retire]
@[simp] theorem Strand.retire_vdValid (st : Strand) (n : Nat) : (st.retire n).vdValid = st.vdValid := by simp [Strand.retire]
@[simp] theorem Strand.retire_vdone (st : Strand) (n : Nat) : (st.retire n).vdone = st.vdone := by simp [Strand.retire]
@[simp] theorem Strand.retire_fstat (st : Strand) (n : Nat) : (st.retire n).fstat = st.fstat := by simp [Strand.retire]
@[simp] theorem Strand.retire_mext (st : Strand) (n : Nat) : (st.retire n).mext = st.mext := by simp [Strand.retire]
@[simp] theorem Strand.retire_mfmt (st : Strand) (n : Nat) : (st.retire n).mfmt = st.mfmt := by simp [Strand.retire]
@[simp] theorem Strand.retire_cwidth (st : Strand) (n : Nat) : (st.retire n).cwidth = st.cwidth := by simp [Strand.retire]
@[simp] theorem Strand.retire_cspec (st : Strand) (n : Nat) : (st.retire n).cspec = st.cspec := by simp [Strand.retire]
@[simp] theorem Strand.retire_cgeom (st : Strand) (n : Nat) : (st.retire n).cgeom = st.cgeom := by simp [Strand.retire]
@[simp] theorem Strand.retire_dseed (st : Strand) (n : Nat) : (st.retire n).dseed = st.dseed := by simp [Strand.retire]
@[simp] theorem Strand.retire_dmode (st : Strand) (n : Nat) : (st.retire n).dmode = st.dmode := by simp [Strand.retire]
@[simp] theorem Strand.retire_dtab (st : Strand) (n : Nat) : (st.retire n).dtab = st.dtab := by simp [Strand.retire]
@[simp] theorem Strand.retire_dpos (st : Strand) (n : Nat) : (st.retire n).dpos = st.dpos := by simp [Strand.retire]
@[simp] theorem Strand.retire_detf (st : Strand) (n : Nat) : (st.retire n).detf = st.detf := by simp [Strand.retire]
@[simp] theorem Strand.retire_vabs (st : Strand) (n : Nat) : (st.retire n).vabs = st.vabs := by simp [Strand.retire]
@[simp] theorem Strand.retire_vimg (st : Strand) (n : Nat) : (st.retire n).vimg = st.vimg := by simp [Strand.retire]
@[simp] theorem Strand.retire_vrq (st : Strand) (n : Nat) : (st.retire n).vrq = st.vrq := by simp [Strand.retire]
@[simp] theorem Strand.retire_tpc (st : Strand) (n : Nat) : (st.retire n).tpc = st.tpc := by simp [Strand.retire]
@[simp] theorem Strand.retire_dirty (st : Strand) (n : Nat) : (st.retire n).dirty = st.dirty := by simp [Strand.retire]
@[simp] theorem Strand.retire_rec0 (st : Strand) (n : Nat) : (st.retire n).rec0 = st.rec0 := by simp [Strand.retire]
@[simp] theorem Strand.retire_rec1 (st : Strand) (n : Nat) : (st.retire n).rec1 = st.rec1 := by simp [Strand.retire]
@[simp] theorem Strand.retire_rec2 (st : Strand) (n : Nat) : (st.retire n).rec2 = st.rec2 := by simp [Strand.retire]
@[simp] theorem Strand.retire_rec3 (st : Strand) (n : Nat) : (st.retire n).rec3 = st.rec3 := by simp [Strand.retire]
@[simp] theorem Strand.retire_rec4 (st : Strand) (n : Nat) : (st.retire n).rec4 = st.rec4 := by simp [Strand.retire]
@[simp] theorem Strand.retire_sig (st : Strand) (n : Nat) : (st.retire n).sig = st.sig := by simp [Strand.retire]
@[simp] theorem Strand.retire_sigPend (st : Strand) (n : Nat) : (st.retire n).sigPend = st.sigPend := by simp [Strand.retire]
@[simp] theorem Strand.retire_interval (st : Strand) (n : Nat) : (st.retire n).interval = st.interval := by simp [Strand.retire]
@[simp] theorem Strand.retire_storeQ (st : Strand) (n : Nat) : (st.retire n).storeQ = st.storeQ := by simp [Strand.retire]
@[simp] theorem Strand.retire_fep (st : Strand) (n : Nat) : (st.retire n).fep = st.fep := by simp [Strand.retire]
@[simp] theorem Strand.retire_fepDie (st : Strand) (n : Nat) : (st.retire n).fepDie = st.fepDie := by simp [Strand.retire]
@[simp] theorem Strand.retire_seen (st : Strand) (n : Nat) : (st.retire n).seen = st.seen := by simp [Strand.retire]
@[simp] theorem Strand.retire_restore (st : Strand) (n : Nat) : (st.retire n).restore = st.restore := by simp [Strand.retire]
@[simp] theorem Strand.retire_abandoned (st : Strand) (n : Nat) : (st.retire n).abandoned = st.abandoned := by simp [Strand.retire]

@[simp] theorem Strand.trap_heldSt (st : Strand) (t : Trap) (r : Word) : (st.trap t r).heldSt = st.heldSt := rfl
@[simp] theorem Strand.trap_x (st : Strand) (t : Trap) (r : Word) : (st.trap t r).x = st.x := rfl
@[simp] theorem Strand.trap_blk (st : Strand) (t : Trap) (r : Word) : (st.trap t r).blk = st.blk := rfl
@[simp] theorem Strand.trap_buf (st : Strand) (t : Trap) (r : Word) : (st.trap t r).buf = st.buf := rfl
@[simp] theorem Strand.trap_farm (st : Strand) (t : Trap) (r : Word) : (st.trap t r).farm = st.farm := rfl
@[simp] theorem Strand.trap_v (st : Strand) (t : Trap) (r : Word) : (st.trap t r).v = st.v := rfl
@[simp] theorem Strand.trap_m (st : Strand) (t : Trap) (r : Word) : (st.trap t r).m = st.m := rfl
@[simp] theorem Strand.trap_tags (st : Strand) (t : Trap) (r : Word) : (st.trap t r).tags = st.tags := rfl
@[simp] theorem Strand.trap_sbound (st : Strand) (t : Trap) (r : Word) : (st.trap t r).sbound = st.sbound := rfl
@[simp] theorem Strand.trap_vgrp (st : Strand) (t : Trap) (r : Word) : (st.trap t r).vgrp = st.vgrp := rfl
@[simp] theorem Strand.trap_vstart (st : Strand) (t : Trap) (r : Word) : (st.trap t r).vstart = st.vstart := rfl
@[simp] theorem Strand.trap_vffi (st : Strand) (t : Trap) (r : Word) : (st.trap t r).vffi = st.vffi := rfl
@[simp] theorem Strand.trap_vfill (st : Strand) (t : Trap) (r : Word) : (st.trap t r).vfill = st.vfill := rfl
@[simp] theorem Strand.trap_vdValid (st : Strand) (t : Trap) (r : Word) : (st.trap t r).vdValid = st.vdValid := rfl
@[simp] theorem Strand.trap_vdone (st : Strand) (t : Trap) (r : Word) : (st.trap t r).vdone = st.vdone := rfl
@[simp] theorem Strand.trap_fstat (st : Strand) (t : Trap) (r : Word) : (st.trap t r).fstat = st.fstat := rfl
@[simp] theorem Strand.trap_mext (st : Strand) (t : Trap) (r : Word) : (st.trap t r).mext = st.mext := rfl
@[simp] theorem Strand.trap_mfmt (st : Strand) (t : Trap) (r : Word) : (st.trap t r).mfmt = st.mfmt := rfl
@[simp] theorem Strand.trap_cwidth (st : Strand) (t : Trap) (r : Word) : (st.trap t r).cwidth = st.cwidth := rfl
@[simp] theorem Strand.trap_cspec (st : Strand) (t : Trap) (r : Word) : (st.trap t r).cspec = st.cspec := rfl
@[simp] theorem Strand.trap_cgeom (st : Strand) (t : Trap) (r : Word) : (st.trap t r).cgeom = st.cgeom := rfl
@[simp] theorem Strand.trap_dseed (st : Strand) (t : Trap) (r : Word) : (st.trap t r).dseed = st.dseed := rfl
@[simp] theorem Strand.trap_dmode (st : Strand) (t : Trap) (r : Word) : (st.trap t r).dmode = st.dmode := rfl
@[simp] theorem Strand.trap_dtab (st : Strand) (t : Trap) (r : Word) : (st.trap t r).dtab = st.dtab := rfl
@[simp] theorem Strand.trap_dpos (st : Strand) (t : Trap) (r : Word) : (st.trap t r).dpos = st.dpos := rfl
@[simp] theorem Strand.trap_detf (st : Strand) (t : Trap) (r : Word) : (st.trap t r).detf = st.detf := rfl
@[simp] theorem Strand.trap_vabs (st : Strand) (t : Trap) (r : Word) : (st.trap t r).vabs = st.vabs := rfl
@[simp] theorem Strand.trap_vimg (st : Strand) (t : Trap) (r : Word) : (st.trap t r).vimg = st.vimg := rfl
@[simp] theorem Strand.trap_vrq (st : Strand) (t : Trap) (r : Word) : (st.trap t r).vrq = st.vrq := rfl
@[simp] theorem Strand.trap_dirty (st : Strand) (t : Trap) (r : Word) : (st.trap t r).dirty = st.dirty := rfl
@[simp] theorem Strand.trap_sig (st : Strand) (t : Trap) (r : Word) : (st.trap t r).sig = st.sig := rfl
@[simp] theorem Strand.trap_sigPend (st : Strand) (t : Trap) (r : Word) : (st.trap t r).sigPend = st.sigPend := rfl
@[simp] theorem Strand.trap_interval (st : Strand) (t : Trap) (r : Word) : (st.trap t r).interval = st.interval := rfl
@[simp] theorem Strand.trap_storeQ (st : Strand) (t : Trap) (r : Word) : (st.trap t r).storeQ = st.storeQ := rfl
@[simp] theorem Strand.trap_fep (st : Strand) (t : Trap) (r : Word) : (st.trap t r).fep = st.fep := rfl
@[simp] theorem Strand.trap_fepDie (st : Strand) (t : Trap) (r : Word) : (st.trap t r).fepDie = st.fepDie := rfl
@[simp] theorem Strand.trap_seen (st : Strand) (t : Trap) (r : Word) : (st.trap t r).seen = st.seen := rfl
@[simp] theorem Strand.trap_abandoned (st : Strand) (t : Trap) (r : Word) : (st.trap t r).abandoned = st.abandoned := rfl
@[simp] theorem Strand.trap_partWay (st : Strand) (t : Trap) (r : Word) : (st.trap t r).partWay = st.partWay := rfl

@[simp] theorem Hart.setX_pc (h : Hart) (r : Reg) (w : Word) : (h.setX r w).pc = h.pc := by unfold Hart.setX; split <;> rfl
@[simp] theorem Hart.setX_mode (h : Hart) (r : Reg) (w : Word) : (h.setX r w).mode = h.mode := by unfold Hart.setX; split <;> rfl
@[simp] theorem Hart.setX_mstatus (h : Hart) (r : Reg) (w : Word) : (h.setX r w).mstatus = h.mstatus := by unfold Hart.setX; split <;> rfl
@[simp] theorem Hart.setX_mie (h : Hart) (r : Reg) (w : Word) : (h.setX r w).mie = h.mie := by unfold Hart.setX; split <;> rfl
@[simp] theorem Hart.setX_mtvec (h : Hart) (r : Reg) (w : Word) : (h.setX r w).mtvec = h.mtvec := by unfold Hart.setX; split <;> rfl
@[simp] theorem Hart.setX_mscratch (h : Hart) (r : Reg) (w : Word) : (h.setX r w).mscratch = h.mscratch := by unfold Hart.setX; split <;> rfl
@[simp] theorem Hart.setX_mepc (h : Hart) (r : Reg) (w : Word) : (h.setX r w).mepc = h.mepc := by unfold Hart.setX; split <;> rfl
@[simp] theorem Hart.setX_mcause (h : Hart) (r : Reg) (w : Word) : (h.setX r w).mcause = h.mcause := by unfold Hart.setX; split <;> rfl
@[simp] theorem Hart.setX_mtval (h : Hart) (r : Reg) (w : Word) : (h.setX r w).mtval = h.mtval := by unfold Hart.setX; split <;> rfl
@[simp] theorem Hart.setX_mcounteren (h : Hart) (r : Reg) (w : Word) : (h.setX r w).mcounteren = h.mcounteren := by unfold Hart.setX; split <;> rfl
@[simp] theorem Hart.setX_fep (h : Hart) (r : Reg) (w : Word) : (h.setX r w).fep = h.fep := by unfold Hart.setX; split <;> rfl
@[simp] theorem Hart.setX_seen (h : Hart) (r : Reg) (w : Word) : (h.setX r w).seen = h.seen := by unfold Hart.setX; split <;> rfl
@[simp] theorem Hart.setX_instret (h : Hart) (r : Reg) (w : Word) : (h.setX r w).instret = h.instret := by unfold Hart.setX; split <;> rfl
@[simp] theorem Hart.setX_waiting (h : Hart) (r : Reg) (w : Word) : (h.setX r w).waiting = h.waiting := by unfold Hart.setX; split <;> rfl

@[simp] theorem Hart.enterTrap_x (h : Hart) (i : Bool) (c : Nat) (v : Word) : (h.enterTrap i c v).x = h.x := rfl
@[simp] theorem Hart.enterTrap_mie (h : Hart) (i : Bool) (c : Nat) (v : Word) : (h.enterTrap i c v).mie = h.mie := rfl
@[simp] theorem Hart.enterTrap_mtvec (h : Hart) (i : Bool) (c : Nat) (v : Word) : (h.enterTrap i c v).mtvec = h.mtvec := rfl
@[simp] theorem Hart.enterTrap_mscratch (h : Hart) (i : Bool) (c : Nat) (v : Word) : (h.enterTrap i c v).mscratch = h.mscratch := rfl
@[simp] theorem Hart.enterTrap_mcounteren (h : Hart) (i : Bool) (c : Nat) (v : Word) : (h.enterTrap i c v).mcounteren = h.mcounteren := rfl
@[simp] theorem Hart.enterTrap_fep (h : Hart) (i : Bool) (c : Nat) (v : Word) : (h.enterTrap i c v).fep = h.fep := rfl
@[simp] theorem Hart.enterTrap_seen (h : Hart) (i : Bool) (c : Nat) (v : Word) : (h.enterTrap i c v).seen = h.seen := rfl
@[simp] theorem Hart.enterTrap_instret (h : Hart) (i : Bool) (c : Nat) (v : Word) : (h.enterTrap i c v).instret = h.instret := rfl

@[simp] theorem Hart.trapReturn_x (h : Hart) : (h.trapReturn).x = h.x := rfl
@[simp] theorem Hart.trapReturn_mie (h : Hart) : (h.trapReturn).mie = h.mie := rfl
@[simp] theorem Hart.trapReturn_mtvec (h : Hart) : (h.trapReturn).mtvec = h.mtvec := rfl
@[simp] theorem Hart.trapReturn_mscratch (h : Hart) : (h.trapReturn).mscratch = h.mscratch := rfl
@[simp] theorem Hart.trapReturn_mepc (h : Hart) : (h.trapReturn).mepc = h.mepc := rfl
@[simp] theorem Hart.trapReturn_mcause (h : Hart) : (h.trapReturn).mcause = h.mcause := rfl
@[simp] theorem Hart.trapReturn_mtval (h : Hart) : (h.trapReturn).mtval = h.mtval := rfl
@[simp] theorem Hart.trapReturn_mcounteren (h : Hart) : (h.trapReturn).mcounteren = h.mcounteren := rfl
@[simp] theorem Hart.trapReturn_fep (h : Hart) : (h.trapReturn).fep = h.fep := rfl
@[simp] theorem Hart.trapReturn_seen (h : Hart) : (h.trapReturn).seen = h.seen := rfl
@[simp] theorem Hart.trapReturn_instret (h : Hart) : (h.trapReturn).instret = h.instret := rfl

/-! ## Reading after an update -/

@[simp] theorem State.core_setCore_same (s : State) (p : Nat) (c : Core) : (s.setCore p c).core p = c := by
  simp [State.core, State.setCore]

theorem State.core_setCore_ne (s : State) (p q : Nat) (c : Core) (h : q ≠ p) : (s.setCore p c).core q = s.core q := by
  simp [State.core, State.setCore, Table.get_set_ne _ _ _ _ _ h]

@[simp] theorem State.core_setMyCore_ne (s : State) (c : Core) (q : Nat) (h : q ≠ s.curCore) :
    (s.setMyCore c).core q = s.core q := s.core_setCore_ne _ _ _ h

@[simp] theorem State.myCore_setMyCore (s : State) (c : Core) : (s.setMyCore c).myCore = c := by
  simp [State.myCore, State.setMyCore, State.core, State.setCore]

@[simp] theorem State.setCore_setCore (s : State) (p : Nat) (c d : Core) :
    (s.setCore p c).setCore p d = s.setCore p d := by simp [State.setCore]

@[simp] theorem State.setMyCore_setMyCore (s : State) (c d : Core) :
    (s.setMyCore c).setMyCore d = s.setMyCore d := by simp [State.setMyCore, State.setCore]

@[simp] theorem Core.strand_setStrand_same (c : Core) (k : Nat) (st : Strand) : (c.setStrand k st).strand k = st := by
  simp [Core.strand, Core.setStrand]

theorem Core.strand_setStrand_ne (c : Core) (k j : Nat) (st : Strand) (h : j ≠ k) :
    (c.setStrand k st).strand j = c.strand j := by
  simp [Core.strand, Core.setStrand, Table.get_set_ne _ _ _ _ _ h]

/-- A strand that executes keeps its bit of `kpre`; another has none (R318). -/
theorem Core.setStrand_kpre (c : Core) (k : Nat) (st : Strand) :
    (c.setStrand k st).kpre = if st.runs then c.kpre else c.kpre &&& ~~~ (BitVec.ofNat 24 (2 ^ k)) := rfl

/-- The other strands keep theirs. -/
theorem Core.kpre_setStrand_ne (c : Core) (k j : Nat) (st : Strand) (h : j ≠ k) :
    (c.setStrand k st).kpre.getLsbD j = c.kpre.getLsbD j := by
  rw [Core.setStrand_kpre]
  split
  · rfl
  · have hk : ¬ k = j := fun e => h e.symm
    simp only [BitVec.getLsbD_and, BitVec.getLsbD_not, BitVec.getLsbD_ofNat, Nat.testBit_two_pow, hk]
    by_cases h24 : j < 24
    · simp [h24]
    · simp [BitVec.getLsbD_of_ge _ j (by omega : 24 ≤ j)]

theorem Core.setStrand_setStrand (c : Core) (k : Nat) (a b : Strand) (h : b.runs = true → a.runs = true) :
    (c.setStrand k a).setStrand k b = c.setStrand k b := by
  simp only [Core.setStrand, Table.set_set]
  cases ha : a.runs <;> cases hb : b.runs <;> simp_all [BitVec.and_assoc]

@[simp] theorem State.me_setMe (s : State) (st : Strand) : (s.setMe st).me = st := by
  simp [State.me, State.setMe, State.myCore, State.setMyCore, State.core, State.setCore]

theorem State.setMe_setMe (s : State) (a b : Strand) (h : b.runs = true → a.runs = true) :
    (s.setMe a).setMe b = s.setMe b := by
  simp [State.setMe, State.setMyCore_curStrand, Core.setStrand_setStrand _ _ _ _ h]

@[simp] theorem State.ilen_setMe (s : State) (st : Strand) : (s.setMe st).ilen = s.ilen := rfl

@[simp] theorem State.myCore_setMe (s : State) (st : Strand) :
    (s.setMe st).myCore = s.myCore.setStrand s.curStrand st := by simp [State.setMe]

/-- An instruction that completes with a new value of its strand changes that strand and nothing else. -/
theorem State.complete_eq (s : State) (st : Strand) : s.complete st = .next (s.setMe (st.retire s.ilen)) := rfl

@[simp] theorem Strand.getX_setX (st : Strand) (d r : Reg) (w : Word) :
    (st.setX d w).getX r = if r = d ∧ d ≠ 0 then w else st.getX r := by
  unfold Strand.getX Strand.setX
  by_cases hd : d = 0
  · simp [hd]
  · rw [if_neg hd]
    by_cases hr : r = d
    · subst hr
      rw [if_neg hd, if_pos ⟨rfl, hd⟩]
      exact Table.get_set_same _ _ _ _
    · have hn : r.toNat ≠ d.toNat := fun h => hr (BitVec.eq_of_toNat_eq h)
      rw [if_neg (fun h : r = d ∧ d ≠ 0 => hr h.1)]
      split
      · rfl
      · exact Table.get_set_ne _ _ _ _ _ hn

@[simp] theorem Hart.getX_setX (h : Hart) (d r : Reg) (w : Word) :
    (h.setX d w).getX r = if r = d ∧ d ≠ 0 then w else h.getX r := by
  unfold Hart.getX Hart.setX
  by_cases hd : d = 0
  · simp [hd]
  · rw [if_neg hd]
    by_cases hr : r = d
    · subst hr
      rw [if_neg hd, if_pos ⟨rfl, hd⟩]
      exact Table.get_set_same _ _ _ _
    · have hn : r.toNat ≠ d.toNat := fun h => hr (BitVec.eq_of_toNat_eq h)
      rw [if_neg (fun h : r = d ∧ d ≠ 0 => hr h.1)]
      split
      · rfl
      · exact Table.get_set_ne _ _ _ _ _ hn

@[simp] theorem Strand.getV_setV (st : Strand) (n k : Nat) (w : VReg) :
    (st.setV n w).getV k = if k = n then w else st.getV k := by simp [Strand.getV, Strand.setV, Table.get_set]

@[simp] theorem Strand.getM_setM (st : Strand) (n k : Nat) (w : MReg) :
    (st.setM n w).getM k = if k = n then w else st.getM k := by simp [Strand.getM, Strand.setM, Table.get_set]

@[simp] theorem Strand.getV_setTag (st : Strand) (n k t : Nat) : (st.setTag n t).getV k = st.getV k := rfl

@[simp] theorem Strand.tag_setV (st : Strand) (n k : Nat) (w : VReg) : (st.setV n w).tag k = st.tag k := rfl

theorem Strand.tag_setTag (st : Strand) (n k t : Nat) :
    (st.setTag n t).tag k = if k = n then t % 256 else st.tag k := by
  unfold Strand.tag Strand.setTag
  rw [Table.get_set]
  split <;> simp

@[simp] theorem Core.tile_setTile (c : Core) (t u : Nat) (v : Tile) :
    (c.setTile t v).tile u = if u = t then v else c.tile u := by simp [Core.tile, Core.setTile, Table.get_set]

@[simp] theorem Core.chan_setChan (c : Core) (n k : Nat) (v : Option Channel) :
    (c.setChan n v).chan k = if k = n then v else c.chan k := by simp [Core.chan, Core.setChan, Table.get_set]

@[simp] theorem Core.farm_setFarm (c : Core) (n k : Nat) (v : Option Farm) :
    (c.setFarm n v).farm k = if k = n then v else c.farm k := by simp [Core.farm, Core.setFarm, Table.get_set]

end Sys2Proof.Machine
end

