-- ==== Sys2Proof/Laws/Copies.lean ====
section
/-! SUPPORT. What waiting in place changes, and the rows of copy commands: one lemma for each shared operation. -/

namespace Sys2Proof.Machine

/-- A wait changes the wait of the current strand alone, and keeps what the instruction holds since it issued (R110, R130). -/
theorem State.waitsWith_next (s : State) (i : Instr) (u : Option Issue) : ∃ w : Waiting, w.instr = i ∧ w.issued = u
    ∧ s.waitsWith i u = .next (s.setMe { s.me with waiting := some w }) := ⟨_, rfl, rfl, rfl⟩

/-- What runs as issued gives a next state exactly where it gives one under the entries of its issue, and the core keeps its own
capabilities (R130). -/
theorem State.asIssued_next (s : State) (u : Issue) (run : State → Res) (t : State)
    (h : run (State.setMyCore { s with attr := u.attr } { s.myCore with fmts := u.fmts, capMask := u.caps }) = .next t) :
    ∃ fmts, s.asIssued u run = .next (t.setCore s.curCore { t.core s.curCore with capMask := s.myCore.capMask, fmts := fmts }) := by
  simp only [State.asIssued, h]
  exact ⟨_, rfl⟩

@[simp] theorem Flight.readHere_asks (f : Flight) (read : Piece → List Byte) : (f.readHere read).asks = f.asks := rfl
@[simp] theorem Flight.readHere_source (f : Flight) (read : Piece → List Byte) : (f.readHere read).source = f.source := rfl
@[simp] theorem Flight.readHere_instr (f : Flight) (read : Piece → List Byte) : (f.readHere read).instr = f.instr := rfl

/-- The index of a row is the four bytes at its place in the list (R269). -/
theorem listIndices_get (n : Nat) (bs : List Byte) (r : Nat) :
    (listIndices bs n)[r]? = if r < n then some (leNat ((bs.drop (4 * r)).take 4)) else none := by
  induction n generalizing bs r with
  | zero => simp [listIndices]
  | succ n ih =>
    cases r with
    | zero => simp [listIndices]
    | succ r =>
      simp only [listIndices, List.getElem?_cons_succ, ih, List.drop_drop, Nat.add_lt_add_iff_right]
      rw [show 4 + 4 * r = 4 * (r + 1) by omega]

theorem listIndices_length (n : Nat) (bs : List Byte) : (listIndices bs n).length = n := by
  induction n generalizing bs with
  | zero => rfl
  | succ n ih => simp [listIndices, ih]

/-- A command has as many rows as its descriptor says (R268, R269). -/
theorem copyRows_length (form : CopyForm) (c : CopySpec) (list : List Byte) (ptrs : List (Nat × Nat)) (src dst : Word) :
    (copyRows form c list ptrs src dst).length = c.rows := by
  unfold copyRows
  split <;> simp [listIndices_length]

end Sys2Proof.Machine
end

