-- ==== Sys2Proof/Laws/Flights.lean ====
section
/-! SUPPORT. What sending a flit, asking other devices, learning their answers and walking their tables can change: one lemma
for each, which names every field that it may touch. -/

namespace Sys2Proof.Machine

/-- A load that is queued changes the link ports alone (R349). -/
theorem State.queueFlit_spec (s : State) (n : Nat) (l : FlitLoad) : ∃ ports, s.queueFlit n l = { s with ports := ports } := by
  have one (t : State) (f : FlitLoad) : ∃ ports, t.sendFlit n f = { t with ports := ports } := by
    unfold State.sendFlit
    split
    · exact ⟨_, rfl⟩
    · split
      · exact ⟨_, rfl⟩
      · exact ⟨_, rfl⟩
  have all : ∀ (fs : List FlitLoad) (t : State), ∃ ports, fs.foldl (fun t f => t.sendFlit n f) t = { t with ports := ports } := by
    intro fs
    induction fs with
    | nil => exact fun t => ⟨t.ports, rfl⟩
    | cons f fs ih =>
      intro t
      obtain ⟨q, hq⟩ := one t f
      obtain ⟨r, hr⟩ := ih (t.sendFlit n f)
      exact ⟨r, by rw [List.foldl_cons, hr, hq]⟩
  exact all _ s

/-- An access that asks other devices changes the link ports, the accesses under way and their numbers (R339). -/
theorem State.takeOff_spec (s : State) (src : Sender) (i : Option Instr) (sync : Release) (es : List (Elem × List Piece))
    (qs : List Question) (before : List Ask) : ∃ ports f, f.source = src ∧ f.elems = es
      ∧ f.asks = before ++ numbered s.askId qs ∧ f.fmts = s.myCore.fmts ∧ f.instr = i
      ∧ s.takeOff src i sync es qs before = { s with
          ports := ports, flights := (s.flights.filter fun g => g.source ≠ src) ++ [f], askId := s.askId + qs.length } := by
  have all (src : Sender) (sync : Release) : ∀ (l : List Ask) (t : State), ∃ ports,
      l.foldl (fun t a => t.queueFlit a.device (.request a.device src a.id a.addr a.next a.len a.op sync)) t
        = { t with ports := ports } := by
    intro l
    induction l with
    | nil => exact fun t => ⟨t.ports, rfl⟩
    | cons a l ih =>
      intro t
      obtain ⟨q, hq⟩ := t.queueFlit_spec a.device (.request a.device src a.id a.addr a.next a.len a.op sync)
      obtain ⟨r, hr⟩ := ih { t with ports := q }
      exact ⟨r, by rw [List.foldl_cons, hq, hr]⟩
  unfold State.takeOff
  obtain ⟨ports, h⟩ := all src sync (numbered s.askId qs) { s with
    flights := (s.flights.filter fun g => g.source ≠ src) ++ [{
      source := src, elems := es, asks := before ++ numbered s.askId qs, fmts := s.myCore.fmts, caps := s.myCore.capMask
      instr := i, attr := s.attr
      held := if src = s.mySender then s.heldAt s.me.storeQ else [], stopped := none }]
    askId := s.askId + qs.length }
  exact ⟨ports, _, rfl, rfl, rfl, rfl, rfl, h⟩

/-- An answer changes what is known of another device's memory, of its bytes' keys and releases, and the reservations. -/
theorem State.learn_spec (s : State) (src : Sender) (a : Ask) : ∃ remotes keys syncs resvs, s.learn src a =
    { s with remotes := remotes, keys := keys, syncs := syncs, resvs := resvs } := by
  have all (sp : Space) : ∀ (l : List (Nat × Release)) (t : State), ∃ syncs,
      l.foldl (fun t e => t.setSync src.job sp (a.place e.1) 1 e.2) t = { t with syncs := syncs } := by
    intro l
    induction l with
    | nil => exact fun t => ⟨t.syncs, rfl⟩
    | cons e l ih =>
      intro t
      have one : ∃ q, t.setSync src.job sp (a.place e.1) 1 e.2 = { t with syncs := q } := by
        unfold State.setSync
        split <;> exact ⟨_, rfl⟩
      obtain ⟨q, hq⟩ := one
      obtain ⟨r, hr⟩ := ih { t with syncs := q }
      exact ⟨r, by rw [List.foldl_cons, hq, hr]⟩
  unfold State.learn
  split
  · exact ⟨_, _, _, _, rfl⟩
  · split
    · split <;> exact ⟨_, _, _, _, rfl⟩
    · obtain ⟨syncs, h⟩ := all (.remote a.device) _ _
      rw [h]
      exact ⟨_, _, _, _, rfl⟩

/-- When the answers of an access have come, it waits no more, and their bytes are learnt. -/
theorem State.land_spec (s : State) (f : Flight) : ∃ remotes keys syncs resvs, s.land f =
    { s with remotes := remotes, keys := keys, syncs := syncs, resvs := resvs
             flights := s.flights.filter fun g => g.source ≠ f.source } := by
  have all : ∀ (l : List Ask) (t : State), ∃ remotes keys syncs resvs, l.foldr (fun a t => t.learn f.source (a.under f.held)) t =
      { t with remotes := remotes, keys := keys, syncs := syncs, resvs := resvs } := by
    intro l t
    induction l with
    | nil => exact ⟨t.remotes, t.keys, t.syncs, t.resvs, rfl⟩
    | cons a l ih =>
      obtain ⟨r, k, y, v, h⟩ := ih
      obtain ⟨r', k', y', v', h'⟩ := State.learn_spec { t with remotes := r, keys := k, syncs := y, resvs := v } f.source (a.under f.held)
      exact ⟨r', k', y', v', by rw [List.foldr_cons, h, h']⟩
  exact all f.asks _

/-- What a walk can come to: it is ready, knowing what other devices answered; it waits, having perhaps asked more; or a
device that it needs no longer answers (R339). -/
theorem State.walkStep_cases (s : State) (src : Sender) (need : State → List Question) (i : Option Instr) :
    (∃ remotes keys syncs resvs flights, s.walkStep src need i =
      .ready { s with remotes := remotes, keys := keys, syncs := syncs, resvs := resvs, flights := flights })
    ∨ (∃ remotes keys syncs resvs flights ports askId, s.walkStep src need i =
      .waits { s with remotes := remotes, keys := keys, syncs := syncs, resvs := resvs, flights := flights, ports := ports
                      askId := askId })
    ∨ s.walkStep src need i = .lost := by
  have asks (t : State) (l : List Question) (b : List Ask) : ∃ flights ports askId,
      t.takeOff src i ⟨0, 0, 0, 0⟩ [] l b = { t with flights := flights, ports := ports, askId := askId } := by
    obtain ⟨p, f, -, -, -, -, -, h⟩ := t.takeOff_spec src i ⟨0, 0, 0, 0⟩ [] l b
    exact ⟨_, _, _, h⟩
  unfold State.walkStep
  dsimp only
  split
  · split
    · exact .inl ⟨_, _, _, _, _, rfl⟩
    · split
      · exact .inr (.inr rfl)
      · obtain ⟨g, p, n, h⟩ := asks s (need s) []
        refine .inr (.inl ⟨s.remotes, s.keys, s.syncs, s.resvs, g, p, n, ?_⟩)
        rw [h]
  · rename_i f _
    split
    · exact .inr (.inl ⟨_, _, _, _, _, _, _, rfl⟩)
    · obtain ⟨r, k, y, v, hl⟩ := s.land_spec f
      split
      · exact .inl ⟨_, _, _, _, _, by rw [hl]⟩
      · split
        · exact .inr (.inr rfl)
        · obtain ⟨g, p, n, h⟩ := asks (s.land f) ((need (s.land f)).filter fun e =>
            !f.asks.any fun a => a.device = e.device && a.addr = e.addr) f.asks
          refine .inr (.inl ⟨r, k, y, v, g, p, n, ?_⟩)
          rw [h, hl]

end Sys2Proof.Machine
end

