-- ==== Sys2Proof/Laws/Operands.lean ====
section
/-! SUPPORT. Groups of vector registers element by element: what a merged group holds, and what writing a group leaves. -/

namespace Sys2Proof.Machine

/-! ## Elements of a number -/

theorem elemOf_eq (w g i : Nat) : elemOf w g i = g / 2 ^ (w * i) % 2 ^ w := by
  simp [elemOf, Nat.shiftRight_eq_div_pow]

theorem elemOf_lt (w g i : Nat) : elemOf w g i < 2 ^ w := Nat.mod_lt _ (Nat.two_pow_pos w)

/-- Elements of two numbers put side by side, the first of n elements. -/
theorem elemOf_append (w n a b j : Nat) (ha : a < 2 ^ (w * n)) :
    elemOf w (a + b <<< (w * n)) j = if j < n then elemOf w a j else elemOf w b (j - n) := by
  rw [elemOf_eq, elemOf_eq, elemOf_eq, Nat.shiftLeft_eq]
  split
  · rename_i h
    have e1 : w * n = w * j + (w + w * (n - j - 1)) := by
      have : n = j + (1 + (n - j - 1)) := by omega
      conv => lhs; rw [this]
      rw [Nat.mul_add, Nat.mul_add, Nat.mul_one]
    have e2 : b * 2 ^ (w * n) = (b * 2 ^ (w * (n - j - 1)) * 2 ^ w) * 2 ^ (w * j) := by
      rw [e1, Nat.pow_add, Nat.pow_add]
      simp [Nat.mul_comm, Nat.mul_left_comm]
    rw [e2, Nat.add_mul_div_right _ _ (Nat.two_pow_pos _), Nat.add_mul_mod_self_right]
  · rename_i h
    have e1 : 2 ^ (w * j) = 2 ^ (w * n) * 2 ^ (w * (j - n)) := by
      rw [← Nat.pow_add, ← Nat.mul_add]
      congr 2
      omega
    rw [e1, ← Nat.div_div_eq_div_mul, Nat.add_mul_div_right _ _ (Nat.two_pow_pos _), Nat.div_eq_of_lt ha, Nat.zero_add]

/-- Elements of the low n elements of a number. -/
theorem elemOf_mod (w n g j : Nat) (h : j < n) : elemOf w (g % 2 ^ (w * n)) j = elemOf w g j := by
  rw [elemOf_eq, elemOf_eq]
  have e1 : w * n = w * j + (w + w * (n - j - 1)) := by
    have : n = j + (1 + (n - j - 1)) := by omega
    conv => lhs; rw [this]
    rw [Nat.mul_add, Nat.mul_add, Nat.mul_one]
  rw [e1, Nat.pow_add, Nat.mod_mul_right_div_self, Nat.pow_add, Nat.mod_mul_right_mod]

/-- Elements of a number without its low i elements. -/
theorem elemOf_shift (w g i j : Nat) : elemOf w (g >>> (w * i)) j = elemOf w g (i + j) := by
  rw [elemOf_eq, elemOf_eq, Nat.shiftRight_eq_div_pow, Nat.div_div_eq_div_mul, ← Nat.pow_add, ← Nat.mul_add]

/-! ## Merging -/

theorem mergeTree_lt (w bound old : Nat) (act : Nat → Bool) (f : Nat → Nat) (h i : Nat) :
    mergeTree w bound old act f h i < 2 ^ (w * 2 ^ h) := by
  induction h generalizing i with
  | zero =>
    simp only [mergeTree, Nat.pow_zero, Nat.mul_one]
    split
    · exact Nat.mod_lt _ (Nat.two_pow_pos w)
    · exact elemOf_lt w old i
  | succ h ih =>
    unfold mergeTree
    split
    · exact Nat.mod_lt _ (Nat.two_pow_pos _)
    · have h1 := ih i
      have h2 := ih (i + 2 ^ h)
      rw [Nat.shiftLeft_eq, Nat.pow_succ, Nat.mul_two, Nat.mul_add, Nat.pow_add]
      have h3 : (mergeTree w bound old act f h (i + 2 ^ h) + 1) * 2 ^ (w * 2 ^ h) ≤ 2 ^ (w * 2 ^ h) * 2 ^ (w * 2 ^ h) :=
        Nat.mul_le_mul_right _ h2
      rw [Nat.add_mul, Nat.one_mul] at h3
      omega

theorem elemOf_mergeTree (w bound old : Nat) (act : Nat → Bool) (f : Nat → Nat) (h i j : Nat) (hj : j < 2 ^ h) :
    elemOf w (mergeTree w bound old act f h i) j
      = if i + j < bound ∧ act (i + j) then f (i + j) % 2 ^ w else elemOf w old (i + j) := by
  induction h generalizing i j with
  | zero =>
    have : j = 0 := by simpa using hj
    subst this
    simp only [mergeTree, Nat.add_zero, Bool.and_eq_true, decide_eq_true_eq]
    rw [elemOf_eq]
    simp only [Nat.mul_zero, Nat.pow_zero, Nat.div_one]
    split
    · exact Nat.mod_mod _ _
    · exact Nat.mod_eq_of_lt (elemOf_lt w old i)
  | succ h ih =>
    unfold mergeTree
    split
    · rename_i hb
      rw [if_neg (by omega), elemOf_mod _ _ _ _ hj, elemOf_shift]
    · rw [elemOf_append _ _ _ _ _ (mergeTree_lt w bound old act f h i)]
      split
      · rename_i hl
        exact ih i j hl
      · rename_i hl
        have hp : 2 ^ (h + 1) = 2 ^ h + 2 ^ h := by rw [Nat.pow_succ]; omega
        have e : i + 2 ^ h + (j - 2 ^ h) = i + j := by omega
        rw [ih (i + 2 ^ h) (j - 2 ^ h) (by omega), e]

/-- An element of a merged group: the function's where it is active, otherwise the old one. -/
theorem elemOf_mergeElems (w h bound old : Nat) (act : Nat → Bool) (f : Nat → Nat) (i : Nat) (hi : i < 2 ^ h) :
    elemOf w (mergeElems w (2 ^ h) bound old act f) i
      = if i < bound ∧ act i then f i % 2 ^ w else elemOf w old i := by
  unfold mergeElems
  rw [Nat.log2_two_pow, elemOf_mergeTree w bound old act f h 0 i hi]
  simp

theorem mergeElems_lt (w h bound old : Nat) (act : Nat → Bool) (f : Nat → Nat) :
    mergeElems w (2 ^ h) bound old act f < 2 ^ (w * 2 ^ h) := by
  unfold mergeElems
  rw [Nat.log2_two_pow]
  exact mergeTree_lt w bound old act f h 0

/-! ## Groups -/

theorem Strand.group_lt (st : Strand) (first span : Nat) : st.group first span < 2 ^ (16384 * span) := by
  induction span generalizing first with
  | zero => simp [Strand.group]
  | succ n ih =>
    have h1 := ih (first + 1)
    have h2 := (st.getV first).isLt
    unfold Strand.group
    rw [Nat.shiftLeft_eq, show Config.vmax = 16384 from rfl, Nat.mul_add, Nat.mul_one, Nat.pow_add]
    have h3 : (st.group (first + 1) n + 1) * 2 ^ 16384 ≤ 2 ^ (16384 * n) * 2 ^ 16384 := Nat.mul_le_mul_right _ h1
    rw [Nat.add_mul, Nat.one_mul] at h3
    omega

/-- An element of a group lies in one of its registers, n to a register. -/
theorem Strand.elemOf_group (st : Strand) (w n first span i : Nat) (hn : w * n = 16384) (h0 : 0 < n)
    (hi : i < n * span) : elemOf w (st.group first span) i = elemOf w (st.getV (first + i / n)).toNat (i % n) := by
  induction span generalizing first i with
  | zero => simp at hi
  | succ m ih =>
    unfold Strand.group
    rw [show Config.vmax = w * n by rw [hn]; rfl, elemOf_append w n _ _ i (by rw [hn]; exact (st.getV first).isLt)]
    split
    · rename_i h
      rw [Nat.div_eq_of_lt h, Nat.mod_eq_of_lt h, Nat.add_zero]
    · rename_i h
      have hm : i - n < n * m := by
        rw [Nat.mul_add, Nat.mul_one] at hi
        omega
      rw [ih (first + 1) (i - n) hm]
      have e1 : i / n = (i - n) / n + 1 := by
        rw [Nat.div_eq_sub_div h0 (by omega)]
      have e2 : i % n = (i - n) % n := Nat.mod_eq_sub_mod (by omega)
      rw [e1, e2, show first + 1 + (i - n) / n = first + ((i - n) / n + 1) by omega]

/-- What the registers hold after a group is written. -/
theorem Strand.getV_setGroupFrom (st : Strand) (first t : Nat) (wrote : Nat → Bool) (j span g n : Nat) :
    (st.setGroupFrom first t wrote j span g).getV n
      = if first + j ≤ n ∧ n < first + j + span ∧ wrote (n - first) then
          BitVec.ofNat 16384 (g >>> (16384 * (n - first - j))) else st.getV n := by
  induction span generalizing st j g with
  | zero =>
    rw [if_neg (by omega)]
    rfl
  | succ m ih =>
    unfold Strand.setGroupFrom
    simp only [ih, Strand.getV_setTag]
    by_cases hn : n = first + j
    · subst hn
      rw [if_neg (by omega), show first + j - first = j by omega]
      by_cases hw : wrote j
      · rw [if_pos hw, if_pos ⟨by omega, by omega, hw⟩]
        simp
      · rw [if_neg hw, if_neg (fun h => hw h.2.2)]
    · have e1 : (if wrote j = true then st.setV (first + j) (BitVec.ofNat 16384 g) else st).getV n = st.getV n := by
        split <;> simp [hn]
      rw [e1]
      by_cases hin : first + j ≤ n ∧ n < first + j + (m + 1) ∧ wrote (n - first) = true
      · rw [if_pos hin, if_pos ⟨by omega, by omega, hin.2.2⟩, ← Nat.shiftRight_add]
        congr 2
        rw [show Config.vmax = 16384 from rfl]
        omega
      · rw [if_neg hin, if_neg (fun h => hin ⟨by omega, by omega, h.2.2⟩)]

theorem Strand.tag_setGroupFrom (st : Strand) (first t : Nat) (wrote : Nat → Bool) (j span g n : Nat) :
    (st.setGroupFrom first t wrote j span g).tag n
      = if first + j ≤ n ∧ n < first + j + span then t % 256 else st.tag n := by
  induction span generalizing st j g with
  | zero =>
    rw [if_neg (by omega)]
    rfl
  | succ m ih =>
    unfold Strand.setGroupFrom
    simp only [ih, Strand.tag_setTag]
    have e1 : (if wrote j = true then st.setV (first + j) (BitVec.ofNat 16384 g) else st).tag n = st.tag n := by
      split <;> rfl
    rw [e1]
    by_cases hn : n = first + j
    · rw [if_neg (by omega), if_pos hn, if_pos (by omega)]
    · rw [if_neg hn]
      by_cases hin : first + j ≤ n ∧ n < first + j + (m + 1)
      · rw [if_pos hin, if_pos (by omega)]
      · rw [if_neg hin, if_neg (by omega)]

theorem Strand.getV_setGroup (st : Strand) (first span g t : Nat) (wrote : Nat → Bool) (n : Nat) :
    (st.setGroup first span g t wrote).getV n
      = if first ≤ n ∧ n < first + span ∧ wrote (n - first) then
          BitVec.ofNat 16384 (g >>> (16384 * (n - first))) else st.getV n := by
  unfold Strand.setGroup
  simp [Strand.getV_setGroupFrom]

theorem Strand.tag_setGroup (st : Strand) (first span g t : Nat) (wrote : Nat → Bool) (n : Nat) :
    (st.setGroup first span g t wrote).tag n = if first ≤ n ∧ n < first + span then t % 256 else st.tag n := by
  unfold Strand.setGroup
  simp [Strand.tag_setGroupFrom]

/-- Writing a group changes registers, tags and the dirty set, nothing else of the strand. -/
theorem Strand.setGroup_rest (st : Strand) (first span g t : Nat) (wrote : Nat → Bool) :
    ({ st.setGroup first span g t wrote with v := [], tags := [], dirty := 0 } : Strand)
      = { st with v := [], tags := [], dirty := 0 } := by
  have key : ∀ (span : Nat) (st : Strand) (j g : Nat),
      ({ st.setGroupFrom first t wrote j span g with v := [], tags := [], dirty := 0 } : Strand)
        = { st with v := [], tags := [], dirty := 0 } := by
    intro span
    induction span with
    | zero => intro st j g; rfl
    | succ m ih =>
      intro st j g
      unfold Strand.setGroupFrom
      rw [ih]
      split <;> rfl
  exact key span st 0 g

theorem touches_iff (w bound : Nat) (act : Nat → Bool) (j : Nat) :
    touches w bound act j = true
      ↔ ∃ i, Config.vmax / w * j ≤ i ∧ i < Config.vmax / w * (j + 1) ∧ i < bound ∧ act i = true := by
  unfold touches
  simp only [List.any_eq_true, List.mem_range]
  constructor
  · rintro ⟨k, hk, ha⟩
    have h1 : Nat.min bound (Config.vmax / w * (j + 1)) ≤ bound := Nat.min_le_left _ _
    have h2 : Nat.min bound (Config.vmax / w * (j + 1)) ≤ Config.vmax / w * (j + 1) := Nat.min_le_right _ _
    exact ⟨Config.vmax / w * j + k, by omega, by omega, by omega, ha⟩
  · rintro ⟨i, h1, h2, h3, ha⟩
    refine ⟨i - Config.vmax / w * j, ?_, ?_⟩
    · have : i < Nat.min bound (Config.vmax / w * (j + 1)) := Nat.lt_min.mpr ⟨h3, h2⟩
      omega
    · rw [show Config.vmax / w * j + (i - Config.vmax / w * j) = i by omega]
      exact ha

/-- What an instruction that merges a group leaves in it (R150): the function's element where one is active, otherwise the
old one. Here w is the container width, n elements lie in a register, and the group has 2^h elements. -/
theorem Strand.elemOf_mergedGroup (st : Strand) (w n first span h bound t : Nat) (act : Nat → Bool) (f : Nat → Nat)
    (hn : w * n = 16384) (h0 : 0 < n) (hs : n * span = 2 ^ h) (i : Nat) (hi : i < 2 ^ h) :
    elemOf w ((st.setGroup first span
        (mergeElems w (2 ^ h) bound (st.group first span) act f) t (touches w bound act)).group first span) i
      = if i < bound ∧ act i then f i % 2 ^ w else elemOf w (st.group first span) i := by
  have hw : Config.vmax / w = n := by
    rw [show Config.vmax = w * n by rw [hn]; rfl]
    refine Nat.mul_div_cancel_left n ?_
    rcases Nat.eq_zero_or_pos w with h' | h'
    · rw [h'] at hn
      simp at hn
    · exact h'
  have hr : i / n < span := (Nat.div_lt_iff_lt_mul h0).mpr (by rw [Nat.mul_comm, hs]; exact hi)
  rw [Strand.elemOf_group _ w n first span i hn h0 (by rw [hs]; exact hi), Strand.getV_setGroup]
  have hdm := Nat.div_add_mod i n
  have hml := Nat.mod_lt i h0
  by_cases ht : touches w bound act (i / n) = true
  · rw [if_pos ⟨Nat.le_add_right _ _, Nat.add_lt_add_left hr _, by rw [Nat.add_sub_cancel_left]; exact ht⟩, Nat.add_sub_cancel_left,
      ← elemOf_mergeElems w h bound (st.group first span) act f i hi, BitVec.toNat_ofNat, ← hn,
      elemOf_mod _ _ _ _ hml, show w * n * (i / n) = w * (n * (i / n)) by rw [Nat.mul_assoc], elemOf_shift, hdm]
  · rw [if_neg (fun hc => ht (by rw [Nat.add_sub_cancel_left] at hc; exact hc.2.2)),
      Strand.elemOf_group st w n first span i hn h0 (by rw [hs]; exact hi), if_neg]
    rintro ⟨hb, ha⟩
    refine ht ((touches_iff w bound act (i / n)).mpr ⟨i, ?_, ?_, hb, ha⟩)
    · rw [hw]
      omega
    · rw [hw, Nat.mul_add, Nat.mul_one]
      omega

/-- The container width of a tag is a power of two of at most 64. -/
theorem Kind.width_pow (c : Core) (t : Nat) : ∃ n, n ≤ 6 ∧ (c.kind t).width = 2 ^ n := by
  have hf : ∀ v, ∃ n, n ≤ 6 ∧ (Fmt.ofEntry v).w = 2 ^ n := by
    intro v
    unfold Fmt.ofEntry
    split
    · exact ⟨6, by omega, rfl⟩
    · have hw : entryWidth v ≤ 4 := by
        unfold entryWidth
        dsimp only
        repeat' split
        all_goals omega
      exact ⟨2 + entryWidth v, by omega, by rw [Nat.pow_add]⟩
  unfold Core.kind
  simp only
  repeat' split
  · exact ⟨3 + tagCode t, by omega, by rw [Kind.width, Nat.pow_add]⟩
  · exact ⟨3 + (tagCode t - 4), by omega, by rw [Kind.width, Nat.pow_add]⟩
  · exact ⟨4, by omega, rfl⟩
  · exact ⟨4, by omega, rfl⟩
  · exact ⟨5, by omega, rfl⟩
  · exact ⟨6, by omega, rfl⟩
  · exact ⟨0, by omega, rfl⟩
  · rename_i h
    simp at h
    exact ⟨tagCode t - 0x10, by omega, rfl⟩
  · exact hf _
  · exact ⟨3, by omega, rfl⟩

end Sys2Proof.Machine
end

