-- ==== Sys2Proof/Laws/Vector.lean ====
section
/-! SUPPORT. The tests before a vector instruction and its completion: when the gate is open, what finishing leaves, and what
the shared element-by-element frames do. -/

namespace Sys2Proof.Machine

/-! ## Tests -/

theorem State.classTrap_none (s : State) (l : List Nat) (h : ∀ b ∈ l, s.offers b) : s.classTrap l = none := by
  have h1 : l.find? (fun b => !s.myCore.useMask.getLsbD b) = none :=
    List.find?_eq_none.mpr fun b hb => by simp [(h b hb).1]
  have h2 : l.find? (fun b => !s.myCore.capMask.getLsbD b) = none :=
    List.find?_eq_none.mpr fun b hb => by simp [(h b hb).2]
  simp [State.classTrap, h1, h2]

/-- A scalar instruction of an offered class is performed. -/
theorem State.scalarGate_open (s : State) (b : Nat) (k : State → Res) (h : s.offers b) : s.scalarGate b k = k s := by
  simp [State.scalarGate, State.classTrap_none s [b] (by simpa using h)]

/-- The registers of some groups as bits. -/
theorem groupSet_testBit (gs : List Group) (n : Nat) :
    (groupSet gs).testBit n = true ↔ n < 32 ∧ ∃ g ∈ gs, g.first ≤ n ∧ n < g.first + g.span := by
  have key : ∀ (l : List Nat) (a : Nat),
      (l.foldl (fun acc n => if gs.any (fun g => g.first ≤ n && n < g.first + g.span) then acc ||| 2 ^ n else acc) a).testBit n
        = true ↔ a.testBit n = true ∨ n ∈ l ∧ ∃ g ∈ gs, g.first ≤ n ∧ n < g.first + g.span := by
    intro l
    induction l with
    | nil => simp
    | cons k l ih =>
      intro a
      rw [List.foldl_cons, ih]
      split
      · rename_i hg
        simp only [List.any_eq_true, Bool.and_eq_true, decide_eq_true_eq] at hg
        rw [Nat.testBit_or, Nat.testBit_two_pow]
        simp only [Bool.or_eq_true, decide_eq_true_eq, List.mem_cons]
        constructor
        · rintro ((h | h) | ⟨h1, h2⟩)
          · exact .inl h
          · subst h
            exact .inr ⟨.inl rfl, hg⟩
          · exact .inr ⟨.inr h1, h2⟩
        · rintro (h | ⟨h1 | h1, h2⟩)
          · exact .inl (.inl h)
          · exact .inl (.inr h1.symm)
          · exact .inr ⟨h1, h2⟩
      · rename_i hg
        simp only [List.any_eq_true, Bool.and_eq_true, decide_eq_true_eq] at hg
        simp only [List.mem_cons]
        constructor
        · rintro (h | ⟨h1, h2⟩)
          · exact .inl h
          · exact .inr ⟨.inr h1, h2⟩
        · rintro (h | ⟨h1 | h1, h2⟩)
          · exact .inl h
          · subst h1
            exact absurd h2 hg
          · exact .inr ⟨h1, h2⟩
  unfold groupSet
  rw [key]
  simp

/-- Nothing that an instruction names is absent (R322). -/
theorem Strand.absentTrap_none (st : Strand) (gs : List Group) (masks : Bool)
    (h : ∀ g ∈ gs, ∀ n, g.first ≤ n → n < g.first + g.span → st.vabs.getLsbD n = false)
    (hm : masks = true → st.vabs.getLsbD 32 = false) : st.absentTrap gs masks = none := by
  have h0 : groupSet gs &&& st.vabs.toNat = 0 := by
    apply Nat.eq_of_testBit_eq
    intro n
    rw [Nat.testBit_and, Nat.zero_testBit, Bool.and_eq_false_iff]
    by_cases hb : (groupSet gs).testBit n = true
    · obtain ⟨_, g, hg, h1, h2⟩ := (groupSet_testBit gs n).mp hb
      exact .inr (h g hg n h1 h2)
    · exact .inl (by simpa using hb)
  have hc : (masks && st.vabs.getLsbD 32) = false := by
    cases masks
    · rfl
    · exact hm rfl
  unfold Strand.absentTrap
  rw [h0, hc]
  rfl

/-- Aligned groups of one size are equal or apart. -/
theorem groups_open (vgrp : Nat) (dst src : List Reg) (h : ∀ r ∈ dst ++ src, r.toNat % vgrp = 0) :
    groupsIllegal (dst.map fun r => ⟨r.toNat, vgrp⟩) (src.map fun r => ⟨r.toNat, vgrp⟩) = false := by
  have h1 : ((dst.map fun r : Reg => (⟨r.toNat, vgrp⟩ : Group)) ++ src.map fun r : Reg => (⟨r.toNat, vgrp⟩ : Group)).any
      (fun g => decide (g.first % g.span ≠ 0)) = false := by
    rw [← List.map_append, List.any_map, List.any_eq_false]
    intro r hr
    simp [h r hr]
  have h2 : ((dst.map fun r : Reg => (⟨r.toNat, vgrp⟩ : Group)).any fun d =>
      (src.map fun r : Reg => (⟨r.toNat, vgrp⟩ : Group)).any fun g => d.partly g) = false := by
    rw [List.any_map, List.any_eq_false]
    intro d hd
    simp only [Function.comp_apply, List.any_map, Bool.not_eq_true, List.any_eq_false]
    intro r hr
    have e1 := h d (List.mem_append_left _ hd)
    have e2 := h r (List.mem_append_right _ hr)
    simp only [Group.partly, Group.meets, Bool.and_eq_false_iff, decide_eq_false_iff_not]
    obtain ⟨x, hx⟩ := Nat.dvd_of_mod_eq_zero e1
    obtain ⟨y, hy⟩ := Nat.dvd_of_mod_eq_zero e2
    by_cases hxy : x = y
    · exact .inr (by simp [hx, hy, hxy])
    · rcases Nat.lt_or_gt_of_ne hxy with hlt | hlt
      · have := Nat.mul_le_mul_left vgrp hlt
        rw [Nat.succ_eq_add_one, Nat.mul_add, Nat.mul_one] at this
        exact .inl (.inr (by omega))
      · have := Nat.mul_le_mul_left vgrp hlt
        rw [Nat.succ_eq_add_one, Nat.mul_add, Nat.mul_one] at this
        exact .inl (.inl (by omega))
  unfold groupsIllegal
  rw [h2, h1]
  rfl

theorem Strand.vgrp_pos (st : Strand) (h : st.controlOk) : 0 < st.vgrp := by
  obtain ⟨h | h | h | h, _⟩ := h <;> omega

/-- A vector instruction that is ready passes its gate. -/
theorem State.gate_open (s : State) (i : Instr) (b : Nat) (dst src named : List Reg) (regs srcs : List Reg) (masks : Bool)
    (tag : Nat) (accept : Kind → Bool) (h : s.ready b regs srcs masks tag accept)
    (h1 : ∀ r ∈ dst ++ src, r ∈ regs) (h2 : ∀ r ∈ named, r ∈ regs) :
    s.gate i b (dst.map s.grp) (src.map s.grp) (named.map s.grp) masks = none := by
  obtain ⟨hc, ho, hr, hm, _⟩ := h
  have e : s.grp = fun r => (⟨r.toNat, s.me.vgrp⟩ : Group) := rfl
  have ha : s.me.absentTrap (named.map s.grp) masks = none := by
    refine Strand.absentTrap_none _ _ _ ?_ hm
    intro g hg n g1 g2
    obtain ⟨r, hr', rfl⟩ := List.mem_map.mp hg
    have hj := (hr r (h2 r hr')).2 (n - r.toNat)
    simp only [e] at g1 g2
    have := hj (by omega)
    rwa [show r.toNat + (n - r.toNat) = n by omega] at this
  have hg : groupsIllegal (dst.map s.grp) (src.map s.grp) = false := by
    rw [e]
    exact groups_open _ dst src fun r hr' => (hr r (h1 r hr')).1
  simp [State.gate, hg, State.classTrap_none s [b] (by simpa using ho), ha]

/-- Its issue tests pass too. -/
theorem State.tagTrap_open (s : State) (i : Instr) (b : Nat) (regs srcs : List Reg) (masks : Bool) (tag : Nat)
    (accept : Kind → Bool) (h : s.ready b regs srcs masks tag accept) (used : List Nat)
    (hu : ∀ u ∈ used, u ∈ srcs.map fun r => s.me.tag r.toNat) :
    s.tagTrap i (some tag) accept used = none := by
  obtain ⟨_, _, _, _, _, ha, hf⟩ := h
  have hc : s.classTrap ((used ++ [tag]).flatMap tagClasses) = none := by
    refine State.classTrap_none s _ fun c hc => ?_
    obtain ⟨u, hu', hc⟩ := List.mem_flatMap.mp hc
    rcases List.mem_append.mp hu' with hu' | hu'
    · exact hf u (List.mem_cons_of_mem _ (hu u hu')) c hc
    · refine hf u ?_ c hc
      simp at hu'
      simp [hu']
  simp only [State.tagTrap, ha, if_true, hc]

/-! ## Completion -/

theorem State.sameBytes_of (s t : State) (h : ({ t with cores := [] } : State) = { s with cores := [] })
    (hc : ∀ p, (t.core p).spad = (s.core p).spad ∧ (t.core p).sdm = (s.core p).sdm) : s.sameBytes t := by
  intro sp a
  cases sp with
  | device =>
    have e := congrArg State.devMem h
    change t.devMem = s.devMem at e
    simp only [State.memOf, e]
  | host =>
    have e := congrArg State.hostMem h
    change t.hostMem = s.hostMem at e
    simp only [State.memOf, e]
  | spad p => simp only [State.memOf, (hc p).1]
  | sdm p => simp only [State.memOf, (hc p).2]
  | remote n =>
    have e := congrArg State.remotes h
    change t.remotes = s.remotes at e
    simp only [State.memOf, e]

/-- A new value of the current strand changes nothing else. -/
theorem State.onlyMe_setMe (s : State) (st : Strand) : s.onlyMe (s.setMe st) := by
  have hcore : (s.setMe st).core s.curCore = (s.core s.curCore).setStrand s.curStrand st := by
    simp [State.setMe, State.setMyCore, State.myCore]
  have hother : ∀ p, p ≠ s.curCore → (s.setMe st).core p = s.core p := fun p hp => s.core_setCore_ne _ _ _ hp
  refine ⟨hother, ?_, ?_, ?_, rfl, .inl rfl, ?_⟩
  · intro k hk
    rw [hcore]
    exact Core.strand_setStrand_ne _ _ _ _ hk
  · rw [hcore]
    rfl
  · intro k hk
    rw [hcore]
    exact Core.kpre_setStrand_ne _ _ _ _ hk
  · refine State.sameBytes_of _ _ rfl fun p => ?_
    by_cases hp : p = s.curCore
    · subst hp
      rw [hcore]
      exact ⟨rfl, rfl⟩
    · rw [hother p hp]
      exact ⟨rfl, rfl⟩

theorem Strand.retire_data (st : Strand) (n : Nat) : (st.retire n).data = { st with wd := 0, waiting := none }.data := by
  unfold Strand.retire Strand.goOn
  split
  · split
    · rfl
    · unfold Strand.endBlock
      split <;> rfl
  · rfl

/-- Finishing an instruction: the strand keeps its registers, raises the conditions, and goes on or takes the float trap;
nothing else changes. -/
theorem State.finish_spec (s : State) (st : Strand) (fl : Flags) :
    (s.finish st fl).me.data = { st.data with fstat := st.fstat ||| fl.setWidth 64 } ∧ s.onlyMe (s.finish st fl) := by
  unfold State.finish
  simp only
  split
  · refine ⟨?_, State.onlyMe_setMe _ _⟩
    rw [State.me_setMe, Strand.retire_data]
    rfl
  · refine ⟨?_, State.onlyMe_setMe _ _⟩
    rw [State.me_setMe]
    rfl

/-- With no condition raised it retires. -/
theorem State.finish_zero (s : State) (st : Strand) : s.finish st 0 = s.setMe ((st.raise 0).retire s.ilen) := by
  simp [State.finish]

theorem Strand.raise_zero (st : Strand) : st.raise 0 = st := by simp [Strand.raise]

theorem Strand.retire_self (st : Strand) (n : Nat) (h : st.st = .self) :
    (st.retire n).st = .self ∧ (st.retire n).pc = st.pc + BitVec.ofNat 64 n := by
  simp [Strand.retire, Strand.goOn, h]

theorem Strand.group_congr (a b : Strand) (h : ∀ n, a.getV n = b.getV n) (first span : Nat) :
    a.group first span = b.group first span := by
  induction span generalizing first with
  | zero => rfl
  | succ n ih => simp only [Strand.group, h, ih]

/-- A register's tag is a byte. -/
theorem Strand.tag_lt (st : Strand) (n : Nat) : st.tag n < 256 := (Table.get (3 : BitVec 8) st.tags n).isLt

/-- The outcome of merging a group and finishing: what every element-by-element instruction leaves (R145, R150, R152). The
width is one that a tag gives. -/
theorem State.merge_outcome (s : State) (d : Reg) (tag n bound : Nat) (act : Nat → Bool) (f : Nat → Nat) (fl : Flags)
    (hc : s.me.controlOk) (hn : n ≤ 6) (ht : tag < 256) :
    s.vectorOutcome (.next (s.finishVector (s.me.setGroup d.toNat s.me.vgrp
        (mergeElems (2 ^ n) (s.me.vl (2 ^ n)) bound (s.me.group d.toNat s.me.vgrp) act f) tag
        (touches (2 ^ n) bound act)) fl)) d tag (2 ^ n) (fl = 0)
      fun e => if e < bound ∧ act e then some (f e % 2 ^ 2 ^ n) else none := by
  obtain ⟨q, hq⟩ : ∃ q, s.me.vgrp = 2 ^ q := by
    obtain ⟨h | h | h | h, _⟩ := hc
    · exact ⟨0, h⟩
    · exact ⟨1, h⟩
    · exact ⟨2, h⟩
    · exact ⟨3, h⟩
  have e14 : 16384 = 2 ^ n * 2 ^ (14 - n) := by
    rw [← Nat.pow_add, show n + (14 - n) = 14 by omega]
  have hvl : 16384 * s.me.vgrp / 2 ^ n = 2 ^ (14 - n + q) := by
    rw [hq, e14, Nat.mul_assoc, Nat.mul_div_cancel_left _ (Nat.two_pow_pos n), ← Nat.pow_add]
  have hvl' : s.me.vl (2 ^ n) = 2 ^ (14 - n + q) := hvl
  have hspan : 2 ^ (14 - n) * s.me.vgrp = 2 ^ (14 - n + q) := by rw [hq, Nat.pow_add]
  obtain ⟨hd, ho⟩ := State.finish_spec s ({ s.me.setGroup d.toNat s.me.vgrp
    (mergeElems (2 ^ n) (s.me.vl (2 ^ n)) bound (s.me.group d.toNat s.me.vgrp) act f) tag
    (touches (2 ^ n) bound act) with vstart := 0 }) fl
  have hrest := Strand.setGroup_rest s.me d.toNat s.me.vgrp
    (mergeElems (2 ^ n) (s.me.vl (2 ^ n)) bound (s.me.group d.toNat s.me.vgrp) act f) tag (touches (2 ^ n) bound act)
  have hgv := Strand.getV_setGroup s.me d.toNat s.me.vgrp
    (mergeElems (2 ^ n) (s.me.vl (2 ^ n)) bound (s.me.group d.toNat s.me.vgrp) act f) tag (touches (2 ^ n) bound act)
  have htag := Strand.tag_setGroup s.me d.toNat s.me.vgrp
    (mergeElems (2 ^ n) (s.me.vl (2 ^ n)) bound (s.me.group d.toNat s.me.vgrp) act f) tag (touches (2 ^ n) bound act)
  have hel := Strand.elemOf_mergedGroup s.me (2 ^ n) (2 ^ (14 - n)) d.toNat s.me.vgrp (14 - n + q) bound tag act f e14.symm
    (Nat.two_pow_pos _) hspan
  rw [← hvl'] at hel
  generalize hst : s.me.setGroup d.toNat s.me.vgrp
    (mergeElems (2 ^ n) (s.me.vl (2 ^ n)) bound (s.me.group d.toNat s.me.vgrp) act f) tag (touches (2 ^ n) bound act) = st at *
  generalize hu : s.finishVector st fl = u
  change s.finish { st with vstart := 0 } fl = u at hu
  rw [hu] at hd ho
  have hv : u.me.v = st.v := by
    have e := congrArg Strand.v hd
    exact e
  have htg : u.me.tags = st.tags := by
    have e := congrArg Strand.tags hd
    exact e
  have hV : ∀ r, u.me.getV r = st.getV r := fun r => by simp only [Strand.getV, hv]
  have hT : ∀ r, u.me.tag r = st.tag r := fun r => by simp only [Strand.tag, htg]
  refine ⟨u, rfl, ?_, ?_, ?_, ?_, ?_, ?_, ho⟩
  · intro e he
    rw [Strand.group_congr _ _ hV, hel e (by rw [hvl', ← hvl]; exact he)]
    by_cases hb : e < bound ∧ act e = true
    · simp only [if_pos hb, Option.getD_some]
    · simp only [if_neg hb, Option.getD_none]
  · intro r
    rw [hT, htag, Nat.mod_eq_of_lt ht]
  · intro r hr
    rw [hV, hgv, if_neg (by omega)]
  · have e1 : ({ u.me.data with v := [], tags := [], dirty := 0, vstart := 0, fstat := 0 } : Strand)
        = { ({ st with v := [], tags := [], dirty := 0 } : Strand).data with vstart := 0, fstat := 0 } := by
      rw [hd]
      rfl
    rw [e1, hrest]
    rfl
  · have e := congrArg Strand.vstart hd
    exact e
  · intro hq'
    have hfl : fl = 0 := by simpa using hq'
    subst hfl
    have e2 : s.me.fstat = st.fstat := by
      have e := congrArg Strand.fstat hrest
      exact e.symm
    have e3 : s.me.st = st.st := by
      have e := congrArg Strand.st hrest
      exact e.symm
    have e4 : s.me.pc = st.pc := by
      have e := congrArg Strand.pc hrest
      exact e.symm
    rw [State.finish_zero, Strand.raise_zero] at hu
    subst hu
    rw [State.me_setMe]
    refine ⟨?_, fun hs => ?_⟩
    · rw [e2]
      simp
    · rw [e4]
      exact Strand.retire_self _ _ (by rw [← hs, e3])

end Sys2Proof.Machine
end

