-- ==== Sys2Proof/Tests/Slice0.lean ====
section
/-! SUPPORT. The writer's own tests: ill-formed terms refused, words written out from the encoding tables, single steps with
results worked out by hand from the rules, and for every statement a state and operands that meet its hypotheses. -/

namespace Sys2Proof.Tests

-- One theorem after the other: each closes by an evaluation in the kernel, and many at once need many stacks.
set_option Elab.async false

open Sys2Proof.Machine

/-! ## Ill-formed terms, one for each check -/

theorem test_wf_tag : (Instr.vcfg 0 0x0D).wf = false := by decide
theorem test_wf_tag_alt : (Instr.vtag 0 0x43).wf = false := by decide
theorem test_wf_strip_width : (Instr.stripN 1 2 7).wf = false := by decide
theorem test_wf_governing : (Instr.vadd 1 2 3 24 false false).wf = false := by decide
theorem test_wf_mask : (Instr.mand 24 0 0).wf = false := by decide
theorem test_wf_carry_mask : (Instr.vadc 1 2 3 31 false false).wf = false := by decide
theorem test_wf_tile : (Instr.mzero 8).wf = false := by decide
theorem test_wf_integer_rsd : (Instr.vmulh 1 2 3 31 false false .rsd).wf = false := by decide
theorem test_wf_register : (Instr.scrr 1 29).wf = false := by decide
theorem test_wf_attribute_order : (Instr.memoryAttributeWord .dev .rel (.vld 4 5 31)).wf = false := by decide
theorem test_wf_attribute_inner : (Instr.memoryAttributeWord .dev .acq (.vld 4 5 30)).wf = false := by decide
theorem test_wf_rv_size : (Instr.controlHartInstruction (.load 3 false 1 2 0) false).wf = false := by decide
theorem test_wf_rv_unsigned : (Instr.controlHartInstruction (.load 8 true 1 2 0) false).wf = false := by decide
theorem test_wf_rv_store : (Instr.controlHartInstruction (.store 16 1 2 0) false).wf = false := by decide
theorem test_wf_core : (Instr.blockStart 192 0).wf = false := by decide
theorem test_wf_strand : (Instr.watchdogExpiry 0 24).wf = false := by decide
theorem test_wf_stack : (Instr.nmrReduceApply 8).wf = false := by decide
theorem test_wf_class_queue : (Instr.recordRead 8).wf = false := by decide
theorem test_wf_port : (Instr.retrainAttemptEnd 18 true).wf = false := by decide
theorem test_wf_link_width : (Instr.linkWidthChange 0 4).wf = false := by decide
theorem test_wf_class : (Instr.classFence 0 11).wf = false := by decide
theorem test_wf_phases : (Instr.phaseLoss 0 17).wf = false := by decide
theorem test_wf_lane_group : (Instr.laneGroupRetire 0 4).wf = false := by decide

/-! ## Words written out from the encoding tables (R46 to R53, R60, R95) -/

/-- A word's instruction. -/
def word (w : IWord) : Option Instr := (decodeWord w).toOption

theorem test_decode_add : word 0b000001_00011_00101_01001_00000_000000 = some (.add 3 5 9) := by decide
theorem test_decode_fsh : word 0b000001_00011_00101_01001_10101_111111 = some (.fsh 3 5 9 63) := by decide
theorem test_decode_jalr : word 0b000001_00001_11111_00010_11001_000000 = some (.jalr 1 31 2) := by decide
theorem test_decode_lw : word 0b000001_00110_00111_01000_11010_010110 = some (.lw 6 7 8 .die true) := by decide
theorem test_decode_sd : word 0b000001_00110_00111_01000_11100_000011 = some (.sd 6 7 8 .strand false) := by decide
theorem test_decode_stop : word 0b000001_00000_00000_00000_11101_000000 = some .stop := by decide
theorem test_decode_addi : word 0b000010_00001_00010_1111111111111111 = some (.addi 1 2 0xFFFF) := by decide
theorem test_decode_jal : word 0b001000_00001_100000000000000000001 = some (.jal 1 0x100001) := by decide
theorem test_decode_lpc : word 0b001001_00101_1_00000000000000000111 = some (.lpc 5 7) := by decide
theorem test_decode_bgeu : word 0b001111_00001_00010_1111111111111110 = some (.bgeu 1 2 0xFFFE) := by decide
theorem test_decode_vcfg : word 0b010000_000_10_000_0001010_00000000000 = some (.vcfg 2 0x0A) := by decide
theorem test_decode_strip : word 0b010001_00101_00001_00011_00000_000101 = some (.stripLt 5 1 3 5) := by decide
theorem test_decode_vcmp : word 0b010010_00010_00100_00110_11111_100010 = some (.vcmpLt 2 4 6 31 true false) := by decide
theorem test_decode_mand : word 0b010011_00010_00011_00101_00000_000000 = some (.mand 2 3 5) := by decide
theorem test_decode_mcnt : word 0b010100_00100_00110_00000_00000_000000 = some (.mcnt 4 6) := by decide
theorem test_decode_vadc : word 0b011000_00011_00011_01000_00100_000010 = some (.vadc 3 3 8 4 false false) := by decide
theorem test_decode_vfsh : word 0b011001_00011_00100_01000_11111_001001 = some (.vfsh 3 4 8 31 false false) := by decide
theorem test_decode_vavg : word 0b011010_00100_01000_01100_11111_101001 = some (.vavg 4 8 12 31 true false .rz) := by decide
theorem test_decode_vbfi : word 0b011011_00100_01000_01100_11111_000100 = some (.vbfi 4 8 12 31 false false) := by decide
theorem test_decode_viota : word 0b011100_00100_00000_00000_00011_000010 = some (.viota 4 3) := by decide
theorem test_decode_vredmax : word 0b011101_00100_01000_01100_11111_000010 = some (.vredmax 4 8 12 31 false false) := by decide
theorem test_decode_vgath : word 0b100100_01000_10000_11000_11111_000010 = some (.vgath 8 16 24 31 false false) := by decide
theorem test_decode_vtopk : word 0b100101_01000_10000_00011_11111_000000 = some (.vtopk 8 16 3 31 false) := by decide
theorem test_decode_vst : word 0b101000_00100_00000_01000_11111_000001 = some (.vst 4 8 31 false) := by decide
theorem test_decode_vldx : word 0b101010_00100_00101_01000_11111_010000 = some (.vldx 4 5 8 31 true) := by decide
theorem test_decode_vstseg : word 0b101011_00100_00000_01000_11111_000001 = some (.vstseg 4 8 31 false) := by decide
theorem test_decode_vamo : word 0b101100_00100_01000_01100_11111_000110 = some (.vamoSwap 4 8 12 31 false false) := by decide
theorem test_decode_vcas : word 0b101101_00100_01000_01100_11111_000000 = some (.vcas 4 8 12 31 false false) := by decide
theorem test_decode_fence : word 0b101110_00000_00000_00011_00000_000000 = some (.fence .dev) := by decide
theorem test_decode_pair : (decodeStrand 0b101111_000000000000000000000_011_01
    (some 0b101000_00100_00101_00000_11111_000000)).toOption = some (.memoryAttributeWord .dev .acq (.vld 4 5 31)) := by decide
theorem test_decode_fma : word 0b110001_00010_00100_00110_11111_011010 = some (.fma 2 4 6 31 false true .rdn) := by decide
theorem test_decode_fspec : word 0b110100_00010_00100_00010_11111_001000 = some (.fspecRcp 2 4 31 false .rne) := by decide
theorem test_decode_vblk : word 0b110101_00010_00100_00001_11111_000110 = some (.vblk 2 4 .rz 31 false) := by decide
theorem test_decode_mopas : word 0b110110_00001_00100_01000_00011_000001 = some (.mopas 1 4 8 3 false false) := by decide
theorem test_decode_mrnd : word 0b110111_00010_00001_00100_11111_000000 = some (.mrnd 2 1 4 31 .rne) := by decide
theorem test_decode_mstat : word 0b111000_00010_00001_00000_00000_000011 = some (.mstat 2 1) := by decide
theorem test_decode_mload : word 0b111001_00001_00010_00000_00000_000011 = some (.mload 1 2) := by decide
theorem test_decode_cprob : word 0b111010_00100_01000_00011_11111_000001 = some (.cprob 4 8 3 31 false) := by decide
theorem test_decode_cfb1 : word 0b111011_00100_01000_01100_00011_110000 = some (.cfb1 4 8 12 3 true true) := by decide
theorem test_decode_xcp : word 0b111100_00001_00010_00011_00000_101110 = some (.xcp 1 2 3 .sys .acqRel) := by decide
theorem test_decode_qdeq : word 0b111101_00001_00010_00011_00010_001000 = some (.qdeq 1 2 3 .core .rlx) := by decide
theorem test_decode_scrw : word 0b111110_00000_00111_00000_00001_001101 = some (.scrw 7 13) := by decide
theorem test_decode_kbcast : decodeExtension 0b0000000_00011_00010_000_00001_0001011 = some (.kbcast 3 2 1) := by decide
theorem test_decode_kresume : decodeExtension 0b0000000_00000_00010_000_00001_0101011 = some (.kresume 2 1) := by decide
theorem test_decode_rv_addi : decodeHart 0b111111111111_00010_000_00001_0010011
    = .controlHartInstruction (.aluImm .add 1 2 0xFFF) false := by decide
theorem test_decode_rv_beq : decodeHart 0b1_111111_00010_00001_000_1110_1_1100011
    = .controlHartInstruction (.branch .eq 1 2 0x1FFC) false := by decide
theorem test_decode_rv_amo : decodeHart 0b00000_1_0_00011_00010_011_00001_0101111
    = .controlHartInstruction (.amo .add true true false 1 2 3) false := by decide
theorem test_decode_rv_cli : decodeHart 0b010_1_00101_11111_01
    = .controlHartInstruction (.aluImm .add 5 0 0xFFF) true := by decide
theorem test_decode_zero_word : word 0 = none := by decide
theorem test_decode_reserved_bit : word 0b000001_00011_00101_01001_00000_000001 = none := by decide
theorem test_decode_unassigned_major : word 0b010101_00011_00101_01001_00000_000000 = none := by decide

/-! ## States for the steps and the witnesses -/

/-- Strand 0 of core 0 in SELF at 0x10000, in a job that declares every class, the first GiB mapped to itself. -/
def base : State := State.reset.withFetchWord 32 0x04000740

/-- The same with the current strand changed. -/
def withStrand (s : State) (f : Strand → Strand) : State := s.setMe (f s.me)

/-- The same with the current core changed. -/
def withCore (s : State) (f : Core → Core) : State := s.setMyCore (f s.myCore)

/-- A strand that runs a block of four words from its PC. -/
def inBlock : State := withStrand base fun st => { st with st := .block, blk := some { addr := 0x10000, words := 4 } }

/-- A core in deterministic mode. -/
def det : State := withCore base fun c => { c with place := c.place.map fun p => { p with det := true } }

/-- Vector state: `sbound` 2, x1 an address, x2 a stride, and a tag for v4 to v7. -/
def lanes (t : BitVec 8) : State := withStrand base fun st =>
  { st with sbound := 2, x := [(1, 0x20000), (2, 8), (3, 0x30000)],
            tags := if t = 3 then [] else [(4, t), (5, t), (6, t), (7, t)] }

/-- The outcome is a next state that passes a test. -/
def nextIs (r : Res) (p : State → Bool) : Bool := match r with
  | .next t => p t
  | _ => false

theorem controlOk_of (st : Strand) (h : decide (st.vgrp = 1 ∨ st.vgrp = 2 ∨ st.vgrp = 4 ∨ st.vgrp = 8) = true)
    (hc : decide (2 ≤ st.cwidth.toNat ∧ st.cwidth.toNat ≤ 8) = true)
    (ht : st.tags.all (fun e => tagOk e.2.toNat) = true) : st.controlOk := by
  refine ⟨of_decide_eq_true h, (of_decide_eq_true hc).1, (of_decide_eq_true hc).2, fun r => ?_⟩
  have key : ∀ t : Table (BitVec 8), t.all (fun e => tagOk e.2.toNat) = true → tagOk (Table.get 3 t r).toNat = true := by
    intro t
    induction t with
    | nil => intro _; rfl
    | cons e t ih =>
      intro h
      simp only [List.all_cons, Bool.and_eq_true] at h
      unfold Table.get
      split
      · exact h.1
      · exact ih h.2
  exact key st.tags ht

theorem live_lt {s : State} {atomic : Bool} {m : Reg} {w e : Nat} (h : s.live atomic m w e = true) : e < s.me.sbound.toNat := by
  simp only [State.live, State.active, Bool.and_eq_true, decide_eq_true_eq] at h
  exact h.1.1.2

/-- What holds of the live elements below a bound holds of all of them. -/
theorem live_all {s : State} {atomic : Bool} {m : Reg} {w : Nat} {p : Nat → Prop} (n : Nat)
    (hn : decide (s.me.sbound.toNat ≤ n) = true) (h : ∀ e, e < n → s.live atomic m w e = true → p e) :
    ∀ e, s.live atomic m w e = true → p e :=
  fun e he => h e (Nat.lt_of_lt_of_le (live_lt he) (of_decide_eq_true hn)) he

theorem base_offers : ∀ b ∈ [0, 1, 2, 3, 4, 5, 6, 7, 8, 9, 10, 16, 17, 18, 19, 20], base.offers b := by
  unfold State.offers; decide +kernel


/-- What `State.performsNow` says, as a test. -/
def performs (s : State) (src : Sender) (acc : Access) (sp : Space) (x n : Nat) : Bool :=
  (s.flight src).isNone && (match sp with | .remote _ => false | _ => true) && !s.reducesMeet [{ space := sp, addr := x, len := n }]
    && !s.unitWaits src acc.writes [{ space := sp, addr := x, len := n }] && (decide (acc ≠ .load) || !s.heldUnplaced)

theorem performs_iff (s : State) (src : Sender) (acc : Access) (sp : Space) (x n : Nat) :
    s.performsNow src acc sp x n ↔ performs s src acc sp x n = true := by
  unfold State.performsNow performs
  cases sp <;> cases acc <;> simp [Option.isNone_iff_eq_none, and_assoc]

/-- What `State.walksHere` says, as a test. -/
def walks (s : State) (agent va n : Nat) : Bool :=
  (s.flight (s.senderOf (walkAgent agent))).isNone && decide (s.tableAsks s.curCore (pagesOf (runsOf va n)) = [])

theorem walks_iff (s : State) (agent va n : Nat) : s.walksHere agent va n ↔ walks s agent va n = true := by
  simp only [State.walksHere, walks, Bool.and_eq_true, Option.isNone_iff_eq_none, decide_eq_true_eq]

theorem findsAt_iff (s : State) (acc : Access) (E n : Nat) (sp : Space) (x : Nat) : s.findsAt acc E n sp x ↔
    (E % n = 0 ∧ s.translate s.curCore acc false E n = .at_ sp x) ∧ performs s s.mySender acc sp x n = true
      ∧ walks s s.curStrand E n = true := by
  simp only [State.findsAt, State.liesAt, performs_iff, walks_iff]

theorem findsBytes_iff (s : State) (acc : Access) (E n : Nat) (at_ : Nat → Space × Nat) : s.findsBytes acc E n at_ ↔
    walks s s.curStrand E n = true ∧ ∀ k, k < n →
      s.translate s.curCore acc false ((E + k) % 2 ^ 64) 1 = .at_ (at_ k).1 (at_ k).2
        ∧ performs s s.mySender acc (at_ k).1 (at_ k).2 1 = true := by
  simp only [State.findsBytes, performs_iff, walks_iff]

theorem route_of {s : State} {n p : Nat} (h : s.route n = some p) : ∃ e ∈ s.routes, e.2.getLsbD 5 = true ∧ e.2.toNat % 32 = p := by
  simp only [State.route] at h
  have key : ∀ t : Table (BitVec 6), (Table.get 0 t n).getLsbD 5 = true → ∃ e ∈ t, e.2 = Table.get 0 t n := by
    intro t
    induction t with
    | nil => intro h; simp [Table.get] at h
    | cons e t ih =>
      intro h
      unfold Table.get at h ⊢
      split at h
      · rename_i hk
        exact ⟨e, by simp, by simp [hk]⟩
      · rename_i hk
        obtain ⟨e', he, hv⟩ := ih h
        exact ⟨e', by simp [he], by simp [hk, hv]⟩
  split at h
  · rename_i hb
    obtain ⟨e, he, hv⟩ := key s.routes hb
    refine ⟨e, he, by rw [hv]; exact hb, ?_⟩
    rw [hv]
    exact Option.some.inj h
  · cases h

/-- `State.linksUp`, from what the ports and the routes hold. -/
theorem linksUp_of {s : State} (h : ∀ p, p < 18 → (s.port p).st = .down → (s.port p).replay = [] ∧ (s.port p).queue = [])
    (hr : s.routes.all (fun e => !e.2.getLsbD 5 || decide ((s.port (e.2.toNat % 32)).st ≠ .down)) = true)
    (hc : s.cutJobs = []) : s.linksUp := by
  refine ⟨h, fun n p hp => ?_, hc⟩
  obtain ⟨e, he, hb, rfl⟩ := route_of hp
  have := List.all_eq_true.1 hr e he
  rw [hb] at this
  simpa using this

/-- An access of a sender that has asked device 2 for 8 bytes, and nothing else. -/
def flightOf (src : Sender) (op : RemoteOp) : Flight where
  source := src
  elems := []
  asks := [{ id := 0, elem := 0, device := 2, addr := 64, next := 0, len := 8, op := op, answer := none }]
  fmts := []
  caps := 0
  instr := none
  attr := none
  held := []
  stopped := none

/-- What an instruction holds that has issued under these format entries (R130). -/
def issueOf (fmts : Table Word) (copy : Option CopyRead := none) : Issue where
  fmts := fmts
  caps := allClasses
  attr := none
  copy := copy

/-- A strand whose instruction has issued and waits in place. -/
def waitingFor (i : Instr) (u : Issue) (st : Strand) : Strand := { st with waiting := some ⟨i, 0, some u⟩ }

/-- An entry of the matrix queue that writes the tiles given and does nothing to them. -/
def matrixEntry (writes formats : List Nat) (started : Bool) : MatrixEntry where
  strand := 0
  op := .none
  before := Tile.reset
  formats := formats
  values := formats.map fun _ => 0x009A0E34
  mext := 0
  mfmt := 0
  operands := []
  reads := []
  writes := writes
  started := started
  pairs := 0
  sums := []

/-- What `State.endsHere` says, as a test. -/
def ends (s : State) (r : JobRecord) : Bool :=
  s.postedQ.all (fun e => decide (e.source.job ≠ r.id)) && s.remoteQ.all (fun q => decide (q.2.job ≠ r.id))
    && s.flights.all (fun f => decide (f.source.job ≠ r.id)) && decide (s.walkAsks r.done.toNat 4 (rootOf r.ptRoot) = [])

theorem endsHere_iff (s : State) (r : JobRecord) : s.endsHere r ↔ ends s r = true := by
  simp only [State.endsHere, ends, Bool.and_eq_true, List.all_eq_true, decide_eq_true_eq, and_assoc]

/-! ## Witnesses: encodings, steps, invariants -/

theorem witness_DecodeEncodeAgree :
    ((Instr.add 3 5 9).wf = true ∧ encode (.add 3 5 9) = [0b000001_00011_00101_01001_00000_000000])
    ∧ ((Instr.memoryAttributeWord .dev .acq (.vld 4 5 31)).wf = true ∧ encode (.memoryAttributeWord .dev .acq (.vld 4 5 31))
        = [0b101111_000000000000000000000_011_01, 0b101000_00100_00101_00000_11111_000000])
    ∧ decodeWord 0b000001_00011_00101_01001_00000_000000 = .ok (.add 3 5 9)
    ∧ decodeStrand 0b101111_000000000000000000000_011_01 (some 0b101000_00100_00101_00000_11111_000000)
        = .ok (.memoryAttributeWord .dev .acq (.vld 4 5 31))
    ∧ decodeExtension (0b0000000_00011_00010_000_00001_0001011 : IWord).toNat = some (.kbcast 3 2 1) := by
  refine ⟨by decide, by decide, rfl, rfl, rfl⟩

/-- What a strand's turn needs before it fetches. -/
def fetches (s : State) (w : IWord) : Prop :=
  let u := ({ s with agenda := [], tick := s.tick + 1, attr := none, cut := none } : State).at_ 0 0
  s.agenda = [.strand 0 0] ∧ u.strandRuns 0 0 = true ∧ (u.core 0).halted = false ∧ u.myCore.kpre.getLsbD 0 = false
    ∧ u.underway = none ∧ u.me.abandoned = [] ∧ u.me.restore = false ∧ u.findsAt .fetch u.me.pc.toNat 4 .device 0x10000
    ∧ u.flight (u.senderOf (fetchAgent 0 0)) = none ∧ u.walksHere (fetchAgent 0 0) u.me.pc.toNat 4
    ∧ BitVec.ofNat 32 (leNat (u.peek .device 0x10000 4)) = w

theorem witness_StepRuns_word : fetches base 0x04000740 ∧ isAttribute 0x04000740 = false ∧ decodeWord 0x04000740 = .ok .stop := by
  unfold fetches
  simp only [findsAt_iff, walks_iff]
  exact ⟨by decide +kernel, by decide, rfl⟩

theorem witness_StepRuns_bad :
    fetches { base with devMem := base.devMem.filter fun e => e.1 < 0x10000 } 0 ∧ isAttribute 0 = false ∧
      (decodeWord 0).toOption = none := by
  unfold fetches
  simp only [findsAt_iff, walks_iff]
  exact ⟨by decide +kernel, by decide, by decide⟩

/-- An attribute pair placed at the strand. -/
def pair : State := State.reset.withFetchWord 64 (0xBC00000D + 2 ^ 32 * 0b101000_00100_00101_00000_11111_000000)

theorem witness_StepRuns_pair : fetches pair 0xBC00000D ∧ isAttribute 0xBC00000D = true ∧ pair.me.mayPair = true
    ∧ pair.findsAt .fetch (pair.me.pc + 4).toNat 4 .device 0x10004
    ∧ pair.flight (pair.senderOf (fetchAgent 0 1)) = none ∧ pair.walksHere (fetchAgent 0 1) (pair.me.pc + 4).toNat 4
    ∧ decodePair 0xBC00000D (some (BitVec.ofNat 32 (leNat (pair.peek .device 0x10004 4))))
        = .ok (.memoryAttributeWord .dev .acq (.vld 4 5 31)) := by
  have h : BitVec.ofNat 32 (leNat (pair.peek .device 0x10004 4)) = 0b101000_00100_00101_00000_11111_000000 := by decide +kernel
  rw [h]
  unfold fetches
  simp only [findsAt_iff, walks_iff]
  exact ⟨by decide +kernel, by decide, by decide +kernel, by decide +kernel, by decide +kernel, by decide +kernel, rfl⟩

/-- A control hart's instruction, of 4 or of 2 bytes, placed at the hart. -/
def hartAt (bits w : Nat) : State := State.reset.withFetchWord bits w

theorem witness_StepRuns_hart : ∀ s ∈ [hartAt 32 0b111111111111_00010_000_00001_0010011, hartAt 16 0b010_1_00101_11111_01],
    let v := ({ s with agenda := [], tick := s.tick + 1, attr := none, cut := none } : State).at_ 0 0
    s.agenda = [.hart 0] ∧ v.hartRuns 0 = true ∧ v.myCore.interruptDue = false ∧ v.hart.pc.toNat % 2 = 0
      ∧ v.translate 0 .fetch (decide (v.hart.mode = .m)) v.hart.pc.toNat 2 = .at_ .device 0x10000
      ∧ v.translate 0 .fetch (decide (v.hart.mode = .m)) (v.hart.pc + 2).toNat 2 = .at_ .device 0x10002
      ∧ v.issued v.hartSender = none ∧ ∀ n, n < 2 → v.flight (v.senderOf (fetchAgent hartAgent n)) = none
        ∧ v.walksHere (fetchAgent hartAgent n) (v.hart.pc.toNat + 2 * n) 2 := by
  simp only [walks_iff]
  decide +kernel

/-- A strand whose load waits for another device, under the format entries of its issue. -/
def waiting : State := { base with flights := [{ flightOf base.mySender .load with
  fmts := [(9, 0x009A0E35)], instr := some (.vld 4 1 31) }] }

theorem witness_StepRuns_waiting :
    let u := ({ waiting with agenda := [], tick := waiting.tick + 1, attr := none, cut := none } : State).at_ 0 0
    waiting.agenda = [.strand 0 0] ∧ u.strandRuns 0 0 = true ∧ (u.core 0).halted = false ∧ u.myCore.kpre.getLsbD 0 = false
    ∧ u.underway = some (.vld 4 1 31, { issueOf [(9, 0x009A0E35)] with caps := 0 }) ∧ (u.issued u.mySender).isSome = true
    ∧ u.me.restore = false := by
  decide +kernel

/-- A strand whose load has issued and waits in place. -/
theorem witness_StepRuns_issued :
    let s := withStrand base (waitingFor (.ld 4 1 0 .core false) (issueOf [(9, 0x009A0E35)]))
    let u := ({ s with agenda := [], tick := s.tick + 1, attr := none, cut := none } : State).at_ 0 0
    s.agenda = [.strand 0 0] ∧ u.strandRuns 0 0 = true ∧ (u.core 0).halted = false ∧ u.myCore.kpre.getLsbD 0 = false
    ∧ u.underway = some (.ld 4 1 0 .core false, issueOf [(9, 0x009A0E35)]) ∧ u.me.abandoned = [] ∧ u.me.restore = false := by
  decide +kernel

theorem witness_StepRuns_length :
    leNat ((hartAt 32 0b111111111111_00010_000_00001_0010011).peek .device 0x10000 2) % 4 = 3
    ∧ leNat ((hartAt 16 0b010_1_00101_11111_01).peek .device 0x10000 2) % 4 ≠ 3
    ∧ ({ base with agenda := [.event (.throttleStep true)] } : State).agenda = Turn.event (.throttleStep true) :: [] := by
  decide +kernel

/-- A state whose next step is an event. -/
def stepOf (i : Instr) : State := { State.reset with agenda := [.event i] }

theorem throttles_step : step (stepOf (.throttleStep true)) = .next { State.reset with mhz := 1725, tick := 1 } := by rfl

theorem witness_StepKeepsMemories : (stepOf (.throttleStep true)).agendaOk ∧ (stepOf (.throttleStep true)).memoriesWf
    ∧ step (stepOf (.throttleStep true)) = .next { State.reset with mhz := 1725, tick := 1 } := by
  refine ⟨?_, ⟨rfl, rfl, fun _ => rfl, fun _ => ⟨rfl, rfl⟩⟩, throttles_step⟩
  refine ⟨fun i hi => ?_, fun f hf => by cases hf⟩
  simp [stepOf] at hi
  subst hi
  rfl

theorem witness_StepKeepsHostRegisters : (stepOf (.throttleStep true)).agendaOk ∧ (stepOf (.throttleStep true)).hostRegistersOk
    ∧ step (stepOf (.throttleStep true)) = .next { State.reset with mhz := 1725, tick := 1 } := by
  refine ⟨witness_StepKeepsMemories.1, ?_, throttles_step⟩
  unfold State.hostRegistersOk ringSizeOk
  refine ⟨by decide, by decide, by decide, by decide, by decide, by decide, by decide, by decide, fun c => ?_⟩
  have h : (stepOf (.throttleStep true)).queue c = ClassQueue.reset := rfl
  rw [h]
  decide

theorem witness_StepKeepsControls : (stepOf (.throttleStep true)).agendaOk ∧ (stepOf (.throttleStep true)).controlsOk
    ∧ step (stepOf (.throttleStep true)) = .next { State.reset with mhz := 1725, tick := 1 } := by
  refine ⟨witness_StepKeepsMemories.1, ⟨fun p => ⟨fun k => ?_, fun n ch h => ?_⟩, fun j hj => ?_⟩, throttles_step⟩
  · exact controlOk_of _ (by rfl) (by rfl) rfl
  · simp [State.core, stepOf, State.reset, Table.get, Core.chan, Core.reset] at h
  · simp [stepOf, State.reset] at hj

/-! ## Witnesses: scalar instructions, traps, strand control -/

/-- A copy command of strand 0, of one row of 100 bytes from 0x40000 to 0x50000, whose phase two is at its start. -/
def copy : Copy where
  strand := 0
  no := 0
  pc := 0x8000
  blk := none
  interval := 0
  scope := .core
  order := .rlx
  rows := [⟨0x40000, 0x50000, 100⟩]
  row := 0
  offset := 0
  barrier := none
  key := none
  sync := ⟨0, 0, 0, 0⟩
  pages := [(0x40, 0x40), (0x50, 0x50)]
  srcLo := 0x40000
  srcHi := 0x40064
  dstLo := 0x50000
  dstHi := 0x50064
  suspended := false
  awaiting := []
  unit := none

/-- A strand behind a copy command of an earlier interval. -/
def behind : State := withCore (withStrand base fun st => { st with interval := 1, x := [(1, 0x20000)] })
  fun c => { c with copies := [copy] }

/-- Addresses in registers: mapped, misaligned, not mapped and not canonical. -/
def addresses : State := withStrand base fun st =>
  { st with x := [(1, 0x20000), (2, 8), (3, 1), (4, 0x40000000), (5, 0x800000000000), (6, 0x10004)] }

theorem witness_ScalarRegisterResults : base.offers 0 := base_offers 0 (by decide)

theorem witness_ScalarCountsFieldsAndImmediates : base.offers 0 ∧ addresses.offers 0 :=
  ⟨base_offers 0 (by decide), by unfold State.offers; decide +kernel⟩

theorem witness_ScalarFrames : nextIs (exec (.add 1 2 3) addresses) (fun _ => true) = true
    ∧ nextIs (exec (.beq 0 0 2) addresses) (fun _ => true) = true ∧ nextIs (exec (.jalr 1 2 6) inBlock) (fun _ => true) = true := by
  decide +kernel

theorem witness_BranchesAndJumps : addresses.offers 0 ∧ addresses.me.st = .self ∧ inBlock.offers 0 ∧ inBlock.me.st = .block
    ∧ inBlock.me.blk = some { addr := 0x10000, words := 4 } ∧ addresses.me.getX 1 ≠ addresses.me.getX 2
    ∧ ((addresses.me.getX 3) + (addresses.me.getX 0)).toNat % 4 ≠ 0 ∧ ((addresses.me.getX 6) + (addresses.me.getX 0)).toNat % 4 = 0 := by
  unfold State.offers; decide +kernel

/-- A target at the last word of the block and one just past it. -/
theorem witness_BranchesAndJumps_bounds :
    let t (k : Int) := BitVec.ofInt 64 (inBlock.me.pc.toInt + 4 * k)
    (inBlock.me.pc - 0x10000).toNat < (t 3 - 0x10000).toNat ∧ (t 3 - 0x10000).toNat < 4 * 4
    ∧ ¬ (t 4 - 0x10000).toNat < 4 * 4 ∧ ¬ (inBlock.me.pc - 0x10000).toNat < (t 0 - 0x10000).toNat := by
  decide +kernel

theorem witness_ScalarLoads : addresses.offers 0 ∧ addresses.findsAt .load 0x20008 8 .device 0x20008
    ∧ addresses.interlocked false [{ idx := 0, addr := 0x20008, len := 8 }] = false
    ∧ (addresses.me.getX 1 + addresses.me.getX 2).toNat = 0x20008 ∧ addresses.me.storeQ = [] ∧ addresses.me.st = .self := by
  unfold State.offers; simp only [findsAt_iff]; decide +kernel

theorem witness_ScalarStores : addresses.offers 0 ∧ addresses.findsAt .store 0x20008 8 .device 0x20008
    ∧ addresses.interlocked true [{ idx := 0, addr := 0x20008, len := 8 }] = false
    ∧ addresses.settled .dev = true ∧ addresses.storeHeld = false ∧ addresses.myCore.det = false := by
  unfold State.offers; simp only [findsAt_iff]; decide +kernel

/-- In deterministic mode, with a byte of another job's key and one that holds a higher key of the job. -/
theorem witness_ScalarStores_keys :
    let s : State := { withStrand det fun st => { st with x := [(1, 0x20000)] } with
      keys := [((.device, 0x20001), ⟨2, 9, 0, 0⟩), ((.device, 0x20002), ⟨1, 0, 5, 0⟩)] }
    s.offers 0 ∧ s.findsAt .store 0x20000 4 .device 0x20000 ∧ s.interlocked true [{ idx := 0, addr := 0x20000, len := 4 }] = false
    ∧ s.storeHeld = false ∧ s.myCore.det = true ∧ s.keyOf .device 0x20000 = none ∧ s.keyOf .device 0x20001 = some ⟨2, 9, 0, 0⟩
    ∧ s.keyOf .device 0x20002 = some ⟨1, 0, 5, 0⟩ ∧ s.myJob = 1 ∧ s.myCore.epoch = 0 ∧ s.myTeam = 0 := by
  unfold State.offers; simp only [findsAt_iff]; decide +kernel

theorem witness_ScalarStores_held : behind.offers 0 ∧ behind.findsAt .store 0x20000 4 .device 0x20000
    ∧ behind.interlocked true [{ idx := 0, addr := 0x20000, len := 4 }] = false ∧ behind.storeHeld = true := by
  unfold State.offers; simp only [findsAt_iff]; decide +kernel

theorem witness_ScalarAccessTraps : addresses.offers 0
    ∧ (addresses.me.getX 1 + addresses.me.getX 3).toNat % 2 ≠ 0
    ∧ addresses.translate 0 .load false 0x40000000 4 = .missing ∧ addresses.translate 0 .store false 0x800000000000 4 = .forbidden
    ∧ (∀ x ∈ [0x20001, 0x40000000, 0x800000000000],
        addresses.interlocked true [{ idx := 0, addr := x, len := 4 }] = false)
    ∧ (∀ x ∈ [0x20001, 0x40000000, 0x800000000000], addresses.walksHere addresses.curStrand x 4)
    ∧ addresses.flight addresses.mySender = none ∧ addresses.flight (addresses.senderOf (walkAgent addresses.curStrand)) = none
    ∧ addresses.curCore = 0 := by
  unfold State.offers; simp only [walks_iff]; decide +kernel

/-- Where a fault record of core 0 lies. -/
theorem witness_ScalarAccessTraps_record : ∃ pl, (addresses.core 0).place = some pl
    ∧ addresses.physicalRange (pl.faultSlot 23) 4096 = some (.device, pl.faultSlot 23) ∧ pl.team < 2 ^ 16
    ∧ (∀ e ∈ [0, 16383], e < 16384) ∧ ∀ pg ∈ [0x40000, 2 ^ 52 - 1], pg < 2 ^ 52 := by
  refine ⟨fetchPlace, ?_⟩
  decide +kernel

theorem witness_StrandTraps : let tr : Trap := { cause := .illegal, info := 2 ^ 64 - 1 }
    tr.code < 256 ∧ tr.reg < 256 ∧ tr.info < 2 ^ 64 ∧ tr.elem < 2 ^ 64 ∧ tr.count < 2 ^ 64 := by decide

/-- A strand with v5 and the masks absent. -/
def absent : State := withStrand base fun st => { st with vabs := 0x100000020 }

theorem witness_GateOrder : groupsIllegal [⟨1, 2⟩] [] = true ∧ groupsIllegal [⟨2, 2⟩] [⟨2, 1⟩] = true
    ∧ groupsIllegal [⟨4, 2⟩] [⟨4, 2⟩, ⟨8, 1⟩] = false
    ∧ base.myCore.useMask.getLsbD 11 = false ∧ base.myCore.useMask.getLsbD 2 = true
    ∧ (withCore base fun c => { c with capMask := 0 }).myCore.useMask.getLsbD 2 = true
    ∧ (withCore base fun c => { c with capMask := 0 }).myCore.capMask.getLsbD 2 = false
    ∧ absent.offers 2 ∧ (∀ g ∈ ([⟨4, 2⟩, ⟨30, 2⟩] : List Group), g.first + g.span ≤ 32)
    ∧ (absent.gate (.vadd 4 4 8 31 false false) 2 [⟨4, 2⟩] [⟨4, 2⟩] [⟨4, 2⟩, ⟨30, 2⟩] true).isSome = true
    ∧ (absent.gate (.vadd 8 8 8 31 false false) 2 [⟨8, 2⟩] [⟨8, 2⟩] [⟨8, 2⟩] false).isSome = false := by
  unfold State.offers; decide +kernel

theorem witness_TrapInstructions : base.offers 9 ∧ base.me.st ≠ .block ∧ inBlock.offers 9 ∧ inBlock.me.st = .block := by
  unfold State.offers; decide +kernel

/-- Strand 0, and strand 1 or not, in farm slot 2, which has one index left or none. -/
def farmed (count : Nat) (live : BitVec 24) : State := withCore (withStrand base fun st => { st with farm := some 2 })
  fun c => { c with farms := [(2, some { set := 3, entry := 0x8000, count := count, next := 5, live := live, dealt := [] })] }

theorem witness_StrandControl : base.offers 0 ∧ base.settled .core = true ∧ inBlock.me.st = .block ∧ base.me.farm = none
    ∧ behind.settled .core = false ∧ base.me.sigPend = false ∧ (withStrand base fun st => { st with sigPend := true }).me.sigPend = true
    ∧ (addresses.me.getX 1).toNat % 4 = 0 ∧ (addresses.me.getX 3).toNat % 4 ≠ 0
    ∧ (∀ n ∈ [(5, 3), (5, 1), (6, 3)], let s := farmed n.1 (BitVec.ofNat 24 n.2)
      s.offers 0 ∧ s.settled .core = true ∧ s.me.st = .self ∧ s.me.farm = some 2 ∧ s.curStrand = 0
        ∧ s.myCore.farm 2 = some { set := 3, entry := 0x8000, count := n.1, next := 5, live := BitVec.ofNat 24 n.2, dealt := [] }
        ∧ (BitVec.ofNat 24 n.2).getLsbD 1 = decide (n.2 = 3) ∧ s.myCore.det = false) := by
  unfold State.offers; decide +kernel

/-- Channel 7 holds a register. -/
def posted : State := withCore base fun c => { c with chans := [(7, some { bytes := 5, tag := 3 })] }

theorem witness_LinkChannels : base.offers 0 ∧ base.me.vabs.getLsbD 4 = false ∧ base.myCore.chan 7 = none
    ∧ base.postBehind 7 = false ∧ base.settled .core = true ∧ posted.offers 0
    ∧ posted.me.vabs.getLsbD 31 = false ∧ posted.myCore.chan 7 = some { bytes := 5, tag := 3 }
    ∧ posted.myCore.takeBehind 7 posted.curStrand posted.tick = false := by
  unfold State.offers; decide +kernel

/-! ## Witnesses: configuration, masks, vectors -/

theorem lanes_control : (lanes 3).me.controlOk :=
  controlOk_of _ (by decide +kernel) (by decide +kernel) (by decide +kernel)

/-- Integers of 64 bits in every register: the tests of a vector instruction of any class pass, with a mask or without. -/
theorem lanes_ready (b : Nat) (regs srcs : List Reg) (masks : Bool) (accept : Kind → Bool)
    (ha : accept (.int true 64) = true := by rfl) (hb : b ∈ [1, 2, 3, 4] := by decide)
    (hp : (regs, srcs) ∈ ([([4, 8, 12], [8, 12]), ([4, 8], [8]), ([4, 8, 12], [8, 12, 4]), ([4], [4]), ([8], [8]),
      ([8, 12], [8, 12]), ([4, 12], [12]), ([12], [12])] : List (List Reg × List Reg)) := by decide) :
    (lanes 3).ready b regs srcs masks 3 accept := by
  have hk : (lanes 3).myCore.kind 3 = .int true 64 := by decide +kernel
  have ho : ∀ b ∈ [1, 2, 3, 4, 19], (lanes 3).offers b := by unfold State.offers; decide +kernel
  have hm : (lanes 3).me.vabs.getLsbD 32 = false := by decide +kernel
  have key : ∀ p ∈ ([([4, 8, 12], [8, 12]), ([4, 8], [8]), ([4, 8, 12], [8, 12, 4]), ([4], [4]), ([8], [8]),
      ([8, 12], [8, 12]), ([4, 12], [12]), ([12], [12])] : List (List Reg × List Reg)),
      (∀ r ∈ p.1, r.toNat % (lanes 3).me.vgrp = 0 ∧ ∀ j, j < (lanes 3).me.vgrp → (lanes 3).me.vabs.getLsbD (r.toNat + j) = false)
      ∧ opTag (p.2.map fun r => (lanes 3).me.tag r.toNat) = some 3
      ∧ ∀ u ∈ 3 :: p.2.map (fun r => (lanes 3).me.tag r.toNat), ∀ c ∈ tagClasses u, c ∈ [1, 2, 3, 4, 19] := by decide +kernel
  have k := key _ hp
  exact ⟨lanes_control, ho b (by revert hb; simp; omega), k.1, fun _ => hm, k.2.1, by rw [hk]; exact ha, fun u hu c hc => ho c (k.2.2 u hu c hc)⟩

theorem witness_ConfigurationAndStrips : base.offers 1 ∧ (∀ b ∈ tagClasses 0x4A, base.offers b) ∧ (lanes 3).me.controlOk
    ∧ (lanes 3).offers 1 ∧ (4 : Reg).toNat % (lanes 3).me.vgrp = 0 ∧ (∀ j, j < (lanes 3).me.vgrp → (lanes 3).me.vabs.getLsbD (4 + j) = false)
    ∧ (∀ w : BitVec 3, w ∈ [0, 6] → w.toNat < 7)
    ∧ (let s := withStrand base fun st => { st with vgrp := 8 }; s.offers 1 ∧ s.me.vgrp ≠ 0 ∧ (4 : Reg).toNat % s.me.vgrp ≠ 0) := by
  refine ⟨base_offers 1 (by decide), ?_, lanes_control, ?_⟩ <;> unfold State.offers <;> decide +kernel

/-- A strand with bits 3 and 2,047 of m1 set, `sbound` as given. -/
def masked (sbound : BitVec 32) : State := withStrand base fun st => { st with sbound := sbound, m := [(1, BitVec.ofNat 2048 (8 + 2 ^ 2047))] }

/-- What a scan of m1 meets there. -/
def scanned (sbound : BitVec 32) (i : Nat) : Bool :=
  decide (i < (masked sbound).me.sbound.toNat) && decide (i < 2048) && ((masked sbound).me.getM 1).getLsbD i

theorem scanned_above (b : BitVec 32) (j : Nat) (h : 2047 < j) : scanned b j = false := by
  unfold scanned
  rw [decide_eq_false (show ¬ j < 2048 by omega)]
  simp only [Bool.and_false, Bool.false_and]

theorem scanned_outside (b : BitVec 32) (j : Nat) (h : ¬ j < (masked b).me.sbound.toNat) : scanned b j = false := by
  unfold scanned
  rw [decide_eq_false h]
  simp only [Bool.false_and]

theorem witness_MaskLogicAndScans : base.offers 1 ∧ base.me.vabs.getLsbD 32 = false
    ∧ (∀ b ∈ [3, 4, 2048, 2 ^ 32 - 1], (masked (BitVec.ofNat 32 b)).offers 1 ∧ (masked (BitVec.ofNat 32 b)).me.vabs.getLsbD 32 = false)
    ∧ (scanned 4 3 = true ∧ ∀ j, j < 3 → scanned 4 j = false)
    ∧ (scanned 2048 2047 = true ∧ ∀ j, 2047 < j → scanned 2048 j = false)
    ∧ ∀ n, scanned 3 n = false := by
  have h3 : (masked 3).me.sbound.toNat = 3 := by decide +kernel
  have hn : ∀ n, n < 3 → scanned 3 n = false := by decide +kernel
  refine ⟨base_offers 1 (by decide), by decide +kernel, by unfold State.offers; decide +kernel, by decide +kernel,
    ⟨by decide +kernel, scanned_above 2048⟩, fun n => ?_⟩
  by_cases h : n < 3
  · exact hn n h
  · exact scanned_outside 3 n (by rw [h3]; exact h)

theorem witness_Comparisons : (lanes 3).ready 1 [8, 12] [8, 12] true 3 (fun k => k.isInt || k.isFloat || (true && decide (k = .bit)))
    ∧ (lanes 0x4A).me.tag 4 = 0x4A ∧ (lanes 0x0A).ready 1 [4, 5] [4, 5] true 0x0A (fun k => k.isInt || k.isFloat || (false && decide (k = .bit)))
    ∧ (lanes 0x0C).ready 1 [4, 5] [4, 5] true 0x0C (fun k => k.isInt || k.isFloat || (true && decide (k = .bit))) := by
  unfold State.ready State.offers
  exact ⟨⟨lanes_control, by decide +kernel⟩, by decide +kernel,
    ⟨controlOk_of _ (by decide +kernel) (by decide +kernel) (by decide +kernel), by decide +kernel⟩,
    ⟨controlOk_of _ (by decide +kernel) (by decide +kernel) (by decide +kernel), by decide +kernel⟩⟩

theorem witness_VectorArithmetic : (lanes 3).ready 2 [4, 8, 12] [8, 12] ((1 : Reg) ≠ 31) 3 Kind.isInt
    ∧ (lanes 3).ready 2 [4, 8, 12] [8, 12] ((31 : Reg) ≠ 31) 3 Kind.isInt :=
  ⟨lanes_ready 2 _ _ _ _, lanes_ready 2 _ _ _ _⟩

theorem witness_VectorRounding : Rounding.rna ≠ .rsd ∧ (lanes 3).ready 2 [4, 8, 12] [8, 12] ((31 : Reg) ≠ 31) 3 Kind.isInt :=
  ⟨by decide, lanes_ready 2 _ _ _ _⟩

theorem witness_VectorLogicAndUnary : (lanes 3).ready 2 [4, 8, 12] [8, 12] ((31 : Reg) ≠ 31) 3 Kind.isLogic
    ∧ (lanes 3).ready 2 [4, 8] [8] ((31 : Reg) ≠ 31) 3 Kind.isLogic ∧ (lanes 3).ready 2 [4, 8] [8] ((1 : Reg) ≠ 31) 3 Kind.isInt :=
  ⟨lanes_ready 2 _ _ _ _, lanes_ready 2 _ _ _ _, lanes_ready 2 _ _ _ _⟩

theorem witness_VectorFieldsAndCarry : (lanes 3).ready 2 [4, 8, 12] [8, 12] ((31 : Reg) ≠ 31) 3 Kind.isInt
    ∧ (lanes 3).ready 2 [4, 8, 12] [8, 12, 4] ((31 : Reg) ≠ 31) 3 Kind.isInt ∧ (lanes 3).ready 2 [4, 8, 12] [8, 12] true 3 Kind.isInt :=
  ⟨lanes_ready 2 _ _ _ _, lanes_ready 2 _ _ _ _, lanes_ready 2 _ _ _ _⟩

theorem witness_VectorMoves : (lanes 3).ready 2 [4, 8, 12] [8, 12] ((31 : Reg) ≠ 31) 3 Kind.isTag
    ∧ (lanes 3).ready 2 [4, 8] [8] ((31 : Reg) ≠ 31) 3 Kind.isTag ∧ (lanes 3).ready 2 [4] [4] ((31 : Reg) ≠ 31) 3 Kind.isTag
    ∧ (lanes 3).ready 2 [4] [4] ((31 : Reg) ≠ 31) 3 Kind.isInt :=
  ⟨lanes_ready 2 _ _ _ _, lanes_ready 2 _ _ _ _,
    lanes_ready 2 _ _ _ _, lanes_ready 2 _ _ _ _⟩

theorem witness_VectorReductions : (lanes 3).ready 2 [4, 8, 12] [8, 12] ((31 : Reg) ≠ 31) 3 Kind.isInt :=
  lanes_ready 2 _ _ _ _

theorem witness_CrossLane : (lanes 3).ready 3 [4, 8] [8] ((31 : Reg) ≠ 31) 3 Kind.isPlain
    ∧ (lanes 3).ready 3 [4, 8, 12] [8, 12] ((31 : Reg) ≠ 31) 3 Kind.isPlain
    ∧ (lanes 3).me.tag 8 = (lanes 3).me.tag 12
    ∧ ((lanes 3).myCore.kind ((lanes 3).me.tag 12)).isInt = true ∧ (∀ c ∈ tagClasses ((lanes 3).me.tag 12), (lanes 3).offers c)
    ∧ (let span := max 1 ((lanes 3).me.vgrp * ((lanes 3).myCore.kind ((lanes 3).me.tag 12)).width / 64)
      (12 : Reg).toNat % span = 0 ∧ span ≤ 8 ∧ (∀ j, j < span → (lanes 3).me.vabs.getLsbD (12 + j) = false)
        ∧ (4 : Reg).toNat + (lanes 3).me.vgrp ≤ (12 : Reg).toNat) := by
  refine ⟨lanes_ready 3 _ _ _ _, lanes_ready 3 _ _ _ _, ?_⟩
  unfold State.offers
  decide +kernel

theorem witness_IndexSets : (lanes 3).ready 1 [8] [8] true 3 Kind.isInt ∧ (lanes 3).ready 3 [8, 12] [8, 12] true 3 Kind.isInt
    ∧ (lanes 3).ready 3 [8] [8] true 3 Kind.isInt ∧ (lanes 3).ready 3 [8] [8] ((31 : Reg) ≠ 31) 3 (fun k => k.isInt || k.isFloat)
    ∧ (lanes 3).offers 18 ∧ (lanes 3).me.vabs.getLsbD 4 = false ∧ (lanes 3).me.vgrp = 1 := by
  refine ⟨lanes_ready 1 _ _ _ _, lanes_ready 3 _ _ _ _,
    lanes_ready 3 _ _ _ _, lanes_ready 3 _ _ _ _, ?_⟩
  unfold State.offers
  decide +kernel

/-! ## Witnesses: vector memory -/

theorem unobstructed_of {s : State} (h : s.myCopies = [] ∧ s.flight s.mySender = none
    ∧ s.flight (s.senderOf (walkAgent s.curStrand)) = none) (writes : Bool) (E : Nat → Nat) (n : Nat)
    (live : Nat → Bool) : s.unobstructed writes E n live := by
  simp [State.unobstructed, State.interlocked, h.1, h.2.1, h.2.2]

theorem lanes_free (t : BitVec 8) (h : (lanes t).myCopies = [] ∧ (lanes t).flight (lanes t).mySender = none
    ∧ (lanes t).flight ((lanes t).senderOf (walkAgent (lanes t).curStrand)) = none := by decide +kernel)
    (writes : Bool) (E : Nat → Nat) (n : Nat) (live : Nat → Bool) : (lanes t).unobstructed writes E n live :=
  unobstructed_of h writes E n live

theorem lanes_release : (lanes 3).mayRelease := by unfold State.mayRelease; decide +kernel

theorem lanes_index : (lanes 3).indexReady 8 64 (some 4) ∧ (lanes 3).indexReady 8 64 none := by
  have h : ∀ d : Option Reg, d = some 4 ∨ d = none → (lanes 3).indexReady 8 64 d := by
    intro d hd
    refine ⟨by decide +kernel, by unfold State.offers; decide +kernel, by decide +kernel, by decide +kernel, by decide +kernel, ?_⟩
    rintro e rfl
    rcases hd with hd | hd <;> cases hd
    decide +kernel
  exact ⟨h _ (.inl rfl), h _ (.inr rfl)⟩

/-- A strand whose base is the last word of the mapped GiB. -/
def edge : State := withStrand (lanes 3) fun st => { st with x := [(1, 0x3FFFFFF8)] }

theorem edge_ready : edge.ready 4 [4] [4] ((31 : Reg) ≠ 31) 3 (fun _ => true) := by
  unfold State.ready State.offers
  exact ⟨controlOk_of _ (by decide +kernel) (by decide +kernel) (by decide +kernel), by decide +kernel⟩

theorem witness_VectorLoads : (lanes 3).ready 4 [4] [4] ((31 : Reg) ≠ 31) 3 (fun _ => true) ∧ (lanes 3).cut = none
    ∧ (lanes 3).mayRelease ∧ (lanes 3).indexReady 8 64 (some 4) ∧ 8 ≤ ((lanes 3).myCore.kind 3).width
    ∧ (∀ E live, (lanes 3).unobstructed false E 8 live)
    ∧ (∀ e, (lanes 3).live false 31 64 e = true →
        (lanes 3).findsAt .load ((((0x20000 : Int) + (e * 8 : Nat)) % 2 ^ 64).toNat) 8 .device (0x20000 + 8 * e))
    ∧ (∀ e, (lanes 3).live false 31 64 e = true →
        (lanes 3).findsAt .load ((((0x20000 : Int) + (lanes 3).indexAt 8 64 e * 8) % 2 ^ 64).toNat) 8 .device 0x20000)
    ∧ (lanes 3).me.storeQ = [] := by
  refine ⟨lanes_ready 4 _ _ _ _, by decide +kernel, lanes_release, lanes_index.1, by decide +kernel,
    fun E live => lanes_free 3 (writes := false) (E := E) (n := 8) (live := live), ?_, ?_, by decide +kernel⟩
  · exact live_all 2 (by decide +kernel) (by simp only [findsAt_iff]; decide +kernel)
  · exact live_all 2 (by decide +kernel) (by simp only [findsAt_iff]; decide +kernel)

theorem witness_VectorLoads_first : edge.ready 4 [4] [4] ((31 : Reg) ≠ 31) 3 (fun _ => true) ∧ edge.cut = none ∧ edge.mayRelease
    ∧ (∀ e, edge.live false 31 64 e = true → (0x3FFFFFF8 + e * 8) % 2 ^ 64 % 8 = 0)
    ∧ edge.live false 31 64 1 = true ∧ (∃ e, e < 1 ∧ edge.active 31 64 e = true) ∧ edge.me.trimmed = none
    ∧ (∀ sp x, ¬ edge.liesAt .load 0x40000000 8 sp x)
    ∧ edge.unobstructed false (fun e => (0x3FFFFFF8 + e * 8) % 2 ^ 64) 8 (fun e => edge.live false 31 64 e && decide (e < 1))
    ∧ (∀ e, edge.live false 31 64 e = true → e < 1 → edge.findsAt .load ((0x3FFFFFF8 + e * 8) % 2 ^ 64) 8 .device 0x3FFFFFF8) := by
  have hm : edge.translate edge.curCore .load false 0x40000000 8 = .missing := by decide +kernel
  refine ⟨edge_ready, by decide +kernel, by unfold State.mayRelease; decide +kernel,
    live_all 2 (by decide +kernel) (by decide +kernel), by decide +kernel, ⟨0, by decide +kernel⟩, by decide +kernel, fun sp x h => ?_,
    unobstructed_of (by decide +kernel) _ _ _ _, live_all 2 (by decide +kernel) (by simp only [findsAt_iff]; decide +kernel)⟩
  have := h.2
  rw [hm] at this
  cases this

/-- A run after a stop: element 0 has performed and the run before had trimmed at element 1. -/
theorem witness_VectorLoads_trimmed :
    let s := withStrand edge fun st => { st with vstart := 1, vffi := 1 }
    s.me.trimmed = some 1 ∧ s.cut = none ∧ (∀ e, s.live false 31 64 e = true → ¬ e < 1) := by
  refine ⟨by decide +kernel, by decide +kernel, live_all 2 (by decide +kernel) (by decide +kernel)⟩

/-- An element misaligned, one without a translation and one that its page forbids, each the first of its kind. -/
theorem witness_trapsFirst : ∀ p ∈ [(0x20001, 0), (0x3FFFFFF8, 1), (0x800000000000, 2)],
    let s := withStrand (lanes 3) fun st => { st with x := [(1, BitVec.ofNat 64 p.1)] }
    let E (e : Nat) : Nat := p.1 + e * 8
    (∀ w live, s.unobstructed w E 8 live) ∧ (∀ e, s.live false 31 64 e = true → s.walksHere s.curStrand (E e) 8)
    ∧ (p.2 = 0 → s.live false 31 64 0 = true ∧ E 0 % 8 ≠ 0)
    ∧ (p.2 = 1 → (∀ e, s.live false 31 64 e = true → E e % 8 = 0) ∧ s.live false 31 64 1 = true
        ∧ s.translate s.curCore .store false (E 1) 8 = .missing ∧ s.translate s.curCore .store false (E 0) 8 ≠ .missing)
    ∧ (p.2 = 2 → (∀ e, s.live false 31 64 e = true → E e % 8 = 0 ∧ s.translate s.curCore .store false (E e) 8 ≠ .missing)
        ∧ s.live false 31 64 0 = true ∧ s.translate s.curCore .store false (E 0) 8 = .forbidden) := by
  intro p hp
  rcases (by simpa using hp : p = (0x20001, 0) ∨ p = (0x3FFFFFF8, 1) ∨ p = (0x800000000000, 2)) with rfl | rfl | rfl <;>
    refine ⟨fun w live => unobstructed_of (by decide +kernel) w _ 8 live,
      live_all 2 (by decide +kernel) (by simp only [walks_iff]; decide +kernel), ?_, ?_, ?_⟩ <;>
    first
    | exact fun h => absurd h (by decide)
    | exact fun _ => by decide +kernel
    | exact fun _ => ⟨live_all 2 (by decide +kernel) (by decide +kernel), by decide +kernel⟩

theorem witness_VectorStores : (lanes 3).ready 4 [4] [4] ((31 : Reg) ≠ 31) 3 (fun _ => true) ∧ (lanes 3).cut = none
    ∧ (lanes 3).mayRelease ∧ (lanes 3).indexReady 8 64 none ∧ 8 ≤ ((lanes 3).myCore.kind 3).width
    ∧ (∀ E live, (lanes 3).unobstructed true E 8 live)
    ∧ (∀ e, (lanes 3).live false 31 64 e = true →
        (lanes 3).findsAt .store ((((0x20000 : Int) + (e * 8 : Nat)) % 2 ^ 64).toNat) 8 .device (0x20000 + 8 * e))
    ∧ (lanes 3).storeHeld = false ∧ (lanes 3).myCore.det = false := by
  refine ⟨lanes_ready 4 _ _ _ _, by decide +kernel, lanes_release, lanes_index.2, by decide +kernel,
    fun E live => lanes_free 3 (writes := true) (E := E) (n := 8) (live := live), ?_, by decide +kernel⟩
  exact live_all 2 (by decide +kernel) (by simp only [findsAt_iff]; decide +kernel)

/-- Blocks of 32 elements of n bits in v4, their scales in v5. -/
theorem witness_Segments : ∀ n ∈ [1, 8], let t : BitVec 8 := if n = 1 then 0x10 else 0x13
    (lanes t).myCore.kind t.toNat = .bs n ∧ (lanes t).offers 17
    ∧ (lanes t).ready 4 [4] [4] ((31 : Reg) ≠ 31) t.toNat (fun _ => true)
    ∧ (4 : Reg).toNat + 2 * (lanes t).me.vgrp ≤ 32 ∧ (∀ j, j < (lanes t).me.vgrp → (lanes t).me.vabs.getLsbD (4 + (lanes t).me.vgrp + j) = false)
    ∧ (lanes t).cut = none ∧ (lanes t).mayRelease ∧ (∀ w E live, (lanes t).unobstructed w E (4 * n + 2) live)
    ∧ (∀ acc ∈ [Access.load, .store], ∀ j, (lanes t).live false 31 (32 * n) j = true →
        (lanes t).findsBytes acc ((0x20000 + j * (4 * n + 2)) % 2 ^ 64) (4 * n + 2) (fun k => (.device, 0x20000 + j * (4 * n + 2) + k)))
    ∧ (lanes t).storeHeld = false ∧ (lanes t).myCore.det = false := by
  have key : ∀ n ∈ [1, 8], let t : BitVec 8 := if n = 1 then 0x10 else 0x13
      (∀ acc ∈ [Access.load, .store], ∀ j, j < 2 → (lanes t).live false 31 (32 * n) j = true →
        (lanes t).findsBytes acc ((0x20000 + j * (4 * n + 2)) % 2 ^ 64) (4 * n + 2) (fun k => (.device, 0x20000 + j * (4 * n + 2) + k))) := by
    simp only [findsBytes_iff]
    decide +kernel
  have rest : ∀ n ∈ [1, 8], let t : BitVec 8 := if n = 1 then 0x10 else 0x13
      ((lanes t).myCopies = [] ∧ (lanes t).flight (lanes t).mySender = none
        ∧ (lanes t).flight ((lanes t).senderOf (walkAgent (lanes t).curStrand)) = none) ∧ (lanes t).me.sbound.toNat = 2 ∧ (lanes t).myCore.kind t.toNat = .bs n ∧ (lanes t).offers 17 ∧ (lanes t).cut = none ∧ (lanes t).mayRelease
      ∧ (lanes t).storeHeld = false ∧ (lanes t).myCore.det = false ∧ (lanes t).me.vgrp = 1
      ∧ (∀ j, j < (lanes t).me.vgrp → (lanes t).me.vabs.getLsbD (4 + (lanes t).me.vgrp + j) = false)
      ∧ decide ((lanes t).me.vgrp = 1 ∨ (lanes t).me.vgrp = 2 ∨ (lanes t).me.vgrp = 4 ∨ (lanes t).me.vgrp = 8) = true
      ∧ decide (2 ≤ (lanes t).me.cwidth.toNat ∧ (lanes t).me.cwidth.toNat ≤ 8) = true
      ∧ (lanes t).me.tags.all (fun e => tagOk e.2.toNat) = true := by
    unfold State.offers State.mayRelease
    decide +kernel
  have gate : ∀ n ∈ [1, 8], let t : BitVec 8 := if n = 1 then 0x10 else 0x13
      (lanes t).offers 4 ∧ (∀ r ∈ ([4] : List Reg), r.toNat % (lanes t).me.vgrp = 0 ∧ ∀ j, j < (lanes t).me.vgrp → (lanes t).me.vabs.getLsbD (r.toNat + j) = false)
      ∧ ((decide ((31 : Reg) ≠ 31)) = true → (lanes t).me.vabs.getLsbD 32 = false)
      ∧ opTag (([4] : List Reg).map fun r => (lanes t).me.tag r.toNat) = some t.toNat
      ∧ ∀ u ∈ t.toNat :: ([4] : List Reg).map (fun r => (lanes t).me.tag r.toNat), ∀ c ∈ tagClasses u, (lanes t).offers c := by
    unfold State.offers
    decide +kernel
  intro n hn t
  obtain ⟨h1, h2, h3, h4, h5, h6, h7, h8, h9, h10, h11, h12, h13⟩ := rest n hn
  obtain ⟨g1, g2, g3, g4, g5⟩ := gate n hn
  refine ⟨h3, h4, ⟨controlOk_of _ h11 h12 h13, g1, g2, g3, g4, rfl, g5⟩, ?_, h10, h5, h6, fun w E live => unobstructed_of h1 w E _ live,
    fun acc ha => live_all 2 (decide_eq_true (Nat.le_of_eq h2)) (key n hn acc ha), h7, h8⟩
  rw [h9]
  decide

theorem witness_VectorAtomics : (lanes 3).ready 4 [4, 12] [12] ((31 : Reg) ≠ 31) 3 (fun k => decide (8 ≤ k.width))
    ∧ (lanes 3).cut = none ∧ (lanes 3).mayRelease ∧ (lanes 3).storeHeld = false ∧ (lanes 3).indexReady 8 64 (some 4)
    ∧ ((lanes 3).myCore.kind ((lanes 3).me.tag 8)).width = 64 ∧ (∀ E live, (lanes 3).unobstructed true E 8 live)
    ∧ (∀ e, (lanes 3).live true 31 64 e = true →
        (lanes 3).findsAt .rmw (elemOf 64 ((lanes 3).me.group 8 (max 1 ((lanes 3).me.vgrp * 64 / 64))) e) 8 .device 0)
    ∧ ((lanes 3).myCore.kind 3).isInt = true ∧ Machine.tagCode ((lanes 3).me.tag 4) = Machine.tagCode 3 ∧ (lanes 3).live true 31 64 1 = true := by
  refine ⟨lanes_ready 4 _ _ _ _, by decide +kernel, lanes_release, by decide +kernel, lanes_index.1, by decide +kernel,
    fun E live => lanes_free 3 (writes := true) (E := E) (n := 8) (live := live), ?_, by decide +kernel⟩
  exact live_all 2 (by decide +kernel) (by simp only [findsAt_iff]; decide +kernel)

/-- Floats of 32 bits in v4 to v7. -/
theorem floats_ready (t : BitVec 8) (ht : t ∈ [0x0A, 0x08] := by decide) : (lanes t).ready 4 [4] [4] ((31 : Reg) ≠ 31) t.toNat (fun _ => true) := by
  have h : t = 0x0A ∨ t = 0x08 := by simpa using ht
  rcases h with rfl | rfl <;> unfold State.ready State.offers <;>
    exact ⟨controlOk_of _ (by decide +kernel) (by decide +kernel) (by decide +kernel), by decide +kernel⟩

theorem witness_AdditionsInMemory : (lanes 3).ready 4 [12] [12] ((31 : Reg) ≠ 31) 3 (fun _ => true)
    ∧ (lanes 3).cut = none ∧ (lanes 3).mayRelease ∧ (lanes 3).storeHeld = false ∧ (lanes 3).indexReady 8 64 none
    ∧ ((lanes 3).myCore.kind 3).isInt = true ∧ (∀ E live, (lanes 3).unobstructed true E 8 live)
    ∧ (∀ e, (lanes 3).live true 31 64 e = true →
        (lanes 3).findsAt .rmw ((((0x20000 : Int) + (lanes 3).indexAt 8 64 e * 8) % 2 ^ 64).toNat) 8 .device 0x20000)
    ∧ (lanes 3).ready 4 [12] [12] ((31 : Reg) ≠ 31) 3 Kind.isInt ∧ ((lanes 3).me.getX 4).toNat = 0
    ∧ (∀ e, (lanes 3).live true 31 64 e = true → (0x20000 + e * 8) % 2 ^ 64 % 8 = 0
        ∧ ∀ j, j < 8 → (lanes 3).translate (lanes 3).curCore .reduce false ((((0x20000 + e * 8) % 2 ^ 64) + j) % 2 ^ 64) 1
            = .at_ .device (0x20000 + 8 * e + j)
          ∧ (lanes 3).unitWaits (lanes 3).mySender true [{ space := .device, addr := 0x20000 + 8 * e + j, len := 1 }] = false) := by
  refine ⟨lanes_ready 4 _ _ _ _, by decide +kernel, lanes_release, by decide +kernel, lanes_index.2, by decide +kernel,
    fun E live => lanes_free 3 (writes := true) (E := E) (n := 8) (live := live), ?_, lanes_ready 4 _ _ _ _, by decide +kernel, ?_⟩
  · exact live_all 2 (by decide +kernel) (by simp only [findsAt_iff]; decide +kernel)
  · exact live_all 2 (by decide +kernel) (by decide +kernel)

theorem witness_AdditionsInMemory_cells : (lanes 0x0A).ready 4 [4] [4] ((31 : Reg) ≠ 31) 0x0A (fun _ => true)
    ∧ (lanes 0x0A).cut = none ∧ (lanes 0x0A).mayRelease ∧ (lanes 0x0A).storeHeld = false ∧ (lanes 0x0A).indexReady 8 32 none
    ∧ cellTag 0x0A = true ∧ (∀ E live, (lanes 0x0A).unobstructed true E 48 live)
    ∧ (∀ e, (lanes 0x0A).live true 31 32 e = true →
        let E := (((0x20000 : Int) + (lanes 0x0A).indexAt 8 32 e * 48) % 2 ^ 64).toNat
        E % 16 = 0 ∧ (lanes 0x0A).findsBytes .rmw E 48 (fun k => (.device, 0x20000 + k)))
    ∧ (∀ i j, i < 48 → j < 48 → ((.device, 0x20000 + i) : Space × Nat) = (.device, 0x20000 + j) → i = j) := by
  refine ⟨floats_ready 0x0A, by decide +kernel, by unfold State.mayRelease; decide +kernel, by decide +kernel,
    ⟨by decide +kernel, by unfold State.offers; decide +kernel, by decide +kernel, by decide +kernel, by decide +kernel, fun d h => by cases h⟩,
    by decide, fun E live => lanes_free 0x0A (writes := true) (E := E) (n := 48) (live := live), ?_, ?_⟩
  · exact live_all 2 (by decide +kernel) (by simp only [findsBytes_iff]; decide +kernel)
  · intro i j _ _ h
    simp only [Prod.mk.injEq, true_and] at h
    omega

/-- Reduces of floats, and of blocks, from v4 to device 9; x4 names the device, whose route leads to port 2. -/
def reducing (t : BitVec 8) : State := { withStrand (lanes t) fun st => { st with x := [(1, 0x20000), (4, 9)] } with
  devid := 3, routes := [(9, 0x22)], ports := [(2, { Port.reset with st := .up })] }

theorem witness_AdditionsInMemory_reduces : ∀ t ∈ [(0x0A : BitVec 8), 0x13], let s := reducing t
    s.cut = none ∧ s.settled .core = true ∧ s.storeHeld = false
    ∧ (if t = 0x0A then cellTag 0x0A = true else s.segmentBad 4 = false ∧ s.offers 17
        ∧ ∀ j, j < s.me.vgrp → s.me.vabs.getLsbD (4 + s.me.vgrp + j) = false)
    ∧ (∀ e, e < 2 → ((s.me.getX 1).toNat + e * 48) % 2 ^ 64 % 16 = 0)
    ∧ (s.me.getX 4).toNat = 9 ∧ s.devid.toNat = 3 ∧ s.reaches 9 = true := by
  unfold State.offers
  decide +kernel

theorem witness_AdditionsInMemory_links : ∀ t ∈ [(0x0A : BitVec 8), 0x13], (reducing t).linksUp := by
  intro t ht
  rcases (by simpa using ht : t = 0x0A ∨ t = 0x13) with rfl | rfl <;>
    exact linksUp_of (by decide +kernel) (by decide +kernel) (by decide +kernel)

theorem witness_AttributesAndFences : base.offers 4 ∧ base.me.vabs.getLsbD 32 = false ∧ Sys2Proof.Ordering.acq ≠ .rel
    ∧ base.settled .sys = true ∧ base.myCore.det = false ∧ behind.offers 4 ∧ behind.settled .core = false
    ∧ det.offers 4 ∧ det.myCore.det = true ∧ det.settled .sys = true ∧ (∀ e ∈ det.myCore.mq, e.strand ≠ det.curStrand)
    ∧ (let s := withCore det fun c => { c with mq := [{ strand := 0, op := .none, before := Tile.reset, formats := [], values := [], mext := 0, mfmt := 0, operands := [], reads := [], writes := [1], started := false, pairs := 0, sums := [] }] }
      s.offers 4 ∧ s.myCore.det = true ∧ ∃ e ∈ s.myCore.mq, e.strand = s.curStrand) := by
  unfold State.offers; decide +kernel

/-! ## Witnesses: floats -/

/-- Floats of 32 bits in v4 to v7: the tests of a float instruction pass. -/
theorem floats_pass (regs srcs : List Reg) (masks : Bool) (accept : Kind → Bool) (ha : accept (.flt Fmt.f32) = true := by rfl)
    (hp : (regs, srcs) ∈ ([([4, 5, 6], [5, 6]), ([4, 5, 6], [5, 6, 4]), ([4, 5], [5]), ([4, 8], [4])] : List (List Reg × List Reg)) := by decide) :
    (lanes 0x0A).ready 5 regs srcs masks 0x0A accept := by
  have hk : (lanes 0x0A).myCore.kind 0x0A = .flt Fmt.f32 := by decide +kernel
  have hm : (lanes 0x0A).me.vabs.getLsbD 32 = false := by decide +kernel
  have ho : (lanes 0x0A).offers 5 := by unfold State.offers; decide +kernel
  have key : ∀ p ∈ ([([4, 5, 6], [5, 6]), ([4, 5, 6], [5, 6, 4]), ([4, 5], [5]), ([4, 8], [4])] : List (List Reg × List Reg)),
      (∀ r ∈ p.1, r.toNat % (lanes 0x0A).me.vgrp = 0
        ∧ ∀ j, j < (lanes 0x0A).me.vgrp → (lanes 0x0A).me.vabs.getLsbD (r.toNat + j) = false)
      ∧ opTag (p.2.map fun r => (lanes 0x0A).me.tag r.toNat) = some 0x0A
      ∧ ∀ u ∈ 0x0A :: p.2.map (fun r => (lanes 0x0A).me.tag r.toNat), ∀ c ∈ tagClasses u, (lanes 0x0A).offers c := by
    unfold State.offers; decide +kernel
  have k := key _ hp
  exact ⟨controlOk_of _ (by decide +kernel) (by decide +kernel) (by decide +kernel), ho, k.1, fun _ => hm, k.2.1,
    by rw [hk]; exact ha, k.2.2⟩

theorem witness_RoundingResults : ((2 : Int) ≤ 5 ∧ (2 : Int) < 3)
    ∧ ∀ f ∈ [Fmt.f16, Fmt.bf16, Fmt.f32, Fmt.f64], ∀ x ∈ [0, 1, 2 ^ (f.total - 1), 2 ^ f.total - 2 ^ f.mw], x < 2 ^ f.total ∧ (f.decode x).isNaN = false := by
  decide

/-- A CLASS 1 entry, E4M3: the largest finite value shares its exponent with the NaN slot; OF is raised beyond it. -/
def e4m3 : Word := BitVec.ofNat 64 (4 + 3 * 16 + 7 * 512 + 2 ^ 17 + 2 ^ 20)

theorem witness_RoundingResults_entry : entryValid e4m3 = true ∧ (Fmt.ofEntry e4m3).cls = 1
    ∧ (let f := Fmt.ofEntry e4m3
      let slot (m : Nat) : Prop := f.cls = 1 ∧ ((Nat.log2 m : Int) - f.mw) = 2 ^ f.ew - 1 - (f.bias : Int) - f.mw
        ∧ 2 ^ (f.mw + 1) - 2 ≤ (gridRound .rz 0 false m 0 ((Nat.log2 m : Int) - f.mw) false).1
      slot 448 ∧ ¬ slot 400 ∧ (gridRound .rz 0 false 448 0 5 false) ≠ (2 ^ (f.mw + 1) - 1, false)) := by
  decide

/-- Finite operands, a divisor of fewer than 53 bits, and patterns of numbers and of NaNs, quiet and signalling. -/
theorem witness_FloatArithmetic_values : (0 < (3 : Nat) ∧ (3 : Nat) < 2 ^ 53)
    ∧ (let f := Fmt.f32;
      ((f.decode 0x7F800001).isSNaN = true ∧ (f.decode 0x7FC00000).isNaN = true ∧ (f.decode 0x3F800000).isNaN = false)
      ∧ (0x7FC00000 < 2 ^ f.total ∧ 0x7F800001 < 2 ^ f.total ∧ 0x3F800000 < 2 ^ f.total)
      ∧ 0 < (f.decode 0x3F800000).compare (f.decode 0x80000000) ∧ f.decode 0 = .zero false ∧ f.decode 0x80000000 = .zero true
      ∧ f.cls = 0 ∧ (∀ v ∈ [Val.num false 3 0, .zero true], v.isNaN = false)) := by
  decide

/-- A finite value is none of the infinities. -/
theorem witness_FloatArithmetic_finite : ∀ j, Val.num false 3 0 ≠ .inf j ∧ Val.num false 3 0 ≠ .zero j :=
  fun _ => ⟨nofun, nofun⟩

theorem witness_FloatArithmetic : (lanes 0x0A).ready 5 [4, 5, 6] [5, 6] ((31 : Reg) ≠ 31) 0x0A Kind.isFloat
    ∧ (lanes 0x0A).ready 5 [4, 5, 6] [5, 6, 4] ((31 : Reg) ≠ 31) 0x0A Kind.isFloat
    ∧ (lanes 0x0A).ready 5 [4, 5] [5] ((31 : Reg) ≠ 31) 0x0A Kind.isFloat ∧ (lanes 0x0A).indexReady 8 32 (some 4) := by
  refine ⟨floats_pass _ _ _ _, floats_pass _ _ _ _, floats_pass _ _ _ _, by decide +kernel, by unfold State.offers; decide +kernel,
    by decide +kernel, by decide +kernel, by decide +kernel, fun d h => ?_⟩
  cases h
  decide +kernel

theorem witness_FloatConversions : (lanes 0x0A).me.controlOk ∧ (lanes 0x0A).offers 5
    ∧ (∀ c ∈ tagClasses ((lanes 0x0A).me.tag 8) ++ tagClasses ((lanes 0x0A).me.tag 4), (lanes 0x0A).offers c)
    ∧ ((lanes 0x0A).myCore.kind ((lanes 0x0A).me.tag 8)).isInt = true ∧ ((lanes 0x0A).myCore.kind ((lanes 0x0A).me.tag 4)).isFloat = true
    ∧ (let na := max 1 ((lanes 0x0A).me.vgrp * 64 / max 64 32)
      let nd := max 1 ((lanes 0x0A).me.vgrp * 32 / max 64 32)
      (8 : Reg).toNat % na = 0 ∧ (4 : Reg).toNat % nd = 0 ∧ (4 : Reg).toNat + nd ≤ (8 : Reg).toNat
        ∧ (∀ j, j < na → (lanes 0x0A).me.vabs.getLsbD (8 + j) = false) ∧ (∀ j, j < nd → (lanes 0x0A).me.vabs.getLsbD (4 + j) = false))
    ∧ (2 ≤ 64 ∧ 64 ≤ 64 ∧ (0 : Int) ≤ 79 ∧ (79 : Int) < 80 ∧ 0 < (1 : Nat))
    ∧ (Fmt.f32.cls = 0 ∧ (Fmt.ofEntry e4m3).cls = 1 ∧ (Fmt.ofEntry (BitVec.ofNat 64 (4 + 3 * 16 + 7 * 512 + 5 * 2 ^ 18))).cls = 2)
    ∧ (lanes 0x0A).ready 5 [4, 8] [4] ((31 : Reg) ≠ 31) 0x0A Kind.isFloat := by
  refine ⟨(floats_pass [4, 5] [5] true Kind.isFloat).1, by unfold State.offers; decide +kernel, by unfold State.offers; decide +kernel,
    by decide +kernel, by decide +kernel, by decide +kernel, by decide, by decide, floats_pass _ _ _ _⟩

theorem witness_SpecialFunctions : (lanes 0x0A).ready 5 [4, 5] [5] ((31 : Reg) ≠ 31) 0x0A (fun _ => cellTag 0x0A) :=
  floats_pass _ _ _ _

/-- A power of 2 and another number; a power of 2 with a fraction; a value that is not exact. -/
theorem witness_SpecialFunctions_values : (∀ f ∈ [Fmt.f16, Fmt.bf16, Fmt.f32], ∃ m e, f.decode (f.pack false f.bias 1) = .num false m e)
    ∧ (0 < (3 : Nat) ∧ (3 : Nat) < 2 ^ 24 ∧ (3 : Nat) ≠ 2 ^ Nat.log2 3 ∧ (4 : Nat) = 2 ^ Nat.log2 4 ∧ ((0 : Int) + (Nat.log2 4 : Nat)) % 2 = 0)
    ∧ ((-1 : Int) < 0 ∧ 3 % 2 ^ (-(-1 : Int)).toNat ≠ 0 ∧ -(-1 : Int) ≤ 149)
    ∧ (Special.approx .rcp false 3 0).sticky = true ∧ (Special.approx .rcp false 4 0).sticky = false := by
  refine ⟨?_, by decide, by decide, by decide +kernel, by decide +kernel⟩
  intro f hf
  simp only [List.mem_cons, List.not_mem_nil, or_false] at hf
  rcases hf with rfl | rfl | rfl
  · exact ⟨1025, -10, by decide⟩
  · exact ⟨129, -7, by decide⟩
  · exact ⟨8388609, -23, by decide⟩

theorem witness_FloatReductions : (lanes 0x0A).ready 5 [4, 5] [5] ((31 : Reg) ≠ 31) 0x0A Kind.isFloat := floats_pass _ _ _ _

/-- Blocks of 8-bit elements in v4 with scales in v5, floats of 32 bits in v8. -/
def blocks : State := withStrand base fun st => { st with sbound := 2, tags := [(4, 0x13), (8, 0x0A)] }

theorem witness_BlockScaling : blocks.me.controlOk ∧ blocks.offers 5 ∧ blocks.offers 17
    ∧ (∀ c ∈ tagClasses 0x13 ++ tagClasses 0x0A, blocks.offers c) ∧ blocks.myCore.kind 0x13 = .bs 8
    ∧ (blocks.myCore.kind 0x0A).isFloat = true
    ∧ (let g := blocks.me.vgrp
      let span := max 1 (g * 8 / (blocks.myCore.kind 0x0A).width)
      blocks.me.tag 4 = 0x13 ∧ blocks.me.tag 8 = 0x0A ∧ (8 : Reg).toNat % g = 0 ∧ (4 : Reg).toNat % span = 0
      ∧ (4 : Reg).toNat + span ≤ 31 ∧ (4 : Reg).toNat + span < (8 : Reg).toNat
      ∧ (∀ j, j < g → blocks.me.vabs.getLsbD (8 + j) = false) ∧ ∀ j, j ≤ span → blocks.me.vabs.getLsbD (4 + j) = false) := by
  refine ⟨controlOk_of _ (by decide +kernel) (by decide +kernel) (by decide +kernel), ?_⟩
  unfold State.offers
  decide +kernel

/-- A block with a NaN, one of zeros, and one of numbers in units of 2^-510. -/
theorem witness_BlockScaling_blocks :
    (let vs := Val.nan false 1 true :: List.replicate 31 (.zero false);
      vs.length = 32 ∧ vs.any (fun v => v.isNaN) = true)
    ∧ (List.replicate 32 (Val.zero true)).length = 32
    ∧ (let vs := Val.num true 3 (-1) :: List.replicate 31 (.zero false);
      vs.length = 32 ∧ vs.all (fun v => !v.isNaN) = true ∧ Val.num true 3 (-1) ∈ vs ∧ (-510 : Int) ≤ -510 ∧ (-510 : Int) ≤ -1) := by
  decide

/-! ## Witnesses: matrices and clauses -/

theorem witness_MatrixProducts :
    let K := base.me.kext
    let f := base.myCore.matFmt (base.me.mfmt.toNat % 256)
    let free (o : Operand) : Prop := ∀ g ∈ o.groups, ∀ j, j < g.span → base.me.vabs.getLsbD (g.first + j) = false
    base.offers 6 ∧ base.mqFull = false ∧ base.tilesAhead [] [1] = false ∧ base.offers f.cls ∧ K ≤ 512
    ∧ (operandOf 8 f K).bad = false ∧ free (operandOf 8 f K) ∧ (operandOf 16 f K).bad = false ∧ free (operandOf 16 f K)
    ∧ base.me.vabs.getLsbD 32 = false ∧ ((List.range K).filter fun j => (base.me.getM 3).getLsbD j) = []
    ∧ base.offers 20 ∧ base.me.vabs.getLsbD 12 = false
    ∧ (operandOf 4 (.int false 1) K).bad = false ∧ free (operandOf 4 (.int false 1) K)
    ∧ (operandOf 8 (.int false 1) K).bad = false ∧ free (operandOf 8 (.int false 1) K)
    ∧ (∀ g ∈ (operandOf 4 (.int false 1) K).groups ++ (operandOf 8 (.int false 1) K).groups, (⟨12, 1⟩ : Group).partly g = false) := by
  unfold State.offers
  decide +kernel

theorem witness_MatrixProducts_mask :
    let s := withStrand base fun st => { st with m := [(3, 0x80000001)] }
    let ks := (List.range s.me.kext).filter fun j => (s.me.getM 3).getLsbD j
    let o := operandOf 4 (s.myCore.matFmt (s.me.mfmt.toNat % 256)) (32 * ((ks.length + 31) / 32))
    s.offers 6 ∧ ks = [0, 31] ∧ ks.length ≤ 512 ∧ o.bad = false
    ∧ (∀ g ∈ o.groups, ∀ j, j < g.span → s.me.vabs.getLsbD (g.first + j) = false) := by
  unfold State.offers
  decide +kernel

theorem witness_MatrixProducts_value :
    let oa := operandOf 4 (.int true 8) 32
    let ob := operandOf 8 (.int false 8) 32
    oa.fmt = .int true 8 ∧ ob.fmt = .int false 8 ∧ oa.kx % 32 = 0 ∧ ob.kx % 32 = 0 ∧ [0, 31].length ≤ oa.kx ∧ (∀ j ∈ [0, 31], j < ob.kx)
    ∧ Tile.reset.anchor ≤ 0 ∧ 31 < 32 := by decide

/-- A group of A of two registers, not aligned: `mopas` is refused. -/
theorem witness_MatrixProducts_refused :
    let s := withStrand base fun st => { st with m := [(3, BitVec.ofNat 2048 (2 ^ 96 - 1))], mext := 0x8002020 }
    let ks := (List.range s.me.kext).filter fun j => (s.me.getM 3).getLsbD j
    let fa := s.myCore.matFmt (s.me.mfmt.toNat % 256)
    let o := operandOf 31 fa (32 * ((ks.length + 31) / 32))
    s.offers 6 ∧ s.offers fa.cls ∧ ks.length ≤ 512 ∧ o.bad = true := by
  unfold State.offers
  decide +kernel

/-- Registers for the tile instructions: x1 an extent, x2 an anchor or a row, x3 32 positions. -/
def tiles (a b : Word) : State := withStrand base fun st => { st with x := [(1, a), (2, b)] }

theorem witness_Tiles : (tiles 0x2020 2048).offers 6 ∧ ((tiles 0x2020 2048).me.getX 1).toNat = 32 + 256 * 32
    ∧ ((tiles 0x2020 2048).me.getX 2).toNat % 32 = 0 ∧ 32 ≤ ((tiles 0x2020 2048).me.getX 2).toNat
    ∧ ((tiles 0x2020 2048).me.getX 2).toNat ≤ 2048
    ∧ (tiles 2047 31).offers 6 ∧ (tiles 2047 31).mqFull = false ∧ (tiles 2047 31).tilesAhead [] [1] = false
    ∧ -2048 ≤ ((tiles 2047 31).me.getX 1).toInt ∧ ((tiles 2047 31).me.getX 1).toInt ≤ 2047
    ∧ ((tiles (-2048) 31).me.getX 1).toInt = -2048
    ∧ (1 : Reg).toNat % (tiles 2047 31).me.vgrp = 0 ∧ (∀ j, j < (tiles 2047 31).me.vgrp → (tiles 2047 31).me.vabs.getLsbD (1 + j) = false)
    ∧ ((tiles 2047 31).me.getX 2).toNat ≤ 31 ∧ -2048 ≤ ((tiles 2047 31).tile 1).anchor ∧ ((tiles 2047 31).tile 1).anchor ≤ 2047
    ∧ (tiles 2047 31).offers 19 ∧ (tiles 2047 31).me.vabs.getLsbD 4 = false := by
  unfold State.offers
  decide +kernel

theorem witness_Tiles_round : (tiles 2047 31).ready 6 [4] [4] ((31 : Reg) ≠ 31) 3 (fun k => k.isInt || k.isFloat)
    ∧ (tiles 2047 31).me.controlOk := by
  have h : (tiles 2047 31).me.controlOk := controlOk_of _ (by decide +kernel) (by decide +kernel) (by decide +kernel)
  refine ⟨?_, h⟩
  unfold State.ready State.offers
  exact ⟨h, by decide +kernel⟩

/-- A full queue, whose entries write tile 1. -/
def fullQueue : State := withCore (tiles 2047 31) fun c =>
  { c with mq := List.replicate 16 (matrixEntry [1] [] false) }

/-- An `mload` of tile 1 of another strand has issued and waits. -/
def loadAhead : State := withCore (tiles 2047 31) fun c => c.setStrand 1 (waitingFor (.mload 1 2) (issueOf []) (c.strand 1))

theorem witness_Tiles_ahead : loadAhead.tilesAhead [] [1] = true ∧ loadAhead.tileBusy 1 = true ∧ loadAhead.tileBusy 2 = false
    ∧ loadAhead.mqFull = false ∧ loadAhead.hasIssued (.mzero 1) = false ∧ loadAhead.offers 6 ∧ loadAhead.offers 19 := by
  unfold State.offers
  decide +kernel

theorem witness_Tiles_queue : fullQueue.mqFull = true ∧ fullQueue.hasIssued (.mzero 1) = false ∧ fullQueue.tileBusy 1 = true ∧ fullQueue.tileBusy 2 = false
    ∧ fullQueue.offers 6 ∧ fullQueue.offers 19 := by
  unfold State.offers
  decide +kernel

/-- A scratchpad whose fourth byte is not 0. -/
def badImage : State := withCore base fun c => { c with spad := [(3, 1)] }

theorem witness_Tiles_images : ∀ s ∈ [base, badImage], s.offers 6 ∧ (s.mqFull = false ∧ s.tilesAhead [3] [] = false ∧ s.tilesAhead [] [3] = false) ∧ s.cut = none ∧ s.me.storeQ = []
    ∧ (∀ w E live, s.unobstructed w E 64 live)
    ∧ (∀ acc ∈ [Access.load, .store], ∀ u, u < 513 → s.findsAt acc ((0xFFFF800000000000 + 64 * u) % 2 ^ 64) 64 (.spad 0) (64 * u))
    ∧ s.storeHeld = false ∧ s.myCore.det = false := by
  have h : ∀ s ∈ [base, badImage], s.offers 6 ∧ (s.mqFull = false ∧ s.tilesAhead [3] [] = false ∧ s.tilesAhead [] [3] = false) ∧ s.cut = none ∧ s.me.storeQ = []
      ∧ (s.myCopies = [] ∧ s.flight s.mySender = none ∧ s.flight (s.senderOf (walkAgent s.curStrand)) = none)
      ∧ (∀ acc ∈ [Access.load, .store], ∀ u, u < 513 → s.findsAt acc ((0xFFFF800000000000 + 64 * u) % 2 ^ 64) 64 (.spad 0) (64 * u))
      ∧ s.storeHeld = false ∧ s.myCore.det = false := by
    unfold State.offers
    simp only [findsAt_iff]
    decide +kernel
  intro s hs
  obtain ⟨h1, h2, h3, h4, h5, h6, h7⟩ := h s hs
  exact ⟨h1, h2, h3, h4, fun w E live => unobstructed_of h5 w E 64 live, h6, h7⟩

theorem witness_Tiles_header : (∀ n, n < 64 → (base.memOf (.spad 0)).get n = 0) ∧ (badImage.memOf (.spad 0)).get 3 ≠ 0 := by
  decide +kernel

/-- Planes for the clause instructions: rows in v0, literals in v1, an automaton of w bits from v8 on. -/
def clauses (w spec mode : Word) (ts : Table (BitVec 8)) : State := withStrand base fun st =>
  { st with sbound := 2, cwidth := w, cspec := spec, dmode := mode, x := [(3, 0x100000001)], tags := ts }

/-- Draws of the generator, with the geometry of 5 literals a clause, and of the table. -/
theorem witness_ClauseFeedback_draws : ∀ p ∈ [(5, 0), (5, 0x20001)],
    let s := withStrand (clauses 8 0 (BitVec.ofNat 64 p.2) []) fun st => { st with cgeom := BitVec.ofNat 64 p.1 }
    (s.me.dmode.getLsbD 0 = decide (p.2 ≠ 0)) ∧ 0 < s.me.cgeom.toNat / 2 ^ 0 % 2 ^ 24 := by
  decide +kernel

theorem witness_ClauseFeedback : ∀ w ∈ [(2 : Nat), 8],
    let s := clauses (BitVec.ofNat 64 w) 0 0 [(0, 0x0C), (1, 0x0C)]
    s.me.controlOk ∧ s.offers 7 ∧ s.me.vabs.getLsbD 32 = false ∧ (0 : Reg).toNat % s.me.vgrp = 0
    ∧ (∀ j, j < s.me.vgrp → s.me.vabs.getLsbD (0 + j) = false ∧ s.me.vabs.getLsbD (1 + j) = false)
    ∧ s.offers 20 ∧ (8 : Reg).toNat % s.me.vgrp = 0 ∧ 8 + s.me.automatonBits * s.me.vgrp ≤ 32
    ∧ (∀ j, j < s.me.automatonBits * s.me.vgrp → s.me.vabs.getLsbD (8 + j) = false)
    ∧ 0 + s.me.vgrp ≤ 8 ∧ 1 + s.me.vgrp ≤ 8
    ∧ s.me.tag 0 = 0x0C ∧ s.me.tag 1 = 0x0C ∧ s.me.delta = false ∧ s.me.tableMode = false := by
  have h : ∀ w ∈ [(2 : Nat), 8], let s := clauses (BitVec.ofNat 64 w) 0 0 [(0, 0x0C), (1, 0x0C)]
      (decide (s.me.vgrp = 1 ∨ s.me.vgrp = 2 ∨ s.me.vgrp = 4 ∨ s.me.vgrp = 8) = true
        ∧ decide (2 ≤ s.me.cwidth.toNat ∧ s.me.cwidth.toNat ≤ 8) = true ∧ s.me.tags.all (fun e => tagOk e.2.toNat) = true)
      ∧ s.offers 7 ∧ s.me.vabs.getLsbD 32 = false ∧ (0 : Reg).toNat % s.me.vgrp = 0
      ∧ (∀ j, j < s.me.vgrp → s.me.vabs.getLsbD (0 + j) = false ∧ s.me.vabs.getLsbD (1 + j) = false)
      ∧ s.offers 20 ∧ (8 : Reg).toNat % s.me.vgrp = 0 ∧ 8 + s.me.automatonBits * s.me.vgrp ≤ 32
      ∧ (∀ j, j < s.me.automatonBits * s.me.vgrp → s.me.vabs.getLsbD (8 + j) = false)
      ∧ 0 + s.me.vgrp ≤ 8 ∧ 1 + s.me.vgrp ≤ 8
      ∧ s.me.tag 0 = 0x0C ∧ s.me.tag 1 = 0x0C ∧ s.me.delta = false ∧ s.me.tableMode = false := by
    unfold State.offers
    decide +kernel
  intro w hw s
  obtain ⟨⟨a, b, c⟩, r⟩ := h w hw
  exact ⟨controlOk_of _ a b c, r⟩

/-- `cdraw` from the table, `cprob` with T at both ends of its range, `cadd`, and step counts. -/
theorem witness_ClauseFeedback_kinds :
    (let s := clauses 8 0 0x20001 [(0, 6)];
      s.offers 7 ∧ s.me.tag 0 = 6 ∧ s.offers 18 ∧ s.me.tableMode = true ∧ s.tableBad = false ∧ s.myCopies = [])
    ∧ (let s := clauses 8 0 0 [(0, 2)];
      s.offers 18 ∧ s.me.tag 0 = 2 ∧ (s.me.getX 3).toNat = 1 + 2 ^ 32 ∧ s.me.vabs.getLsbD 8 = false
      ∧ (∀ c ∈ tagClasses (s.me.tag 0), s.offers c))
    ∧ (let s := clauses 8 0x2000000 0 [(0, 0x0C), (1, 0x0C), (8, 0)];
      s.offers 20 ∧ s.me.delta = true ∧ s.me.tag 0 = 0x0C ∧ s.me.tag 1 = 0x0C ∧ s.me.tag 8 = 0
      ∧ (∀ c ∈ tagClasses (s.me.tag 8), s.offers c) ∧ s.me.vabs.getLsbD 8 = false) := by
  unfold State.offers
  decide +kernel

/-! ## Witnesses: the copy engine, barriers and queues -/

/-- Registers of a copy: source x1, destination x2, control word x3; the descriptor at SDM byte 32, the list at
scratchpad byte 0. -/
def copies (src x : Word) (desc : List Byte) : State := withCore (withStrand base fun st =>
  { st with x := [(1, src), (2, 0x50000), (3, x)] }) fun c => { c with sdm := Mem.write [] 32 desc, spad := [(4, 1)] }

/-- A descriptor: two rows of 16 bytes, strides 64 and 32, and a list or none. -/
def descriptor (list : Nat) : List Byte :=
  leBytes 4 2 ++ leBytes 4 16 ++ leBytes 8 64 ++ leBytes 8 32 ++ leBytes 8 list

/-- Everything that the statement asks of a copy command of a form that enters the queue. -/
def copyReady (s : State) (i : Instr) (form : CopyForm) : Bool :=
  let x := (s.me.getX 3).toNat
  let held := s.copyRead i
  let desc := match held with
    | some r => r.desc
    | none => leNat (s.loadAs s.me [{ space := .sdm s.curCore, addr := x % 2 ^ 18, len := 32 }])
  let c := CopySpec.read form x (if form = .linear then 0 else desc)
  let plan := s.copyPlan i form c (s.me.getX 1) (s.me.getX 2)
  let reads := plan.flatMap fun r => r.reads c.rowLen
  let writes := plan.flatMap fun r => r.writes c.rowLen
  (held.isSome || !s.entriesTaken) && (s.flight s.mySender).isNone && ((reads ++ writes).all fun e => walks s s.curStrand e.addr e.len)
    && (plan.all fun r => match r.ptr with
      | none => true
      | some v => match s.translate s.curCore .load false v 8 with
        | .at_ (.remote _) _ => false
        | .at_ ps y => !s.reducesMeet [{ space := ps, addr := y, len := 8 }] && !s.unitOpen s.mySender [{ space := ps, addr := y, len := 8 }]
          && !s.heldUnplaced
        | _ => true)
    && s.copyTrap i form c (s.me.getX 1) = none
    && !s.interlocked false [{ idx := 0, addr := sdmBase + x % 2 ^ 18, len := 32 }]
    && c.rows ≠ 0 && c.rowLen ≠ 0 && !s.interlocked false [{ idx := 0, addr := c.list.toNat, len := 4 * c.rows }]
    && !s.interlocked false reads && !s.interlocked true writes
    && (match s.copyPhase s.curCore reads writes with | .ok _ => true | _ => false)
    && !s.copyOverlaps form c plan

theorem witness_Copies : (copies 0x40000 100 []).offers 8
    ∧ copyReady (copies 0x40000 100 []) (.xcp 2 1 3 .core .rlx) .linear = true
    ∧ copyReady (copies 0x40000 32 (descriptor 0)) (.xcp2 2 1 3 .core .rlx) .strided = true
    ∧ copyReady (copies 0x40000 32 (descriptor 0xFFFF800000000000)) (.xgat 2 1 3 .core .rlx) .gather = true
    ∧ copyReady (copies 0x60000 32 (descriptor 0xFFFF800000000000)) (.xpg 2 1 3 .core .rlx) .pages = true
    ∧ (copies 0x40000 100 []).windowAt 0 (0xFFFF800000000000 - windowBase) 8 = .at_ (.spad 0) 0
    ∧ (CopySpec.read .linear 0 0).rowLen = 0
    ∧ (copies 0x60000 32 []).findsAt .load 0x60000 8 .device 0x60000
    ∧ (copies 0x40000 100 []).flight ((copies 0x40000 100 []).senderOf (walkAgent (copies 0x40000 100 []).curStrand)) = none := by
  unfold State.offers
  simp only [findsAt_iff]
  decide +kernel

/-- An `xpg` that has issued and waits: it has read its descriptor, its list and one of its two pointers. -/
def heldRead : CopyRead where
  desc := leNat (descriptor 0xFFFF800000000000)
  list := some (leBytes 4 0 ++ leBytes 4 1)
  ptrs := [(0, 0x40000)]

theorem witness_Copies_issued :
    let i : Instr := .xpg 2 1 3 .core .rlx
    let s := withStrand (copies 0x60000 32 []) (waitingFor i (issueOf [] (some heldRead)))
    s.offers 8 ∧ s.copyRead i = some heldRead ∧ copyReady s i .pages = true
    ∧ s.windowAt 0 (heldRead.desc / 2 ^ 192 % 2 ^ 64 - windowBase) 8 = .at_ (.spad 0) 0
    ∧ (heldRead.ptrs.find? fun e => e.1 = 0) = some (0, 0x40000) ∧ (heldRead.ptrs.find? fun e => e.1 = 1) = none
    ∧ s.findsAt .load 0x60008 8 .device 0x60008 := by
  unfold State.offers
  simp only [findsAt_iff]
  decide +kernel

/-- Commands that are refused at issue: reserved bits, a descriptor that is not aligned, a barrier of a core that the team
lacks; and in phase one: a page that is missing, an address that is forbidden, and rows that overlap. -/
theorem witness_Copies_refused :
    (∀ p ∈ [((2 : Nat) ^ 54 + 100, CopyForm.linear, Cause.illegal), (33, .strided, .misalign),
        (2 ^ 62 + 2 ^ 54 + 100, .linear, .access)],
      let s := copies 0x40000 (BitVec.ofNat 64 p.1) []
      let desc := leNat (s.loadAs s.me [{ space := .sdm s.curCore, addr := p.1 % 2 ^ 18, len := 32 }])
      let i : Instr := if p.2.1 = .linear then .xcp 2 1 3 .core .rlx else .xcp2 2 1 3 .core .rlx
      s.offers 8 ∧ (s.copyTrap i p.2.1 (CopySpec.read p.2.1 p.1 (if p.2.1 = .linear then 0 else desc)) (s.me.getX 1)).map Trap.cause
        = some p.2.2)
    ∧ (∀ p ∈ [((0x40000000 : Word), 0), (0x800000000000, 1), (0x50000, 2)],
      let s := copies p.1 100 []
      let c := CopySpec.read .linear 100 0
      let plan := s.copyPlan (.xcp 2 1 3 .core .rlx) .linear c (s.me.getX 1) (s.me.getX 2)
      let phase := s.copyPhase s.curCore (plan.flatMap fun r => r.reads c.rowLen) (plan.flatMap fun r => r.writes c.rowLen)
      s.copyTrap (.xcp 2 1 3 .core .rlx) .linear c (s.me.getX 1) = none
      ∧ (match phase with
        | .missing rows pages written => decide (p.2 = 0) && (match s.reportFault s.curCore s.curStrand (if written then 1 else 0) s.me.pc rows pages with
            | .ok _ => true | _ => false)
        | .forbidden row addr => decide (p.2 = 1 ∧ row = 0 ∧ addr = 0x800000000000)
        | .ok _ => decide (p.2 = 2) && s.copyOverlaps .linear c plan) = true) := by
  unfold State.offers
  decide +kernel

/-- A core whose engine holds one command. -/
def engine (c : Copy) : State := withCore base fun u => { u with copies := [c] }

theorem witness_Copies_engine :
    let s := engine copy
    (s.core 0).copies = [copy] ∧ (s.core 0).halted = false ∧ (s.core 0).resuming = false ∧ s.copyBehind 0 copy = false
    ∧ copy.rows[0]? = some ⟨0x40000, 0x50000, 100⟩ ∧ copy.suspended = false ∧ copy.unit = none ∧ copy.key = none
    ∧ copy.barrier = none ∧ copy.offset < 100 ∧ s.copyPlace 0 copy (0x50000, 64) = .at_ .device 0x50000
    ∧ s.unitWaits (s.copySender 0 engineAgent) true [{ space := .device, addr := 0x50000, len := 64 }] = false
    ∧ (∀ k, k < 64 → s.copyPlace 0 copy (0x40000 + k, 1) = .at_ .device (0x40000 + k)
      ∧ s.unitOpen (s.copySender 0 engineAgent) [{ space := .device, addr := 0x40000 + k, len := 1 }] = false)
    ∧ s.flight (s.copySender 0 engineAgent) = none := by
  decide +kernel

/-- A unit of 64 bytes that went to another device as the writes 5 and 6: one not acknowledged, and none. -/
theorem witness_Copies_unit :
    let c := { copy with unit := some (64, 5, 7) }
    let p : Posted := { device := 3, source := base.mySender, unit := [], no := 6 }
    ∀ l ∈ [[p], []], let s := { engine c with postedQ := l }
      (s.core 0).copies = [c] ∧ (s.core 0).halted = false ∧ (s.core 0).resuming = false
      ∧ c.rows[c.row]? = some ⟨0x40000, 0x50000, 100⟩ ∧ ((∃ e ∈ s.postedQ, 5 ≤ e.no ∧ e.no < 7) ↔ l = [p]) := by
  decide +kernel

/-- A command whose destination has no place any more. -/
theorem witness_Copies_lost :
    let c := { copy with pages := copy.pages.filter fun e => e.1 ≠ 0x50 }
    let s := engine c
    (s.core 0).copies = [c] ∧ (s.core 0).resuming = false ∧ c.rows[c.row]? = some ⟨0x40000, 0x50000, 100⟩ ∧ c.suspended = false
    ∧ c.unit = none ∧ s.copyBehind 0 c = false ∧ c.offset < 100 ∧ s.copyPlace 0 c (0x50000, 64) = .forbidden
    ∧ ∀ k, k < 64 → s.copyPlace 0 c (0x40000 + k, 1) = .at_ .device (0x40000 + k) := by
  decide +kernel

/-- A command that drains the barrier at scratchpad byte 0: 100 bytes are pending, no arrival is missing. -/
theorem witness_Copies_drain :
    let c := { copy with barrier := some (0, 0) }
    let s := withCore (engine c) fun u => { u with spad := [(0, 100), (8, 1), (10, 1)] }
    let v := leNat ((s.memOf (.spad 0)).read 0 16)
    (s.core 0).copies = [c] ∧ ((s.core 0).place.bind fun pl => pl.cores[0]?) = some 0
    ∧ Barrier.ofNat v = some ⟨100, false, 1, 1⟩ ∧ -(2 : Int) ^ 55 ≤ 100 - 64 := by
  decide +kernel

/-- Nothing else walks the tables for the engine, and the rows that are left find their pages. -/
def retranslates (c : Copy) : Bool :=
  let s := engine c
  let u := s.at_ 0 s.curStrand
  (c.remaining.flatMap fun (_, r) => [(r.src.toNat, r.len), (r.dst.toNat, r.len)]).all fun e => walks u engineAgent e.1 e.2

theorem witness_Copies_events :
    (let c := { copy with row := 1 }; ((engine c).core 0).copies = [c] ∧ c.rows.length ≤ c.row)
    ∧ (let c := { copy with suspended := true }; c.suspended = true ∧ c.awaiting = [] ∧ c.unit = none
      ∧ (∀ rows ∈ [copy.rows, [⟨0x800000000000, 0x50000, 100⟩], [⟨0x40000000, 0x50000, 100⟩]], retranslates { c with rows := rows } = true)
      ∧ (match (engine c).copyPhase 0 (c.remaining.map fun (i, r) => { idx := i, addr := r.src.toNat, len := r.len })
          (c.remaining.map fun (i, r) => { idx := i, addr := r.dst.toNat, len := r.len }) with | .ok _ => true | _ => false) = true)
    ∧ (let c := { copy with suspended := true, rows := [⟨0x800000000000, 0x50000, 100⟩] }
      (match (engine c).copyPhase 0 (c.remaining.map fun (i, r) => { idx := i, addr := r.src.toNat, len := r.len })
          (c.remaining.map fun (i, r) => { idx := i, addr := r.dst.toNat, len := r.len }) with
        | .forbidden row addr => decide (row = 0 ∧ addr = 0x800000000000) | _ => false) = true)
    ∧ (let c := { copy with suspended := true, rows := [⟨0x40000000, 0x50000, 100⟩] }
      (match (engine c).copyPhase 0 (c.remaining.map fun (i, r) => { idx := i, addr := r.src.toNat, len := r.len })
          (c.remaining.map fun (i, r) => { idx := i, addr := r.dst.toNat, len := r.len }) with
        | .missing rows pages written => (match (engine c).reportFault 0 0 (if written then 1 else 0) c.pc rows pages true with
            | .ok _ => true | _ => false)
        | _ => false) = true) := by
  decide +kernel

/-- A strand with the first scratchpad byte in x1, a number in x2 and an element's address in x3, and a scratchpad. -/
def objects (b : Word) (spad : Mem) : State := withCore (withStrand base fun st =>
  { st with x := [(1, 0xFFFF800000000000), (2, b), (3, 0xFFFF800000000100)] }) fun c => { c with spad := spad }

theorem witness_BarriersAndQueues_barrier :
    (∀ s ∈ [objects 1 [], objects 65535 [], objects 0 [(8, 1)], objects 1 [(8, 1)]],
      let va := s.me.getX 1
      s.offers 8 ∧ va.toNat % 16 = 0 ∧ inWindows va.toNat = true ∧ s.window s.curCore va.toNat 16 = .at_ (.spad 0) 0
      ∧ s.objectWaits (Order.of .core .rlx) true [{ idx := 0, addr := va.toNat, len := 16 }] = false
      ∧ s.objectWaits (Order.of .core .rlx) false [{ idx := 0, addr := va.toNat, len := 16 }] = false)
    ∧ Barrier.ofNat 0 = none
    ∧ Barrier.ofNat (leNat (((objects 0 [(8, 1)]).memOf (.spad 0)).read 0 16)) = some ⟨0, false, 1, 0⟩
    ∧ ((objects 0 [(8, 1)]).me.getX 2).getLsbD 0 = false ∧ ((objects 1 [(8, 1)]).me.getX 2).getLsbD 0 = true := by
  unfold State.offers
  decide +kernel

theorem witness_BarriersAndQueues_bwait :
    let s := withStrand (objects 1 [(8, 1)]) fun st => { st with waiting := some ⟨.bwait 4 1 2 .core .rlx, 0, none⟩ }
    s.at_ s.curCore s.curStrand = s ∧ s.me.waiting = some ⟨.bwait 4 1 2 .core .rlx, 0, none⟩
      ∧ s.strandRuns s.curCore s.curStrand = true := by
  decide +kernel

theorem witness_BarriersAndQueues_queue :
    (∀ s ∈ [objects (1 + 8 * 2 ^ 32) [], objects (2 ^ 16 + 64 * 2 ^ 32) [], objects 0 [(8, 2), (12, 8)], objects 0 [(4, 2), (8, 2), (12, 8)]],
      let va := s.me.getX 1
      s.offers 8 ∧ va.toNat % 64 = 0 ∧ inWindows va.toNat = true ∧ s.window s.curCore va.toNat 64 = .at_ (.spad 0) 0
      ∧ s.objectWaits (Order.of .core .rlx) true [{ idx := 0, addr := va.toNat, len := 64 }] = false
      ∧ (s.me.getX 3).toNat % 8 = 0 ∧ windowBase ≤ (s.me.getX 3).toNat ∧ (s.me.getX 3).toNat < teamBase
      ∧ s.windowAt s.curCore ((s.me.getX 3).toNat - windowBase) 8 = .at_ (.spad 0) 0x100
      ∧ s.interlocked false [{ idx := 0, addr := (s.me.getX 3).toNat, len := 8 }] = false
      ∧ s.interlocked true [{ idx := 0, addr := (s.me.getX 3).toNat, len := 8 }] = false
      ∧ s.storeHeld = false ∧ s.myCore.det = false)
    ∧ (objects 0 []).window 0 0xFFFF800000000000 (64 + 8 * 2 ^ 0) = .at_ (.spad 0) 0
    ∧ (∀ p ∈ [((objects 0 []), false, 0), (objects 0 [(8, 2), (12, 8)], true, 0), (objects 0 [(4, 2), (8, 2), (12, 8)], true, 2)],
        let n := leNat ((p.1.memOf (.spad 0)).read 0 64)
        p.1.interlocked true [{ idx := 0, addr := ((p.1.me.getX 1) + 64).toNat, len := 8 }] = false
        ∧ p.1.interlocked false [{ idx := 0, addr := ((p.1.me.getX 1) + 64).toNat, len := 8 }] = false
        ∧ p.1.queueValid { space := .spad 0, addr := 0, len := 64 } n = p.2.1 ∧ (n / 2 ^ 32 % 2 ^ 32 + 2 ^ 32 - n % 2 ^ 32) % 2 ^ 32 = p.2.2) := by
  unfold State.offers
  decide +kernel

/-! ## Witnesses: system instructions -/

theorem witness_ControlRegisters : base.offers 9 ∧ base.myCore.det = false ∧ base.myCore.prick.length ≤ 4 ∧ det.offers 9
    ∧ det.myCore.det = true ∧ ((32 : BitVec 6).toNat = 32 + 0 ∧ (47 : BitVec 6).toNat = 32 + 15 ∧ (28 : BitVec 6).toNat < 29
      ∧ (∀ n ∈ [(29 : BitVec 6), 31, 48, 63], (Instr.scrr 0 n).wf = false) ∧ (∀ n ∈ [(28 : BitVec 6), 32, 47], (Instr.scrr 0 n).wf = true)
      ∧ (8 : BitVec 6).toNat = 8 + 0 ∧ (11 : BitVec 6).toNat = 8 + 3) := by
  unfold State.offers
  decide +kernel

theorem witness_DirtyTimeAndCapabilities :
    (∀ p ∈ [(0, 2 ^ 33 - 1), (1, 2 ^ 33), (2, 0)], let s := withStrand base fun st => { st with x := [(1, BitVec.ofNat 64 p.1), (2, BitVec.ofNat 64 p.2)] }
      s.offers 9 ∧ s.myCore.det = false ∧ (s.me.getX 1).toNat = p.1 ∧ (s.me.getX 2).toNat = p.2)
    ∧ det.offers 9 ∧ det.myCore.det = true ∧ det.me.getX 4 = 0 ∧ det.myCore.place = some { fetchPlace with det := true }
    ∧ (withStrand det fun st => { st with x := [(1, 1)] }).me.getX 1 = 1 := by
  unfold State.offers
  decide +kernel

/-- A strand with its image at the first scratchpad byte and a part set in x2. -/
def images (parts : Word) (spad : Mem) : State := withCore (withStrand base fun st =>
  { st with x := [(1, 0xFFFF800000000000), (2, parts)] }) fun c => { c with spad := spad }

/-- Whether unit u belongs to an image of the parts given. -/
def imageUnit (parts u : Nat) : Bool := decide (u < 1) || (parts.testBit 33 && decide (1 ≤ u ∧ u < 37))
  || (parts.testBit 32 && decide (37 ≤ u ∧ u < 133)) || (decide (133 ≤ u ∧ u < 1157) && parts.testBit ((u - 133) / 32))

/-- An image of v0, the masks and the control registers ends with unit 164. -/
theorem imageUnit_lt {u : Nat} (h : imageUnit 0x300000001 u = true) : u < 165 := by
  have key : ∀ j, j < 32 → (0x300000001 : Nat).testBit j = true → j = 0 := by decide
  simp only [imageUnit, Bool.or_eq_true, Bool.and_eq_true, decide_eq_true_eq] at h
  rcases h with ((h | h) | h) | h
  · omega
  · omega
  · omega
  · have := key ((u - 133) / 32) (by omega) h.2
    omega

/-- Operands that trap: a base that is not aligned, and a part set with a bit above its last. -/
theorem witness_StrandImages_askew :
    let s := withStrand (images 0 []) fun st => { st with x := [(1, 0xFFFF800000000008)] }
    s.offers 9 ∧ s.cut = none ∧ (s.me.getX 1).toNat % 64 ≠ 0 := by
  unfold State.offers
  decide +kernel

theorem witness_StrandImages_parts : ∀ s ∈ [images 0x400000000 [], images 0x800000000 []],
    s.offers 9 ∧ s.cut = none ∧ (s.me.getX 1).toNat % 64 = 0 ∧ 2 ^ 34 ≤ (s.me.getX 2).toNat := by
  unfold State.offers
  decide +kernel

theorem witness_StrandImages_load : 2 ^ 35 ≤ ((images 0x800000000 []).me.getX 2).toNat := by
  decide +kernel

theorem witness_StrandImages : ∀ s ∈ [images 0x300000001 [], images 0x300000001 [(0, 0x50), (1, 0x56), (2, 0x53), (3, 0x31), (5, 0x40)]],
    (s.offers 9 ∧ (s.me.getX 1).toNat % 64 = 0 ∧ s.cut = none ∧ (s.me.getX 2).toNat < 2 ^ 34 ∧ s.me.vabs = 0 ∧ s.me.storeQ = []
      ∧ s.storeHeld = false ∧ s.myCore.det = false)
    ∧ (∀ w E live, s.unobstructed w E 64 live)
    ∧ ∀ acc ∈ [Access.load, .store], ∀ u, imageUnit 0x300000001 u = true →
        s.findsAt acc ((0xFFFF800000000000 + 64 * u) % 2 ^ 64) 64 (.spad 0) (64 * u) := by
  have h : ∀ s ∈ [images 0x300000001 [], images 0x300000001 [(0, 0x50), (1, 0x56), (2, 0x53), (3, 0x31), (5, 0x40)]],
      (s.offers 9 ∧ (s.me.getX 1).toNat % 64 = 0 ∧ s.cut = none ∧ (s.me.getX 2).toNat < 2 ^ 34 ∧ s.me.vabs = 0 ∧ s.me.storeQ = []
        ∧ s.storeHeld = false ∧ s.myCore.det = false)
      ∧ (s.myCopies = [] ∧ s.flight s.mySender = none ∧ s.flight (s.senderOf (walkAgent s.curStrand)) = none)
      ∧ ∀ acc ∈ [Access.load, .store], ∀ u, u < 165 →
          s.findsAt acc ((0xFFFF800000000000 + 64 * u) % 2 ^ 64) 64 (.spad 0) (64 * u) := by
    unfold State.offers
    simp only [findsAt_iff]
    decide +kernel
  intro s hs
  obtain ⟨plain, free, finds⟩ := h s hs
  exact ⟨plain, fun w E live => unobstructed_of free w E 64 live, fun acc ha u hu => finds acc ha u (imageUnit_lt hu)⟩

theorem witness_StrandImages_header :
    let word (s : State) (n len : Nat) : Nat := leNat ((List.range len).map fun i => (s.memOf (.spad 0)).get (n + i))
    let s := images 0x400000001 [(0, 0x50), (1, 0x56), (2, 0x53), (3, 0x31), (5, 0x40)]
    word s 0 4 = 0x31535650 ∧ word s 4 4 = 16384 ∧ word s 17 47 = 0 ∧ word (images 0 []) 0 4 ≠ 0x31535650
      ∧ (s.me.getX 2).toNat.testBit 34 = true ∧ (s.me.getX 2).toNat < 2 ^ 35 := by
  decide +kernel

/-! ## Witnesses: the control hart -/

/-- The control hart of core 0 runs in M-mode at 0x10000. -/
def hartBase (x : Table Word) : State := withCore (hartAt 32 0b111111111111_00010_000_00001_0010011)
  fun c => { c with hart := { c.hart with x := x } }

/-- The same with the strands of its core changed. -/
def hartWith (x : Table Word) (f : Core → Core) : State := withCore (hartBase x) f

/-- A strand of a state. -/
def strandAs (k : Nat) (f : Strand → Strand) (c : Core) : Core := c.setStrand k (f (c.strand k))

theorem witness_StrandCommands :
    (∀ s ∈ [hartBase [(1, 0xF000003), (2, 0x8000)], hartBase [(1, 0x800000), (2, 0x8000)]],
      let x := s.hart.getX 1
      s.hartClass = true ∧ (x &&& ~~~ 0xF000000).toNat < 2 ^ s.myCore.strandCount ∧ (s.hart.getX 2).toNat % 4 = 0
      ∧ (∀ k, k < 24 → (s.myCore.strand k).buf.length < 4) ∧ s.myCore.strandCount ≤ 24)
    ∧ (let s := hartWith [(1, 1)] (strandAs 0 fun st => { st with buf := List.replicate 4 ⟨0x8000, 1⟩ });
      s.hartClass = true ∧ (s.hart.getX 1).getLsbD 0 = true ∧ 4 ≤ (s.myCore.strand 0).buf.length)
    ∧ (let s := hartBase [(1, 0x1000000), (2, 2)];
      s.hartClass = true ∧ 2 ^ s.myCore.strandCount ≤ (s.hart.getX 1).toNat ∧ (s.hart.getX 2).toNat % 4 ≠ 0)
    ∧ (let s := hartWith [(1, 0xF00000FFFFFF)] (strandAs 0 fun st => { st with sigPend := true });
      s.hartClass = true ∧ (s.hart.getX 1).toNat < 2 ^ 52 ∧ s.myCore.kpend &&& s.hart.getX 1 ≠ 0)
    ∧ (let s := hartBase [(1, 1)];
      (s.hart.getX 1).toNat < 2 ^ 52 ∧ s.myCore.kpend &&& s.hart.getX 1 = 0 ∧ s.hart.getX 1 ≠ 0)
    ∧ 2 ^ 52 ≤ ((hartBase [(1, 0x10000000000000)]).hart.getX 1).toNat
    ∧ (let s := hartBase [(1, 0x100000000), (2, 0x8000)];
      s.hartClass = true ∧ (∀ k, k < 24 → (s.hart.getX 1).getLsbD k = false) ∧ 0 < (s.hart.getX 1).toNat / 2 ^ 32)
    ∧ (let s := hartWith [(1, 3)] (strandAs 0 fun st => { st with st := .trapped });
      (s.myCore.strand 0).st = .trapped ∧ (s.at_ s.curCore 0).settled .core = true ∧ (s.myCore.strand 1).atRest = true) := by
  decide +kernel

theorem witness_StrandCommands_farms :
    (∀ n ∈ [0, 2], let s := hartWith [(1, BitVec.ofNat 64 (n * 2 ^ 32 + 7)), (2, 0x8000)] fun c =>
        { c with farms := [(0, some { set := 8, entry := 0, count := 1, next := 0, live := 8, dealt := [] })] }
      s.hartClass = true ∧ (s.myCore.farm 1).isNone = true ∧ (∀ j, j < 1 → (s.myCore.farm j).isSome = true)
      ∧ (s.hart.getX 1 &&& 0xFFFFFFFF).toNat < 2 ^ s.myCore.strandCount ∧ (s.hart.getX 2).toNat % 4 = 0
      ∧ (s.hart.getX 1).toNat / 2 ^ 32 = n ∧ (∀ k, k < 24 → (s.myCore.strand k).atRest = true) ∧ s.myCore.det = false)
    ∧ (let s := hartWith [(1, 0x100000001)] (strandAs 0 fun st => { st with st := .self });
      (s.hart.getX 1).getLsbD 0 = true ∧ (s.myCore.strand 0).atRest = false ∧ (s.myCore.farm 0).isNone = true)
    ∧ (let s := hartWith [(1, 0x100000001)] fun c => { c with farms := (List.range 4).map fun f =>
          (f, some { set := 8, entry := 0, count := 1, next := 0, live := 8, dealt := [] }) };
      (∀ f, f < 4 → (s.myCore.farm f).isSome = true) ∧ (s.hart.getX 1).getLsbD 0 = true) := by
  decide +kernel

theorem witness_StrandItems :
    (∀ k ∈ [0, 23], let s := hartWith [(1, BitVec.ofNat 64 k), (2, 5)] (strandAs k fun st => { st with st := .trapped });
      s.hartClass = true ∧ (s.hart.getX 1).toNat = k ∧ k < 24 ∧ k < s.myCore.strandCount ∧ (s.myCore.strand k).st = .trapped
      ∧ (s.myCore.strand (23 - k)).st = .idle ∧ (s.myCore.strand k).buf.length ≤ 4)
    ∧ (let s := hartBase [(1, 24)]; s.hartClass = true ∧ 24 ≤ (s.hart.getX 1).toNat)
    ∧ (let s := hartWith [(1, 1)] (strandAs 1 fun st => { st with st := .self }); (s.myCore.strand (s.hart.getX 1).toNat).st = .self)
    ∧ (let s := hartBase [(1, 9), (2, 0x009A0E34)];
      s.hart.mode = .m ∧ (s.hart.getX 1).toNat = 9 ∧ entryValid (s.hart.getX 2) = true ∧ (∀ q ∈ s.myCore.mq, 9 ∉ q.formats)
      ∧ (s.hart.getX 1).toNat < 256)
    ∧ (let s := hartWith [(1, 15), (2, 0x009A0E34)] fun c => { c with mq := [matrixEntry [] [15] false] };
      s.hart.mode = .m ∧ (s.hart.getX 1).toNat = 15 ∧ entryValid (s.hart.getX 2) = true ∧ ∃ q ∈ s.myCore.mq, 15 ∈ q.formats)
    ∧ (hartWith [] fun c => { c with hart := { c.hart with mode := .u } }).hart.mode = .u
    ∧ (∀ p ∈ [(8, (0x009A0E34 : Word)), (16, 0x009A0E34), (9, 0)], let s := hartBase [(1, BitVec.ofNat 64 p.1), (2, p.2)]
      s.hart.mode = .m ∧ ((s.hart.getX 1).toNat < 9 ∨ 15 < (s.hart.getX 1).toNat ∨ entryValid (s.hart.getX 2) = false))
    ∧ (∀ x ∈ [255, 256], let s := hartBase [(1, BitVec.ofNat 64 x)]; s.hart.mode = .m ∧ (256 ≤ (s.hart.getX 1).toNat ↔ x = 256))
    ∧ (∀ n ∈ [(93 : BitVec 7), 95, 112, 127], (93 ≤ n.toNat ∧ n.toNat ≤ 95) ∨ 112 ≤ n.toNat)
    ∧ ((96 : BitVec 7).toNat = 96 + 0 ∧ (111 : BitVec 7).toNat = 96 + 15) := by
  decide +kernel

theorem witness_HartArithmetic : (hartBase []).myCore.det = false ∧ (hartBase []).hart.mode = .m
    ∧ (hartWith [] fun c => { c with hart := { c.hart with mode := .u } }).hart.mstatus.getLsbD 21 = false := by
  decide +kernel

theorem witness_HartSystem_access :
    (∀ acc ∈ [Access.load, .store, .rmw], ∀ n ∈ [1, 2, 4, 8], let s := hartBase [(1, 0x20000)]
      (s.hart.getX 1 + (0 : BitVec 12).signExtend 64).toNat % n = 0
      ∧ s.translate s.curCore acc s.hart.machineAccess (s.hart.getX 1 + (0 : BitVec 12).signExtend 64).toNat n = .at_ .device 0x20000
      ∧ s.flight s.hartSender = none ∧ walks s hartAgent (s.hart.getX 1 + (0 : BitVec 12).signExtend 64).toNat n = true
      ∧ s.unitWaits s.hartSender acc.writes [{ space := .device, addr := 0x20000, len := n }] = false)
    ∧ (hartBase [(1, 0x20000)]).myCore.det = false
    ∧ (hartBase [(1, 0x20001)]).hart.getX 1 = 0x20001
    ∧ (∀ acc ∈ [Access.load, .store], (hartBase []).translate 0 acc (hartBase []).hart.machineAccess 0x40000000 8 = .missing
      ∧ (hartBase []).translate 0 acc (hartBase []).hart.machineAccess 0x800000000000 8 = .forbidden
      ∧ ∀ a ∈ [0x40000000, 0x800000000000], walks (hartBase []) hartAgent a 8 = true) := by
  decide +kernel

theorem witness_HartSystem_modes :
    (hartBase []).hart.mode = .m ∧ (hartWith [] fun c => { c with hart := { c.hart with mode := .u } }).hart.mode = .u
    ∧ (0x300 : BitVec 12).toNat / 256 % 4 ≠ 0 ∧ 0xC00 ≤ (0xC00 : BitVec 12).toNat
    ∧ (hartBase []).hart.mtvec = 0 ∧ (hartWith [] fun c => { c with hart := { c.hart with mtvec := 0x8000 } }).hart.mtvec ≠ 0
    ∧ (withCore (hartBase []) fun c => { c with place := c.place.map fun p => { p with det := true } }).myCore.det = true := by
  decide +kernel

/-! ## Witnesses: events of a core -/

/-- A core whose control hart has the strand-event interrupt due. -/
def interrupted : State := hartWith [] fun c =>
  { strandAs 0 (fun st => { st with sigPend := true }) c with
    kie := 1, hart := { c.hart with mie := 0x10000, mstatus := 8 } }

/-- A core whose strand 0 has exceeded its watchdog limit while it waits on an instruction, or on none. -/
def overdue (w : Option Waiting) : State := withCore (withStrand base fun st => { st with wd := 0x1000001, waiting := w }) fun c => c

theorem witness_CoreEvents_strands :
    interrupted.hartRuns 0 = true ∧ (interrupted.core 0).interruptDue = true ∧ (hartBase []).hartRuns 0 = true
    ∧ ((hartBase []).core 0).interruptDue = false ∧ ((hartBase []).core 0).hart.mode = .m
    ∧ (let s := withCore base fun c => { c with kpre := 3 };
      (s.core 0).kpre.getLsbD 0 = true ∧ s.strandRuns 0 0 = true ∧ (s.core 0).kpre.getLsbD 1 = true ∧ s.strandRuns 0 1 = false)
    ∧ (∀ w ∈ [none, some (⟨.vpost 4 7, 0, none⟩ : Waiting), some ⟨.vtake 4 7, 0, none⟩, some ⟨.signal 4, 0, none⟩, some ⟨.stop, 0, none⟩],
        let s := overdue w
        s.strandRuns 0 0 = true ∧ (s.core 0).wdLimit ≠ 0 ∧ (s.core 0).wdLimit < ((s.core 0).strand 0).wd ∧ ((s.core 0).strand 0).waiting = w)
    ∧ ((base.core 0).strand 0).wd ≤ (base.core 0).wdLimit
    ∧ (let s := hartWith [] (strandAs 0 fun st => { st with buf := [⟨0x8000, 1⟩] });
      s.hartRuns 0 = true ∧ ((s.core 0).strand 0).st = .idle ∧ ((s.core 0).strand 0).buf = [⟨0x8000, 1⟩]) := by
  decide +kernel

/-- A store that is held in the store queue. -/
def heldStore : Held where
  source := base.mySender
  no := 1
  interval := 0
  pc := 0x8000
  blk := none
  space := .device
  addr := 0x20000
  bytes := [1, 2]
  page := 0x20
  stale := false
  awaiting := false
  key := none
  sync := ⟨0, 0, 0, 0⟩
  more := false

/-- Strand 0 holds these stores. -/
def holding (l : List Held) : State := withStrand base fun st => { st with storeQ := l }

/-- Where a held store of the witnesses below goes. -/
def heldPlace (h : Held) : Space × Nat := (.device, h.page * 4096 + h.addr % 4096)

/-- A held store that has lost its translation, and whose page is missing now: a load of its strand waits. -/
theorem witness_ScalarLoads_unplaced :
    let s := withStrand addresses fun st => { st with storeQ := [{ heldStore with stale := true, page := 0x40000 }] }
    s.offers 0 ∧ s.heldUnplaced = true ∧ s.liesAt .load 0x20008 8 .device 0x20008 ∧ s.walksHere s.curStrand 0x20008 8
    ∧ s.flight s.mySender = none ∧ s.flight (s.senderOf (walkAgent s.curStrand)) = none
    ∧ s.interlocked false [{ idx := 0, addr := 0x20008, len := 8 }] = false := by
  unfold State.offers State.liesAt
  simp only [walks_iff]
  decide +kernel

theorem witness_CoreEvents_waits :
    (let s := withStrand base fun st => { st with waiting := some ⟨.signal 4, 0, none⟩ };
      s.strandRuns 0 0 = true ∧ ((s.core 0).strand 0).sigPend = false ∧ s.settled .core = true)
    ∧ (let s := withStrand base fun st => { st with waiting := some ⟨.vpost 4 7, 0, none⟩ };
      ((s.core 0).strand 0).vabs.getLsbD 4 = false ∧ (s.core 0).chan 7 = none ∧ s.postBehind 7 = false)
    ∧ (let s := withStrand posted fun st => { st with waiting := some ⟨.vtake 4 7, 0, none⟩ };
      (s.core 0).chan 7 = some { bytes := 5, tag := 3 } ∧ (s.core 0).takeBehind 7 0 s.tick = false)
    ∧ (let a : MatrixEntry := { matrixEntry [1] [] true with reads := [1] }
      let b : MatrixEntry := { matrixEntry [2] [] false with reads := [2] }
      let s := withCore base fun c => { c with mq := [a, b] };
      (s.core 0).mq = [a] ++ b :: [] ∧ (∀ q ∈ [a], q.started = true) ∧ b.started = false ∧ (s.core 0).halted = false
      ∧ (∀ t ∈ a.writes, t ∉ b.reads ∧ t ∉ b.writes) ∧ (∀ t ∈ a.reads, t ∉ b.writes)
      ∧ ¬ (∀ t ∈ a.writes, t ∉ a.reads ∧ t ∉ a.writes) ∧ a.operands = []) := by
  decide +kernel

theorem witness_CoreEvents_offers : base.offers 0 := base_offers 0 (by decide)

theorem witness_CoreEvents_hart :
    (∀ p ∈ [((⟨.kjoin 1 4, 0, none⟩ : Waiting), (1 : Word), id), (⟨.kwait 1 4, 0, none⟩, 1, strandAs 0 fun st => { st with sigPend := true }),
        (⟨.kbcastw 2 1 4, 0, none⟩, 0xF000001, id), (⟨.kcfgFmtw 2 1 4, 0, none⟩, 9, id)],
      let s := withCore (hartWith [(1, p.2.1), (2, 0x009A0E34)] p.2.2) fun c => { c with hart := { c.hart with waiting := some p.1 } }
      s.hartRuns 0 = true ∧ s.hartClass = true ∧ (s.core 0).hart.waiting = some p.1 ∧ s.flight s.hartSender = none
      ∧ (s.hart.getX 1 &&& ~~~ 0xF000000).toNat < 2 ^ (s.core 0).strandCount ∧ (s.hart.getX 1).toNat < 2 ^ 52
      ∧ ((s.core 0).strand 0).atRest = true ∧ (s.hart.getX 2).toNat % 4 = 0 ∧ ((s.core 0).strand 0).buf.length < 4)
    ∧ (hartWith [(1, 1)] (strandAs 0 fun st => { st with sigPend := true })).myCore.kpend &&& 1 ≠ 0
    ∧ entryValid 0x009A0E34 = true ∧ (hartBase []).hart.waiting = none
    ∧ ((hartBase []).core 0).entryInUse 9 = false
    ∧ (∀ f ∈ [fun c : Core => { c with mq := [matrixEntry [] [9] false] },
        fun c => c.setStrand 3 { waitingFor (.msave 1 2) (issueOf []) (c.strand 3) with mfmt := 0xC9 }],
      let s := hartWith [(1, 9), (2, 0x009A0E34)] f
      s.hartRuns 0 = true ∧ s.hartClass = true ∧ s.hart.mode = .m ∧ (s.core 0).entryInUse 9 = true) := by
  decide +kernel

/-- Strands at a boundary; a watchdog over a full channel, an empty one and a latched signal; a store queue whose entries may
perform; and a control hart with a write to another device that is not acknowledged. -/
theorem witness_CoreEvents_boundaries :
    (∀ w ∈ [(⟨.vpost 4 7, 0, none⟩ : Waiting), ⟨.signal 4, 0, none⟩], let s := overdue (some w)
      ((s.core 0).strand 0).abandoned = [] ∧ s.flight s.mySender = none ∧ (s.core 0).chan 7 = none ∧ s.postBehind 7 = false
      ∧ ((s.core 0).strand 0).sigPend = false)
    ∧ (let s := withCore (overdue (some ⟨.vpost 4 7, 0, none⟩)) fun c => { c with chans := [(7, some { bytes := 5, tag := 3 })] };
      ((s.core 0).chan 7).isSome = true ∧ (s.core 0).wdLimit < ((s.core 0).strand 0).wd ∧ s.strandRuns 0 0 = true)
    ∧ (let s := withStrand (overdue (some ⟨.signal 4, 0, none⟩)) fun st => { st with sigPend := true };
      ((s.core 0).strand 0).sigPend = true ∧ (s.core 0).wdLimit < ((s.core 0).strand 0).wd ∧ s.strandRuns 0 0 = true)
    ∧ interrupted.flight interrupted.hartSender = none ∧ base.flights = [] ∧ (base.core 0).resuming = false := by
  decide +kernel

/-- What keeps a stop away: a command abandoned, or an access under way that changes memory; and what the watchdog does not
count. -/
theorem witness_CoreEvents_bars :
    (let st := ((withStrand base fun st => { st with abandoned := [⟨0x8000, none, 0x20000, 0⟩] }).core 0).strand 0;
      st.abandoned ≠ [] ∧ st.partWay = false)
    ∧ (∀ op ∈ [RemoteOp.load, .amo .add 1], let f := flightOf base.mySender op
      let s := { overdue none with flights := [f] }
      s.flight s.mySender = some f ∧ (s.core 0).fliesFor 0 f = true ∧ s.strandRuns 0 0 = true
        ∧ ((∃ a ∈ f.asks, readsOnly a.op = false) ↔ op ≠ .load))
    ∧ (let f := flightOf interrupted.hartSender (.amo .add 1); let s := { interrupted with flights := [f] }
      s.flight s.hartSender = some f ∧ (∃ a ∈ f.asks, readsOnly a.op = false) ∧ s.hartRuns 0 = true ∧ (s.core 0).interruptDue = true) := by
  decide +kernel

/-- Held stores that may perform: one as it stands, a pair of which the second is translated again, and two whose page is
missing or forbidden now. -/
theorem witness_CoreEvents_stores :
    let again := { heldStore with stale := true, page := 0x21 }
    let missing := { heldStore with stale := true, page := 0x40000 }
    let forbidden := { heldStore with stale := true, page := 0x800000000 }
    (∀ l ∈ [[heldStore], [{ heldStore with more := true }, again]], let s := holding l
      (∀ h ∈ l, h.awaiting = false ∧ h.key = none ∧ (∀ h ∈ l.dropLast, h.more = true)
        ∧ (h.stale = false → heldPlace h = (h.space, h.addr))
        ∧ (h.stale = true → s.translate 0 .store false (h.page * 4096 + h.addr % 4096) h.bytes.length = .at_ .device (heldPlace h).2))
      ∧ (∀ h, l.head? = some h → s.unitWaits h.source true
        (l.map fun g => ({ space := .device, addr := (heldPlace g).2, len := g.bytes.length, page := g.page } : Piece)) = false)
      ∧ s.flight (s.senderOf (walkAgent storeAgent)) = none
      ∧ s.tableAsks 0 (pagesOf ((l.filter Held.stale).map fun h => (h.va, h.bytes.length))) = [])
    ∧ (∀ h ∈ [missing, forbidden], let va := h.page * 4096 + h.addr % 4096; (holding [h]).tableAsks 0 (pagesOf [(va, h.bytes.length)]) = [])
    ∧ (holding [missing]).translate 0 .store false 0x40000000 2 = .missing
    ∧ (match (holding [missing]).reportFault 0 0 Access.store.kind missing.pc [0] [missing.page] true with | .ok _ => true | _ => false) = true
    ∧ (holding [forbidden]).translate 0 .store false 0x800000000000 2 = .forbidden := by
  decide +kernel

/-- Nothing holds a store of the current strand of `holding`. -/
theorem witness_CoreEvents_free : ∀ l ∈ [[heldStore], [{ heldStore with more := true }, { heldStore with stale := true, page := 0x21 }]],
    ((holding l).core 0).resuming = false ∧ (holding l).myUnsent = false ∧ ((holding l).core 0).copies = []
      ∧ (holding l).myReduces = [] := by
  decide +kernel

/-- A held store behind a copy command of an earlier interval, of a core that waits for its job's earlier run, or whose page
the host has not answered. -/
theorem witness_CoreEvents_held :
    (let s := withStrand behind fun st => { st with storeQ := [{ heldStore with interval := 1 }] };
      ∃ cp ∈ (s.core 0).copies, cp.strand = 0 ∧ cp.no < heldStore.no ∧ cp.interval < 1)
    ∧ (withCore (holding [heldStore]) fun c => { c with resuming := true }).myCore.resuming = true
    ∧ ({ heldStore with awaiting := true } : Held).awaiting = true := by
  decide +kernel

theorem witness_HartSystem_settled : (hartBase []).hartSettled = true
    ∧ ({ hartBase [] with postedQ := [⟨2, (hartBase []).senderOf 24, [], 0⟩] } : State).hartSettled = false := by
  decide +kernel

/-! ## Witnesses: the dispatcher -/

/-- A job record of class 2 on one core; its context at 0x100000, its completion entry at 0x20000. -/
def record (id : BitVec 64) : JobRecord where
  id := id
  pkg := 1
  kidx := 0
  useMask := 1
  spad := 0
  sdm := 0
  team := 1
  strands := 1
  cls := 2
  det := false
  args := 7
  ctxBase := 0x100000
  done := 0x20000
  prereq := []
  ptRoot := 1

/-- A package of one kernel. -/
def package : Package :=
  { handle := 1, addr := 0, size := 0, info := { kernels := [⟨0x8000, false⟩], spad := [], sdm := [], discards := [], fmts := [] } }

/-- A job of the table. -/
def jobOf (id : BitVec 64) (st : JobState) : Job := { Job.fresh (record id) 0 with state := st }

/-- Core 0 holds job 1, and the table and the packages are as given. -/
def jobs (l : List Job) : State := { base with jobs := l, pkgs := [package], now := 5000000 }

/-- The 128 bytes of a record with a number of prerequisites (R65). -/
def recordBytes (id spad npre pre : Nat) : List Byte :=
  leBytes 8 id ++ leBytes 4 1 ++ leBytes 4 0 ++ leBytes 8 1 ++ leBytes 4 spad ++ leBytes 4 0 ++ leBytes 2 1 ++ leBytes 1 1
    ++ leBytes 1 (2 + 16 * npre) ++ leBytes 4 0 ++ leBytes 8 7 ++ leBytes 8 0x100000 ++ leBytes 8 0x20000 ++ leBytes 8 pre
    ++ leBytes 24 0 ++ leBytes 8 1 ++ leBytes 24 0

/-- Class queue 7 holds one record at 0x30000. -/
def queued (bytes : List Byte) (pkgs : List Package) : State :=
  { base with devMem := base.devMem.write 0x30000 bytes, pkgs := pkgs
              queues := [(7, { ClassQueue.reset with base := 0x30000, en := true, prod := 1 })] }

theorem witness_DispatcherEvents_read :
    ∀ p ∈ [(recordBytes 0 0 0 0, [package], true, false, false, true), (recordBytes 5 0 0 0, [], false, true, false, true),
        (recordBytes 5 0 1 5, [package], false, false, true, true), (recordBytes 5 0x7FFFFFFF 0 0, [package], false, false, false, false),
        (recordBytes 5 0 0 0, [package], false, false, false, true)],
      let s := queued p.1 p.2.1
      let q := s.queue 7
      let n := leNat (s.peek .device 0x30000 128)
      let r := JobRecord.ofNat n
      let u : State := { s.setQueue 7 { q with cons := q.cons + 1 } with lastJobId := r.id, jobs := s.jobs ++ [Job.fresh r s.now] }
      (s.jobs.map fun j => j.record.id).Nodup ∧ s.recovery = false ∧ s.starting = false ∧ s.power = 0 ∧ q.en = true ∧ q.prod ≠ q.cons
      ∧ s.jobs.length < 4096 ∧ s.undel.held.length < 4096 ∧ s.undel.en = false
      ∧ 0x30000 = q.base.toNat + 128 * (q.cons.toNat % 2 ^ q.k) ∧ s.physicalRange 0x30000 128 = some (.device, 0x30000)
      ∧ s.flight { s.dispatcherOf 0 with core := 7 } = none ∧ ends s r = true ∧ (∀ j ∈ s.jobs, j.record.id ≠ r.id)
      ∧ recordBad n s.lastJobId = p.2.2.1 ∧ (u.kernel r).isNone = p.2.2.2.1 ∧ u.prereqBad r = p.2.2.2.2.1
      ∧ u.eligible r = p.2.2.2.2.2 := by
  decide +kernel

theorem witness_DispatcherEvents_place :
    let s := jobs [jobOf 1 .placed, jobOf 2 .waiting]
    (s.jobs.map fun j => j.record.id).Nodup ∧ s.recovery = false ∧ s.starting = false ∧ s.power = 0 ∧ s.mayPlace 2 = true
    ∧ s.job 2 = some (jobOf 2 .waiting) ∧ (s.teamFor (record 2) []).isSome = true ∧ (jobOf 2 .waiting).saved = []
    ∧ s.mayPlace 3 = false ∧ (jobOf 2 .waiting).eff < min 7 ((record 2).cls + (s.now - 0) / 2000000)
    ∧ s.waitingJobs = [jobOf 2 .waiting] := by
  decide +kernel

/-- A preempted job whose saved context is taken up; a write of its earlier run is acknowledged, or not. -/
theorem witness_DispatcherEvents_resume :
    let j := { jobOf 2 .waiting with saved := [Core.reset], preempted := true }
    ∀ l ∈ [[], [(⟨5, { base.mySender with job := 2 }, [], 0⟩ : Posted)]], let s := { jobs [jobOf 1 .placed, j] with postedQ := l }
      s.mayPlace 2 = true ∧ s.job 2 = some j ∧ j.saved ≠ [] ∧ (s.teamFor (record 2) []).isSome = true
      ∧ s.physicalRange (contextBase (record 2) 0) ((record 2).team * Config.contextBytes) = some (.device, 0x100000) ∧ s.flight (s.dispatcherOf 2) = none
      ∧ (s.outstanding 2 = true ↔ l ≠ []) := by
  decide +kernel

/-- A job of every core waits, of a class above that of job 1. -/
def wide : Job := { jobOf 2 .waiting with record := { record 2 with team := 192, cls := 3 } }

theorem witness_DispatcherEvents_head :
    let v := { jobOf 1 .placed with cores := [0] }
    let s := { jobs [v, wide] with headSince := 1000000 }
    (s.jobs.map fun j => j.record.id).Nodup ∧ s.waitingJobs = [wide] ∧ s.teamFor wide.record [] = none
    ∧ 4000000 ≤ s.now - s.headSince ∧ s.now - 1000001 < 4000000
    ∧ v ∈ s.jobs ∧ (v.state = .placed ∧ v.record.cls < wide.record.cls ∧ 1000000 ≤ s.now - v.placedAt)
    ∧ (∀ w ∈ s.jobs, w.state = .placed → w = v) ∧ (∀ w ∈ s.jobs, w.state ≠ .halting)
    ∧ (s.teamFor wide.record v.cores).isSome = true := by
  decide +kernel

theorem witness_DispatcherEvents_halt :
    (∀ ending ∈ [none, some JobStatus.cancelled],
      let j := { jobOf 1 .halting with cores := [0], ending := ending }
      let s := withCore (jobs [j]) fun c => { c with haltReq := true }
      (s.core 0).haltReq = true ∧ (s.core 0).halted = false ∧ (s.core 0).place = some fetchPlace ∧ s.job 1 = some j
      ∧ j.ending = ending ∧ (∀ q ∈ j.cores, q = 0) ∧ ends s j.record = true ∧ s.flights = [])
    ∧ (base.core 0).haltReq = false
    ∧ (let j := { jobOf 1 .halting with cores := [0] }
      let s := withCore (jobs [j]) fun c => { c with haltReq := true, halted := true };
      s.job 1 = some j ∧ j.state = .halting ∧ j.ending = none ∧ s.allHalted j = true ∧ s.reducesOut 1 = false
      ∧ s.physicalRange (contextBase j.record 0) (j.record.team * Config.contextBytes) = some (.device, 0x100000)
      ∧ s.eligible j.record = true ∧ s.finishWaits 0 = false ∧ s.flights = [] ∧ (s.core 0).copies = []) := by
  decide +kernel

/-- A save with a copy unit whose write to another device is not acknowledged: the save does not wait for it. -/
theorem witness_DispatcherEvents_unit :
    let j := { jobOf 1 .halting with cores := [0] }
    let c := { copy with unit := some (64, 5, 7) }
    let s := { withCore (jobs [j]) fun k => { k with haltReq := true, halted := true, copies := [c] } with
      postedQ := [{ device := 3, source := base.mySender, unit := [], no := 6 }] }
    s.job 1 = some j ∧ s.allHalted j = true ∧ s.reducesOut 1 = false ∧ s.finishWaits 0 = false ∧ (s.core 0).copies = [c]
      ∧ ∃ e ∈ s.postedQ, 5 ≤ e.no ∧ e.no < 7 := by
  decide +kernel

/-- Strands that a halt meets: one with an access violation due for an abandoned command, and one whose atomics another device
performs, of which it has asked for the first of two. -/
theorem witness_DispatcherEvents_stops :
    let halting (f : State → State) : State := f (withCore (jobs [{ jobOf 1 .halting with cores := [0] }]) fun c => { c with haltReq := true })
    (let s := halting fun s => withStrand s fun st => { st with abandoned := [⟨0x8000, none, 0x20000, 0⟩] }
      let st := (s.core 0).strand 0
      s.strandRuns 0 0 = true ∧ st.abandoned = [⟨0x8000, none, 0x20000, 0⟩] ∧ st.partWay = false)
    ∧ (let piece (n : Nat) : Elem × List Piece := (⟨n, 0x20000 + 8 * n, 8⟩, [⟨.remote 2, 64 + 8 * n, 8, 0x20, none⟩])
      let f := { flightOf base.mySender (.amo .add 1) with elems := [piece 0, piece 1], instr := some (.vamoAdd 1 2 3 31 false false) }
      let s := halting fun s => { s with flights := [f] }
      s.flight s.mySender = some f ∧ f.changes = true ∧ f.stopped = none ∧ f.instr ≠ none ∧ (f.elems.map fun e => f.asked e) = [true, false]) := by
  decide +kernel

theorem witness_DispatcherEvents_finish :
    (∀ code ∈ [(0 : Nat), 5], let s := withCore (jobs [{ jobOf 1 .placed with cores := [0] }]) fun c => { c with exit := some (BitVec.ofNat 32 code) }
      (s.core 0).place = some fetchPlace ∧ (s.core 0).exit = some (BitVec.ofNat 32 code) ∧ (s.core 0).finished = false ∧ (s.core 0).halted = false
      ∧ s.coreBusy 0 = false ∧ (∀ q ∈ fetchPlace.cores, q ≠ 0 → (s.core q).finished = true)
      ∧ s.job 1 = some { jobOf 1 .placed with cores := [0] } ∧ ({ jobOf 1 .placed with cores := [0] } : Job).isOver = false
      ∧ ends s (record 1) = true)
    ∧ (let pl := { fetchPlace with cores := [0, 1], size := 2 }
      let s := withCore base fun c => { c with exit := some 0, place := some pl };
      (s.core 0).place = some pl ∧ s.coreBusy 0 = false ∧ ∃ q ∈ pl.cores, q ≠ 0 ∧ (s.core q).finished = false)
    ∧ (withCore behind fun c => { c with exit := some 0 }).coreBusy 0 = true
    ∧ (jobs [jobOf 1 .placed]).donePlace (record 1).ptRoot (record 1).done = some (.device, 0x20000) := by
  decide +kernel

/-- A reduce of strand 0 of core 0 of job 1, of this device, that adds 5 to 4 bytes at 0x20000. -/
def localReduce (release : Bool) : Reduce where
  sent := { adds := [.int 0x20000 4 5], page := 0x20000, device := 0, job := 1, core := 0, strand := 0, release := release
            sync := ⟨0, 0, 0, 0⟩ }
  adds := [.int 0x20000 4 5]
  page := 0x20000
  interval := 0
  no := 1
  vpages := [0x20]
  slot := none

/-- A local reduce of job 1 is still to be applied; a first terminal event is set; two kinds of format entries. -/
theorem witness_DispatcherEvents_ending :
    ({ base with nmrQ := [localReduce false] } : State).reducesOut 1 = true
    ∧ (let j := { jobOf 1 .halting with cores := [0], ending := some .cancelled }
      let s := withCore (jobs [j]) fun c => { c with exit := some 0 };
      s.job 1 = some j ∧ j.isOver = false ∧ j.ending = some .cancelled ∧ (s.core 0).exit = some 0 ∧ ends s j.record = true)
    ∧ (let s := { jobs [jobOf 1 .placed] with postedQ := [⟨5, base.mySender, [], 0⟩], routes := [(5, 32 + 17)], ports := [(17, { Port.reset with st := .up })] }
      s.job 1 = some (jobOf 1 .placed) ∧ (jobOf 1 .placed).isOver = false ∧ s.unsentLoads 1 = []
      ∧ ∃ e ∈ s.postedQ, e.source.job = 1 ∧ s.cutOff e.device = false)
    ∧ entryValid 0x009A0E34 = true ∧ entryValid 0 = false ∧ 9 ≤ 15 := by
  decide +kernel

theorem witness_DispatcherEvents_undelivered :
    let s := { base with undel := { base.undel with en := true, base := 0x4000, held := [completionEntry 1 .ok 16 0] } }
    s.undel.held = [completionEntry 1 .ok 16 0] ∧ s.undel.en = true ∧ (s.undel.prod - s.undel.cons).toNat < 2 ^ s.undel.k
    ∧ base.undel.held = [] := by
  decide +kernel

/-! ## Witnesses: the host's side -/

/-- A fault report of strand 0 of core 0 for one page. -/
def report : FaultReport := { job := 1, core := 0, strand := 0, kind := 0, asid := 0, pages := [0x40000000], engine := false }

/-- The state with the merger as given. -/
def merging (f : Merger → Merger) : State := { base with merger := f base.merger }

theorem witness_HostEvents :
    base.anyPlaced = false ∧ (jobs [jobOf 1 .placed]).anyPlaced = true ∧ base.mbox.go = false
    ∧ ({ base with mbox := { base.mbox with go := true } } : State).mbox.go = true
    ∧ (17 : Word).toNat % 32 < 18 ∧ 18 ≤ (18 : Word).toNat % 32 ∧ (7 < 8 ∧ 1 ≤ 1 ∧ 63 ≤ 63)
    ∧ 0x7FFFFFFFF8 + 8 ≤ 0x8000000000 ∧ 0 + ([1, 2] : List Byte).length ≤ 0x8000000000
    ∧ (merging fun m => { m with inbox := [report] }).merger.inbox = [report] ∧ base.merger.inbox = []
    ∧ (merging fun m => { m with inbox := [{ report with engine := true }] }).merger.inbox = [{ report with engine := true }]
    ∧ (let s := merging fun m => { m with due := [1] }; 1 ∈ s.merger.due ∧ ∀ e ∈ s.merger.held, e.job ≠ 1)
    ∧ (1 : BitVec 64) ∉ base.merger.due
    ∧ (let e : FaultEntry := ⟨1, 0x40000000, 0, 0, 0, 0⟩
      let s := merging fun m => { m with en := true, held := [e] };
      s.merger.held = [e] ∧ s.merger.en = true ∧ (s.merger.prod - s.merger.cons).toNat < 2 ^ s.merger.k)
    ∧ 0xFFFFFFFFFFFFF + ([1] : List Byte).length ≤ 2 ^ 52 := by
  decide +kernel

/-- A shoot-down of the page 0x20 at core 0 whose translations the core has given up, or not. -/
def shooting (given : Option Nat) : State :=
  { withCore (holding [heldStore]) fun c => { c with shoots := [⟨0, 0x20000, 1, given, []⟩] } with
    mbox := { base.mbox with go := true, sent := true, op := 4 }, askId := 5 }

/-- A shoot-down before and after its core gives the translations up, with nothing under way and behind a local reduce, a write
to another device and an atomic there; and an access that only reads, which is given up. -/
theorem witness_HostEvents_shoot :
    (∀ given ∈ [none, some 3], let s := shooting given
      (s.core 0).shoots = [⟨0, 0x20000, 1, given, []⟩] ∧ (s.core 0).place = some fetchPlace ∧ s.mbox.go = true ∧ s.mbox.sent = true
      ∧ (∀ e ∈ s.cores, e.1 ≠ 0 → e.2.shoots = []) ∧ s.nmrQ = [] ∧ s.postedQ = [] ∧ s.flights = []
      ∧ heldStore ∈ ((s.core 0).strand 0).storeQ ∧ (⟨0, 0x20000, 1, given, []⟩ : Shoot).names heldStore.page = true)
    ∧ (let r := localReduce false; r.sent.device = 0 ∧ r.sent.job = fetchPlace.job ∧ r.sent.core = fetchPlace.team ∧ r.no < 3
      ∧ ∃ pg ∈ r.vpages, (⟨0, 0x20000, 1, none, []⟩ : Shoot).names pg = true)
    ∧ (let e : Posted := ⟨5, base.mySender, [⟨.remote 5, 0xFF8, 8, 0x1F, none⟩, ⟨.remote 5, 0x5000, 8, 0x20, none⟩], 1⟩; e.source.job = fetchPlace.job ∧ e.source.core = fetchPlace.team ∧ e.no < 3
      ∧ ∃ q ∈ e.unit, (⟨0, 0x20000, 1, none, []⟩ : Shoot).names q.page = true)
    ∧ (∀ op ∈ [RemoteOp.load, .amo .add 1],
      let f := { flightOf base.mySender op with elems := [(⟨0, 0x20000, 8⟩, [⟨.remote 2, 64, 8, 0x20, none⟩])] }
      (base.core 0).flies f = true ∧ (∃ e ∈ f.elems, ∃ q ∈ e.2, (⟨0, 0x20000, 1, none, []⟩ : Shoot).names q.page = true)
        ∧ ((∃ a ∈ f.asks, a.id < 3 ∧ a.answer = none ∧ readsOnly a.op = false) ↔ op ≠ .load) ∧ (f.changes = false ↔ op = .load))
    ∧ (let f := { flightOf base.mySender (.amo .add 1) with
          elems := [(⟨0, 0x20000, 8⟩, [⟨.remote 2, 64, 8, 0x20, none⟩])], instr := some (.vamoAdd 1 2 3 31 false false) }
      let s := { shooting none with flights := [f] }
      s.strandRuns 0 0 = true
        ∧ nextIs (exec (.shootdownAck 0 []) s) (fun t => ((t.core 0).shoots.head?.map Shoot.stopped) = some [0] && !t.strandRuns 0 0) = true) := by
  decide +kernel

/-- A command in the mailbox. -/
def command (s : State) (op a b c d : Nat) : State :=
  { s with mbox := { op := BitVec.ofNat 8 op, go := true, sent := false, status := 0xFF, arg0 := BitVec.ofNat 64 a, arg1 := BitVec.ofNat 64 b,
                     arg2 := BitVec.ofNat 64 c, arg3 := BitVec.ofNat 64 d } }

theorem witness_MailboxCommands_serves : ∀ op ∈ [1, 2, 3, 4, 5, 6, 7, 8, 16, 17, 18, 19, 20, 21, 22, 23],
    let s := command base op 1 1 1 1
    s.mbox.go = true ∧ s.mbox.op.toNat = op ∧ s.power = 0 ∧ s.starting = false ∧ s.mailboxLost = false ∧ s.recovery = false := by
  decide +kernel

theorem witness_MailboxCommands_jobs :
    (∀ st ∈ [JobState.done .ok, .placed, .waiting, .blocked], let s := command (jobs [jobOf 1 st]) 1 1 0 0 0
      s.job s.mbox.arg0 = some (jobOf 1 st) ∧ (jobOf 1 st).isDone = decide (st = .done .ok) ∧ (jobOf 1 st).state = st)
    ∧ (command base 1 9 0 0 0).job 9 = none
    ∧ (∀ h ∈ [true, false], let j := { jobOf 1 .halting with cores := [0] }
      let s := withCore (command (jobs [j]) 2 1 0 0 0) fun c => { c with haltReq := true, halted := h }
      s.job s.mbox.arg0 = some j ∧ j.state = .halting ∧ j.ending = none ∧ s.allHalted j = h)
    ∧ ((let j := jobOf 1 (.draining .ok false 0); j.isOver = true ∧ j.isDone = false ∧ (command (jobs [j]) 2 1 0 0 0).job 1 = some j)
    ∧ ∀ st ∈ [JobState.waiting, .blocked, .halting], (jobOf 1 st).ending = none ∧ ends (command (jobs [jobOf 1 st]) 2 1 0 0 0) (record 1) = true)
    ∧ (let e : StartEntry := ⟨1, 0, .failed, 0, false⟩
      let s := { base with startRec := [e] };
      s.mailboxLost = true ∧ ∃ e ∈ s.startRec, e.step ≤ 3 ∧ (e.result = .failed ∨ e.result = .held)) := by
  decide +kernel

/-- A strand that waits on the answer for a page. -/
def asking : State :=
  let s := withStrand (jobs [{ jobOf 1 .placed with cores := [0] }]) fun st => { st with st := .trapped, fromSt := .self, rec0 := 5 }
  { s with merger := { s.merger with open_ := [report], outstanding := [(1, 0, 0x40000000)] } }

theorem witness_MailboxCommands_answer :
    let s := command asking 3 1 0x40000000 0 0
    let st := (s.core 0).strand 0
    s.mbox.arg2.toNat ≤ 1 ∧ s.mbox.arg0 ≠ 0 ∧ s.mbox.arg3 = 0
    ∧ (s.mbox.arg0, s.mbox.arg3.toNat, s.mbox.arg1) ∈ s.merger.outstanding
    ∧ s.job s.mbox.arg0 = some { jobOf 1 .placed with cores := [0] } ∧ s.merger.open_ = [report] ∧ report.job = s.mbox.arg0
    ∧ report.pages = [s.mbox.arg1] ∧ ([0] : List Nat)[report.core]? = some 0 ∧ (∀ e ∈ s.cores, e.2.copies = [])
    ∧ st.st = .trapped ∧ st.rec0.toNat % 256 = 5 ∧ st.vrq = 0 ∧ (∀ h ∈ st.storeQ, h.awaiting = false)
    ∧ (let u := command base 3 1 0x40000000 1 0; (u.mbox.arg0, u.mbox.arg3.toNat, u.mbox.arg1) ∉ u.merger.outstanding)
    ∧ 1 < (command base 3 1 0 2 0).mbox.arg2.toNat ∧ 15 < (command base 3 0 0 0 16).mbox.arg3.toNat := by
  decide +kernel

theorem asking_copies : ∀ q, ((command asking 3 1 0x40000000 0 0).core q).copies = [] := by
  have h : ∀ e ∈ (command asking 3 1 0x40000000 0 0).cores, e.2.copies = [] := by decide +kernel
  intro q
  unfold State.core
  revert h
  generalize (command asking 3 1 0x40000000 0 0).cores = t
  intro h
  induction t with
  | nil => rfl
  | cons e t ih =>
    unfold Table.get
    split
    · exact h e (by simp)
    · exact ih fun e' he => h e' (by simp [he])

theorem witness_MailboxCommands_memory :
    (let s := command base 4 0 0x40000000 1 0;
      s.mbox.sent = false ∧ s.mbox.arg0.toNat < 2 ^ 16 ∧ (∀ e ∈ s.cores, e.2.shoots = []) ∧ (s.core 0).place = some fetchPlace ∧ asidOf fetchPlace.ptRoot = 0)
    ∧ 2 ^ 16 ≤ (command base 4 (2 ^ 16) 0 0 0).mbox.arg0.toNat
    ∧ (let s := command base 5 15 1 0x1000 0x1000;
      ¬ (15 < s.mbox.arg0.toNat ∨ 2 ^ 60 ≤ s.mbox.arg1.toNat ∨ s.mbox.arg2.toNat % 4096 ≠ 0 ∨ s.mbox.arg3.toNat % 4096 ≠ 0 ∨ s.mbox.arg3 = 0)
      ∧ s.importSlot 15 = none)
    ∧ (let s := command { base with imports := [(15, some ⟨1, 0, 0x1000⟩)] } 5 15 1 0x1000 0x1000; (s.importSlot 15).isSome = true)
    ∧ (command base 5 15 1 0x1000 0).mbox.arg3 = 0
    ∧ 15 < (command base 6 16 0 0 0).mbox.arg0.toNat ∧ (command base 6 15 0 0 0).mbox.arg0.toNat ≤ 15
    ∧ 2 ^ 32 ≤ (command base 8 (2 ^ 32) 0 0 0).mbox.arg0.toNat
    ∧ (let s := command (jobs [jobOf 1 .placed]) 8 1 0 0 0; s.mbox.arg0.toNat < 2 ^ 32 ∧ ∃ j ∈ s.jobs, j.record.pkg.toNat = s.mbox.arg0.toNat)
    ∧ (let s := command (jobs [jobOf 1 .placed]) 8 2 0 0 0; ∀ j ∈ s.jobs, j.record.pkg.toNat ≠ s.mbox.arg0.toNat) := by
  decide +kernel

theorem witness_MailboxCommands_foreign : let s := command base 4 7 0 0 0
    ∀ e ∈ s.cores, ∀ pl, e.2.place = some pl → asidOf pl.ptRoot ≠ s.mbox.arg0.toNat := by
  have h : ∀ e ∈ (command base 4 7 0 0 0).cores, e.2.place.all (fun pl => decide (asidOf pl.ptRoot ≠ (7 : BitVec 64).toNat)) = true := by
    decide +kernel
  intro s e he pl hpl
  have key := h e he
  rw [hpl] at key
  exact of_decide_eq_true key

/-- SPDM requests of each flow, of another one, and of choices other than those of R357. -/
def spdmRequests : List (List Byte) :=
  [[0x12, 0x81, 0, 0], [0x13, 0xE4, 0, 0], [0x10, 0x84, 0, 0], [0x13, 0xE1, 0, 0], [0x13, 0x81, 0, 0], [0x13, 0x82, 0, 0, 0, 0, 16, 0], [0x13, 0x82, 1, 0, 0, 0, 16, 0],
   [0x13, 0x83, 0, 0], [0x13, 0x83, 1, 0]] ++ [0, 1, 2, 3, 4, 5, 0xFF].map fun op => [0x13, 0xE0, 0, op]

theorem witness_MailboxCommands_spdm : ∀ l ∈ spdmRequests,
    ∀ phase ∈ [1, 2, 3],
    let s := command { base with hostMem := Mem.write [] 0x1000 l, attest := ⟨phase, [], [], []⟩ } 17 0x1000 l.length 0x2000 4096
    s.attest.phase = phase ∧ s.mbox.go = true ∧ s.mbox.op.toNat = 17 ∧ s.mbox.arg1 ≠ 0 ∧ s.mbox.arg1.toNat ≤ 4096
      ∧ s.hostMem.read (s.mbox.arg0.toNat % 2 ^ 52) s.mbox.arg1.toNat = l := by
  decide +kernel

/-- `NEGOTIATE_ALGORITHMS` for the hash and the signature of R357, and for others, in the base fields or in a structure. -/
theorem witness_MailboxCommands_algorithms : ∀ p ∈ ([(16, 1, false), (32, 1, true), (16, 2, true)] : List (Nat × Nat × Bool)),
    let l : List Byte := [0x13, 0xE3, 0, 0, 32, 0, 1, 0, BitVec.ofNat 8 p.1, 0, 0, 0, BitVec.ofNat 8 p.2.1, 0, 0, 0] ++ List.replicate 16 0
    l.length = 32 ∧ l.getD 28 0 = 0 ∧ l.getD 29 0 = 0
      ∧ (((l.drop 8).take 4 ≠ [0x10, 0, 0, 0] ∨ (l.drop 12).take 4 ≠ [1, 0, 0, 0]) ↔ p.2.2 = true)
      ∧ ([2, 0x20, 1, 0] : List Byte).getD 0 0 ≠ 4 ∧ leNat ((([2, 0x20, 1, 0] : List Byte).drop 2).take 2) ≠ 0 := by
  decide +kernel

theorem witness_MailboxCommands_part :
    (command base 17 0 0 0 0).mbox.arg1 = 0 ∧ 4096 < (command base 17 0 4097 0 0).mbox.arg1.toNat
    ∧ ((command base 17 0 4096 0 4096).mbox.arg1 ≠ 0 ∧ (command base 17 0 4096 0 4096).mbox.arg1.toNat ≤ 4096)
    ∧ 0x800000 < (command base 18 0 0x800001 0 0).mbox.arg1.toNat ∧ (command base 18 0 0x800000 0 0).mbox.arg1.toNat ≤ 0x800000
    ∧ (command base 19 0 0 0 0).fw.staged = none
    ∧ (command { base with fw := { base.fw with staged := some [1] } } 19 0 0 0 0).fw.staged = some [1]
    ∧ (command base 20 0 4095 0 0).mbox.arg1.toNat < 4096 ∧ 4096 ≤ (command base 20 0 4096 0 0).mbox.arg1.toNat
    ∧ (command (jobs [jobOf 1 .placed]) 22 0 0 0 0).jobs ≠ [] ∧ (command base 22 0 0 0 0).jobs = []
    ∧ 192 ≤ (command base 23 192 0 0 0).mbox.arg0.toNat ∧ classBit (command base 23 0 11 0 0).mbox.arg1.toNat = false
    ∧ ((command base 23 191 10 0 0).mbox.arg0.toNat < 192 ∧ classBit (command base 23 191 10 0 0).mbox.arg1.toNat = true)
    ∧ (∀ op ∈ [0, 9, 15, 24, 255], (command base op 0 0 0 0).mbox.op.toNat = op)
    ∧ (command { base with recovery := true } 1 0 0 0 0).recovery = true ∧ base.mbox.go = false := by
  decide +kernel

/-! ## Witnesses: links and the controller -/

/-- Port 17 in a state. -/
def port (f : Port → Port) : State := { base with devid := 3, ports := [(17, f Port.reset)] }

/-- A packet that adds 5 to 4 bytes at 0x20000 of the sender's address space. -/
def packet (a : Word) : ReducePacket :=
  { adds := [.int a 4 5], page := a, device := 9, job := 1, core := 0, strand := 0, release := false, sync := ⟨0, 0, 0, 0⟩ }

/-- A packet of another device that waits for the near-memory reduce unit. -/
def reduceOf (release : Bool) (no : Nat) : Reduce :=
  { localReduce release with sent := { packet 0x20000 with release := release }, no := no, slot := some (2, 0) }

/-- A packet of the same device that waits for the host's answer. -/
def heldPacket (no : Nat) : HeldPacket := { slot := 2, packet := packet 0x40000000, no := no }

/-- Packets of an import slot, and of an address space, that are not applied. -/
theorem witness_MailboxCommands_packets :
    let s := { base with nmrQ := [reduceOf false 1] }
    (∃ r ∈ s.nmrQ, ∃ asid, r.slot = some ((command s 6 2 0 0 0).mbox.arg0.toNat, asid))
      ∧ ∃ r ∈ s.nmrQ, ∃ n, r.slot = some (n, (command s 4 0 0 0 0).mbox.arg0.toNat) :=
  ⟨⟨_, List.mem_singleton.2 rfl, 0, by decide +kernel⟩, ⟨_, List.mem_singleton.2 rfl, 2, by decide +kernel⟩⟩

/-- A packet held for the host, and one whose slot's walk waits for another device. -/
theorem witness_MailboxCommands_walks :
    (let s := { command base 6 2 0 0 0 with
        heldPkts := [heldPacket 1], merger := { base.merger with outstanding := [(0, 2, 0x40000000)] } };
      s.strandedSlots = [] ∧ s.mbox.sent = false ∧ (∀ e ∈ s.heldPkts, s.awaitsHost e = true) ∧ s.nmrQ = [])
    ∧ (let s := { command base 6 2 0 0 0 with
        heldPkts := [heldPacket 1], flights := [flightOf (base.importer 2) .load], imports := [(2, some ⟨1, 0x40000000, 0x1000⟩)] };
      s.strandedSlots = [] ∧ (∃ e ∈ s.heldPkts, e.slot = 2 ∧ s.awaitsHost e = false)
        ∧ ∃ f ∈ s.flights, f.source.agent = walkAgent importAgent ∧ s.importSlot f.source.core = some ⟨1, 0x40000000, 0x1000⟩
          ∧ asidOf 1 = 0) := by
  decide +kernel

theorem witness_LinkEvents_ports :
    (let s := port fun q => { q with st := .up };
      (s.port 17).st = .up ∧ (∀ j, j < 18 → (s.port j).st = .down → (s.port j).replay = [] ∧ (s.port j).queue = [])
      ∧ s.cutJobs = [] ∧ s.strandedSlots = [] ∧ (∀ j, j < 18 → (s.port j).inbox = []) ∧ s.devid.toNat = 3 ∧ s.devid ≠ 0 ∧ 0xFFC + 4 ≤ 4096)
    ∧ (∀ p ∈ [(false, 0), (true, 1), (true, 0)], let f : Flit := ⟨BitVec.ofNat 12 p.2, p.1, 0, false, ⟨0, 0, 0⟩, .idle⟩
      f.crcOk = p.1 ∧ f.seq = BitVec.ofNat 12 p.2 ∧ (f.seq = Port.reset.recvSeq ↔ p.2 = 0))
    ∧ (base.port 17).st ≠ .up
    ∧ (∀ n ∈ [0, 1, 2], let s := port fun q => { q with st := .retraining, fails := n }; (s.port 17).st = .retraining ∧ (s.port 17).fails = n) := by
  decide +kernel

/-- The last answer for a load whose first bytes are this device's: they are read with it. -/
theorem witness_LinkEvents_unit :
    let here : Piece := ⟨.device, 0x20000, 4, 0x20, none⟩
    let f := { flightOf base.mySender .load with
      elems := [(⟨0, 0x20000, 8⟩, [here, ⟨.remote 2, 64, 4, 0x21, none⟩])]
      asks := [{ id := 0, elem := 0, device := 2, addr := 64, next := 0, len := 4, op := .load, answer := some ([1, 2, 3, 4], []) }] }
    f.elems.map (fun e => acrossPieces e.2) = [true] ∧ f.askedAs ⟨0, 0x20000, 8⟩ = 0
      ∧ (∀ a ∈ f.asks, a.elem = 0 → a.answer ≠ none ∧ a.op = .load) ∧ here.device = none ∧ here.data = none
      ∧ ((f.readHere base.pieceBytes).elems.map fun e => e.2.map Piece.data) = [[some (base.peek .device 0x20000 4), none]] := by
  decide +kernel

/-- R198: two loads of the same bytes of another device ask once, and take the one answer. -/
theorem test_equal_loads :
    let e (i : Nat) : Elem × List Piece := (⟨i, 0x20000, 8⟩, [⟨.remote 2, 64, 8, 0x20, none⟩])
    let f := { flightOf base.mySender .load with
      elems := [e 0, e 1]
      asks := [{ id := 0, elem := 0, device := 2, addr := 64, next := 0, len := 8, op := .load, answer := some ([1, 2, 3, 4, 5, 6, 7, 8], []) }] }
    (questionsOf [e 0, e 1] loadsAll).length = 1
      ∧ f.arrived.map (fun x => x.2.map Piece.data) = List.replicate 2 [some [1, 2, 3, 4, 5, 6, 7, 8]] := by
  decide +kernel

theorem witness_LinkEvents_links : (port fun q => { q with st := .up }).linksUp :=
  linksUp_of (by decide +kernel) (by decide +kernel) (by decide +kernel)

/-- The sender of another device's accesses. -/
def stranger : Sender := { device := 9, job := 1, core := 2, agent := 0 }

/-- Nothing of device 9 waits before a write that crosses into another page, or a reduce of it does; a reservation of its hart
stands over the bytes of a store-conditional, or lies elsewhere; an answer comes for what an access of this device asked. -/
theorem witness_LinkEvents_loads :
    (∀ l ∈ [[], [reduceOf false 1]], let s := { port fun q => { q with st := .up } with nmrQ := l }
      (s.port 17).recvSeq = 0 ∧ (∀ j, j < 18 → (s.port j).inbox = []) ∧ s.heldPkts = [] ∧ s.awaitsOthers 1 = false
      ∧ ((∃ r ∈ s.nmrQ, r.sent.device = stranger.device) ↔ l ≠ []))
    ∧ (let at_ (i : Nat) : Nat := if i < 4096 - 0x20FFF % 4096 then 0x20FFF + i else 0x50000 + (i - (4096 - 0x20FFF % 4096))
      (List.range 2).map at_ = [0x20FFF, 0x50000])
    ∧ (∀ a ∈ [0x20000, 0x20008], let s := { port fun q => { q with st := .up } with
          resvs := [{ device := 9, job := 1, core := 2, space := .device, addr := a, size := 8 }] }
      ((∃ r ∈ s.resvs, r.device = stranger.device ∧ r.job = stranger.job ∧ r.core = stranger.core ∧ r.space = .device
        ∧ r.addr ≤ 0x20000 ∧ 0x20000 + 8 ≤ r.addr + r.size) ↔ a = 0x20000) ∧ 0x20000 % 4096 + 8 ≤ 4096)
    ∧ ((∃ r ∈ [reduceOf false 1], r.sent.device = 9 ∧ r.sent.release = false)
      ∧ (base.importer 2).agent = walkAgent importAgent)
    ∧ (let s := { port fun q => { q with st := .up } with flights := [flightOf base.mySender .load], postedQ := [⟨5, base.mySender, [], 0⟩] }
      base.mySender.agent ≠ walkAgent importAgent ∧ (∃ g ∈ s.flights, g.source = base.mySender ∧ ∃ a ∈ g.asks, a.id = 0)
        ∧ ∃ e ∈ s.postedQ, e.device = 5 ∧ e.source = base.mySender) := by
  decide +kernel

/-- A route over a port that is UP, or that retrains. -/
theorem witness_LinkEvents_sends :
    (∀ st ∈ [PortSt.up, .retraining], let s := { port fun q => { q with st := st } with routes := [(5, 32 + 17)] }
      s.devid ≠ 0 ∧ s.route 5 = some 17 ∧ (s.port 17).st = st ∧ (s.port 17).queue = [] ∧ (s.port 17).replay.length < 256
      ∧ ∀ l ∈ [FlitLoad.write 5 s.mySender 0x20000 0 [1] none ⟨0, 0, 0, 0⟩, .idle], flitBytes l ≤ 240 ∧ creditRoom (s.port 17).used (flitCredit l) = true) := by
  decide +kernel

theorem witness_LinkEvents_packets :
    (let s := { base with devid := 3, imports := [(2, some ⟨1, 0x20000, 0x1000⟩)] };
      s.devid ≠ 0 ∧ s.heldPkts.length < 64 ∧ (∀ j, j < 18 → (s.port j).inbox = []) ∧ s.cutJobs = [] ∧ s.strandedSlots = []
      ∧ s.matchSlot (packet 0x20000).page = some (2, ⟨1, 0x20000, 0x1000⟩)
      ∧ s.flight (s.importer 2) = none ∧ s.importAsks ⟨1, 0x20000, 0x1000⟩ (packet 0x20000) = []
      ∧ (packetPages (packet 0x20000)) = [0x20] ∧ s.importFate ⟨1, 0x20000, 0x1000⟩ 0x20 = .at_ .device 0x20000)
    ∧ (let s := { base with devid := 3, imports := [(2, some ⟨1, 0x40000000, 0x1000⟩)] };
      s.matchSlot (packet 0x40000000).page = some (2, ⟨1, 0x40000000, 0x1000⟩)
      ∧ packetPages (packet 0x40000000) = [0x40000] ∧ s.importFate ⟨1, 0x40000000, 0x1000⟩ 0x40000 = .missing)
    ∧ base.devid = 0
    ∧ (∀ release ∈ [false, true], let r := localReduce release
      let s := { base with nmrQ := [r] }
      r.page / 4096 % 8 = 0 ∧ r.sent.device = 0 ∧ r.sent.release = release ∧ r.adds = [.int 0x20000 4 5]
        ∧ (∀ r ∈ s.nmrQ, r.page / 4096 % 8 ≠ 7) ∧ ∀ e ∈ s.heldPkts, e.packet.device ≠ 0 ∨ r.no ≤ e.no)
    ∧ (∀ p ∈ [([], [heldPacket 1]), ([reduceOf false 1], [])], let r := reduceOf true 2
      let s := { base with nmrQ := r :: p.1, heldPkts := p.2 }
      r.sent.release = true ∧ ((∃ e ∈ s.heldPkts, e.packet.device = r.sent.device ∧ e.no < r.no)
        ∨ ∃ e ∈ s.nmrQ, e.sent.device = r.sent.device ∧ e.no < r.no)) := by
  decide +kernel

theorem witness_ControllerEvents_start :
    (∀ e ∈ ({ base with starting := true } : State).startRec, e.result = .ok)
    ∧ ({ base with starting := true, startRec := [] } : State).startRec = [] ∧ base.starting = false
    ∧ (let u : UnitTest := ⟨1, 0, false, 4, 0, 0, 0, 0, 0⟩; u.step = 1 ∧ u.unit = 0 ∧ u.ok = false) := by
  decide +kernel

theorem witness_ControllerEvents_cores :
    (base.core 0).place.isSome = true ∧ (base.core 191).place = none ∧ (base.core 191).withheld = false ∧ classBit 10 = true ∧ classBit 47 = true
    ∧ (let s := base.setCore 191 { base.core 191 with withheld := true }; (s.core 191).place = none ∧ (s.core 191).withheld = true)
    ∧ (let s := { base with phases := [(3, 8)] }; 7 < Table.get 16 s.phases 3 ∧ Table.get 16 s.phases 3 ≤ 8 ∧ 15 < Table.get 16 s.phases 0)
    ∧ (let s := base.setCore 0 { base.core 0 with usable := 8, prick := [3] }; 3 ∈ (s.core 0).prick
      ∧ nextIs (exec (.laneGroupRetire 0 3) s) (fun t => (t.core 0).usable = 0) = true)
    ∧ 3 ∈ (base.core 0).prick ∧ 4 ∉ (base.core 0).prick ∧ (base.core 0).usable.getLsbD 3 = true := by
  decide +kernel

theorem witness_ControllerEvents_power :
    875 < base.mhz.toNat ∧ ({ base with mhz := 875 } : State).mhz.toNat ≤ 875 ∧ 0 < ({ base with alccap := 1 } : State).alccap
    ∧ (base.alccap = 0 ∧ ({ base with mhz := 1725 } : State).mhz.toNat < 1750)
    ∧ base.idle = true ∧ ({ base with lattol := 2000 } : State).power ≠ 1 ∧ (jobs [jobOf 1 .placed]).idle = false
    ∧ ({ base with power := 2 } : State).power ≠ 0 ∧ base.linkTraffic = false
    ∧ ({ base with heldPkts := [heldPacket 1] } : State).linkTraffic = true
    ∧ base.wake = false ∧ ({ base with power := 2, wake := true } : State).wake = true := by
  decide +kernel

/-- A PROD write in a low power state that leaves no unread record ends the state, and a mismatch at reduced voltage leaves its
trace. -/
theorem test_wake : (match exec (.prodWrite 2 0) { base with power := 2 } with
    | .next t => nextIs (exec .powerStateExit t) fun u => u.power = 0 && !u.wake
    | _ => false) = true := by
  decide +kernel

theorem test_margin : nextIs (exec (.inFieldTest 191 10 ⟨true, true, false, false, false⟩)
      (base.setCore 191 { base.core 191 with withheld := true })) (fun t => (t.core 191).margin = 1 && !(t.core 191).withheld) = true := by
  decide +kernel

theorem witness_ControllerEvents_errors :
    (base.ceHbm + 1).toNat % 1024 ≠ 0 ∧ (({ base with ceHbm := 1023 } : State).ceHbm + 1).toNat % 1024 = 0
    ∧ base.ras.length < 256 ∧ base.rasStalled = [] ∧ base.job 9 = none
    ∧ (jobs [jobOf 1 .placed]).job 1 = some (jobOf 1 .placed) ∧ (jobOf 1 .placed).state = .placed ∧ (jobOf 1 .placed).ending = none
    ∧ ends (jobs [jobOf 1 .placed]) (record 1) = true
    ∧ (let e : RasEntry := ⟨.sandbox, 0, 0, 0, 0⟩; let s := { base with rasStalled := [e] };
      s.rasStalled = [e] ∧ s.ras.length < 256) := by
  decide +kernel

/-! ## Single steps, with results worked out by hand from the rules named -/

/-- Scalar registers x1 to x3 of the strand. -/
def scalars (a b c : Word) : State := withStrand base fun st => { st with x := [(1, a), (2, b), (3, c)] }

/-- x[d] of the next state, whose PC is `pc`. -/
def gives (r : Res) (d : Reg) (w pc : Word) : Bool := nextIs r fun t => t.me.getX d = w && t.me.pc = pc

/-- R79, R105: the step of the placed `stop` ends the self-run. -/
theorem test_step_stop : nextIs (step base) (fun t => t.me.st = .idle) = true := by decide +kernel

/-- R113: the sum wraps at 64 bits. -/
theorem test_add_wraps : gives (exec (.add 4 1 2) (scalars 0xFFFFFFFFFFFFFFFF 2 0)) 4 1 0x10004 = true := by decide +kernel

/-- R113: the shift count is B mod 64, and the sign fills. -/
theorem test_sra_count : gives (exec (.sra 4 1 2) (scalars 0x8000000000000000 67 0)) 4 0xF000000000000000 0x10004 = true := by decide +kernel

/-- R112: a write of `x0` is discarded. -/
theorem test_write_x0 : gives (exec (.add 0 1 2) (scalars 3 4 0)) 0 0 0x10004 = true := by decide +kernel

/-- R114: a field of 8 bits at bit 4. -/
theorem test_bfx : gives (exec (.bfx 4 1 2) (scalars 0xABCD 0x804 0)) 4 0xBC 0x10004 = true := by decide +kernel

/-- R118: a taken branch goes back by one word. -/
theorem test_branch_back : nextIs (exec (.blt 1 2 0xFFFF) (scalars 0xFFFFFFFFFFFFFFFF 0 0)) (fun t => t.me.pc = 0xFFFC) = true := by
  decide +kernel

/-- R118: `jal` links to the next word. -/
theorem test_jal : gives (exec (.jal 1 4) base) 1 0x10004 0x10010 = true := by decide +kernel

/-- R97: a branch out of its block is illegal; the cause is 1. -/
theorem test_branch_out : nextIs (exec (.beq 0 0 4) inBlock) (fun t => t.me.st = .trapped && t.me.rec0.toNat % 256 = 1) = true := by
  decide +kernel

/-- R97: running past the last word of a block ends it. -/
theorem test_block_end : nextIs (exec (.add 4 1 2) (withStrand inBlock fun st => { st with pc := 0x1000C }))
    (fun t => t.me.st = .idle && t.me.blk = none) = true := by decide +kernel

/-- R119: a byte load extends its sign. -/
theorem test_lb : gives (exec (.lb 4 1 0 .core false) { scalars 0x20000 0 0 with devMem := base.devMem.write 0x20000 [0x80] }) 4
    0xFFFFFFFFFFFFFF80 0x10004 = true := by decide +kernel

/-- R119, R121: a store is little-endian. -/
theorem test_sw : nextIs (exec (.sw 3 1 0 .core false) (scalars 0x20000 0 0x11223344))
    (fun t => t.devMem.read 0x20000 5 = [0x44, 0x33, 0x22, 0x11, 0]) = true := by decide +kernel

/-- R315: `trap` resumes at the next instruction. -/
theorem test_trap : nextIs (exec (.trap 5) base) (fun t => t.me.st = .trapped && t.me.tpc = 0x10004 && t.me.rec0.toNat / 256 % 256 = 5) = true := by
  decide +kernel

/-- R154, R155: a strip of the rest, and its interval. -/
theorem test_strip : nextIs (exec (.stripLt 4 1 2 3) (scalars 10 100 0))
    (fun t => t.me.getX 4 = 90 && t.me.sbound = 90 && t.me.interval = 1) = true := by decide +kernel

/-- R154: VL for 64-bit elements caps it. -/
theorem test_strip_cap : nextIs (exec (.stripN 4 1 6) (scalars 1000 0 0)) (fun t => t.me.getX 4 = 256) = true := by decide +kernel

/-- Vector registers v4 and v5 under a tag, v6 as destination. -/
def vectors (t : BitVec 8) (a b : Nat) : State := withStrand (lanes t) fun st =>
  { st with v := [(4, BitVec.ofNat 16384 a), (5, BitVec.ofNat 16384 b)] }

/-- R164: signed bytes wrap, and an element outside `sbound` keeps its value. -/
theorem test_vadd : nextIs (exec (.vadd 6 4 5 31 false false) (vectors 0 0x01017F 0x010101)) (fun t => (t.me.getV 6).toNat = 0x0280) = true := by
  decide +kernel

/-- R164: unsigned bytes saturate. -/
theorem test_vsadd : nextIs (exec (.vsadd 6 4 5 31 false false) (vectors 4 0xFF10 0x0220)) (fun t => (t.me.getV 6).toNat = 0xFF30) = true := by
  decide +kernel

/-- R156: a bit of an element that is not active becomes 0. -/
theorem test_vcmp : nextIs (exec (.vcmpLt 3 4 5 31 false false) (withStrand (vectors 0 0xFF03 0x0102) fun st => { st with m := [(3, 0xF0)] }))
    (fun t => t.me.getM 3 = 2) = true := by decide +kernel

/-- R165: the carry out of an element goes to its bit. -/
theorem test_vadc : nextIs (exec (.vadc 6 4 5 3 false false) (withStrand (vectors 4 0xFF01 0x0101) fun st => { st with m := [(3, 1)] }))
    (fun t => (t.me.getV 6).toNat = 0x0003 && t.me.getM 3 = 2) = true := by decide +kernel

/-- R170: the seed is element 0 of b. -/
theorem test_vredsum : nextIs (exec (.vredsum 6 4 5 31 false false) (vectors 4 0x0302 0x0A)) (fun t => (t.me.getV 6).toNat = 0x0F) = true := by
  decide +kernel

/-- R209: 1.5 + 0.75 = 2.25. -/
theorem test_fadd : nextIs (exec (.fadd 6 4 5 31 false false .rne) (vectors 0x0A 0x3FC00000 0x3F400000))
    (fun t => elemOf 32 (t.me.getV 6).toNat 0 = 0x40100000) = true := by decide +kernel

/-- R210, R217: 1 / 0 is infinity and raises DZ, bit 3. -/
theorem test_fdiv_zero : nextIs (exec (.fdiv 6 4 5 31 false false .rne) (vectors 0x0A 0x3F8000003F800000 0))
    (fun t => elemOf 32 (t.me.getV 6).toNat 0 = 0x7F800000 && t.me.fstat = 8) = true := by decide +kernel

/-- R187, R188: two words are loaded, the third element keeps its value. -/
theorem test_vld : nextIs (exec (.vld 6 1 31) { withStrand (lanes 6) fun st => { st with v := [(6, BitVec.ofNat 16384 (9 * 2 ^ 64))] } with
      devMem := base.devMem.write 0x20000 [1, 0, 0, 0, 2, 0, 0, 0, 3] }) (fun t => (t.me.getV 6).toNat = 1 + 2 * 2 ^ 32 + 9 * 2 ^ 64) = true := by
  decide +kernel

/-- R191, R315: a fault of the translation stores a record and traps; the cause is 5. -/
theorem test_translation_fault : nextIs (exec (.ld 4 1 0 .core false) (scalars 0x40000000 0 0))
    (fun t => t.me.st = .trapped && t.me.rec0.toNat % 256 = 5 && t.merger.inbox.length = 1 && t.devMem.read 0x108000 1 = [1]) = true := by
  decide +kernel

/-- R224, R225: one product of signed bytes, 3 × -2, added to a zero tile. -/
theorem test_mopa : nextIs (exec (.mopa 1 4 8 false false) (withStrand base fun st =>
      { st with mext := 0x200101, v := [(4, 3), (8, 0xFE)] })) (fun t => (t.tile 1).get 0 0 = BitVec.ofInt 256 (-6)) = true := by
  decide +kernel

/-- R256: an automaton of two bits steps up under a set literal, and saturates at 3. -/
theorem test_cstep : nextIs (exec (.cstep 8 0 31 false) (withStrand (clauses 2 0 0 [(0, 0x0C)]) fun st =>
      { st with v := [(0, 3), (8, 1), (9, 3)] })) (fun t => (t.me.getV 8).toNat = 3 && (t.me.getV 9).toNat = 3) = true := by
  decide +kernel

/-- R276: the only arrival completes the phase; the value returned is that before. -/
theorem test_barr : nextIs (exec (.barr 4 1 2 .core .rlx) (objects 0 [(8, 1)]))
    (fun t => t.me.getX 4 = 0 && (t.memOf (.spad 0)).read 0 16 = [0, 0, 0, 0, 0, 0, 0, 0x80, 1, 0, 0, 0, 0, 0, 0, 0]) = true := by
  decide +kernel

/-- R279: an element goes into slot 0, and TAIL counts up. -/
theorem test_qenq : nextIs (exec (.qenq 4 1 3 .core .rlx) (objects 0 [(8, 2), (12, 8), (0x100, 7)]))
    (fun t => t.me.getX 4 = 0 && (t.memOf (.spad 0)).get 4 = 1 && (t.memOf (.spad 0)).get 64 = 7) = true := by decide +kernel

/-- R217: the conditions are cleared by ones, the enables written. -/
theorem test_scrw_fstat : nextIs (exec (.scrw 1 13) (withStrand (scalars 0x101 0 0) fun st => { st with fstat := 0x1F }))
    (fun t => t.me.fstat = 0x101) = true := by decide +kernel

/-- R96: a block is delivered to strand 0, and the register gets 0. -/
theorem test_kbcast : nextIs (exec (.kbcast 2 1 4) (hartBase [(1, 0x3000001), (2, 0x8000)]))
    (fun t => (t.myCore.strand 0).buf = [⟨0x8000, 4⟩] && t.hart.getX 4 = 0 && t.hart.pc = 0x10004) = true := by decide +kernel

/-- R90: the quotient by zero is all ones, in the RISC-V architecture. -/
theorem test_rv_div_zero : nextIs (exec (.controlHartInstruction (.alu .div 4 1 2) false) (hartBase [(1, 7)]))
    (fun t => t.hart.getX 4 = 0xFFFFFFFFFFFFFFFF) = true := by decide +kernel

/-- R91: an exception enters M-mode at `mtvec` with the cause and the PC saved. -/
theorem test_rv_ecall : nextIs (exec (.controlHartInstruction .ecall false)
      (hartWith [] fun c => { c with hart := { c.hart with mode := .u, mtvec := 0x8000 } }))
    (fun t => t.hart.mode = .m && t.hart.mcause = 8 && t.hart.mepc = 0x10000 && t.hart.pc = 0x8000) = true := by decide +kernel

/-- R350: a retraining that succeeds brings the port up at the width tried. -/
theorem test_retrain : nextIs (exec (.retrainAttemptEnd 17 true) (port fun q => { q with st := .retraining, width := 3, tryWidth := 2 }))
    (fun t => (t.port 17).st = .up && (t.port 17).width = 2 && (t.port 17).sheds = 1) = true := by decide +kernel

/-- R362: the limit is at most 1,800 W. -/
theorem test_plimit : nextIs (exec (.plimitWrite 0xFFF) base) (fun t => t.plimit = 1800) = true := by decide +kernel

/-- R341: an index more than a ring ahead is an overrun. -/
theorem test_overrun : nextIs (exec (.prodWrite 7 17) base) (fun t => (t.queue 7).ovr && (t.queue 7).prod = 0) = true := by decide +kernel

/-- R135: 470 lies nearer to the largest finite value of E4M3, 448, than to any other: the NaN code is no value. -/
theorem test_e4m3_nan_slot : (Fmt.ofEntry e4m3).round .rne 0 false 470 0 false = ⟨0x7E, 1⟩ := by decide +kernel

/-- R136: a NaN of E4M3 with the sign set keeps it. -/
theorem test_e4m3_nan_sign : (Fmt.ofEntry e4m3).convert (Fmt.ofEntry e4m3) .rne 0 ((Fmt.ofEntry e4m3).decode 0xFF) = ⟨0xFF, 0⟩ := by
  decide +kernel

/-- R355, R357: the digest of "abc" that FIPS 180-4 gives as its example. -/
theorem test_sha256 : beNat (sha256 [0x61, 0x62, 0x63]) = 0xBA7816BF8F01CFEA414140DE5DAE2223B00361A396177A9CB410FF61F20015AD := by
  decide +kernel

/-- R355: the signature of "sample" under P-256 and SHA-256 that RFC 6979 gives as its example, and no other message's. -/
theorem test_ecdsa : (∀ p ∈ [([0x73, 0x61, 0x6D, 0x70, 0x6C, 0x65], true), ([0x73], false)],
    ecdsaVerifies 0x60FED4BA255A9D31C961EB74C6356D68C049B8923B61FA6CE669622E60F29FB6
      0x7903FE1008B8BC99A41AE9E95628BC64F2F1B20C2D7E9F5177A3C294D4462299 (sha256 p.1)
      0xEFD48B2AACB6A8FD1140DD9CD45E81D69D2C877B56AAF991C34D0EA84EAF3716
      0xF7CB1C942D657C41D436C7A1B6E29F65F3E900DBB9AFF4064DC4AB2F843ACDA8 = p.2) := by
  decide +kernel

/-- R339: a request of another device adds at its bytes, and its answer takes the old ones back. -/
theorem test_remote_add : nextIs (exec (.flitReceive 17 ⟨0, true, 0, false, ⟨0, 0, 0⟩, .request 3 stranger 4 0x20000 0 4 (.amo .add 5) ⟨0, 0, 0, 0⟩⟩)
      { port fun q => { q with st := .up } with devMem := base.devMem.write 0x20000 [7], routes := [(9, 32 + 17)] })
    (fun t => t.devMem.get 0x20000 = 12 && ((t.port 17).replay ++ (t.port 17).queue).any fun f =>
      f.load = .response 9 stranger 3 4 [7, 0, 0, 0] []) = true := by
  decide +kernel

/-- R357: the signature of "sample" under the key and the number k that RFC 6979 gives in its example for P-256 and SHA-256. -/
theorem test_ecdsa_sign : ecdsaSign 0xC9AFA9D845BA75166B5C215767B1D6934E50C3DB36E89B127B8A622B120F6721
      0xA6E3C57DD01ABE90086538398355DD4C3B17AA873382B0F24D6129493D8AAD60 (sha256 [0x73, 0x61, 0x6D, 0x70, 0x6C, 0x65])
    = beBytes 32 0xEFD48B2AACB6A8FD1140DD9CD45E81D69D2C877B56AAF991C34D0EA84EAF3716
      ++ beBytes 32 0xF7CB1C942D657C41D436C7A1B6E29F65F3E900DBB9AFF4064DC4AB2F843ACDA8 := by
  decide +kernel

/-- R357: a request of another version of SPDM, and one before the negotiation, get error responses. -/
theorem test_spdm_errors : base.spdmAnswer [0x12, 0x81, 0, 0] = ([0x13, 0x7F, 0x41, 0], base.attest)
    ∧ base.spdmAnswer [0x13, 0x81, 0, 0] = ([0x13, 0x7F, 0x04, 0], base.attest) := by
  decide +kernel

/-- R10, R142: the tag byte 0x83 gives the tag of i64 in v4, and the code 0x0D no tag. -/
theorem test_tag_bytes : (((Strand.reset.writeTags 0 (0x0D83 * 2 ^ 32)).tag 4, (Strand.reset.writeTags 0 (0x0D83 * 2 ^ 32)).tag 5) : Nat × Nat)
    = (3, Strand.reset.tag 5) := by
  decide +kernel

end Sys2Proof.Tests
end

section
/-! Counts, bit fields, shifts by an immediate and immediate operands of scalar instructions (R112 to R117): what the words
that they write are, and from that what they complete with. -/

namespace Sys2Proof.Machine

/-! ## A scalar instruction of an offered class -/

/-- R112: an instruction that `exec` performs as the scalar write of a word completes with that word in x[d]. -/
theorem State.writesX_of_scalar (s : State) {i : Instr} {d : Reg} {v w : Word} (h : s.offers 0)
    (hi : exec i s = s.scalar d v) (hv : v = w) : s.writesX i d w := by
  unfold State.writesX State.completes
  rw [hi, hv, State.scalar, State.scalarGate_open s 0 _ h, State.complete_eq]

/-! ## Counts (R113) -/

theorem clzWord_le (a : Word) : clzWord a ≤ 64 := by
  unfold clzWord
  split <;> omega

/-- A word that is not 0 has its highest set bit at 63 minus the count. -/
theorem log2_add_clzWord (a : Word) (h : a ≠ 0) : Nat.log2 a.toNat + clzWord a = 63 := by
  have hlt : Nat.log2 a.toNat < 64 := (Nat.log2_lt (by simpa using BitVec.toNat_ne.mp h)).mpr a.isLt
  rw [clzWord, if_neg h]
  omega

/-- All bits above the count are 0. -/
theorem toNat_lt_two_pow_clzWord (a : Word) : a.toNat < 2 ^ (64 - clzWord a) := by
  by_cases h : a = 0
  · subst h
    exact Nat.two_pow_pos _
  · rw [show 64 - clzWord a = Nat.log2 a.toNat + 1 by have := log2_add_clzWord a h; omega]
    exact Nat.lt_log2_self

/-- The bit below the counted ones is 1. -/
theorem two_pow_clzWord_le_toNat (a : Word) (hlt : clzWord a < 64) : 2 ^ (63 - clzWord a) ≤ a.toNat := by
  have h : a ≠ 0 := by
    rintro rfl
    simp [clzWord] at hlt
  rw [show 63 - clzWord a = Nat.log2 a.toNat by have := log2_add_clzWord a h; omega]
  exact Nat.log2_self_le (by simpa using BitVec.toNat_ne.mp h)

/-- The search for the lowest set bit: it finds none, or the place of one below which no bit is set. -/
theorem ctzWord_cases (a : Word) : (ctzWord a = 64 ∧ ∀ i, i < 64 → a.getLsbD i = false)
    ∨ (ctzWord a < 64 ∧ a.getLsbD (ctzWord a) = true ∧ ∀ i, i < ctzWord a → a.getLsbD i = false) := by
  unfold ctzWord
  cases hf : (List.range 64).find? (fun i => a.getLsbD i) with
  | none =>
    left
    simpa using hf
  | some n =>
    right
    obtain ⟨hn, hmem, hlow⟩ := List.find?_range_eq_some.mp hf
    exact ⟨by simpa using hmem, hn, by simpa using hlow⟩

theorem ctzWord_le (a : Word) : ctzWord a ≤ 64 := by
  rcases ctzWord_cases a with ⟨h, _⟩ | ⟨h, _⟩ <;> omega

theorem getLsbD_of_lt_ctzWord (a : Word) (i : Nat) (hi : i < ctzWord a) : a.getLsbD i = false := by
  rcases ctzWord_cases a with ⟨h, hall⟩ | ⟨_, _, hlow⟩
  · exact hall i (h ▸ hi)
  · exact hlow i hi

theorem getLsbD_ctzWord (a : Word) (hlt : ctzWord a < 64) : a.getLsbD (ctzWord a) = true := by
  rcases ctzWord_cases a with ⟨h, _⟩ | ⟨_, hset, _⟩
  · omega
  · exact hset

theorem popCount_toNat (a : Word) : popCount 64 a.toNat = ((List.range 64).filter (fun i => a.getLsbD i)).length :=
  List.countP_eq_length_filter

/-! ## Bit fields (R114) -/

theorem getLsbD_bfxWord (a b : Word) (i : Nat) (hi : i < 64) :
    (bfxWord a b).getLsbD i = (decide (i < fieldLen b) && a.getLsbD (fieldPos b + i)) := by
  rw [bfxWord, BitVec.getLsbD_ofNat, Nat.testBit_mod_two_pow, Nat.testBit_div_two_pow, BitVec.testBit_toNat,
    Nat.add_comm i]
  simp [hi]

theorem getLsbD_bfiWord (old a b : Word) (i : Nat) (hi : i < 64) : (bfiWord old a b).getLsbD i =
    if fieldPos b ≤ i ∧ i < fieldPos b + fieldLen b then a.getLsbD (i - fieldPos b) else old.getLsbD i := by
  have hmask : (BitVec.ofNat 64 ((2 ^ fieldLen b - 1) * 2 ^ fieldPos b)).getLsbD i
      = decide (fieldPos b ≤ i ∧ i < fieldPos b + fieldLen b) := by
    rw [BitVec.getLsbD_ofNat, Nat.testBit_mul_two_pow, Nat.testBit_two_pow_sub_one, Bool.decide_and]
    by_cases hp : fieldPos b ≤ i
    · simp only [hi, hp, decide_true, Bool.true_and, decide_eq_decide]
      omega
    · simp [hp]
  simp only [bfiWord, BitVec.getLsbD_or, BitVec.getLsbD_and, BitVec.getLsbD_not, BitVec.getLsbD_shiftLeft, hmask]
  by_cases hf : fieldPos b ≤ i ∧ i < fieldPos b + fieldLen b
  · simp [hf, hi]
  · simp [hf, hi]

theorem funnel_eq_ofNat (a b : Word) (n : Nat) :
    ((a ++ b) >>> n).setWidth 64 = BitVec.ofNat 64 ((a.toNat * 2 ^ 64 + b.toNat) / 2 ^ n) := by
  apply BitVec.eq_of_toNat_eq
  rw [BitVec.toNat_setWidth, BitVec.toNat_ushiftRight, BitVec.toNat_append, BitVec.toNat_ofNat, Nat.shiftRight_eq_div_pow,
    ← Nat.shiftLeft_add_eq_or_of_lt b.isLt, Nat.shiftLeft_eq]

/-! ## Shifts by a number (R113) -/

theorem shiftLeft_eq_ofNat (a : Word) (n : Nat) : a <<< n = BitVec.ofNat 64 (a.toNat * 2 ^ n) := by
  apply BitVec.eq_of_toNat_eq
  rw [BitVec.toNat_shiftLeft, BitVec.toNat_ofNat, Nat.shiftLeft_eq]

theorem ushiftRight_eq_ofNat (a : Word) (n : Nat) : a >>> n = BitVec.ofNat 64 (a.toNat / 2 ^ n) := by
  rw [← Nat.shiftRight_eq_div_pow, ← BitVec.toNat_ushiftRight, BitVec.ofNat_toNat, BitVec.setWidth_eq]

theorem sshiftRight_eq_ofInt (a : Word) (n : Nat) : a.sshiftRight n = BitVec.ofInt 64 (a.toInt / 2 ^ n) := by
  rw [BitVec.sshiftRight, Int.shiftRight_eq_div_pow]
  norm_cast

/-! ## Sign-extended immediates (R116, R117) -/

section Immediates

variable {w : Nat} (k : BitVec w)

theorem signExtend_eq_ofInt : k.signExtend 64 = BitVec.ofInt 64 k.toInt := rfl

theorem add_signExtend_eq_ofInt (a : Word) : a + k.signExtend 64 = BitVec.ofInt 64 (a.toInt + k.toInt) := by
  rw [BitVec.ofInt_add, BitVec.ofInt_toInt, signExtend_eq_ofInt]

theorem signExtend_shiftLeft_eq_ofInt (n : Nat) : k.signExtend 64 <<< n = BitVec.ofInt 64 (k.toInt * 2 ^ n) := by
  have hpow : BitVec.ofInt 64 (2 ^ n) = BitVec.twoPow 64 n := by
    apply BitVec.eq_of_toNat_eq
    rw [BitVec.toNat_twoPow, ← BitVec.toNat_ofNat, ← BitVec.ofInt_natCast]
    norm_cast
  rw [BitVec.ofInt_mul, hpow, BitVec.shiftLeft_eq_mul_twoPow, signExtend_eq_ofInt]

/-- R117: the word at a number of scaled units from another, as `lpc` takes it. -/
theorem add_signExtend_shiftLeft_eq_ofInt (a : Word) (n : Nat) :
    a + k.signExtend 64 <<< n = BitVec.ofInt 64 (a.toInt + k.toInt * 2 ^ n) := by
  rw [signExtend_shiftLeft_eq_ofInt, BitVec.ofInt_add, BitVec.ofInt_toInt]

theorem boolWord_slt_signExtend (a : Word) (hw : w ≤ 64) :
    boolWord (a.slt (k.signExtend 64)) = if a.toInt < k.toInt then 1 else 0 := by
  simp [boolWord, BitVec.slt, BitVec.toInt_signExtend_of_le hw]

theorem boolWord_ult (a b : Word) : boolWord (a.ult b) = if a.toNat < b.toNat then 1 else 0 := by
  simp [boolWord, BitVec.ult]

end Immediates

/-! ## The obligation -/

/-- Settles O9: each instruction is the scalar write of the model's word for it, and the lemmas above say what that word is. -/
theorem scalarCountsFieldsAndImmediates : Obligations.ScalarCountsFieldsAndImmediates := by
  unfold Obligations.ScalarCountsFieldsAndImmediates
  refine ⟨fun s d a h => ⟨?clz, ?ctz, ?popc⟩, fun s d a b sh k j h =>
    ⟨?bfx, ?bfi, ?fsh, ?slli, ?srli, ?srai, ?addi, ?andi, ?ori, ?xori, ?slti, ?sltiu, ?lui, ?lpc⟩⟩
  case clz =>
    exact ⟨_, s.writesX_of_scalar h rfl rfl, clzWord_le _, toNat_lt_two_pow_clzWord _, two_pow_clzWord_le_toNat _⟩
  case ctz =>
    exact ⟨_, s.writesX_of_scalar h rfl rfl, ctzWord_le _, getLsbD_of_lt_ctzWord _, getLsbD_ctzWord _⟩
  case popc => exact s.writesX_of_scalar h rfl (congrArg _ (popCount_toNat _))
  case bfx => exact ⟨_, s.writesX_of_scalar h rfl rfl, getLsbD_bfxWord _ _⟩
  case bfi => exact ⟨_, s.writesX_of_scalar h rfl rfl, getLsbD_bfiWord _ _ _⟩
  case fsh => exact s.writesX_of_scalar h rfl (funnel_eq_ofNat _ _ _)
  case slli => exact s.writesX_of_scalar h rfl (shiftLeft_eq_ofNat _ _)
  case srli => exact s.writesX_of_scalar h rfl (ushiftRight_eq_ofNat _ _)
  case srai => exact s.writesX_of_scalar h rfl (sshiftRight_eq_ofInt _ _)
  case addi => exact s.writesX_of_scalar h rfl (add_signExtend_eq_ofInt _ _)
  case andi => exact s.writesX_of_scalar h rfl (congrArg _ (signExtend_eq_ofInt k))
  case ori => exact s.writesX_of_scalar h rfl (congrArg _ (signExtend_eq_ofInt k))
  case xori => exact s.writesX_of_scalar h rfl (congrArg _ (signExtend_eq_ofInt k))
  case slti => exact s.writesX_of_scalar h rfl (boolWord_slt_signExtend _ _ (by decide))
  case sltiu => exact s.writesX_of_scalar h rfl (boolWord_ult _ _)
  case lui => exact s.writesX_of_scalar h rfl (signExtend_shiftLeft_eq_ofInt j 12)
  case lpc => exact s.writesX_of_scalar h rfl (add_signExtend_shiftLeft_eq_ofInt j _ 2)

end Sys2Proof.Machine
end

section
/-! Integer reductions (R170): elements under an integer operation tag, the active elements in increasing order, and the
fold of them into the seed. -/

namespace Sys2Proof.Machine

/-! ## Integer operation tags (R144, R146) -/

/-- Integer tags are those of the first eight codes. -/
theorem Core.isInt_kind (c : Core) (t : Nat) : (c.kind t).isInt = true ↔ tagCode t < 8 := by
  unfold Core.kind
  simp only
  repeat' split
  all_goals simp [Kind.isInt]
  all_goals omega

theorem tagCode_lt (t : Nat) : tagCode t < 64 := by
  unfold tagCode
  simp only
  repeat' split
  all_goals omega

theorem tagCode_of_lt {t : Nat} (h : t < 64) : tagCode t = t := by
  simp [tagCode, Nat.mod_eq_of_lt h, Nat.div_eq_of_lt h]

theorem standFor_lt_eight {c : Nat} : standFor c < 8 ↔ c < 8 := by
  unfold standFor
  repeat' split
  all_goals omega

theorem standFor_lt {c : Nat} (h : c < 64) : standFor c < 64 := by
  unfold standFor
  repeat' split
  all_goals omega

/-- R146: two tags give an integer operation tag only where both are integers; it is the first of them or a code. -/
theorem opTag2_int {p q t : Nat} (h : opTag2 p q = some t) (ht : tagCode t < 8) :
    tagCode p < 8 ∧ tagCode q < 8 ∧ (t = p ∨ t < 8) := by
  have hcode : ∀ {u}, t = u → u < 64 → u < 8 := fun hu h64 => by rwa [hu, tagCode_of_lt h64] at ht
  have ha := standFor_lt (tagCode_lt p)
  have hb := standFor_lt (tagCode_lt q)
  have hp := tagCode_lt p
  simp only [opTag2] at h
  split at h
  case isTrue hpq =>
    cases h
    exact ⟨ht, hpq ▸ ht, .inl rfl⟩
  split at h
  case isTrue hab =>
    cases h
    have := hcode rfl (tagCode_lt p)
    exact ⟨this, hab ▸ this, .inr this⟩
  split at h
  case isTrue => cases h
  rw [← standFor_lt_eight, ← standFor_lt_eight (c := tagCode q)]
  generalize standFor (tagCode p) = a at *
  generalize standFor (tagCode q) = b at *
  split at h
  case isTrue hab =>
    cases h
    have := hcode rfl ha
    exact ⟨this, hab ▸ this, .inr this⟩
  split at h
  case isTrue hints =>
    cases h
    simp only [Bool.and_eq_true, decide_eq_true_eq] at hints
    refine ⟨hints.1, hints.2, .inr (hcode rfl ?_)⟩
    simp only [Nat.max_def]
    split <;> split <;> omega
  case isFalse hints =>
    -- One of the two is a float: so is the operation tag, which is that one, f32 or f64.
    exfalso
    simp only [Bool.and_eq_true, decide_eq_true_eq] at hints h
    repeat' split at h
    all_goals cases h
    all_goals have := hcode rfl (by omega)
    all_goals omega

/-! ## Elements of a source (R146) -/

theorem Kind.exists_int {k : Kind} (h : k.isInt = true) : ∃ s w, k = .int s w := by
  cases k with
  | int s w => exact ⟨s, w, rfl⟩
  | flt | bit | bs | none => cases h

theorem wrapTo_lt (w : Nat) (x : Int) : wrapTo w x < 2 ^ w := by
  have hlt := Int.emod_lt_of_pos x (Int.natCast_pos.mpr (Nat.two_pow_pos w))
  have hnn := Int.emod_nonneg x (Int.natCast_ne_zero.mpr (Nat.ne_of_gt (Nat.two_pow_pos w)))
  unfold wrapTo
  omega

/-- An integer element under an integer operation tag has that tag's width. -/
theorem Source.elem_lt (v : Source) {op : Kind} (same : Bool) (rm : Rounding) (d i : Nat) (hv : v.kind.isInt = true)
    (hop : op.isInt = true) (hs : same = true → v.kind = op) : (v.elem same op rm d i).bits < 2 ^ op.width := by
  unfold Source.elem
  split
  case isTrue h =>
    rw [hs h]
    exact elemOf_lt _ _ _
  case isFalse =>
    obtain ⟨_, _, hk⟩ := Kind.exists_int hv
    obtain ⟨_, _, rfl⟩ := Kind.exists_int hop
    rw [hk]
    exact wrapTo_lt _ _

/-- Under an integer operation tag of two sources both are integers, so that their elements have its width (R146). -/
theorem State.ready_int_operands {s : State} {c tag : Nat} {regs : List Reg} {a b : Reg} {masks : Bool}
    (h : s.ready c regs [a, b] masks tag Kind.isInt) :
    opTag [s.me.tag a.toNat, s.me.tag b.toNat] = some tag ∧ tag < 256
      ∧ ∀ r ∈ [a, b], ∀ e, s.operand r tag e < 2 ^ (s.myCore.kind tag).width := by
  obtain ⟨_, _, _, _, hop, hint, _⟩ := h
  obtain ⟨hp, hq, ht⟩ := opTag2_int hop ((Core.isInt_kind _ _).mp hint)
  have hbyte : tag < 256 := ht.elim (fun h => h ▸ s.me.tag_lt a.toNat) (by omega)
  refine ⟨hop, hbyte, fun r hr e => Source.elem_lt _ _ _ _ _ ?_ hint ?_⟩
  · rw [State.source, Core.isInt_kind]
    simp only [List.mem_cons, List.not_mem_nil, or_false] at hr
    rcases hr with rfl | rfl <;> assumption
  · intro hs
    rw [← of_decide_eq_true hs, State.source]

/-! ## The active elements in increasing order (R149) -/

/-- The indices that act below a bound are those below any greater one that pass a test which includes the bound. -/
theorem activeList_eq_filter {bound n : Nat} {act p : Nat → Bool} (hle : bound ≤ n)
    (hp : ∀ e, p e = (decide (e < bound) && act e)) : activeList bound act = (List.range n).filter p := by
  obtain ⟨k, rfl⟩ := Nat.exists_eq_add_of_le hle
  have hlow : (List.range bound).filter p = activeList bound act :=
    List.filter_congr fun e he => by simp [hp, List.mem_range.mp he]
  have hhigh : ((List.range k).map (bound + ·)).filter p = [] := by
    refine List.filter_eq_nil_iff.mpr fun e he => ?_
    obtain ⟨j, _, rfl⟩ := List.mem_map.mp he
    rw [hp, decide_eq_false (Nat.not_lt.mpr (Nat.le_add_right bound j)), Bool.false_and]
    exact Bool.false_ne_true
  rw [List.range_add, List.filter_append, hlow, hhigh, List.append_nil]

theorem Strand.lt_bound (st : Strand) (vl : Nat) (g : Governs) (e : Nat) :
    e < st.bound vl g ↔ e < vl ∧ e < st.sbound.toNat ∧ (g.masked = true → e < 2048) := by
  have hmin : ∀ x y, e < Nat.min x y ↔ e < x ∧ e < y := fun _ _ => Nat.lt_min
  unfold Strand.bound
  split
  case isTrue hg => simp [hg, hmin, Config.mlen]
  case isFalse hg => simp [hg, hmin]

theorem Strand.bound_le (st : Strand) (vl : Nat) (g : Governs) : st.bound vl g ≤ vl :=
  Nat.not_lt.mp fun h => absurd ((st.lt_bound vl g vl).mp h).1 (Nat.lt_irrefl vl)

theorem Governs.lets_iff (g : Governs) (e : Nat) :
    g.lets e = true ↔ (g.masked = true → e < 2048 ∧ g.bits.testBit e = true) := by
  cases hg : g.masked <;> simp [Governs.lets, hg, show Config.mlen = 2048 from rfl]

/-- The statements' words for an active element say what the model's bound and mask say. -/
theorem State.active_eq (s : State) (m : Reg) (w e : Nat) :
    s.active m w e = (decide (e < s.me.bound (s.me.vl w) (s.me.governs m)) && (s.me.governs m).lets e) := by
  have hvl : s.me.vl w = 16384 * s.me.vgrp / w := rfl
  rw [Bool.eq_iff_iff, Bool.and_eq_true, decide_eq_true_eq, Strand.lt_bound, Governs.lets_iff, State.active, hvl]
  by_cases hm : m = 31
  · rw [show s.me.governs m = ⟨false, 0⟩ from if_pos hm]
    simp [hm]
  · rw [show s.me.governs m = ⟨true, (s.me.getM m.toNat).toNat⟩ from if_neg hm]
    simp only [hm, Bool.and_eq_true, Bool.or_eq_true, decide_eq_true_eq, BitVec.testBit_toNat, false_or, true_imp_iff, and_assoc,
      and_self_left]

theorem State.activeList_eq (s : State) (m : Reg) (w : Nat) :
    activeList (s.me.bound (s.me.vl w) (s.me.governs m)) (s.me.governs m).lets
      = (List.range (16384 * s.me.vgrp / w)).filter fun e => s.active m w e :=
  activeList_eq_filter (s.me.bound_le _ _) (s.active_eq m w)

/-! ## Reductions (R170) -/

/-- R170: the active elements of a folded into element 0 of b, in increasing order. -/
def State.folded (s : State) (a b m : Reg) (tag : Nat) (op : Nat → Nat → Nat) : Nat :=
  let w := (s.myCore.kind tag).width
  ((List.range (16384 * s.me.vgrp / w)).filter fun e => s.active m w e).foldl (fun acc e => op acc (s.operand a tag e))
    (s.operand b tag 0)

/-- It is the fold that the model computes. -/
theorem State.foldl_activeList (s : State) (a b m : Reg) (tag : Nat) (op : Nat → Nat → Nat) :
    let k := s.myCore.kind tag
    (activeList (s.me.bound (s.me.vl k.width) (s.me.governs m)) (s.me.governs m).lets).foldl
        (fun acc i => op acc ((s.source a).elem (s.me.tag a.toNat = tag) k .rne 0 i).bits)
        ((s.source b).elem (s.me.tag b.toNat = tag) k .rne 0 0).bits
      = s.folded a b m tag op := by
  intro k
  rw [s.activeList_eq]
  rfl

/-- A fold of elements by an operation on elements is an element. -/
theorem State.folded_lt {s : State} {a b m : Reg} {tag : Nat} {op : Nat → Nat → Nat} {n : Nat}
    (hel : ∀ r ∈ [a, b], ∀ e, s.operand r tag e < n) (hop : ∀ x y, x < n → y < n → op x y < n) :
    s.folded a b m tag op < n :=
  List.foldlRecOn (motive := (· < n)) _ _ (hel b (by simp) 0) fun x hx e _ => hop x _ hx (hel a (by simp) e)

/-- Element 0 alone lies in the first register of its group. -/
theorem touches_first {w : Nat} (hw : 0 < Config.vmax / w) :
    touches w 1 (fun _ => true) = fun j => decide (j = 0) := by
  funext j
  rw [Bool.eq_iff_iff, touches_iff, decide_eq_true_eq]
  constructor
  · rintro ⟨i, hi, _, hlt, _⟩
    have : Config.vmax / w * j = 0 := by omega
    exact (Nat.mul_eq_zero.mp this).resolve_left (Nat.ne_of_gt hw)
  · rintro rfl
    exact ⟨0, by simp, by simpa using hw, by decide, rfl⟩

/-- R170: a reduction by an operation on elements writes element 0 of d, whatever the mask and `sbound`, and raises nothing. -/
theorem State.reduce_outcome {s : State} {d a b m : Reg} {tag : Nat} (i : Instr) (f : Bool → Nat → Nat → Nat → Nat)
    (h : s.ready 2 [d, a, b] [a, b] (m ≠ 31) tag Kind.isInt)
    (hf : let k := s.myCore.kind tag
      ∀ x y, x < 2 ^ k.width → y < 2 ^ k.width → f k.signed k.width x y < 2 ^ k.width) :
    let k := s.myCore.kind tag
    s.vectorOutcome (s.reduce i d a b m f) d tag k.width true fun e =>
      if e = 0 then some (s.folded a b m tag (f k.signed k.width)) else none := by
  have hctl : s.me.controlOk := h.1
  obtain ⟨hop, ht, hel⟩ := State.ready_int_operands h
  have hgate := s.gate_open i 2 [d] [a, b] [d, a, b] _ _ _ _ _ h (by simp) (by simp)
  have htag := s.tagTrap_open i 2 _ _ _ _ _ h [s.me.tag a.toNat, s.me.tag b.toNat] (by simp)
  have hfold := State.folded_lt (m := m) hel hf
  obtain ⟨n, hn, hw⟩ := Kind.width_pow s.myCore tag
  have hmerge := s.merge_outcome d tag n 1 (fun _ => true)
    (fun _ => s.folded a b m tag (f (s.myCore.kind tag).signed (s.myCore.kind tag).width)) 0 hctl hn ht
  simp only [List.map_cons, List.map_nil] at hgate
  simp only [State.reduce, hgate, State.orTrap, hop, htag, Option.getD_some, s.foldl_activeList]
  rw [← hw, touches_first] at hmerge
  · simpa only [Nat.lt_one_iff, and_true, Nat.mod_eq_of_lt hfold, decide_true] using hmerge
  · rw [hw]
    have := Nat.pow_le_pow_right (n := 2) (by decide) hn
    exact Nat.div_pos (by simp only [Config.vmax]; omega) (Nat.two_pow_pos n)

/-- The lesser of two elements, by their values under the tag. -/
theorem lesser_eq (signed : Bool) (w : Nat) : lesser signed w = fun x y =>
    if (if signed then toSigned w x else x) ≤ (if signed then toSigned w y else (y : Int)) then x else y := by
  funext x y
  cases signed
  case false => simp [lesser, Nat.min_def]
  case true => simp [lesser]

/-- The greater of two elements, by their values under the tag. -/
theorem greater_eq (signed : Bool) (w : Nat) : greater signed w = fun x y =>
    if (if signed then toSigned w x else x) ≤ (if signed then toSigned w y else (y : Int)) then y else x := by
  funext x y
  cases signed
  case false => simp [greater, Nat.max_def]
  case true => simp [greater]

/-- R170: what an instruction that `exec` performs as a reduction by `op` completes with. -/
theorem State.result_of_reduce {s : State} {i : Instr} {d a b m : Reg} {tag : Nat} {op : Nat → Nat → Nat}
    (h : s.ready 2 [d, a, b] [a, b] (m ≠ 31) tag Kind.isInt) (f : Bool → Nat → Nat → Nat → Nat)
    (hi : exec i s = s.reduce i d a b m f) :
    let k := s.myCore.kind tag
    f k.signed k.width = op → (∀ x y, x < 2 ^ k.width → y < 2 ^ k.width → op x y < 2 ^ k.width) →
    s.vectorResult i d tag k.width true fun e => if e = 0 then some (s.folded a b m tag op) else none := by
  rintro k rfl hlt
  unfold State.vectorResult
  rw [hi]
  exact State.reduce_outcome i f h hlt

/-- Settles O28: each instruction is the model's reduction by an operation on elements of the tag's width. -/
theorem vectorReductions : Obligations.VectorReductions := by
  unfold Obligations.VectorReductions
  intro s d a b m ca cb tag k w V fold h
  simp only [List.forall_mem_cons]
  refine ⟨?vredsum, ?vredmin, ?vredmax, ?vredand, ?vredor, ?vredxor, List.forall_mem_nil _⟩
  case vredsum =>
    exact State.result_of_reduce h (fun _ w x y => (x + y) % 2 ^ w) rfl rfl fun x y _ _ => Nat.mod_lt _ (Nat.two_pow_pos w)
  case vredmin =>
    exact State.result_of_reduce h lesser rfl (lesser_eq _ _) fun x y hx hy =>
      iteInduction (motive := (· < 2 ^ w)) (fun _ => hx) fun _ => hy
  case vredmax =>
    exact State.result_of_reduce h greater rfl (greater_eq _ _) fun x y hx hy =>
      iteInduction (motive := (· < 2 ^ w)) (fun _ => hy) fun _ => hx
  case vredand => exact State.result_of_reduce h (fun _ _ x y => x &&& y) rfl rfl fun x y _ hy => Nat.and_lt_two_pow x hy
  case vredor => exact State.result_of_reduce h (fun _ _ x y => x ||| y) rfl rfl fun x y hx hy => Nat.or_lt_two_pow hx hy
  case vredxor => exact State.result_of_reduce h (fun _ _ x y => x ^^^ y) rfl rfl fun x y hx hy => Nat.xor_lt_two_pow hx hy

end Sys2Proof.Machine
end

section
/-! The order of keys (R179): where integers and floats lie in a linear order, and the model's insertion of indices by key,
which ranks them. -/

namespace Sys2Proof.Machine

/-! ## The order of keys (R179) -/

/-- Where a value lies by its class: a NaN lowest, then −∞, the finite values, +∞ (R179). -/
def Val.level : Val → Int
  | .nan _ _ _ => -2
  | .inf n => if n then -1 else 1
  | _ => 0

/-- A finite value in units of 2^(low − 1), and −0 one unit below +0 (R179). -/
def Val.amount (low : Int) : Val → Int
  | .zero n => if n then -1 else 0
  | .num n m e => (if n then -1 else 1) * (m * 2 ^ (e - low).toNat : Nat) * 2
  | _ => 0

/-- Value a lies above value b: by class, then by amount. -/
def Val.above (low : Int) (a b : Val) : Prop :=
  b.level < a.level ∨ b.level = a.level ∧ b.amount low < a.amount low

/-- A finite value that is not a zero has a mantissa, and its exponent is at least `low`. -/
def Val.atLeast (low : Int) : Val → Prop
  | .num _ m e => 0 < m ∧ low ≤ e
  | _ => True

/-- The least exponent of a format's values (R125, R127). -/
def Fmt.low (f : Fmt) : Int := 1 - (f.bias : Int) - f.mw

theorem Fmt.decode_atLeast (f : Fmt) (x : Nat) : (f.decode x).atLeast f.low := by
  unfold Fmt.decode Fmt.low
  simp only
  repeat' split
  all_goals simp only [Val.atLeast]
  · omega
  · have := Nat.two_pow_pos f.mw
    omega

/-- NaNs lie at one place, whatever their sign and payload (R179). -/
theorem Val.place_of_isNaN {v : Val} (low : Int) (h : v.isNaN = true) : v.level = -2 ∧ v.amount low = 0 := by
  cases v with
  | nan => exact ⟨rfl, rfl⟩
  | zero | num | inf => cases h

theorem Val.neg_one_le_level {v : Val} (h : v.isNaN = false) : -1 ≤ v.level := by
  cases v with
  | nan => cases h
  | inf n =>
    cases n
    · exact (by decide : (-1 : Int) ≤ 1)
    · exact Int.le_refl (-1)
  | zero | num => exact (by decide : (-1 : Int) ≤ 0)

/-- A NaN lies above nothing. -/
theorem Val.not_above_of_isNaN {low : Int} {a b : Val} (ha : a.isNaN = true) : ¬ a.above low b := by
  have hplace := Val.place_of_isNaN low ha
  rw [Val.above]
  cases hb : b.isNaN
  case true =>
    have hplace' := Val.place_of_isNaN low hb
    omega
  case false =>
    have hlevel := Val.neg_one_le_level hb
    omega

/-- What is no NaN lies above every NaN. -/
theorem Val.above_of_isNaN {low : Int} {a b : Val} (ha : a.isNaN = false) (hb : b.isNaN = true) : a.above low b := by
  have hlevel := Val.neg_one_le_level ha
  have hplace := Val.place_of_isNaN low hb
  rw [Val.above]
  omega

theorem Val.amount_zero (low : Int) (n : Bool) : -1 ≤ (Val.zero n).amount low ∧ (Val.zero n).amount low ≤ 0 := by
  cases n
  · exact ⟨(by decide : (-1 : Int) ≤ 0), Int.le_refl 0⟩
  · exact ⟨Int.le_refl (-1), (by decide : (-1 : Int) ≤ 0)⟩

theorem Val.amount_pos {low e : Int} {m : Nat} (h : (Val.num false m e).atLeast low) : 0 < (Val.num false m e).amount low := by
  have hpos := Nat.mul_pos h.1 (Nat.two_pow_pos (e - low).toNat)
  simp only [Val.amount, Bool.false_eq_true, if_false]
  omega

theorem Val.amount_neg {low e : Int} {m : Nat} (h : (Val.num true m e).atLeast low) : (Val.num true m e).amount low < -1 := by
  have hpos := Nat.mul_pos h.1 (Nat.two_pow_pos (e - low).toNat)
  simp only [Val.amount, if_true]
  omega

/-- A number in units of a power of two that lies between. -/
theorem Val.scaled_eq_amount {low mid e : Int} (n : Bool) (m : Nat) (hlow : low ≤ mid) (hmid : mid ≤ e) :
    (if n then -1 else 1) * (m * 2 ^ (e - mid).toNat : Nat) * ((2 ^ (mid - low).toNat * 2 : Nat) : Int)
      = (Val.num n m e).amount low := by
  have hexp : (e - low).toNat = (e - mid).toNat + (mid - low).toNat := by omega
  rw [Val.amount, hexp, Nat.pow_add]
  simp only [Int.natCast_mul, Int.mul_assoc]
  rfl

/-- Two numbers compare as their amounts. -/
theorem Val.compare_num {low : Int} {n n' : Bool} {m m' : Nat} {e e' : Int} (h : (Val.num n m e).atLeast low)
    (h' : (Val.num n' m' e').atLeast low) :
    0 < (Val.num n m e).compare (.num n' m' e') ↔ (Val.num n' m' e').amount low < (Val.num n m e).amount low := by
  have hsign : ∀ x y : Int, 0 < (if x < y then -1 else if y < x then 1 else 0 : Int) ↔ y < x := by
    intro x y
    split
    · omega
    · split <;> omega
  obtain ⟨hlow, he, he'⟩ : low ≤ (if e ≤ e' then e else e') ∧ (if e ≤ e' then e else e') ≤ e ∧ (if e ≤ e' then e else e') ≤ e' := by
    have := h.2
    have := h'.2
    split <;> omega
  have hunit : (0 : Int) < ((2 ^ ((if e ≤ e' then e else e') - low).toNat * 2 : Nat) : Int) :=
    Int.natCast_pos.mpr (Nat.mul_pos (Nat.two_pow_pos _) (by decide))
  rw [Val.compare, hsign, ← Val.scaled_eq_amount n m hlow he, ← Val.scaled_eq_amount n' m' hlow he', Int.mul_lt_mul_right hunit]

/-- R179: of two values that are no NaN the greater lies above. -/
theorem Val.compareSigned_pos {low : Int} {a b : Val} (ha : a.atLeast low) (hb : b.atLeast low) (hna : a.isNaN = false)
    (hnb : b.isNaN = false) : 0 < a.compareSigned b ↔ a.above low b := by
  rw [Val.above]
  cases a with
  | nan => cases hna
  | inf n =>
    cases b with
    | nan => cases hnb
    | inf n' => cases n <;> cases n' <;> simp [Val.compareSigned, Val.compare, Val.level, Val.amount]
    | zero | num => cases n <;> simp [Val.compareSigned, Val.compare, Val.level]
  | zero n =>
    cases b with
    | nan => cases hnb
    | inf n' => cases n' <;> simp [Val.compareSigned, Val.compare, Val.level]
    | zero n' => cases n <;> cases n' <;> simp [Val.compareSigned, Val.compare, Val.level, Val.amount]
    | num n' m' e' =>
      obtain ⟨hleast, hmost⟩ := Val.amount_zero low n
      cases n' with
      | false =>
        have hpos := Val.amount_pos hb
        change (0 : Int) < -1 ↔ (0 : Int) < 0 ∨ (0 : Int) = 0 ∧ _ < _
        omega
      | true =>
        have hneg := Val.amount_neg hb
        change (0 : Int) < 1 ↔ (0 : Int) < 0 ∨ (0 : Int) = 0 ∧ _ < _
        omega
  | num n m e =>
    cases b with
    | nan => cases hnb
    | inf n' => cases n' <;> simp [Val.compareSigned, Val.compare, Val.level]
    | zero n' =>
      obtain ⟨hleast, hmost⟩ := Val.amount_zero low n'
      cases n with
      | false =>
        have hpos := Val.amount_pos ha
        change (0 : Int) < 1 ↔ (0 : Int) < 0 ∨ (0 : Int) = 0 ∧ _ < _
        omega
      | true =>
        have hneg := Val.amount_neg ha
        change (0 : Int) < -1 ↔ (0 : Int) < 0 ∨ (0 : Int) = 0 ∧ _ < _
        omega
    | num n' m' e' =>
      have hsame : ∀ c : Int, (if c ≠ 0 then c else 0) = c := by intro c; split <;> omega
      simp [Val.compareSigned, hsame, Val.compare_num ha hb, Val.level]

/-- R179: float keys rank as the values that they decode to, every NaN below the rest. -/
theorem keyAbove_flt (f : Fmt) (x y : Nat) : keyAbove (.flt f) x y = true ↔ (f.decode x).above f.low (f.decode y) := by
  have hdef : keyAbove (.flt f) x y = true ↔ (f.decode x).isNaN = false
      ∧ ((f.decode y).isNaN = true ∨ 0 < (f.decode x).compareSigned (f.decode y)) := by
    simp [keyAbove]
  rw [hdef]
  cases hx : (f.decode x).isNaN
  case true =>
    have hnot : ¬ (f.decode x).above f.low (f.decode y) := Val.not_above_of_isNaN hx
    simp [hnot]
  case false =>
    cases hy : (f.decode y).isNaN
    case true =>
      have habove : (f.decode x).above f.low (f.decode y) := Val.above_of_isNaN hx hy
      simp [habove]
    case false => simp [Val.compareSigned_pos (f.decode_atLeast x) (f.decode_atLeast y) hx hy]

/-- R179: keys of a tag lie in a linear order, by a first number and then by a second. -/
theorem keyAbove_iff (k : Kind) : ∃ first second : Nat → Int, ∀ x y,
    keyAbove k x y = true ↔ first y < first x ∨ first y = first x ∧ second y < second x := by
  have hnat : (∀ x y, keyAbove k x y = decide (y < x)) → ∃ first second : Nat → Int, ∀ x y,
      keyAbove k x y = true ↔ first y < first x ∨ first y = first x ∧ second y < second x :=
    fun h => ⟨fun x => x, fun _ => 0, by simp [h]⟩
  cases k with
  | flt f => exact ⟨fun x => (f.decode x).level, fun x => (f.decode x).amount f.low, keyAbove_flt f⟩
  | int signed w =>
    cases signed with
    | true => exact ⟨toSigned w, fun _ => 0, by simp [keyAbove]⟩
    | false => exact hnat fun _ _ => rfl
  | bit | bs | none => exact hnat fun _ _ => rfl

/-! ## Ranking (R179) -/

section Ranking

variable (k : Kind) (key : Nat → Nat)

/-- Index i ranks before index j: its key is above, or neither is and its index is lower (R179). -/
def ranksBefore (i j : Nat) : Prop :=
  keyAbove k (key i) (key j) = true ∨ (keyAbove k (key j) (key i) = false ∧ i < j)

theorem insertKey_perm (i : Nat) (l : List Nat) : (insertKey k key i l).Perm (i :: l) := by
  induction l with
  | nil => exact List.Perm.refl _
  | cons j l ih =>
    rw [insertKey]
    split
    · exact (ih.cons j).trans (List.Perm.swap i j l)
    · exact List.Perm.refl _

theorem rankKeys_perm (idx : List Nat) : (rankKeys k key idx).Perm idx := by
  induction idx with
  | nil => exact List.Perm.nil
  | cons i idx ih => exact (insertKey_perm k key i _).trans (ih.cons i)

variable {k key}

/-- What ranks after an index whose key is not above that of i has no key above it either. -/
theorem keyAbove_eq_false_of_ranksBefore {i j x : Nat} (hij : keyAbove k (key j) (key i) = false) (hjx : ranksBefore k key j x) :
    keyAbove k (key x) (key i) = false := by
  obtain ⟨first, second, hp⟩ := keyAbove_iff k
  simp only [ranksBefore, ← Bool.not_eq_true, hp] at *
  omega

/-- Insertion of an index below all the others keeps the ranking. -/
theorem insertKey_ranked {i : Nat} {l : List Nat} (hi : ∀ j ∈ l, i < j) (hl : l.Pairwise (ranksBefore k key)) :
    (insertKey k key i l).Pairwise (ranksBefore k key) := by
  induction l with
  | nil => exact List.pairwise_singleton _ _
  | cons j l ih =>
    obtain ⟨hij, hil⟩ := List.forall_mem_cons.mp hi
    obtain ⟨hj, hl'⟩ := List.pairwise_cons.mp hl
    rw [insertKey]
    split
    case isTrue habove =>
      refine List.pairwise_cons.mpr ⟨fun x hx => ?_, ih hil hl'⟩
      rcases List.mem_cons.mp ((insertKey_perm k key i l).mem_iff.mp hx) with rfl | hx
      · exact .inl habove
      · exact hj x hx
    case isFalse hnot =>
      have hnot := Bool.not_eq_true _ ▸ hnot
      refine List.pairwise_cons.mpr ⟨List.forall_mem_cons.mpr ⟨.inr ⟨hnot, hij⟩, fun x hx => ?_⟩, hl⟩
      exact .inr ⟨keyAbove_eq_false_of_ranksBefore hnot (hj x hx), hil x hx⟩

/-- R179: indices that were given in increasing order are ranked by key, equal keys by the lower index. -/
theorem rankKeys_ranked {idx : List Nat} (h : idx.Pairwise (· < ·)) :
    (rankKeys k key idx).Pairwise (ranksBefore k key) := by
  induction idx with
  | nil => exact List.Pairwise.nil
  | cons i idx ih =>
    obtain ⟨hi, h⟩ := List.pairwise_cons.mp h
    exact insertKey_ranked (fun j hj => hi j ((rankKeys_perm k key idx).mem_iff.mp hj)) (ih h)

end Ranking

end Sys2Proof.Machine
end

section
/-! Index sets (R159, R179 to R181): what an instruction that writes a mask leaves, the masks of `mfromidx`, `visect` and
`vconf`, and the register of indices into which `vtopk` writes its ranking. -/

namespace Sys2Proof.Machine

/-! ## Completion without a condition -/

/-- With no condition raised the strand's data are the new ones, but for `vstart` (R152). -/
theorem State.finishVector_data (s : State) (st : Strand) :
    (s.finishVector st 0).me.data = ({ st with vstart := 0 } : Strand).data := by
  rw [State.finishVector, (State.finish_spec s _ 0).1]
  simp [Strand.data]

theorem State.finishVector_onlyMe (s : State) (st : Strand) (fl : Flags) : s.onlyMe (s.finishVector st fl) :=
  (State.finish_spec s _ fl).2

/-- The tag of the one source is the operation tag (R146). -/
theorem State.ready_tag {s : State} {c tag : Nat} {regs : List Reg} {a : Reg} {masks : Bool} {accept : Kind → Bool}
    (h : s.ready c regs [a] masks tag accept) : s.me.tag a.toNat = tag := by
  obtain ⟨_, _, _, _, hop, _⟩ := h
  simpa [opTag] using hop

/-- An instruction that reads one group and writes none passes its tests when it is ready. -/
theorem State.tests_open {s : State} {c tag : Nat} {a : Reg} {masks : Bool} {accept : Kind → Bool} (i : Instr)
    (h : s.ready c [a] [a] masks tag accept) :
    s.gate i c [] [s.grp a] [s.grp a] masks = none ∧ s.tagTrap i (some tag) accept [tag] = none :=
  ⟨s.gate_open i c [] [a] [a] _ _ _ _ _ h (by simp) (by simp),
    s.tagTrap_open i c _ _ _ _ _ h [tag] (by simp [State.ready_tag h])⟩

/-! ## Masks -/

/-- R156: an instruction that writes a mask and raises nothing leaves the mask's bits and nothing else. -/
theorem State.setM_outcome (s : State) (d : Reg) (w : MReg) (bit : Nat → Bool) (h : ∀ e, e < 2048 → w.getLsbD e = bit e) :
    s.maskOutcome (.next (s.finishVector (s.me.setM d.toNat w) 0)) d bit := by
  have hdata := s.finishVector_data (s.me.setM d.toNat w)
  have honly := s.finishVector_onlyMe (s.me.setM d.toNat w) 0
  generalize s.finishVector (s.me.setM d.toNat w) 0 = t at hdata honly
  have hm : t.me.m = (s.me.setM d.toNat w).m := (congrArg Strand.m hdata :)
  have hget : ∀ j, t.me.getM j = if j = d.toNat then w else s.me.getM j := fun j => by
    rw [← Strand.getM_setM, Strand.getM, Strand.getM, hm]
  refine ⟨t, rfl, fun e he => ?_, fun j hj => ?_, ?_, (congrArg Strand.vstart hdata :), honly⟩
  · rw [hget, if_pos rfl, h e he]
  · rw [hget, if_neg hj]
  · rw [hdata]
    rfl

theorem getLsbD_maskOf (bound : Nat) (act f : Nat → Bool) (e : Nat) (he : e < 2048) :
    (maskOf bound act f).getLsbD e = (decide (e < bound) && act e && f e) := by
  have hbit : ∀ g, Nat.testBit g e = decide (elemOf 1 g e = 1) := fun g => by
    rw [elemOf_eq, Nat.one_mul, Nat.pow_one, Nat.testBit_eq_decide_div_mod_eq]
  have hbound : e < Nat.min bound (2 ^ 11) ↔ e < bound :=
    ⟨fun h => (Nat.lt_min.mp h).1, fun h => Nat.lt_min.mpr ⟨h, he⟩⟩
  rw [maskOf, BitVec.getLsbD_ofNat, hbit, show Config.mlen = 2 ^ 11 from rfl, elemOf_mergeElems _ _ _ _ _ _ _ he]
  simp only [hbound, show e < 2048 from he, decide_true, Bool.true_and]
  by_cases hact : e < bound ∧ act e = true
  · rw [if_pos hact, decide_eq_true hact.1, hact.2]
    cases f e <;> rfl
  · have hfalse : (decide (e < bound) && act e) = false := by simpa using hact
    rw [if_neg hact, hfalse, Bool.false_and, elemOf_eq, Nat.zero_div]
    rfl

/-- The bits of a mask that are collected one by one from the elements whose value is an index (R159). -/
theorem testBit_foldl_index (V : Nat → Int) (l : List Nat) (acc j : Nat) (hj : j < 2048) :
    (l.foldl (fun acc i => if 0 ≤ V i && V i < Config.mlen then acc ||| 2 ^ (V i).toNat else acc) acc).testBit j
      = (acc.testBit j || l.any fun i => decide (V i = j)) := by
  have hmlen : (Config.mlen : Int) = 2048 := rfl
  induction l generalizing acc with
  | nil => rw [List.foldl_nil, List.any_nil, Bool.or_false]
  | cons i l ih =>
    rw [List.foldl_cons, ih, List.any_cons, ← Bool.or_assoc]
    congr 1
    split
    case isTrue h =>
      simp only [Bool.and_eq_true, decide_eq_true_eq] at h
      rw [Nat.testBit_or, Nat.testBit_two_pow]
      congr 1
      rw [decide_eq_decide]
      omega
    case isFalse h =>
      simp only [Bool.and_eq_true, decide_eq_true_eq] at h
      have hne : V i ≠ j := by omega
      rw [decide_eq_false hne, Bool.or_false]

/-- R161: elements are equal as numbers when their patterns are. -/
theorem indexElem_inj (k : Kind) (bits i j : Nat) :
    indexElem k bits i = indexElem k bits j ↔ elemOf k.width bits i = elemOf k.width bits j := by
  have hi := elemOf_lt k.width bits i
  have hj := elemOf_lt k.width bits j
  unfold indexElem toSigned
  have : ((2 ^ k.width : Nat) : Int) = 2 ^ k.width := by norm_cast
  split
  · split <;> split <;> omega
  · omega

/-- R159: bit j says whether an active element holds the index j. -/
theorem State.result_mfromidx {s : State} {d a m : Reg} {ca : Bool} {tag : Nat} (h : s.ready 1 [a] [a] true tag Kind.isInt) :
    let k := s.myCore.kind tag
    s.maskResult (.mfromidx d a m ca) d fun j => (List.range (16384 * s.me.vgrp / k.width)).any fun e =>
      s.active m k.width e && decide (indexElem k (s.me.group a.toNat s.me.vgrp) e = j) := by
  intro k
  have htag := State.ready_tag h
  obtain ⟨hgate, htrap⟩ := State.tests_open (.mfromidx d a m ca) h
  have hexec : exec (.mfromidx d a m ca) s = execMfromidx d a m ca s := rfl
  simp only [State.maskResult, hexec, execMfromidx, hgate, State.orTrap, htag, htrap]
  refine s.setM_outcome d _ _ fun j hj => ?_
  rw [s.activeList_eq, BitVec.getLsbD_ofNat, decide_eq_true hj, Bool.true_and]
  refine (testBit_foldl_index (indexElem k (s.me.group a.toNat s.me.vgrp)) _ 0 j hj).trans ?_
  rw [Nat.zero_testBit, Bool.false_or, List.any_filter]

/-- R180: bit e says that element e of a is active and b holds its value below n. -/
theorem State.result_visect {s : State} {d a b m : Reg} {ca cb : Bool} {tag : Nat}
    (h : s.ready 3 [a, b] [a, b] true tag Kind.isInt) :
    let w := (s.myCore.kind tag).width
    s.maskResult (.visect d a b m ca cb) d fun e => s.active m w e &&
      (List.range (min (16384 * s.me.vgrp / w) s.me.sbound.toNat)).any fun j => decide (s.operand b tag j = s.operand a tag e) := by
  intro w
  obtain ⟨hop, -⟩ := State.ready_int_operands h
  have hgate := s.gate_open (.visect d a b m ca cb) 3 [] [a, b] [a, b] _ _ _ _ _ h (by simp) (by simp)
  have htrap := s.tagTrap_open (.visect d a b m ca cb) 3 _ _ _ _ _ h [s.me.tag a.toNat, s.me.tag b.toNat] (by simp)
  simp only [List.map_cons, List.map_nil] at hgate
  have hexec : exec (.visect d a b m ca cb) s = execVisect d a b m ca cb s := rfl
  simp only [State.maskResult, hexec, execVisect, hgate, State.orTrap, hop, htrap, Option.getD_some]
  refine s.setM_outcome d _ _ fun e he => ?_
  rw [getLsbD_maskOf _ _ _ _ he, ← s.active_eq, List.contains_eq_any_beq, List.any_map]
  congr 2
  funext j
  change (s.operand a tag e == s.operand b tag j) = _
  rw [Bool.eq_iff_iff, beq_iff_eq, decide_eq_true_eq, eq_comm]

/-- Below an active element the mask alone decides what is active (R149). -/
theorem State.active_below {s : State} {m : Reg} {w e j : Nat} (h : s.active m w e = true) (hj : j < e) :
    s.active m w j = (s.me.governs m).lets j := by
  rw [s.active_eq, Bool.and_eq_true, decide_eq_true_eq] at h
  rw [s.active_eq, decide_eq_true (Nat.lt_trans hj h.1), Bool.true_and]

/-- R181: bit e says that element e is active and no active one below it holds its value. -/
theorem State.result_vconf {s : State} {d a m : Reg} {ca : Bool} {tag : Nat} (h : s.ready 3 [a] [a] true tag Kind.isInt) :
    let k := s.myCore.kind tag
    let V := indexElem k (s.me.group a.toNat s.me.vgrp)
    s.maskResult (.vconf d a m ca) d fun e => s.active m k.width e &&
      (List.range e).all fun j => !(s.active m k.width j && decide (V j = V e)) := by
  intro k V
  have htag := State.ready_tag h
  obtain ⟨hgate, htrap⟩ := State.tests_open (.vconf d a m ca) h
  have hexec : exec (.vconf d a m ca) s = execVconf d a m ca s := rfl
  simp only [State.maskResult, hexec, execVconf, hgate, State.orTrap, htag, htrap]
  refine s.setM_outcome d _ _ fun e he => ?_
  rw [getLsbD_maskOf _ _ _ _ he, ← s.active_eq]
  cases hact : s.active m k.width e
  · rw [Bool.false_and, Bool.false_and]
  · rw [Bool.true_and, Bool.true_and, List.not_any_eq_all_not]
    rw [Bool.eq_iff_iff, List.all_eq_true, List.all_eq_true]
    refine forall₂_congr fun j hj => ?_
    simp only [V, indexElem_inj, State.active_below hact (List.mem_range.mp hj)]
    rfl

/-! ## The largest keys (R179) -/

/-- One register partly overlaps no group that it is the whole of or lies apart from (R58). -/
theorem Group.partly_register {d first span : Nat} (h : span = 1 ∨ d < first ∨ first + span ≤ d) :
    Group.partly ⟨d, 1⟩ ⟨first, span⟩ = false := by
  simp only [Group.partly, Group.meets, Bool.and_eq_false_imp, Bool.and_eq_true, decide_eq_true_eq, decide_eq_false_iff_not, Decidable.not_not,
    Group.mk.injEq]
  omega

/-- A destination of one register that lies apart from the group of the source, or is the whole of it, passes the gate. -/
theorem State.gate_open_register {s : State} {b tag : Nat} {d a : Reg} {masks : Bool} {accept : Kind → Bool} (i : Instr)
    (h : s.ready b [a] [a] masks tag accept) (hd : s.me.vabs.getLsbD d.toNat = false)
    (hapart : s.me.vgrp = 1 ∨ d.toNat < a.toNat ∨ a.toNat + s.me.vgrp ≤ d.toNat) :
    s.gate i b [⟨d.toNat, 1⟩] [s.grp a] [⟨d.toNat, 1⟩, s.grp a] masks = none := by
  obtain ⟨-, hoff, hregs, hmask, -⟩ := h
  obtain ⟨halign, hpresent⟩ := hregs a (by simp)
  have habsent : s.me.absentTrap [⟨d.toNat, 1⟩, s.grp a] masks = none := by
    refine Strand.absentTrap_none _ _ _ ?_ hmask
    simp only [List.forall_mem_cons, List.not_mem_nil, false_implies, implies_true, and_true, State.grp]
    refine ⟨fun n h1 h2 => ?_, fun n h1 h2 => ?_⟩
    · rwa [show n = d.toNat by omega]
    · rw [show n = a.toNat + (n - a.toNat) by omega]
      exact hpresent _ (by omega)
  have hlegal : groupsIllegal [⟨d.toNat, 1⟩] [s.grp a] = false := by
    simp [groupsIllegal, Group.partly_register hapart, State.grp, halign, Nat.mod_one]
  simp [State.gate, hlegal, State.classTrap_none s [b] (by simpa using hoff), habsent]

/-- A number that is put into a register keeps the elements that the register has. -/
theorem elemOf_toNat_ofNat {v w n j : Nat} (hv : w * n = v) (g : Nat) (hj : j < n) :
    elemOf w (BitVec.ofNat v g).toNat j = elemOf w g j := by
  rw [BitVec.toNat_ofNat, ← hv, elemOf_mod _ _ _ _ hj]

/-- R150: the first `count` n32 elements of a register are new, the others stay. -/
theorem elemOf_writtenRegister (st : Strand) (d count t : Nat) (f : Nat → Nat) (r : Nat) (hr : r < 512) :
    elemOf 32 ((st.setGroup d 1 (mergeElems 32 512 count (st.getV d).toNat (fun _ => true) f) t fun _ => 0 < count).getV d).toNat r
      = if r < count then f r % 2 ^ 32 else elemOf 32 (st.getV d).toNat r := by
  have hmerge := elemOf_mergeElems 32 9 count (st.getV d).toNat (fun _ => true) f r hr
  rw [Strand.getV_setGroup]
  by_cases hcount : 0 < count
  · simp only [and_true] at hmerge
    rw [if_pos ⟨Nat.le_refl d, Nat.lt_succ_self d, decide_eq_true hcount⟩, Nat.sub_self, Nat.mul_zero, Nat.shiftRight_zero,
      elemOf_toNat_ofNat (rfl : 32 * 512 = 16384) _ hr]
    exact hmerge
  · rw [if_neg fun h => hcount (of_decide_eq_true h.2.2), if_neg (by omega)]

/-- The issue tests of an instruction that also uses n32, whose class is 18 (R63, R147). -/
theorem State.tagTrap_open_n32 {s : State} {b tag : Nat} {regs srcs : List Reg} {masks : Bool} {accept : Kind → Bool} (i : Instr)
    (h : s.ready b regs srcs masks tag accept) (hn32 : s.offers 18) : s.tagTrap i (some tag) accept [tag, 6] = none := by
  obtain ⟨-, -, -, -, -, haccept, hoff⟩ := h
  have hclasses : ∀ c ∈ ([tag, 6] ++ [tag]).flatMap tagClasses, s.offers c := by
    have htag := hoff tag (by simp)
    have hsix : ∀ c ∈ tagClasses 6, s.offers c := by simpa [show tagClasses 6 = [18] from rfl] using hn32
    simp only [List.mem_flatMap]
    rintro c ⟨u, hu, hc⟩
    have hu : u = tag ∨ u = 6 ∨ u = tag := by simpa using hu
    rcases hu with rfl | rfl | rfl
    · exact htag c hc
    · exact hsix c hc
    · exact htag c hc
  simp only [State.tagTrap, haccept, if_true, State.classTrap_none s _ hclasses]

/-- The active indices of keys of a tag, ranked (R179). -/
def State.rankedKeys (s : State) (a m : Reg) (k : Kind) : List Nat :=
  rankKeys k (elemOf k.width (s.me.group a.toNat s.me.vgrp))
    ((List.range (16384 * s.me.vgrp / k.width)).filter fun e => s.active m k.width e)

/-- The strand after `vtopk` has written `count` indices of a ranking to register d (R179). -/
def Strand.writeRanking (st : Strand) (d : Reg) (count : Nat) (ranked : List Nat) : Strand :=
  st.setGroup d.toNat 1
    (mergeElems 32 512 count (st.getV d.toNat).toNat (fun _ => true) fun r => ranked.getD r 0xFFFFFFFF) 6 fun _ => 0 < count

/-- R179: `vtopk` completes with its ranking in d. -/
theorem State.exec_vtopk {s : State} {d a b m : Reg} {ca : Bool} {tag : Nat}
    (h : s.ready 3 [a] [a] (m ≠ 31) tag (fun k => k.isInt || k.isFloat)) (hn32 : s.offers 18)
    (hd : s.me.vabs.getLsbD d.toNat = false) (hapart : s.me.vgrp = 1 ∨ d.toNat < a.toNat ∨ a.toNat + s.me.vgrp ≤ d.toNat) :
    exec (.vtopk d a b m ca) s = .next (s.finishVector
      (s.me.writeRanking d (min (s.me.getX b).toNat 512) (s.rankedKeys a m (s.myCore.kind tag))) 0) := by
  have htag := State.ready_tag h
  have hgate := State.gate_open_register (.vtopk d a b m ca) h hd hapart
  have htrap := State.tagTrap_open_n32 (.vtopk d a b m ca) h hn32
  have hexec : exec (.vtopk d a b m ca) s = execVtopk d a b m ca s := rfl
  simp only [hexec, execVtopk, hgate, State.orTrap, htag, htrap, s.activeList_eq]
  rfl

theorem State.mem_rankedKeys (s : State) (a m : Reg) (k : Kind) (e : Nat) :
    e ∈ s.rankedKeys a m k ↔ s.active m k.width e = true := by
  have hlt : s.active m k.width e = true → e < 16384 * s.me.vgrp / k.width := by
    simp only [State.active, Bool.and_eq_true, decide_eq_true_eq]
    exact fun h => h.1.1
  rw [State.rankedKeys, (rankKeys_perm _ _ _).mem_iff, List.mem_filter, List.mem_range, and_iff_right_of_imp hlt]

theorem State.nodup_rankedKeys (s : State) (a m : Reg) (k : Kind) : (s.rankedKeys a m k).Nodup :=
  (rankKeys_perm _ _ _).nodup_iff.mpr (List.nodup_range.filter _)

theorem State.rankedKeys_ranked (s : State) (a m : Reg) (k : Kind) :
    (s.rankedKeys a m k).Pairwise (ranksBefore k (elemOf k.width (s.me.group a.toNat s.me.vgrp))) :=
  rankKeys_ranked (List.pairwise_lt_range.filter _)

/-- An index of a ranking is a word of 32 bits, as is the mark of a missing key. -/
theorem State.rankedKeys_getD_lt (s : State) (a m : Reg) (k : Kind) (r : Nat) :
    (s.rankedKeys a m k).getD r 0xFFFFFFFF < 2 ^ 32 := by
  rcases Nat.lt_or_ge r (s.rankedKeys a m k).length with hr | hr
  · have hact := (s.mem_rankedKeys a m k _).mp (List.getElem_mem hr)
    simp only [State.active, Bool.and_eq_true, decide_eq_true_eq] at hact
    rw [List.getD_eq_getElem?_getD, List.getElem?_eq_getElem hr, Option.getD_some]
    exact Nat.lt_trans hact.1.2 s.me.sbound.isLt
  · rw [List.getD_eq_getElem?_getD, List.getElem?_eq_none hr, Option.getD_none]
    decide

/-- What `vtopk` leaves: the ranking in the first elements of d, d's tag n32, and all else as before (R179). -/
theorem State.writeRanking_outcome (s : State) (d : Reg) (count : Nat) (ranked : List Nat)
    (hlt : ∀ r, ranked.getD r 0xFFFFFFFF < 2 ^ 32) :
    let t := s.finishVector (s.me.writeRanking d count ranked) 0
    (∀ r, r < 512 → elemOf 32 (t.me.getV d.toNat).toNat r =
        if r < count then ranked.getD r 0xFFFFFFFF else elemOf 32 (s.me.getV d.toNat).toNat r)
      ∧ (∀ r, t.me.tag r = if r = d.toNat then 6 else s.me.tag r) ∧ (∀ r, r ≠ d.toNat → t.me.getV r = s.me.getV r)
      ∧ ({ t.me.data with v := [], tags := [], dirty := 0, vstart := 0 } : Strand)
          = { s.me.data with v := [], tags := [], dirty := 0, vstart := 0 } ∧ s.onlyMe t := by
  intro t
  have hdata : t.me.data = ({ s.me.writeRanking d count ranked with vstart := 0 } : Strand).data := s.finishVector_data _
  have hv : t.me.v = (s.me.writeRanking d count ranked).v := (congrArg Strand.v hdata :)
  have htags : t.me.tags = (s.me.writeRanking d count ranked).tags := (congrArg Strand.tags hdata :)
  have hgetV : ∀ r, t.me.getV r = (s.me.writeRanking d count ranked).getV r := fun r => by simp only [Strand.getV, hv]
  refine ⟨fun r hr => ?_, fun r => ?_, fun r hr => ?_, ?_, s.finishVector_onlyMe _ 0⟩
  · rw [hgetV, Strand.writeRanking, elemOf_writtenRegister _ _ _ _ _ _ hr, Nat.mod_eq_of_lt (hlt r)]
  · rw [Strand.tag, htags, ← Strand.tag, Strand.writeRanking, Strand.tag_setGroup]
    by_cases hr : r = d.toNat
    · rw [if_pos (by omega), if_pos hr]
    · rw [if_neg (by omega), if_neg hr]
  · rw [hgetV, Strand.writeRanking, Strand.getV_setGroup, if_neg (by omega)]
  · have hrest := congrArg (fun st : Strand => ({ st.data with vstart := 0 } : Strand)) (Strand.setGroup_rest s.me d.toNat 1
      (mergeElems 32 512 count (s.me.getV d.toNat).toNat (fun _ => true) fun r => ranked.getD r 0xFFFFFFFF) 6 fun _ => 0 < count)
    rw [hdata]
    exact hrest

/-- Settles O30: three instructions write the mask that the statement names, and `vtopk` writes the model's ranking, which lists the
active indices in the order of their keys. -/
theorem indexSets : Obligations.IndexSets := by
  unfold Obligations.IndexSets
  intro s d a b m ca cb tag k w vl n V
  refine ⟨State.result_mfromidx, State.result_visect, State.result_vconf, fun h hn32 hd hapart => ?_⟩
  refine ⟨_, s.rankedKeys a m k, State.exec_vtopk h hn32 hd hapart, s.mem_rankedKeys a m k, s.nodup_rankedKeys a m k,
    s.rankedKeys_ranked a m k, s.writeRanking_outcome d _ _ fun r => s.rankedKeys_getD_lt a m k r⟩

end Sys2Proof.Machine
end
